-- ==== Sys2Proof/Word.lean ====
section
/-! DEFINITION. The words of the NFU: the 32-bit command word, the 64-bit word of an IEEE register,
the 8-bit character of a text buffer, and the six-bit cell that holds one digit value or one sign
token (10_state.md rules R21, R24, R26, R29). -/

namespace Sys2Proof

/-- A 32-bit word: `CMD`, `STATUS`, `ESTICKY` (10_state.md rules R29, R31, R32). -/
abbrev Word := BitVec 32

/-- The 64-bit word of an `F` register (10_state.md rule R24). -/
abbrev Word64 := BitVec 64

/-- An 8-bit character code (10_state.md rule R26). -/
abbrev Byte := BitVec 8

/-- The content of a `T` buffer, in reading order (20_memory.md rule R51). -/
abbrev Text := List Byte

/-- A six-bit cell: a digit value or a sign token of a Numeral (10_state.md rule R21). -/
abbrev Cell := Fin 64

/-- The cell that holds the natural number `v`; exact for every `v` below 64. -/
abbrev cell (v : Nat) : Cell := Fin.ofNat 64 v

/-- A bit string, most significant bit first (00_scope.md rule R12). -/
abbrev Bits := List Bool

end Sys2Proof
end

