-- ==== Sys2Proof/Config.lean ====
section
/-! DEFINITION. The configuration of the NFU (00_scope.md rule R10): the parameters the source fixes,
and the type of the four OPEN capacities (10_state.md rule R27). The parameters the spec itself
decides (`DIGITS`, `EMIN`, `EMAX`, `DEC_SHIFT`, `QNAN32`, `HEX_POINT`) are in Machine/Params.lean. -/

namespace Sys2Proof

/-- `RADIX_MIN`, fixed by the source (rule R10). -/
def radixMin : Nat := 2

/-- `RADIX_MAX`, fixed by the source (rule R10). -/
def radixMax : Nat := 35

/-- `FRACTION_PRECISION`: 8 digits, fixed by the source (rule R10). -/
def fractionPrecision : Nat := 8

/-- `PRECISION_NUMBER`: 10^8, fixed by the source (rules R10, R142). -/
def precisionNumber : Nat := 100000000

/-- The four OPEN capacities of rule R27, in digits, digits, sign tokens and characters. `none` is
the infinite capacity that rule R27 allows. No rule gives a value, so the model holds them in
`State.caps`, which no step writes (notes/assumptions/1.md). -/
structure Capacities where
  wcap : Option Nat
  fcap : Option Nat
  scap : Option Nat
  tcap : Option Nat
deriving DecidableEq, Repr

/-- Every capacity infinite, "in which case `CapacityExceeded` never occurs" (rule R27). -/
def Capacities.unbounded : Capacities := ⟨none, none, none, none⟩

/-- A capacity is infinite or at least 64 (rule R27). -/
def capAtLeast64 (cap : Option Nat) : Bool :=
  match cap with
  | none => true
  | some c => decide (64 ≤ c)

/-- The four capacities are as rule R27 says: "each at least 64". -/
def Capacities.wf (c : Capacities) : Bool :=
  capAtLeast64 c.wcap && capAtLeast64 c.fcap && capAtLeast64 c.scap && capAtLeast64 c.tcap

end Sys2Proof
end

