-- ==== Sys2Proof/Syntax.lean ====
section
/-! DEFINITION. The commands of the NFU, one constructor per row of spec/opcode_table.json
(30_encoding.md rules R71 to R82). A field that indexes `N0..N7` is a `Fin 8`, one that indexes
`F0..F3` a `Fin 4`, one that indexes `T0`, `T1` a `Fin 2` (rule R73): an index beyond its file cannot
be written. `log` is the `LOG` bit of the word, which has no architectural effect (10_state.md rule
R33); `std` is the `STD` bit on the three commands that may set it (rule R79). -/

namespace Sys2Proof

/-- One command of the NFU. -/
inductive Instr where
  /-- `PARSE.UNS Nd, Ts, radix`: parse a text as a UNSIGNED numeral (rule R93). -/
  | parseUns (log : Bool) (rd : Fin 8) (ts : Fin 2) (radix : BitVec 12)
  /-- `PARSE.SGN Nd, Ts, radix`: parse a text as a SIGNED numeral (rule R93). -/
  | parseSgn (log : Bool) (rd : Fin 8) (ts : Fin 2) (radix : BitVec 12)
  /-- `PARSE.SMR Nd, Ts, radix`: parse a text as a SIGN-MAGNITUDE numeral (rule R93). -/
  | parseSmr (log : Bool) (rd : Fin 8) (ts : Fin 2) (radix : BitVec 12)
  /-- `PARSE.OC Nd, Ts, radix`: parse a text as a ONE'S-COMPLEMENT numeral (rule R93). -/
  | parseOc (log : Bool) (rd : Fin 8) (ts : Fin 2) (radix : BitVec 12)
  /-- `PARSE.TC Nd, Ts, radix`: parse a text as a TWO'S-COMPLEMENT numeral (rule R93). -/
  | parseTc (log : Bool) (rd : Fin 8) (ts : Fin 2) (radix : BitVec 12)
  /-- `STDZ Nd, Ns` (rule R95). -/
  | stdz (log : Bool) (rd rs1 : Fin 8)
  /-- `PADW Nd, Ns, length` (rule R97). -/
  | padw (log : Bool) (rd rs1 : Fin 8) (length : BitVec 12)
  /-- `PADF Nd, Ns, length` (rule R98). -/
  | padf (log : Bool) (rd rs1 : Fin 8) (length : BitVec 12)
  /-- `EQLEN Na, Nb` (rule R99). -/
  | eqlen (log : Bool) (rs1 rs2 : Fin 8)
  /-- `SIGNM Ns`, with the `STD` flag (rule R100). -/
  | signm (log std : Bool) (rs1 : Fin 8)
  /-- `CVTK.UNS Nd, Ns`: convert to UNSIGNED (rule R122). -/
  | cvtkUns (log : Bool) (rd rs1 : Fin 8)
  /-- `CVTK.SGN Nd, Ns`: convert to SIGNED (rule R123). -/
  | cvtkSgn (log : Bool) (rd rs1 : Fin 8)
  /-- `CVTK.SMR Nd, Ns`: convert to SIGN-MAGNITUDE (rule R124). -/
  | cvtkSmr (log : Bool) (rd rs1 : Fin 8)
  /-- `CVTK.OC Nd, Ns`: convert to ONE'S-COMPLEMENT (rule R125). -/
  | cvtkOc (log : Bool) (rd rs1 : Fin 8)
  /-- `CVTK.TC Nd, Ns`: convert to TWO'S-COMPLEMENT (rule R126). -/
  | cvtkTc (log : Bool) (rd rs1 : Fin 8)
  /-- `COMPL Nd, Ns` (rule R128). -/
  | compl (log : Bool) (rd rs1 : Fin 8)
  /-- `ABSV Nd, Ns` (rule R129). -/
  | absv (log : Bool) (rd rs1 : Fin 8)
  /-- `TODEC Nd, Ns`, with the `STD` flag (rule R143). -/
  | todec (log std : Bool) (rd rs1 : Fin 8)
  /-- `FROMDEC Nd, Ns, radix`, with the `STD` flag (rule R144). -/
  | fromdec (log std : Bool) (rd rs1 : Fin 8) (radix : BitVec 12)
  /-- `CVTB Nd, Ns, radix` (rule R145). -/
  | cvtb (log : Bool) (rd rs1 : Fin 8) (radix : BitVec 12)
  /-- `CMPM Na, Nb` (rule R160). -/
  | cmpm (log : Bool) (rs1 rs2 : Fin 8)
  /-- `ADDN Nd, Na, Nb` (rule R161). -/
  | addn (log : Bool) (rd rs1 rs2 : Fin 8)
  /-- `SHL Nfirst, Nlast, positions` (rule R163). -/
  | shl (log : Bool) (first last : Fin 8) (positions : BitVec 12)
  /-- `SHRL Nfirst, Nlast, positions` (rule R164). -/
  | shrl (log : Bool) (first last : Fin 8) (positions : BitVec 12)
  /-- `SHRA Nfirst, Nlast, positions` (rule R165). -/
  | shra (log : Bool) (first last : Fin 8) (positions : BitVec 12)
  /-- `ADDLP Nd, Ns, delta`, `delta` signed (rule R167). -/
  | addlp (log : Bool) (rd rs1 : Fin 8) (delta : BitVec 12)
  /-- `MULU Nd, Na, Nb` (rule R168). -/
  | mulu (log : Bool) (rd rs1 rs2 : Fin 8)
  /-- `DIVS Nd, Na, Nb` (rule R169). -/
  | divs (log : Bool) (rd rs1 rs2 : Fin 8)
  /-- `ENC.B32 Fd, Ns, Tx`: encode as BINARY32 (rule R197). -/
  | encB32 (log : Bool) (rd : Fin 4) (rs1 : Fin 8) (tx : Fin 2)
  /-- `ENC.B64 Fd, Ns, Tx`: encode as BINARY64 (rule R198). -/
  | encB64 (log : Bool) (rd : Fin 4) (rs1 : Fin 8) (tx : Fin 2)
  /-- `ENC.D32DPD Fd, Ns, Tx`: encode as DECIMAL32DPD (rule R201). -/
  | encD32dpd (log : Bool) (rd : Fin 4) (rs1 : Fin 8) (tx : Fin 2)
  /-- `ENC.D32BID Fd, Ns, Tx`: encode as DECIMAL32BID (rule R211). -/
  | encD32bid (log : Bool) (rd : Fin 4) (rs1 : Fin 8) (tx : Fin 2)
  /-- `ENC.H32 Fd, Ns, Tx`: encode as HEXADECIMAL32 (rule R208). -/
  | encH32 (log : Bool) (rd : Fin 4) (rs1 : Fin 8) (tx : Fin 2)
  /-- `DEC.B32 Nd, Fs`: decode a BINARY32 value (rule R240). -/
  | decB32 (log : Bool) (rd : Fin 8) (fs : Fin 4)
  /-- `DEC.B64 Nd, Fs`: decode a BINARY64 value (rule R241). -/
  | decB64 (log : Bool) (rd : Fin 8) (fs : Fin 4)
  /-- `DEC.D32DPD Nd, Fs`: decode a DECIMAL32DPD value (rule R242). -/
  | decD32dpd (log : Bool) (rd : Fin 8) (fs : Fin 4)
  /-- `DEC.D32BID Nd, Fs`: decode a DECIMAL32BID value (rule R243). -/
  | decD32bid (log : Bool) (rd : Fin 8) (fs : Fin 4)
  /-- `DEC.H32 Nd, Fs`: decode a HEXADECIMAL32 value (rule R244). -/
  | decH32 (log : Bool) (rd : Fin 8) (fs : Fin 4)
  /-- `FPARSE.B32 Fd, Ts`: read a BINARY32 bit text (rule R210). -/
  | fparseB32 (log : Bool) (rd : Fin 4) (ts : Fin 2)
  /-- `FPARSE.B64 Fd, Ts`: read a BINARY64 bit text (rule R210). -/
  | fparseB64 (log : Bool) (rd : Fin 4) (ts : Fin 2)
  /-- `FPARSE.D32DPD Fd, Ts`: read a DECIMAL32DPD bit text (rule R210). -/
  | fparseD32dpd (log : Bool) (rd : Fin 4) (ts : Fin 2)
  /-- `FPARSE.D32BID Fd, Ts`: read a DECIMAL32BID bit text (rule R210). -/
  | fparseD32bid (log : Bool) (rd : Fin 4) (ts : Fin 2)
  /-- `FPARSE.H32 Fd, Ts`: read a HEXADECIMAL32 bit text (rule R210). -/
  | fparseH32 (log : Bool) (rd : Fin 4) (ts : Fin 2)
  /-- `FADD Fd, Fa, Fb` (rule R265). -/
  | fadd (log : Bool) (rd fa fb : Fin 4)
  /-- `FSUB Fd, Fa, Fb` (rule R266). -/
  | fsub (log : Bool) (rd fa fb : Fin 4)
  /-- `FMUL Fd, Fa, Fb` (rule R267). -/
  | fmul (log : Bool) (rd fa fb : Fin 4)
  /-- `FDIV Fd, Fa, Fb` (rule R268). -/
  | fdiv (log : Bool) (rd fa fb : Fin 4)
deriving DecidableEq, Repr

end Sys2Proof
end

