-- ==== Sys2Proof/WellFormed.lean ====
section
/-! DEFINITION. Which commands are well formed. Register indexes are in range by their types
(Syntax.lean), so the one condition left of 30_encoding.md rule R78 is that of the three shifts:
"for `SHL`, `SHRL`, `SHRA`, `rs1 > rs2`" is illegal. -/

namespace Sys2Proof

/-- The conditions of rule R78 that a term of `Instr` can still break. -/
def wellFormed (i : Instr) : Bool :=
  match i with
  | .parseUns _ _ _ _ => true
  | .parseSgn _ _ _ _ => true
  | .parseSmr _ _ _ _ => true
  | .parseOc _ _ _ _ => true
  | .parseTc _ _ _ _ => true
  | .stdz _ _ _ => true
  | .padw _ _ _ _ => true
  | .padf _ _ _ _ => true
  | .eqlen _ _ _ => true
  | .signm _ _ _ => true
  | .cvtkUns _ _ _ => true
  | .cvtkSgn _ _ _ => true
  | .cvtkSmr _ _ _ => true
  | .cvtkOc _ _ _ => true
  | .cvtkTc _ _ _ => true
  | .compl _ _ _ => true
  | .absv _ _ _ => true
  | .todec _ _ _ _ => true
  | .fromdec _ _ _ _ _ => true
  | .cvtb _ _ _ _ => true
  | .cmpm _ _ _ => true
  | .addn _ _ _ _ => true
  | .shl _ first last _ => decide (first ≤ last)
  | .shrl _ first last _ => decide (first ≤ last)
  | .shra _ first last _ => decide (first ≤ last)
  | .addlp _ _ _ _ => true
  | .mulu _ _ _ _ => true
  | .divs _ _ _ _ => true
  | .encB32 _ _ _ _ => true
  | .encB64 _ _ _ _ => true
  | .encD32dpd _ _ _ _ => true
  | .encD32bid _ _ _ _ => true
  | .encH32 _ _ _ _ => true
  | .decB32 _ _ _ => true
  | .decB64 _ _ _ => true
  | .decD32dpd _ _ _ => true
  | .decD32bid _ _ _ => true
  | .decH32 _ _ _ => true
  | .fparseB32 _ _ _ => true
  | .fparseB64 _ _ _ => true
  | .fparseD32dpd _ _ _ => true
  | .fparseD32bid _ _ _ => true
  | .fparseH32 _ _ _ => true
  | .fadd _ _ _ _ => true
  | .fsub _ _ _ _ => true
  | .fmul _ _ _ _ => true
  | .fdiv _ _ _ _ => true

end Sys2Proof
end

