-- ==== Sys2Proof/Decode.lean ====
section
/-! DEFINITION. The command word (30_encoding.md): its fields, the decoder, total on every 32-bit
word and naming each rejection, and the encoder. Every rejection is rule R78's illegal command; the
names only say which clause of that rule a word breaks. -/

namespace Sys2Proof

/-- The fields of a command word, as the table of rule R71 cuts it. -/
structure Fields where
  op  : BitVec 6
  log : Bool
  std : Bool
  sel : BitVec 3
  rd  : BitVec 3
  rs1 : BitVec 3
  rs2 : BitVec 3
  imm : BitVec 12
deriving DecidableEq, Repr

/-- The clauses of rule R78 that make a word illegal. -/
inductive DecodeError where
  /-- "`op` is not one of the opcodes of section 3". -/
  | reservedOpcode
  /-- "`sel` is outside the set the opcode allows", for an opcode that has variants. -/
  | reservedSelector
  /-- "`STD = 1` on a command other than `SIGNM`, `TODEC`, `FROMDEC`". -/
  | stdNotAllowed
  /-- "a register index exceeds its file (rule R73)". -/
  | registerIndex
  /-- "a field the command does not use is nonzero". -/
  | unusedField
  /-- "for `SHL`, `SHRL`, `SHRA`, `rs1 > rs2`". -/
  | shiftOrder
deriving DecidableEq, Repr

/-- The fields of `w` by the bit positions of rule R71. -/
def Fields.ofWord (w : Word) : Fields where
  op  := w.extractLsb' 26 6
  log := w.getLsbD 25
  std := w.getLsbD 24
  sel := w.extractLsb' 21 3
  rd  := w.extractLsb' 18 3
  rs1 := w.extractLsb' 15 3
  rs2 := w.extractLsb' 12 3
  imm := w.extractLsb' 0 12

/-- The word of the fields `f`: the encoding formula of rule R81, written as a concatenation. -/
def Fields.toWord (f : Fields) : Word :=
  f.op ++ BitVec.ofBool f.log ++ BitVec.ofBool f.std ++ f.sel ++ f.rd ++ f.rs1 ++ f.rs2 ++ f.imm

/-- `STD` must be 0 on this command (rule R78). -/
def needNoStd (f : Fields) : Except DecodeError Unit :=
  if f.std then .error .stdNotAllowed else .ok ()

/-- A field the command does not use must be 0 (rule R78). -/
def needZero {w : Nat} (b : BitVec w) : Except DecodeError Unit :=
  if b = 0 then .ok () else .error .unusedField

/-- A numeral register index: every value of the 3-bit field is legal (rule R73). -/
def numIndex (b : BitVec 3) : Fin 8 := b.toFin

/-- An IEEE register index: "only `0..3` are legal" (rule R73). -/
def ieeeIndex (b : BitVec 3) : Except DecodeError (Fin 4) :=
  if h : b.toNat < 4 then .ok ⟨b.toNat, h⟩ else .error .registerIndex

/-- A text buffer index: "only `0..1` are legal" (rule R73). -/
def textIndex (b : BitVec 3) : Except DecodeError (Fin 2) :=
  if h : b.toNat < 2 then .ok ⟨b.toNat, h⟩ else .error .registerIndex

/-- The five variants of an opcode whose `sel` is a kind or a format code 0 to 4 (rules R74, R75). -/
def variant (sel : BitVec 3) (i0 i1 i2 i3 i4 : Instr) : Except DecodeError Instr :=
  match sel.toNat with
  | 0 => .ok i0
  | 1 => .ok i1
  | 2 => .ok i2
  | 3 => .ok i3
  | 4 => .ok i4
  | _ => .error .reservedSelector

/-- Opcode 0x01, `PARSE.k Nd, Ts, radix` (rule R93). -/
def decodeParse (f : Fields) : Except DecodeError Instr := do
  needNoStd f
  needZero f.rs2
  let ts ← textIndex f.rs1
  let rd := numIndex f.rd
  variant f.sel (.parseUns f.log rd ts f.imm) (.parseSgn f.log rd ts f.imm)
    (.parseSmr f.log rd ts f.imm) (.parseOc f.log rd ts f.imm) (.parseTc f.log rd ts f.imm)

/-- The form `Nd, Ns`: no variant, no `rs2`, no immediate. -/
def decodeNN (f : Fields) (i : Fin 8 → Fin 8 → Instr) : Except DecodeError Instr := do
  needNoStd f
  needZero f.sel
  needZero f.rs2
  needZero f.imm
  .ok (i (numIndex f.rd) (numIndex f.rs1))

/-- The form `Nd, Ns, imm`: no variant, no `rs2`. -/
def decodeNNi (f : Fields) (i : Fin 8 → Fin 8 → BitVec 12 → Instr) : Except DecodeError Instr := do
  needNoStd f
  needZero f.sel
  needZero f.rs2
  .ok (i (numIndex f.rd) (numIndex f.rs1) f.imm)

/-- The form `Na, Nb` of `EQLEN` and `CMPM`: no variant, no `rd`, no immediate. -/
def decodePair (f : Fields) (i : Fin 8 → Fin 8 → Instr) : Except DecodeError Instr := do
  needNoStd f
  needZero f.sel
  needZero f.rd
  needZero f.imm
  .ok (i (numIndex f.rs1) (numIndex f.rs2))

/-- The form `Nd, Na, Nb`: no variant, no immediate. -/
def decodeNNN (f : Fields) (i : Fin 8 → Fin 8 → Fin 8 → Instr) : Except DecodeError Instr := do
  needNoStd f
  needZero f.sel
  needZero f.imm
  .ok (i (numIndex f.rd) (numIndex f.rs1) (numIndex f.rs2))

/-- The form `Fd, Fa, Fb`: no variant, no immediate. -/
def decodeFFF (f : Fields) (i : Fin 4 → Fin 4 → Fin 4 → Instr) : Except DecodeError Instr := do
  needNoStd f
  needZero f.sel
  needZero f.imm
  let rd ← ieeeIndex f.rd
  let fa ← ieeeIndex f.rs1
  let fb ← ieeeIndex f.rs2
  .ok (i rd fa fb)

/-- Opcode 0x06, `SIGNM Ns`, on which `STD` is legal (rules R79, R100). -/
def decodeSignm (f : Fields) : Except DecodeError Instr := do
  needZero f.sel
  needZero f.rd
  needZero f.rs2
  needZero f.imm
  .ok (.signm f.log f.std (numIndex f.rs1))

/-- Opcode 0x08, `CVTK.k Nd, Ns` (rules R122 to R126). -/
def decodeCvtk (f : Fields) : Except DecodeError Instr := do
  needNoStd f
  needZero f.rs2
  needZero f.imm
  let rd := numIndex f.rd
  let rs1 := numIndex f.rs1
  variant f.sel (.cvtkUns f.log rd rs1) (.cvtkSgn f.log rd rs1) (.cvtkSmr f.log rd rs1)
    (.cvtkOc f.log rd rs1) (.cvtkTc f.log rd rs1)

/-- Opcode 0x10, `TODEC Nd, Ns`, on which `STD` is legal (rules R79, R143). -/
def decodeTodec (f : Fields) : Except DecodeError Instr := do
  needZero f.sel
  needZero f.rs2
  needZero f.imm
  .ok (.todec f.log f.std (numIndex f.rd) (numIndex f.rs1))

/-- Opcode 0x11, `FROMDEC Nd, Ns, radix`, on which `STD` is legal (rules R79, R144). -/
def decodeFromdec (f : Fields) : Except DecodeError Instr := do
  needZero f.sel
  needZero f.rs2
  .ok (.fromdec f.log f.std (numIndex f.rd) (numIndex f.rs1) f.imm)

/-- Opcode 0x1A, the three shifts (rules R76, R78, R163 to R165). -/
def decodeShift (f : Fields) : Except DecodeError Instr := do
  needNoStd f
  needZero f.rd
  let first := numIndex f.rs1
  let last := numIndex f.rs2
  match f.sel.toNat with
  | 0 => if first ≤ last then .ok (.shl f.log first last f.imm) else .error .shiftOrder
  | 1 => if first ≤ last then .ok (.shrl f.log first last f.imm) else .error .shiftOrder
  | 2 => if first ≤ last then .ok (.shra f.log first last f.imm) else .error .shiftOrder
  | _ => .error .reservedSelector

/-- Opcode 0x20, `ENC.f Fd, Ns, Tx` (rules R197, R198, R201, R211, R208). -/
def decodeEnc (f : Fields) : Except DecodeError Instr := do
  needNoStd f
  needZero f.imm
  let rd ← ieeeIndex f.rd
  let tx ← textIndex f.rs2
  let rs1 := numIndex f.rs1
  variant f.sel (.encB32 f.log rd rs1 tx) (.encB64 f.log rd rs1 tx) (.encD32dpd f.log rd rs1 tx)
    (.encD32bid f.log rd rs1 tx) (.encH32 f.log rd rs1 tx)

/-- Opcode 0x21, `DEC.f Nd, Fs` (rules R240 to R244). -/
def decodeDec (f : Fields) : Except DecodeError Instr := do
  needNoStd f
  needZero f.rs2
  needZero f.imm
  let fs ← ieeeIndex f.rs1
  let rd := numIndex f.rd
  variant f.sel (.decB32 f.log rd fs) (.decB64 f.log rd fs) (.decD32dpd f.log rd fs)
    (.decD32bid f.log rd fs) (.decH32 f.log rd fs)

/-- Opcode 0x22, `FPARSE.f Fd, Ts` (rule R210). -/
def decodeFparse (f : Fields) : Except DecodeError Instr := do
  needNoStd f
  needZero f.rs2
  needZero f.imm
  let rd ← ieeeIndex f.rd
  let ts ← textIndex f.rs1
  variant f.sel (.fparseB32 f.log rd ts) (.fparseB64 f.log rd ts) (.fparseD32dpd f.log rd ts)
    (.fparseD32bid f.log rd ts) (.fparseH32 f.log rd ts)

/-- The opcode map of rule R80; every other `op` is reserved and illegal. -/
def decodeFields (f : Fields) : Except DecodeError Instr :=
  match f.op.toNat with
  | 0x01 => decodeParse f
  | 0x02 => decodeNN f (.stdz f.log)
  | 0x03 => decodeNNi f (.padw f.log)
  | 0x04 => decodeNNi f (.padf f.log)
  | 0x05 => decodePair f (.eqlen f.log)
  | 0x06 => decodeSignm f
  | 0x08 => decodeCvtk f
  | 0x09 => decodeNN f (.compl f.log)
  | 0x0A => decodeNN f (.absv f.log)
  | 0x10 => decodeTodec f
  | 0x11 => decodeFromdec f
  | 0x12 => decodeNNi f (.cvtb f.log)
  | 0x18 => decodePair f (.cmpm f.log)
  | 0x19 => decodeNNN f (.addn f.log)
  | 0x1A => decodeShift f
  | 0x1B => decodeNNi f (.addlp f.log)
  | 0x1C => decodeNNN f (.mulu f.log)
  | 0x1D => decodeNNN f (.divs f.log)
  | 0x20 => decodeEnc f
  | 0x21 => decodeDec f
  | 0x22 => decodeFparse f
  | 0x28 => decodeFFF f (.fadd f.log)
  | 0x29 => decodeFFF f (.fsub f.log)
  | 0x2A => decodeFFF f (.fmul f.log)
  | 0x2B => decodeFFF f (.fdiv f.log)
  | _ => .error .reservedOpcode

/-- The command that the word `w` encodes, or the clause of rule R78 it breaks. -/
def decode (w : Word) : Except DecodeError Instr := decodeFields (Fields.ofWord w)

/-- The index field of a numeral register (rule R73). -/
def numField (i : Fin 8) : BitVec 3 := BitVec.ofNat 3 i.val

/-- The index field of an IEEE register (rule R73). -/
def ieeeField (i : Fin 4) : BitVec 3 := BitVec.ofNat 3 i.val

/-- The index field of a text buffer (rule R73). -/
def textField (i : Fin 2) : BitVec 3 := BitVec.ofNat 3 i.val

/-- The fields of each command, row by row from the table of rule R80: the opcode, `LOG`, `STD`,
`sel`, `rd`, `rs1`, `rs2`, `imm`, with 0 in every field the command does not use. -/
def encodeFields (i : Instr) : Fields :=
  match i with
  | .parseUns log rd ts radix => ⟨0x01, log, false, 0, numField rd, textField ts, 0, radix⟩
  | .parseSgn log rd ts radix => ⟨0x01, log, false, 1, numField rd, textField ts, 0, radix⟩
  | .parseSmr log rd ts radix => ⟨0x01, log, false, 2, numField rd, textField ts, 0, radix⟩
  | .parseOc log rd ts radix => ⟨0x01, log, false, 3, numField rd, textField ts, 0, radix⟩
  | .parseTc log rd ts radix => ⟨0x01, log, false, 4, numField rd, textField ts, 0, radix⟩
  | .stdz log rd rs1 => ⟨0x02, log, false, 0, numField rd, numField rs1, 0, 0⟩
  | .padw log rd rs1 imm => ⟨0x03, log, false, 0, numField rd, numField rs1, 0, imm⟩
  | .padf log rd rs1 imm => ⟨0x04, log, false, 0, numField rd, numField rs1, 0, imm⟩
  | .eqlen log rs1 rs2 => ⟨0x05, log, false, 0, 0, numField rs1, numField rs2, 0⟩
  | .signm log std rs1 => ⟨0x06, log, std, 0, 0, numField rs1, 0, 0⟩
  | .cvtkUns log rd rs1 => ⟨0x08, log, false, 0, numField rd, numField rs1, 0, 0⟩
  | .cvtkSgn log rd rs1 => ⟨0x08, log, false, 1, numField rd, numField rs1, 0, 0⟩
  | .cvtkSmr log rd rs1 => ⟨0x08, log, false, 2, numField rd, numField rs1, 0, 0⟩
  | .cvtkOc log rd rs1 => ⟨0x08, log, false, 3, numField rd, numField rs1, 0, 0⟩
  | .cvtkTc log rd rs1 => ⟨0x08, log, false, 4, numField rd, numField rs1, 0, 0⟩
  | .compl log rd rs1 => ⟨0x09, log, false, 0, numField rd, numField rs1, 0, 0⟩
  | .absv log rd rs1 => ⟨0x0A, log, false, 0, numField rd, numField rs1, 0, 0⟩
  | .todec log std rd rs1 => ⟨0x10, log, std, 0, numField rd, numField rs1, 0, 0⟩
  | .fromdec log std rd rs1 imm => ⟨0x11, log, std, 0, numField rd, numField rs1, 0, imm⟩
  | .cvtb log rd rs1 imm => ⟨0x12, log, false, 0, numField rd, numField rs1, 0, imm⟩
  | .cmpm log rs1 rs2 => ⟨0x18, log, false, 0, 0, numField rs1, numField rs2, 0⟩
  | .addn log rd rs1 rs2 => ⟨0x19, log, false, 0, numField rd, numField rs1, numField rs2, 0⟩
  | .shl log first last imm => ⟨0x1A, log, false, 0, 0, numField first, numField last, imm⟩
  | .shrl log first last imm => ⟨0x1A, log, false, 1, 0, numField first, numField last, imm⟩
  | .shra log first last imm => ⟨0x1A, log, false, 2, 0, numField first, numField last, imm⟩
  | .addlp log rd rs1 imm => ⟨0x1B, log, false, 0, numField rd, numField rs1, 0, imm⟩
  | .mulu log rd rs1 rs2 => ⟨0x1C, log, false, 0, numField rd, numField rs1, numField rs2, 0⟩
  | .divs log rd rs1 rs2 => ⟨0x1D, log, false, 0, numField rd, numField rs1, numField rs2, 0⟩
  | .encB32 log rd rs1 tx => ⟨0x20, log, false, 0, ieeeField rd, numField rs1, textField tx, 0⟩
  | .encB64 log rd rs1 tx => ⟨0x20, log, false, 1, ieeeField rd, numField rs1, textField tx, 0⟩
  | .encD32dpd log rd rs1 tx => ⟨0x20, log, false, 2, ieeeField rd, numField rs1, textField tx, 0⟩
  | .encD32bid log rd rs1 tx => ⟨0x20, log, false, 3, ieeeField rd, numField rs1, textField tx, 0⟩
  | .encH32 log rd rs1 tx => ⟨0x20, log, false, 4, ieeeField rd, numField rs1, textField tx, 0⟩
  | .decB32 log rd fs => ⟨0x21, log, false, 0, numField rd, ieeeField fs, 0, 0⟩
  | .decB64 log rd fs => ⟨0x21, log, false, 1, numField rd, ieeeField fs, 0, 0⟩
  | .decD32dpd log rd fs => ⟨0x21, log, false, 2, numField rd, ieeeField fs, 0, 0⟩
  | .decD32bid log rd fs => ⟨0x21, log, false, 3, numField rd, ieeeField fs, 0, 0⟩
  | .decH32 log rd fs => ⟨0x21, log, false, 4, numField rd, ieeeField fs, 0, 0⟩
  | .fparseB32 log rd ts => ⟨0x22, log, false, 0, ieeeField rd, textField ts, 0, 0⟩
  | .fparseB64 log rd ts => ⟨0x22, log, false, 1, ieeeField rd, textField ts, 0, 0⟩
  | .fparseD32dpd log rd ts => ⟨0x22, log, false, 2, ieeeField rd, textField ts, 0, 0⟩
  | .fparseD32bid log rd ts => ⟨0x22, log, false, 3, ieeeField rd, textField ts, 0, 0⟩
  | .fparseH32 log rd ts => ⟨0x22, log, false, 4, ieeeField rd, textField ts, 0, 0⟩
  | .fadd log rd fa fb => ⟨0x28, log, false, 0, ieeeField rd, ieeeField fa, ieeeField fb, 0⟩
  | .fsub log rd fa fb => ⟨0x29, log, false, 0, ieeeField rd, ieeeField fa, ieeeField fb, 0⟩
  | .fmul log rd fa fb => ⟨0x2A, log, false, 0, ieeeField rd, ieeeField fa, ieeeField fb, 0⟩
  | .fdiv log rd fa fb => ⟨0x2B, log, false, 0, ieeeField rd, ieeeField fa, ieeeField fb, 0⟩

/-- The word of a command (rule R81). -/
def encode (i : Instr) : Word := (encodeFields i).toWord

/-- What the decoder reads from a table word of `nbits` bits. A command is one 32-bit word, so the
numbering of spec/opcode_table.json is that of the word itself (rules R70, R71). -/
def decodeTableWord (nbits w : Nat) : Option Instr :=
  match decode (BitVec.ofNat 32 (w % 2 ^ nbits)) with
  | .ok i => some i
  | .error _ => none

end Sys2Proof
end

