-- ==== Sys2Proof/Machine/State.lean ====
section
/-! DEFINITION. The state of the NFU as plain data (10_state.md rules R20 to R36): the three value
types of the source, the registers that hold them, the special registers, and, as the model's own
fields, the host-port operations still to come, the answer of the last read, and the capacities. -/

namespace Sys2Proof.Machine

/-- The five representation kinds; `Kind.code` in Machine/Params.lean gives the codes of rule R74. -/
inductive Kind where
  | unsigned
  | signed
  | signMagnitude
  | onesComplement
  | twosComplement
deriving DecidableEq, Repr

/-- The five IEEE754 formats; `Format.code` in Machine/Params.lean gives the codes of rule R75. -/
inductive Format where
  | b32
  | b64
  | d32dpd
  | d32bid
  | h32
deriving DecidableEq, Repr

/-- A Numeral (rule R21): sign run, whole digits and fraction digits (most significant first), the
6-bit radix and the kind. The cells are unchecked: a record that breaks rule R22 can be held. -/
structure Numeral where
  sign     : List Cell
  whole    : List Cell
  fraction : List Cell
  radix    : Cell
  kind     : Kind
deriving DecidableEq, Repr

/-- An IEEE754Number (rule R24): "A register is a 3-bit format code plus a 64-bit word". -/
structure Ieee where
  format : Format
  word   : Word64
deriving DecidableEq, Repr

/-- The value of `CC`: -1, 0 or +1 (rule R28). -/
inductive Cond where
  | minus
  | zero
  | plus
deriving DecidableEq, Repr

/-- The values of `PTAG` that a command can write, in the order of their codes 0 to 6 (rule R25). -/
inductive DecTag where
  | numeric
  | posZero
  | negZero
  | posInf
  | negInf
  | qnan
  | snan
deriving DecidableEq, Repr

/-- The failure names of rule R290, in the order of the table there; `Failure.code` in
Machine/Flags.lean gives the numbers. A failure is a result of a command, not a stop of the machine
(rule R293). -/
inductive Failure where
  | invalidInput
  | invalidDigit
  /-- Raised by no command (rule R292). -/
  | invalidDigitValue
  | invalidBase
  | invalidNumeral
  | tooLarge
  | incompatibleTypes
  | unsupportedForUnsigned
  | differentBase
  | differentType
  | invalidOperand
  | underflow
  /-- Raised by no command (rule R292). -/
  | overflow
  | invalidExponent
  | exponentOutOfBounds
  | invalidEncoding
  | refused
  | illegalCommand
  | capacityExceeded
deriving DecidableEq, Repr

/-- An input of the NFU: one operation of the host port (20_memory.md rule R54), or the reset
(70_reset_and_hazards.md rule R320). The format of `writeF` is the raw 3-bit code, since rule R54
says what codes 5 to 7 do; every other argument is in range by its type. -/
inductive HostOp where
  | writeT (i : Fin 2) (s : Text)
  | writeN (i : Fin 8) (n : Numeral)
  | writeF (i : Fin 4) (fmt : BitVec 3) (w : Word64)
  | clearT (i : Fin 2)
  | clearN (i : Fin 8)
  | clearF (i : Fin 4)
  | issue (w : Word)
  | readN (i : Fin 8)
  | readF (i : Fin 4)
  | readT (i : Fin 2)
  | readCC
  | readPTag
  | readPBase
  | readPExp
  | readStatus
  | readESticky
  | readCmd
  | reset
deriving DecidableEq, Repr

/-- What a read of the host port delivers: the register's content, or `none` for the answer
"no value" (rule R54). -/
inductive Answer where
  | numeral (v : Option Numeral)
  | ieee (v : Option Ieee)
  | text (v : Option Text)
  | cond (v : Option Cond)
  | tag (v : Option DecTag)
  | base (v : Option (BitVec 6))
  | exponent (v : Option Int)
  | word (w : Word)
deriving DecidableEq, Repr

/-- The NFU never stops: "the NFU has no abort, hang or undefined state" (60_exceptions.md rule
R303), so the model has no fault. Raised by nothing; safe. -/
inductive Fault
deriving DecidableEq, Repr

/-- Refusals of the model. -/
inductive Refusal where
  /-- Raised by `exec` for a command the model gives no meaning; no arm raises it, so safe. -/
  | notModelled (mnemonic : String)
deriving DecidableEq, Repr

/-- The state. `none` in a register is the spec's own "no value" (rules R23, R25, R26, R28, R36). -/
structure State where
  /-- `N0..N7` (rule R23). -/
  n : Vector (Option Numeral) 8
  /-- `F0..F3` (rule R24). -/
  f : Vector (Option Ieee) 4
  /-- `T0`, `T1` (rule R26). -/
  t : Vector (Option Text) 2
  /-- `PTAG` (rule R25). -/
  ptag : Option DecTag
  /-- `PBASE`, 6 bits (rule R25). -/
  pbase : Option (BitVec 6)
  /-- `PEXP`, a signed integer (rule R25). -/
  pexp : Option Int
  /-- `CC` (rule R28). -/
  cc : Option Cond
  /-- `CMD` (rule R29). -/
  cmd : Word
  /-- `STATUS` (rule R31). -/
  status : Word
  /-- `ESTICKY` (rule R32). -/
  esticky : Word
  /-- The model's own field: the four OPEN capacities of rule R27, which no step writes. -/
  caps : Capacities
  /-- The model's own field: the host-port operations still to be performed, in the order the host
  makes them (20_memory.md rules R54, R60). -/
  inputs : List HostOp
  /-- The model's own field: what the latest read of the host port delivered; no rule reads it. -/
  answer : Option Answer
deriving DecidableEq, Repr

/-- The state right after reset (rules R36, R320): every `N`, `F`, `T`, `PTAG`, `PBASE`, `PEXP` and
`CC` holds no value, and `CMD`, `STATUS`, `ESTICKY` are 0. The capacities are infinite, no input
waits and nothing has been read (notes/assumptions/1.md, 2.md, 3.md). -/
def State.reset : State where
  n       := Vector.replicate 8 none
  f       := Vector.replicate 4 none
  t       := Vector.replicate 2 none
  ptag    := none
  pbase   := none
  pexp    := none
  cc      := none
  cmd     := 0
  status  := 0
  esticky := 0
  caps    := .unbounded
  inputs  := []
  answer  := none

end Sys2Proof.Machine
end

