-- ==== Sys2Proof/Machine/Params.lean ====
section
/-! DEFINITION. The codes of kinds and formats, the format constants of 00_scope.md rule R11, and the
parameters the spec decides, each with the default of rule R10 (notes/assumptions/4.md). -/

namespace Sys2Proof.Machine

/-- The 3-bit kind code (30_encoding.md rule R74). -/
def Kind.code (k : Kind) : BitVec 3 :=
  match k with
  | .unsigned => 0
  | .signed => 1
  | .signMagnitude => 2
  | .onesComplement => 3
  | .twosComplement => 4

/-- The 3-bit format code (30_encoding.md rule R75). -/
def Format.code (f : Format) : BitVec 3 :=
  match f with
  | .b32 => 0
  | .b64 => 1
  | .d32dpd => 2
  | .d32bid => 3
  | .h32 => 4

/-- The format of a code; codes 5 to 7 are illegal (rule R75). -/
def Format.ofCode (c : BitVec 3) : Option Format :=
  match c.toNat with
  | 0 => some .b32
  | 1 => some .b64
  | 2 => some .d32dpd
  | 3 => some .d32bid
  | 4 => some .h32
  | _ => none

/-- The 3-bit `PTAG` code of a tag; 7 is never written (10_state.md rule R25). -/
def DecTag.code (t : DecTag) : BitVec 3 :=
  match t with
  | .numeric => 0
  | .posZero => 1
  | .negZero => 2
  | .posInf => 3
  | .negInf => 4
  | .qnan => 5
  | .snan => 6

/-- The exponent width `EW` (rule R11). -/
def Format.expWidth (f : Format) : Nat :=
  match f with
  | .b32 => 8
  | .b64 => 11
  | .d32dpd => 11
  | .d32bid => 11
  | .h32 => 7

/-- The significand width `SW` (rule R11). -/
def Format.sigWidth (f : Format) : Nat :=
  match f with
  | .b32 => 23
  | .b64 => 52
  | .d32dpd => 20
  | .d32bid => 20
  | .h32 => 24

/-- The total width `W = 1 + EW + SW` (20_memory.md rule R55). -/
def Format.width (f : Format) : Nat := 1 + f.expWidth + f.sigWidth

/-- The bias (rule R11). -/
def Format.bias (f : Format) : Int :=
  match f with
  | .b32 => 127
  | .b64 => 1023
  | .d32dpd => 101
  | .d32bid => 101
  | .h32 => 64

/-- The radix of the format (rule R11). -/
def Format.radix (f : Format) : Nat :=
  match f with
  | .b32 => 2
  | .b64 => 2
  | .d32dpd => 10
  | .d32bid => 10
  | .h32 => 16

/-- `DIGITS(fmt)`, the whole-part capacity (rules R11, R193; decided, D35). -/
def Format.digits (f : Format) : Nat :=
  match f with
  | .b32 => 24
  | .b64 => 53
  | .d32dpd => 7
  | .d32bid => 7
  | .h32 => 6

/-- `EMIN(fmt)` (rules R11, R196; decided, D36). -/
def Format.emin (f : Format) : Int :=
  match f with
  | .b32 => -126
  | .b64 => -1022
  | .d32dpd => -101
  | .d32bid => -101
  | .h32 => -64

/-- `EMAX(fmt)` (rules R11, R196; decided, D36). -/
def Format.emax (f : Format) : Int :=
  match f with
  | .b32 => 127
  | .b64 => 1023
  | .d32dpd => 90
  | .d32bid => 90
  | .h32 => 62

/-- `DEC_SHIFT(fmt, e)`: "`e` when `0 <= e < 10`", by the source, and 0 otherwise, decided (rules
R10, R238; D47). -/
def decShift (_fmt : Format) (e : Int) : Nat :=
  if 0 ≤ e ∧ e < 10 then e.toNat else 0

/-- `QNAN32`, the one quiet NaN the arithmetic delivers (46_ieee_arith.md rule R263; D51). -/
def qnan32 : Word := 0x7FC00000#32

end Sys2Proof.Machine
end

