-- ==== Sys2Proof/Machine/Digits.lean ====
section
/-! DEFINITION. Digits, digit sequences and bit strings: the two digit maps of
40_numeral_primitives.md rules R90 and R91, the reading and writing of an integer in a radix, the
trims, and the bit strings of 00_scope.md rules R12 and R13. -/

namespace Sys2Proof.Machine

/-- `dv(c)`: the digit value of a character, or `InvalidDigit` (rule R90). -/
def dv (c : Byte) : Except Failure Cell :=
  if 0x30 ≤ c.toNat ∧ c.toNat ≤ 0x39 then .ok (cell (c.toNat - 0x30))
  else if 0x41 ≤ c.toNat ∧ c.toNat ≤ 0x5A then .ok (cell (c.toNat - 0x41 + 10))
  else .error .invalidDigit

/-- `valueDigit(v)`: the character of a digit value, or `InvalidDigitValue` (rule R91). No command
calls it. -/
def valueDigit (v : Nat) : Except Failure Byte :=
  if v ≤ 9 then .ok (BitVec.ofNat 8 (0x30 + v))
  else if v ≤ 35 then .ok (BitVec.ofNat 8 (0x41 + v - 10))
  else .error .invalidDigitValue

/-- The integer whose radix-`r` digits are `ds`, most significant first, by Horner's method
(42_base_converter.md rule R141). -/
def ofDigits (r : Nat) (ds : List Cell) : Nat :=
  ds.foldl (fun acc d => acc * r + d.val) 0

/-- "The `k` radix-`r` digits of `Y`": the length-`k` sequence, leading zeros kept
(41_representation_converter.md rule R120). -/
def toDigits (r : Nat) : Nat → Nat → List Cell
  | 0, _ => []
  | k + 1, y => toDigits r k (y / r) ++ [cell (y % r)]

/-- The least `n` from `n0` up with `x < r^(n+m)`, looked for over `fuel` lengths. -/
def leastLengthFrom (r m x : Nat) : Nat → Nat → Nat
  | 0, n => n
  | fuel + 1, n => if x < r ^ (n + m) then n else leastLengthFrom r m x fuel (n + 1)

/-- The least `n >= lw` with `x < r^(n+m)` (43_fixed_point.md rule R171). For `r >= 2` the bit length
of `x` bounds the search. -/
def leastLength (r m x lw : Nat) : Nat := leastLengthFrom r m x (x.log2 + 1) lw

/-- The radix-`r` digits of `x` without leading zeros, `[0]` when `x = 0` (rules R141, R144, R168). -/
def minDigits (r x : Nat) : List Cell := toDigits r (leastLength r 0 x 1) x

/-- The leading copies of `p` removed, down to one digit (rule R95). -/
def trimLeading (p : Cell) : List Cell → List Cell
  | [] => []
  | [d] => [d]
  | d :: e :: ds => if d = p then trimLeading p (e :: ds) else d :: e :: ds

/-- The trailing copies of `p` removed, down to none (rule R95). -/
def trimTrailing (p : Cell) (ds : List Cell) : List Cell :=
  (ds.reverse.dropWhile (fun d => d == p)).reverse

/-- The digitwise `(r-1)`-complement (41_representation_converter.md rules R120, R128). -/
def complementDigits (r : Nat) (ds : List Cell) : List Cell :=
  ds.map (fun d => cell (r - 1 - d.val))

/-- Every digit is 0. -/
def allZero (ds : List Cell) : Bool := ds.all (fun d => d == 0)

/-- `bits(v, w)`: the `w`-character bit string of `v`, most significant bit first (rule R13). -/
def bits (v : Nat) : Nat → Bits
  | 0 => []
  | w + 1 => bits (v / 2) w ++ [decide (v % 2 = 1)]

/-- `int(s)`: the integer of a bit string (rule R13). -/
def int (s : Bits) : Nat := s.foldl (fun acc b => 2 * acc + b.toNat) 0

/-- `s[i:j]`: the elements `i` to `j` inclusive, from 0 at the left (rule R12). -/
def slice (s : Bits) (i j : Nat) : Bits := (s.drop i).take (j + 1 - i)

/-- The bits of a string as radix-2 digits. -/
def bitDigits (s : Bits) : List Cell := s.map (fun b => cell b.toNat)

end Sys2Proof.Machine
end

