-- ==== Sys2Proof/Machine/Numerals.lean ====
section
/-! DEFINITION. The functions on Numerals that every family uses: the sign multiplier, validity, the
pad digits, `std` and the standardized form (40_numeral_primitives.md rules R94 to R96, R101;
10_state.md rule R22), and the values `mag` and `val` of 00_scope.md rule R16, exact. -/

namespace Sys2Proof.Machine

/-- A sign token of a kind whose sign is a digit: +1 for 0, -1 for `r-1`, else 0 (rule R96). In radix 1,
which a host write can store and `SIGNM` does not check, the token 0 is also `r-1`; rule R96 leaves that
case open and the model takes +1 (DESIGN CHOICE, notes/assumptions/11.md). -/
def tokenSign (r : Cell) (t : Cell) : Cond :=
  if t = 0 then .plus else if t.val + 1 = r.val then .minus else .zero

/-- `sm(n)`, the sign multiplier (rule R96). -/
def Numeral.sm (n : Numeral) : Cond :=
  match n.kind with
  | .unsigned => if n.sign = [] then .plus else .zero
  | .signed =>
    if n.sign.any (fun t => decide (1 < t.val)) then .zero
    else if (n.sign.countP (fun t => t == 1)) % 2 = 0 then .plus else .minus
  | .signMagnitude =>
    match n.sign with
    | [t] => tokenSign n.radix t
    | _ => .zero
  | .onesComplement | .twosComplement =>
    match n.sign with
    | [] => .zero
    | t :: ts => if ts.all (fun u => u == t) then tokenSign n.radix t else .zero

/-- Every digit of `ds` is below the radix `r`. -/
def digitsBelow (r : Cell) (ds : List Cell) : Bool := ds.all (fun d => decide (d.val < r.val))

/-- A legal radix, in `[2, 35]` (rule R22). -/
def legalRadix (r : Nat) : Bool := decide (radixMin ≤ r ∧ r ≤ radixMax)

/-- `valid(n)` (rules R22, R101). -/
def Numeral.valid (n : Numeral) : Bool :=
  legalRadix n.radix.val && digitsBelow n.radix n.whole && digitsBelow n.radix n.fraction
    && decide (n.sm ≠ .zero)

/-- The digit `r-1` of the numeral's radix. -/
def Numeral.topDigit (n : Numeral) : Cell := cell (n.radix.val - 1)

/-- `wp(n)`, the whole pad digit (rule R101). -/
def Numeral.wp (n : Numeral) : Cell :=
  match n.kind with
  | .unsigned | .signed | .signMagnitude => 0
  | .onesComplement | .twosComplement => n.sign.headD 0

/-- `fp(n)`, the fraction pad digit (rule R101). -/
def Numeral.fp (n : Numeral) : Cell :=
  if n.kind = .onesComplement ∧ n.sm = .minus then n.topDigit else 0

/-- The sign run collapsed to its canonical form (rule R95). -/
def Numeral.stdSign (n : Numeral) : List Cell :=
  match n.kind with
  | .unsigned => []
  | .signed => if n.sm = .plus then [0] else [1]
  | .signMagnitude | .onesComplement | .twosComplement => [n.sign.headD 0]

/-- The whole digits with the leading pad digits trimmed, one at least left (rule R95). -/
def Numeral.stdWhole (n : Numeral) : List Cell :=
  match trimLeading n.wp n.whole with
  | [] => [n.wp]
  | d :: ds => d :: ds

/-- The standardized form of a valid numeral (rule R95). -/
def Numeral.stdForm (n : Numeral) : Numeral where
  sign     := n.stdSign
  whole    := n.stdWhole
  fraction := trimTrailing n.fp n.fraction
  radix    := n.radix
  kind     := n.kind

/-- `std(n)` (rule R95). -/
def Numeral.std (n : Numeral) : Except Failure Numeral :=
  if n.valid then .ok n.stdForm else .error .invalidNumeral

/-- A valid numeral is standardized by the three conditions of rule R94. -/
def Numeral.standardized (n : Numeral) : Bool :=
  n.valid
    && (match n.kind with
        | .unsigned => n.sign.isEmpty
        | .signed | .signMagnitude | .onesComplement | .twosComplement => n.sign.length == 1)
    && decide (1 ≤ n.whole.length ∧ (n.whole.length = 1 ∨ n.whole.head? ≠ some n.wp))
    && decide (n.fraction.getLast? ≠ some n.fp)

/-- The digits of a numeral read as one integer: `mag(n) * r^len(fraction)` (rule R16). -/
def Numeral.digitsInt (n : Numeral) : Nat := ofDigits n.radix.val (n.whole ++ n.fraction)

/-- `mag(n)` (rule R16). -/
def Numeral.mag (n : Numeral) : ℚ :=
  (n.digitsInt : ℚ) / (n.radix.val : ℚ) ^ n.fraction.length

/-- `sm` as the integer +1, -1 or 0. -/
def Cond.toInt (c : Cond) : Int :=
  match c with
  | .minus => -1
  | .zero => 0
  | .plus => 1

/-- `val(n)`, the value of a valid numeral (rule R16). -/
def Numeral.val (n : Numeral) : ℚ :=
  match n.kind with
  | .unsigned | .signed | .signMagnitude => (n.sm.toInt : ℚ) * n.mag
  | .twosComplement =>
    if n.sm = .plus then n.mag else n.mag - (n.radix.val : ℚ) ^ n.whole.length
  | .onesComplement =>
    if n.sm = .plus then n.mag
    else n.mag - ((n.radix.val : ℚ) ^ n.whole.length - 1 / (n.radix.val : ℚ) ^ n.fraction.length)

/-- `val(n) * r^m` for `m >= len(n.fraction)`: the value as an exact integer in units of `r^-m`, on
which the model computes where a rule computes with `val` (rules R161, R167). -/
def Numeral.valScaled (n : Numeral) (m : Nat) : Int :=
  let r : Int := n.radix.val
  let up : Int := r ^ (m - n.fraction.length)
  let x : Int := n.digitsInt
  match n.kind with
  | .unsigned | .signed | .signMagnitude => n.sm.toInt * (x * up)
  | .twosComplement =>
    if n.sm = .plus then x * up
    else (x - r ^ (n.whole.length + n.fraction.length)) * up
  | .onesComplement =>
    if n.sm = .plus then x * up
    else (x - (r ^ (n.whole.length + n.fraction.length) - 1)) * up

end Sys2Proof.Machine
end

