-- ==== Sys2Proof/Machine/Flags.lean ====
section
/-! DEFINITION. The flag-like state: the failure codes of 60_exceptions.md rule R290, the layout of
`STATUS` and `ESTICKY` (10_state.md rules R31, R32), the 2-bit code of `CC` (rule R28), and the two
results that `CC` receives. -/

namespace Sys2Proof.Machine

/-- The number of a failure: what `STATUS.code` holds and the bit of `ESTICKY` set (rule R290). -/
def Failure.code (c : Failure) : BitVec 6 :=
  match c with
  | .invalidInput => 1
  | .invalidDigit => 2
  | .invalidDigitValue => 3
  | .invalidBase => 4
  | .invalidNumeral => 5
  | .tooLarge => 6
  | .incompatibleTypes => 7
  | .unsupportedForUnsigned => 8
  | .differentBase => 9
  | .differentType => 10
  | .invalidOperand => 11
  | .underflow => 12
  | .overflow => 13
  | .invalidExponent => 14
  | .exponentOutOfBounds => 15
  | .invalidEncoding => 16
  | .refused => 29
  | .illegalCommand => 30
  | .capacityExceeded => 31

/-- `STATUS.code`, bits 5:0 (rule R31). -/
def statusCode (w : Word) : BitVec 6 := w.extractLsb' 0 6

/-- `STATUS.warn`, bit 6 (rule R31). -/
def statusWarn (w : Word) : Bool := w.getLsbD 6

/-- `STATUS.done`, bit 7 (rule R31). -/
def statusDone (w : Word) : Bool := w.getLsbD 7

/-- The whole of `STATUS` as a completed command writes it: `done = 1`, bits 31:8 zero (rule R31). -/
def completedStatus (code : BitVec 6) (warn : Bool) : Word :=
  0#24 ++ BitVec.ofBool true ++ BitVec.ofBool warn ++ code

/-- `STATUS` with only its `code` field replaced, as a refused host write does (rule R302). -/
def withCode (w : Word) (code : BitVec 6) : Word := w.extractLsb' 6 26 ++ code

/-- `ESTICKY` with bit `b` set (rule R32). -/
def withSticky (w : Word) (b : Nat) : Word := w ||| BitVec.twoPow 32 b

/-- `ESTICKY` after a command that succeeded: bit 0 is set by a warning (rule R32). -/
def stickyAfter (w : Word) (warn : Bool) : Word := if warn then withSticky w 0 else w

/-- The 2-bit code of `CC`: -1 is `11`, 0 is `00`, +1 is `01` (rule R28). -/
def Cond.code (c : Cond) : BitVec 2 :=
  match c with
  | .minus => 3
  | .zero => 0
  | .plus => 1

/-- The comparison of two digit strings at their first difference (43_fixed_point.md rule R160). -/
def compareDigits : List Cell → List Cell → Cond
  | x :: xs, y :: ys => if x.val < y.val then .minus else if y.val < x.val then .plus else compareDigits xs ys
  | _, _ => .zero

/-- The value `SIGNM` writes to `CC`: `sm(n)`, and with `STD = 1` also 0 for a sign run that is not
a single token, UNSIGNED apart (40_numeral_primitives.md rule R100). -/
def signmValue (std : Bool) (n : Numeral) : Cond :=
  if std ∧ n.kind ≠ .unsigned ∧ n.sign.length ≠ 1 then .zero else n.sm

end Sys2Proof.Machine
end

