-- ==== Sys2Proof/Machine/Operands.lean ====
section
/-! DEFINITION. The operand forms of a command: the immediate (30_encoding.md rule R72), a source
register that must hold a value (10_state.md rule R23), the packed fields of an `F` register
(20_memory.md rule R55), and the checks a command makes on its operands. -/

namespace Sys2Proof.Machine

/-- `raise Fail(e)` when `p` holds, one line of a command's pseudocode (60_exceptions.md rule R295). -/
def failIf (p : Prop) [Decidable p] (e : Failure) : Except Failure Unit :=
  if p then .error e else .ok ()

/-- The content of a source register, or `InvalidInput` when it holds no value (rules R23, R295). -/
def held {α : Type} (v : Option α) : Except Failure α :=
  match v with
  | some a => .ok a
  | none => .error .invalidInput

/-- An immediate read as unsigned: a radix, a length or a shift distance (rule R72). -/
def immUnsigned (imm : BitVec 12) : Nat := imm.toNat

/-- The immediate of `ADDLP` read as signed two's complement (rule R72). -/
def immSigned (imm : BitVec 12) : Int := imm.toInt

/-- `len` is more than the capacity `cap` (10_state.md rule R27). -/
def exceeds (cap : Option Nat) (len : Nat) : Bool :=
  match cap with
  | none => false
  | some c => decide (c < len)

/-- A result passes its capacity check, or `CapacityExceeded` (rules R27, R302). -/
def capWhole (caps : Capacities) (x : Numeral) : Except Failure Numeral :=
  if exceeds caps.wcap x.whole.length then .error .capacityExceeded else .ok x

/-- The numeral fits the capacities of a numeral register (rules R27, R54). -/
def Numeral.fits (caps : Capacities) (n : Numeral) : Bool :=
  !exceeds caps.wcap n.whole.length && !exceeds caps.fcap n.fraction.length
    && !exceeds caps.scap n.sign.length

/-- A 64-bit word in an `F` register: "the bits above the format's width forced to 0" (rule R54). -/
def Ieee.ofWord (fmt : Format) (w : Word64) : Ieee := ⟨fmt, BitVec.ofNat 64 (w.toNat % 2 ^ fmt.width)⟩

/-- The packed word of the fields sign, exponent, significand (rule R55). -/
def Ieee.ofFields (fmt : Format) (sign : Bool) (exponent significand : Bits) : Ieee :=
  Ieee.ofWord fmt (BitVec.ofNat 64 (int ([sign] ++ exponent ++ significand)))

/-- The `sign` field `w[W-1]` (rule R55). -/
def Ieee.sign (x : Ieee) : Bool := x.word.getLsbD (x.format.width - 1)

/-- The `exponent` field `w[W-2 : SW]` (rule R55). -/
def Ieee.exponent (x : Ieee) : Bits := bits (x.word.toNat / 2 ^ x.format.sigWidth) x.format.expWidth

/-- The `significand` field `w[SW-1 : 0]` (rule R55). -/
def Ieee.significand (x : Ieee) : Bits := bits x.word.toNat x.format.sigWidth

/-- The text with every space (0x20) removed (rules R93, R210). -/
def stripSpaces (t : Text) : Text := t.filter (fun c => decide (c ≠ 0x20#8))

/-- The numeral registers `N[first], ..., N[last]` of a shift (43_fixed_point.md rule R166). -/
def registerRun (first last : Fin 8) : List (Fin 8) :=
  [0, 1, 2, 3, 4, 5, 6, 7].filter (fun i => decide (first ≤ i ∧ i ≤ last))

end Sys2Proof.Machine
end

