-- ==== Sys2Proof/Machine/Ops.lean ====
section
/-! DEFINITION. The named operations on the registers, and the two ends of a command: success, and a
failure with the effect of 60_exceptions.md rule R293, which stands where other machines take an
exception ("The complete "entry sequence" of a failure is rule R293 (a) to (d)", rule R297; there is
no return). -/

namespace Sys2Proof.Machine

/-- The outcome of a command. -/
abbrev Out := Host.Outcome State Fault Refusal

/-- `N[i]`. -/
def State.readN (s : State) (i : Fin 8) : Option Numeral := s.n.get i

/-- `F[i]`. -/
def State.readF (s : State) (i : Fin 4) : Option Ieee := s.f.get i

/-- `T[i]`. -/
def State.readT (s : State) (i : Fin 2) : Option Text := s.t.get i

/-- `N[i] <- v`. -/
def State.setN (s : State) (i : Fin 8) (v : Option Numeral) : State := { s with n := s.n.set i v }

/-- `F[i] <- v`. -/
def State.setF (s : State) (i : Fin 4) (v : Option Ieee) : State := { s with f := s.f.set i v }

/-- `T[i] <- v`. -/
def State.setT (s : State) (i : Fin 2) (v : Option Text) : State := { s with t := s.t.set i v }

/-- `CC <- v`. -/
def State.setCC (s : State) (v : Option Cond) : State := { s with cc := v }

/-- `PTAG <- tag ; PBASE <- base ; PEXP <- ex`. -/
def State.setP (s : State) (tag : Option DecTag) (base : Option (BitVec 6)) (ex : Option Int) :
    State :=
  { s with ptag := tag, pbase := base, pexp := ex }

/-- `CMD <- w`. -/
def State.setCmd (s : State) (w : Word) : State := { s with cmd := w }

/-- `STATUS <- w`. -/
def State.setStatus (s : State) (w : Word) : State := { s with status := w }

/-- `ESTICKY <- w`. -/
def State.setESticky (s : State) (w : Word) : State := { s with esticky := w }

/-- The inputs still to come. -/
def State.setInputs (s : State) (l : List HostOp) : State := { s with inputs := l }

/-- What a read of the host port delivers. -/
def State.setAnswer (s : State) (a : Option Answer) : State := { s with answer := a }

/-- The destinations of a command, as rule R293 (b) and (c) lists them. -/
inductive Dest where
  /-- `N[rd]`. -/
  | num (rd : Fin 8)
  /-- `N[rd]` and `N[(rd+1) mod 8]`, of `DIVS`. -/
  | numPair (rd : Fin 8)
  /-- `F[rd]`. -/
  | ieee (rd : Fin 4)
  /-- `CC`, of `SIGNM` and `CMPM`. -/
  | cond
  /-- `N[rd]`, `PTAG`, `PBASE` and `PEXP`, of `DEC.f`. -/
  | decoded (rd : Fin 8)
  /-- None but the sources, of `EQLEN` and the shifts. -/
  | inPlace
deriving DecidableEq, Repr

/-- "Every *destination* of the command holds **no value**" (rule R293 (b), (c)). `rd + 1` wraps
modulo 8. -/
def clearDest (d : Dest) (s : State) : State :=
  match d with
  | .num rd => s.setN rd none
  | .numPair rd => (s.setN rd none).setN (rd + 1) none
  | .ieee rd => s.setF rd none
  | .cond => s.setCC none
  | .decoded rd => (s.setN rd none).setP none none none
  | .inPlace => s

/-- The `STATUS` and `ESTICKY` of a command that ends with failure `c` (rule R293 (a)). -/
def failStatus (c : Failure) (s : State) : State :=
  (s.setStatus (completedStatus c.code false)).setESticky (withSticky s.esticky c.code.toNat)

/-- `raise Fail(c)` in a command with destination `d`: the whole effect of rule R293. -/
def raiseFail (d : Dest) (c : Failure) (s : State) : State := failStatus c (clearDest d s)

/-- The `STATUS` and `ESTICKY` of a command that delivered its result (rules R31, R294). -/
def succeed (warn : Bool) (s : State) : State :=
  (s.setStatus (completedStatus 0 warn)).setESticky (stickyAfter s.esticky warn)

/-- The end of a command with destination `d`: the result `r` is written by `put` with the warning
`warn` says, or the failure takes its effect. -/
def finishWith {α : Type} (d : Dest) (warn : α → Bool) (put : α → State → State)
    (r : Except Failure α) (s : State) : Out :=
  match r with
  | .ok a => .next (succeed (warn a) (put a s))
  | .error c => .next (raiseFail d c s)

/-- The end of a command whose destination is `N[rd]`. -/
def finishN (rd : Fin 8) (r : Except Failure Numeral) (s : State) : Out :=
  finishWith (.num rd) (fun _ => false) (fun x s => s.setN rd (some x)) r s

/-- The end of `CVTK.k`: the numeral goes to `N[rd]`, the bit is the warning (rule R122). -/
def finishNWarn (rd : Fin 8) (r : Except Failure (Numeral × Bool)) (s : State) : Out :=
  finishWith (.num rd) (fun x => x.2) (fun x s => s.setN rd (some x.1)) r s

/-- The end of `DIVS`: quotient to `N[rd]`, remainder to `N[(rd+1) mod 8]` (rule R169). -/
def finishNPair (rd : Fin 8) (r : Except Failure (Numeral × Numeral)) (s : State) : Out :=
  finishWith (.numPair rd) (fun _ => false)
    (fun x s => (s.setN rd (some x.1)).setN (rd + 1) (some x.2)) r s

/-- The end of a command whose destination is `F[rd]`. -/
def finishF (rd : Fin 4) (r : Except Failure Ieee) (s : State) : Out :=
  finishWith (.ieee rd) (fun _ => false) (fun x s => s.setF rd (some x)) r s

/-- The end of a command whose destination is `CC`. -/
def finishCC (r : Except Failure Cond) (s : State) : Out :=
  finishWith .cond (fun _ => false) (fun x s => s.setCC (some x)) r s

/-- The registers `is` receive the numerals `ns`, in order, in one atomic step (rules R99, R166). -/
def State.setNs (s : State) : List (Fin 8) → List Numeral → State
  | i :: is, x :: xs => (s.setN i (some x)).setNs is xs
  | _, _ => s

/-- The end of an in-place command on the registers `is`. -/
def finishInPlace (is : List (Fin 8)) (r : Except Failure (List Numeral)) (s : State) : Out :=
  finishWith .inPlace (fun _ => false) (fun xs s => s.setNs is xs) r s

/-- The effect of an illegal command word, besides `CMD`: only `STATUS` and `ESTICKY` change
(30_encoding.md rule R78; 60_exceptions.md rule R301). -/
def illegalCommand (s : State) : State := failStatus .illegalCommand s

/-- The effect of a refused host write: `STATUS.code` and a bit of `ESTICKY`, with `warn`, `done`
and the target unchanged (60_exceptions.md rule R302). -/
def refuseWrite (c : Failure) (s : State) : State :=
  (s.setStatus (withCode s.status c.code)).setESticky (withSticky s.esticky c.code.toNat)

/-- Reset: every register at its value of rule R36. The inputs still to come and the capacities are
not registers and stay (70_reset_and_hazards.md rule R320). -/
def resetRegisters (s : State) : State :=
  { State.reset with caps := s.caps, inputs := s.inputs }

end Sys2Proof.Machine
end

