-- ==== Sys2Proof/Machine/Primitives.lean ====
section
/-! DEFINITION. The numeral data-model commands: `PARSE.k`, `STDZ`, `PADW`, `PADF`, `EQLEN`, `SIGNM`
(40_numeral_primitives.md rules R92 to R100). -/

namespace Sys2Proof.Machine

/-- The character of a SIGNED sign token: `+` or `-` (rule R92). -/
def isSignChar (c : Byte) : Bool := c == 0x2B#8 || c == 0x2D#8

/-- The cell of a SIGNED sign character: 0 for `+`, 1 for `-` (rules R21, R93). -/
def signCell (c : Byte) : Cell := if c = 0x2B#8 then 0 else 1

/-- The first character of an SMR, OC or TC text as a sign digit, 0 or `r-1` (rule R93). -/
def firstSignDigit (r : Nat) (c : Byte) : Except Failure Cell := do
  failIf (c = 0x2E#8) .invalidInput
  let v ← dv c
  failIf (v.val ≠ 0 ∧ v.val + 1 ≠ r) .invalidInput
  .ok v

/-- The sign run of a text and the characters after it, per kind (rule R93, the `case k`). -/
def splitSign (k : Kind) (r : Nat) (t : Text) : Except Failure (List Cell × Text) :=
  match k with
  | .unsigned => .ok ([], t)
  | .signed => .ok ((t.takeWhile isSignChar).map signCell, t.dropWhile isSignChar)
  | .signMagnitude =>
    match t with
    | [] => .error .invalidInput
    | c :: cs => do
      let v ← firstSignDigit r c
      .ok ([v], cs)
  | .onesComplement | .twosComplement =>
    match t with
    | [] => .error .invalidInput
    | c :: cs => do
      let v ← firstSignDigit r c
      .ok ((t.takeWhile (fun d => d == c)).map (fun _ => v), (c :: cs).dropWhile (fun d => d == c))

/-- The digits of a text after its sign run, split at the radix point; `seen` tells whether the
point has passed (rule R93, the `for each character` loop). -/
def parseDigits (r : Nat) (seen : Bool) : Text → Except Failure (List Cell × List Cell)
  | [] => .ok ([], [])
  | c :: cs =>
    if c = 0x2E#8 then
      if seen then .error .invalidInput else parseDigits r true cs
    else do
      let v ← dv c
      failIf (r ≤ v.val) .invalidDigit
      let wf ← parseDigits r seen cs
      .ok (if seen then (wf.1, v :: wf.2) else (v :: wf.1, wf.2))

/-- A numeral text without a digit is malformed, except for OC and TC (rule R93). -/
def needsDigit (k : Kind) : Bool :=
  match k with
  | .unsigned | .signed | .signMagnitude => true
  | .onesComplement | .twosComplement => false

/-- `parse(text, radix, kind)` (rule R93). -/
def parseText (caps : Capacities) (k : Kind) (radix : Nat) (text : Option Text) :
    Except Failure Numeral := do
  let raw ← held text
  failIf (radix < 2 ∨ 35 < radix) .invalidBase
  let t := stripSpaces raw
  failIf (t = []) .invalidInput
  let st ← splitSign k radix t
  let wf ← parseDigits radix false st.2
  failIf (wf.1 = [] ∧ wf.2 = [] ∧ needsDigit k) .invalidInput
  failIf (exceeds caps.scap st.1.length ∨ exceeds caps.wcap wf.1.length ∨
    exceeds caps.fcap wf.2.length) .capacityExceeded
  .ok ⟨st.1, wf.1, wf.2, cell radix, k⟩

/-- `PARSE.k Nd, Ts, radix` for the kind `k` (rule R93). -/
def parseCommand (k : Kind) (rd : Fin 8) (ts : Fin 2) (radix : BitVec 12) (s : State) : Out :=
  finishN rd (parseText s.caps k (immUnsigned radix) (s.readT ts)) s

/-- `PARSE.UNS` (rule R93). -/
def execParseUns (rd : Fin 8) (ts : Fin 2) (radix : BitVec 12) (s : State) : Out :=
  parseCommand .unsigned rd ts radix s

/-- `PARSE.SGN` (rule R93). -/
def execParseSgn (rd : Fin 8) (ts : Fin 2) (radix : BitVec 12) (s : State) : Out :=
  parseCommand .signed rd ts radix s

/-- `PARSE.SMR` (rule R93). -/
def execParseSmr (rd : Fin 8) (ts : Fin 2) (radix : BitVec 12) (s : State) : Out :=
  parseCommand .signMagnitude rd ts radix s

/-- `PARSE.OC` (rule R93). -/
def execParseOc (rd : Fin 8) (ts : Fin 2) (radix : BitVec 12) (s : State) : Out :=
  parseCommand .onesComplement rd ts radix s

/-- `PARSE.TC` (rule R93). -/
def execParseTc (rd : Fin 8) (ts : Fin 2) (radix : BitVec 12) (s : State) : Out :=
  parseCommand .twosComplement rd ts radix s

/-- `STDZ Nd, Ns` (rule R95). -/
def execStdz (rd rs1 : Fin 8) (s : State) : Out :=
  finishN rd (do
    let n ← held (s.readN rs1)
    n.std) s

/-- The whole digits padded on the left with the whole pad digit to `len` digits. -/
def Numeral.padWhole (n : Numeral) (len : Nat) : List Cell :=
  List.replicate (len - n.whole.length) n.wp ++ n.whole

/-- The fraction digits padded on the right with the fraction pad digit to `len` digits. -/
def Numeral.padFraction (n : Numeral) (len : Nat) : List Cell :=
  n.fraction ++ List.replicate (len - n.fraction.length) n.fp

/-- `padWholeTo(numeral, length)` (rule R97). -/
def padWholeTo (caps : Capacities) (len : Nat) (v : Option Numeral) : Except Failure Numeral := do
  let n ← held v
  failIf (n.valid = false) .invalidNumeral
  failIf (len < n.whole.length) .tooLarge
  failIf (exceeds caps.wcap len) .capacityExceeded
  .ok { n with whole := n.padWhole len }

/-- `PADW Nd, Ns, length` (rule R97). -/
def execPadw (rd rs1 : Fin 8) (length : BitVec 12) (s : State) : Out :=
  finishN rd (padWholeTo s.caps (immUnsigned length) (s.readN rs1)) s

/-- `padFractionTo(numeral, length)`: pad or truncate to exactly `len` digits (rule R98). -/
def padFractionTo (caps : Capacities) (len : Nat) (v : Option Numeral) : Except Failure Numeral := do
  let n ← held v
  failIf (n.valid = false) .invalidNumeral
  failIf (exceeds caps.fcap len) .capacityExceeded
  .ok { n with fraction := if len ≤ n.fraction.length then n.fraction.take len else n.padFraction len }

/-- `PADF Nd, Ns, length` (rule R98). -/
def execPadf (rd rs1 : Fin 8) (length : BitVec 12) (s : State) : Out :=
  finishN rd (padFractionTo s.caps (immUnsigned length) (s.readN rs1)) s

/-- The numeral padded on both sides to `w` whole and `f` fraction digits (rule R99). -/
def Numeral.padTo (n : Numeral) (w f : Nat) : Numeral :=
  { n with whole := n.padWhole w, fraction := n.padFraction f }

/-- `equalizeLength(a, b)`: both operands, padded (rule R99). -/
def equalizeLength (va vb : Option Numeral) : Except Failure (List Numeral) := do
  let a ← held va
  let b ← held vb
  failIf (a.kind ≠ b.kind) .incompatibleTypes
  failIf (a.valid = false ∨ b.valid = false) .invalidNumeral
  let w := max a.whole.length b.whole.length
  let f := max a.fraction.length b.fraction.length
  .ok [a.padTo w f, b.padTo w f]

/-- `EQLEN Na, Nb`, in place (rule R99). -/
def execEqlen (rs1 rs2 : Fin 8) (s : State) : Out :=
  finishInPlace [rs1, rs2] (equalizeLength (s.readN rs1) (s.readN rs2)) s

/-- `SIGNM Ns`, with the `STD` flag (rule R100). -/
def execSignm (std : Bool) (rs1 : Fin 8) (s : State) : Out :=
  finishCC (do
    let n ← held (s.readN rs1)
    .ok (signmValue std n)) s

end Sys2Proof.Machine
end

