-- ==== Sys2Proof/Machine/Representation.lean ====
section
/-! DEFINITION. The representation converter: `CVTK.k`, `COMPL`, `ABSV`, and the sign-magnitude
intermediate they are defined by (41_representation_converter.md rules R120 to R129). -/

namespace Sys2Proof.Machine

/-- The triple `(neg, w, f)` of rule R120: a sign, whole digits and fraction digits. -/
structure SignMag where
  neg      : Bool
  whole    : List Cell
  fraction : List Cell
deriving DecidableEq, Repr

/-- "the `n+m` radix-`r` digits of `y`, split `n | m`" (rules R120, R171). -/
def splitDigits (r n m y : Nat) : List Cell × List Cell :=
  ((toDigits r (n + m) y).take n, (toDigits r (n + m) y).drop n)

/-- The digits of `r^(n+m) - X` for a nonzero digit field `X`, and the `n+1+m` digits of `r^(n+m)`
when `X = 0`: the magnitude of a negative two's complement numeral (rules R120, R128). -/
def radixComplement (r n m x : Nat) : List Cell × List Cell :=
  if x = 0 then splitDigits r (n + 1) m (r ^ (n + m)) else splitDigits r n m (r ^ (n + m) - x)

/-- `to_sm(s)` of a standardized numeral (rule R120). -/
def toSignMag (s : Numeral) : SignMag :=
  let r := s.radix.val
  if s.kind = .unsigned ∨ s.kind = .signed ∨ s.kind = .signMagnitude ∨ s.sm = .plus then
    ⟨decide (s.sm = .minus), s.whole, s.fraction⟩
  else if s.kind = .onesComplement then
    ⟨true, complementDigits r s.whole, complementDigits r s.fraction⟩
  else
    let wf := radixComplement r s.whole.length s.fraction.length s.digitsInt
    ⟨true, wf.1, wf.2⟩

/-- The numeral that `from_sm` builds before it is standardized (rule R121). -/
def rawFromSignMag (p : SignMag) (r : Cell) (k : Kind) : Numeral :=
  let w := if p.whole = [] then [0] else p.whole
  let f := p.fraction
  let top := cell (r.val - 1)
  match k with
  | .unsigned => ⟨[], w, f, r, .unsigned⟩
  | .signed => ⟨if p.neg then [1] else [0], w, f, r, .signed⟩
  | .signMagnitude => ⟨if p.neg then [top] else [0], w, f, r, .signMagnitude⟩
  | .onesComplement =>
    if p.neg then ⟨[top], complementDigits r.val w, complementDigits r.val f, r, .onesComplement⟩
    else ⟨[0], w, f, r, .onesComplement⟩
  | .twosComplement =>
    if p.neg ∧ ¬ (allZero w ∧ allZero f) then
      let wf := splitDigits r.val w.length f.length
        (r.val ^ (w.length + f.length) - ofDigits r.val (w ++ f))
      ⟨[top], wf.1, wf.2, r, .twosComplement⟩
    else ⟨[0], w, f, r, .twosComplement⟩

/-- `from_sm(neg, w, f, r, K)`: the standardized numeral and the warning bit (rule R121). -/
def fromSignMag (p : SignMag) (r : Cell) (k : Kind) : Except Failure (Numeral × Bool) := do
  let x ← (rawFromSignMag p r k).std
  .ok (x, decide (k = .unsigned) && p.neg)

/-- The conversion of a numeral to kind `k` (rules R122 to R126). -/
def convertKind (caps : Capacities) (k : Kind) (v : Option Numeral) :
    Except Failure (Numeral × Bool) := do
  let n ← held v
  let s ← n.std
  let xw ← fromSignMag (toSignMag s) s.radix k
  let _ ← capWhole caps xw.1
  .ok xw

/-- `CVTK.k Nd, Ns` for the kind `k` (rules R122 to R126). -/
def cvtkCommand (k : Kind) (rd rs1 : Fin 8) (s : State) : Out :=
  finishNWarn rd (convertKind s.caps k (s.readN rs1)) s

/-- `CVTK.UNS`, the only command that can set `STATUS.warn` (rules R122, R294). -/
def execCvtkUns (rd rs1 : Fin 8) (s : State) : Out := cvtkCommand .unsigned rd rs1 s

/-- `CVTK.SGN` (rule R123). -/
def execCvtkSgn (rd rs1 : Fin 8) (s : State) : Out := cvtkCommand .signed rd rs1 s

/-- `CVTK.SMR` (rule R124). -/
def execCvtkSmr (rd rs1 : Fin 8) (s : State) : Out := cvtkCommand .signMagnitude rd rs1 s

/-- `CVTK.OC` (rule R125). -/
def execCvtkOc (rd rs1 : Fin 8) (s : State) : Out := cvtkCommand .onesComplement rd rs1 s

/-- `CVTK.TC` (rule R126). -/
def execCvtkTc (rd rs1 : Fin 8) (s : State) : Out := cvtkCommand .twosComplement rd rs1 s

/-- The first token of a SIGNED sign run flipped; an empty run becomes `-` (rule R128). -/
def flipFirst (sign : List Cell) : List Cell :=
  match sign with
  | [] => [1]
  | t :: ts => cell (1 - t.val) :: ts

/-- The complement of a valid numeral of a kind other than UNSIGNED, lengths kept (rule R128, the
`case a.kind`); an UNSIGNED numeral, which rule R128 rejects before, is left as it is. -/
def complementOf (a : Numeral) : Numeral :=
  let r := a.radix.val
  let flipped := a.sign.map (fun t => cell (r - 1 - t.val))
  match a.kind with
  | .unsigned => a
  | .signed => { a with sign := flipFirst a.sign }
  | .signMagnitude => { a with sign := flipped }
  | .onesComplement =>
    { a with sign := flipped, whole := complementDigits r a.whole,
             fraction := complementDigits r a.fraction }
  | .twosComplement =>
    if a.sm = .plus ∧ a.digitsInt = 0 then a
    else
      let wf := radixComplement r a.whole.length a.fraction.length a.digitsInt
      { a with sign := flipped, whole := wf.1, fraction := wf.2 }

/-- `complement(numeral)` (rule R128). -/
def complementNumeral (caps : Capacities) (v : Option Numeral) : Except Failure Numeral := do
  let a ← held v
  failIf (a.kind = .unsigned) .unsupportedForUnsigned
  failIf (a.valid = false) .invalidNumeral
  capWhole caps (complementOf a)

/-- `COMPL Nd, Ns` (rule R128). -/
def execCompl (rd rs1 : Fin 8) (s : State) : Out :=
  finishN rd (complementNumeral s.caps (s.readN rs1)) s

/-- The absolute value: `COMPL` of a negative numeral, a copy of any other (rule R129). -/
def absoluteValue (caps : Capacities) (v : Option Numeral) : Except Failure Numeral := do
  let a ← held v
  failIf (a.valid = false) .invalidNumeral
  if a.kind ≠ .unsigned ∧ a.sm = .minus then complementNumeral caps (some a) else .ok a

/-- `ABSV Nd, Ns` (rule R129). -/
def execAbsv (rd rs1 : Fin 8) (s : State) : Out :=
  finishN rd (absoluteValue s.caps (s.readN rs1)) s

end Sys2Proof.Machine
end

