-- ==== Sys2Proof/Machine/BaseConvert.lean ====
section
/-! DEFINITION. The base converter: `TODEC`, `FROMDEC`, `CVTB` (42_base_converter.md rules R140 to
R145), in exact integer arithmetic. -/

namespace Sys2Proof.Machine

/-- Check (2) of rule R140: the kind is UNSIGNED or SIGNED. -/
def checkMagnitudeKind (n : Numeral) : Except Failure Unit :=
  failIf (n.kind ≠ .unsigned ∧ n.kind ≠ .signed) .invalidOperand

/-- Check (4) of rule R140 and rule R79: with `STD = 0` the operand is standardized, with `STD = 1`
it must be standardized already. -/
def standardizeBy (std : Bool) (n : Numeral) : Except Failure Numeral := do
  let s ← n.std
  failIf (std ∧ s ≠ n) .invalidNumeral
  .ok s

/-- The fraction accumulator of rule R142 over the digits from position `k` on:
`floor(d * 10^8 / r^(k+1))`, added up. -/
def fractionAcc (r : Nat) : Nat → List Cell → Nat
  | _, [] => 0
  | k, d :: ds => d.val * precisionNumber / r ^ (k + 1) + fractionAcc r (k + 1) ds

/-- The digits `dfrac(acc)`: 8 digits, trailing zeros removed (rule R142). -/
def decimalFraction (acc : Nat) : List Cell := trimTrailing 0 (toDigits 10 fractionPrecision acc)

/-- The decimal numeral of a standardized numeral (rules R141 to R143). -/
def decimalOf (s : Numeral) : Numeral where
  sign     := s.sign
  whole    := minDigits 10 (ofDigits s.radix.val s.whole)
  fraction := decimalFraction (fractionAcc s.radix.val 0 s.fraction)
  radix    := 10
  kind     := s.kind

/-- `toDecimal(numeral, standardized)` (rule R143). -/
def toDecimal (caps : Capacities) (std : Bool) (v : Option Numeral) : Except Failure Numeral := do
  let n ← held v
  checkMagnitudeKind n
  let s ← standardizeBy std n
  capWhole caps (decimalOf s)

/-- `TODEC Nd, Ns` (rule R143). -/
def execTodec (std : Bool) (rd rs1 : Fin 8) (s : State) : Out :=
  finishN rd (toDecimal s.caps std (s.readN rs1)) s

/-- The radix-`r` digits of the fraction `num / den < 1`: "multiply remaining fraction by radix, take
integer part as next digit", at most `fuel` digits and none once the remainder is 0 (rule R144). -/
def fractionDigits (r den : Nat) : Nat → Nat → List Cell
  | 0, _ => []
  | fuel + 1, num =>
    if num = 0 then []
    else cell (num * r / den) :: fractionDigits r den fuel (num * r % den)

/-- The radix-`r` numeral of a standardized decimal numeral (rule R144). -/
def radixOf (r : Nat) (s : Numeral) : Numeral where
  sign     := s.sign
  whole    := minDigits r (ofDigits 10 s.whole)
  fraction := trimTrailing 0
    (fractionDigits r (10 ^ s.fraction.length) fractionPrecision (ofDigits 10 s.fraction))
  radix    := cell r
  kind     := s.kind

/-- `fromDecimal(numeral, radix, standardized)` (rule R144). -/
def fromDecimal (caps : Capacities) (std : Bool) (r : Nat) (v : Option Numeral) :
    Except Failure Numeral := do
  let n ← held v
  checkMagnitudeKind n
  failIf (n.radix ≠ 10) .invalidBase
  failIf (r < 2 ∨ 35 < r) .invalidBase
  let s ← standardizeBy std n
  capWhole caps (radixOf r s)

/-- `FROMDEC Nd, Ns, radix` (rule R144). -/
def execFromdec (std : Bool) (rd rs1 : Fin 8) (radix : BitVec 12) (s : State) : Out :=
  finishN rd (fromDecimal s.caps std (immUnsigned radix) (s.readN rs1)) s

/-- `convertBases(numeral, radix_to)`: a copy when the radices agree, else through radix 10 (rules
R145, R300). -/
def convertBases (caps : Capacities) (r : Nat) (v : Option Numeral) : Except Failure Numeral := do
  let n ← held v
  failIf (r < 2 ∨ 35 < r) .invalidBase
  if r = n.radix.val then .ok n
  else do
    let t ← toDecimal caps false (some n)
    fromDecimal caps false r (some t)

/-- `CVTB Nd, Ns, radix` (rule R145). -/
def execCvtb (rd rs1 : Fin 8) (radix : BitVec 12) (s : State) : Out :=
  finishN rd (convertBases s.caps (immUnsigned radix) (s.readN rs1)) s

end Sys2Proof.Machine
end

