-- ==== Sys2Proof/Machine/FixedPoint.lean ====
section
/-! DEFINITION. The fixed-point arithmetic engine: `CMPM`, `ADDN`, `SHL`, `SHRL`, `SHRA`, `ADDLP`,
`MULU`, `DIVS` (43_fixed_point.md rules R160 to R171). -/

namespace Sys2Proof.Machine

/-- `compareMagnitude(a, b)` (rule R160). -/
def compareMagnitude (va vb : Option Numeral) : Except Failure Cond := do
  let a ← held va
  let b ← held vb
  failIf (a.radix ≠ b.radix) .differentBase
  failIf (a.kind ≠ b.kind) .differentType
  failIf (a.valid = false ∨ b.valid = false) .invalidOperand
  failIf (a.whole.length ≠ b.whole.length ∨ a.fraction.length ≠ b.fraction.length) .invalidOperand
  .ok (compareDigits (a.whole ++ a.fraction) (b.whole ++ b.fraction))

/-- `CMPM Na, Nb` (rule R160). -/
def execCmpm (rs1 rs2 : Fin 8) (s : State) : Out :=
  finishCC (compareMagnitude (s.readN rs1) (s.readN rs2)) s

/-- `repr(v, r, K, Lw, m, negzero)` of rule R171, on the integer `x = v * r^m`. For UNSIGNED, where
`x < 0` cannot occur, the digits are those of `|x|` as for SIGNED. -/
def reprNumeral (x : Int) (r : Cell) (k : Kind) (lw m : Nat) (negzero : Bool) : Numeral :=
  let rv := r.val
  let top := cell (rv - 1)
  let mk (n : Nat) (sign : List Cell) (y : Nat) : Numeral :=
    ⟨sign, (splitDigits rv n m y).1, (splitDigits rv n m y).2, r, k⟩
  let neg : Bool := decide (x < 0) || (decide (x = 0) && negzero)
  let magLen := leastLength rv m x.natAbs lw
  match k with
  | .unsigned => mk magLen [] x.natAbs
  | .signed => mk magLen (if neg then [1] else [0]) x.natAbs
  | .signMagnitude => mk magLen (if neg then [top] else [0]) x.natAbs
  | .onesComplement =>
    if x < 0 then
      -- least n with X + r^(n+m) - 1 >= 0, that is |X| < r^(n+m)
      mk magLen [top] (rv ^ (magLen + m) - 1 - x.natAbs)
    else mk magLen [0] x.natAbs
  | .twosComplement =>
    if x < 0 then
      -- least n with X + r^(n+m) >= 0, that is |X| - 1 < r^(n+m)
      let n := leastLength rv m (x.natAbs - 1) lw
      mk n [top] (rv ^ (n + m) - x.natAbs)
    else mk magLen [0] x.natAbs

/-- `add(a, b)`, value-exact for every kind (rule R161). -/
def addNumerals (caps : Capacities) (va vb : Option Numeral) : Except Failure Numeral := do
  let a ← held va
  let b ← held vb
  failIf (a.radix ≠ b.radix) .differentBase
  failIf (a.kind ≠ b.kind) .differentType
  failIf (a.valid = false ∨ b.valid = false) .invalidOperand
  let lw := max (max a.whole.length b.whole.length) 1
  let m := max a.fraction.length b.fraction.length
  let negzero := decide ((a.kind = .signed ∨ a.kind = .signMagnitude) ∧ a.sm = .minus ∧ b.sm = .minus)
  capWhole caps (reprNumeral (a.valScaled m + b.valScaled m) a.radix a.kind lw m negzero)

/-- `ADDN Nd, Na, Nb` (rule R161). -/
def execAddn (rd rs1 rs2 : Fin 8) (s : State) : Out :=
  finishN rd (addNumerals s.caps (s.readN rs1) (s.readN rs2)) s

/-- The three shift kinds (30_encoding.md rule R76). -/
inductive ShiftKind where
  | left
  | rightLogical
  | rightArithmetic
deriving DecidableEq, Repr

/-- The contents of a run of registers, or `InvalidInput` when one holds no value (rule R166). -/
def heldAll : List (Option Numeral) → Except Failure (List Numeral)
  | [] => .ok []
  | v :: vs => do
    let n ← held v
    let ns ← heldAll vs
    .ok (n :: ns)

/-- The concatenated view: `whole ++ fraction` of each register in turn (rule R166). -/
def shiftView (regs : List Numeral) : List Cell :=
  match regs with
  | [] => []
  | n :: ns => n.whole ++ n.fraction ++ shiftView ns

/-- The digit `SHRA` shifts in: the first sign token of a complement-kind first register, else 0
(rule R165). -/
def shraFill (regs : List Numeral) : Cell :=
  match regs with
  | [] => 0
  | n :: _ =>
    match n.kind with
    | .onesComplement | .twosComplement => n.sign.headD 0
    | .unsigned | .signed | .signMagnitude => 0

/-- The shifted view, of the same length, with `p <= len(view)` (rules R163 to R165). -/
def shiftedView (k : ShiftKind) (fill : Cell) (p : Nat) (view : List Cell) : List Cell :=
  match k with
  | .left => view.drop p ++ List.replicate p 0
  | .rightLogical => List.replicate p 0 ++ view.take (view.length - p)
  | .rightArithmetic => List.replicate p fill ++ view.take (view.length - p)

/-- The view written back: each register gets as many whole and fraction digits as it had; sign
run, radix and kind stay (rule R166). -/
def refill : List Numeral → List Cell → List Numeral
  | [], _ => []
  | n :: ns, ds =>
    { n with whole := ds.take n.whole.length,
             fraction := (ds.drop n.whole.length).take n.fraction.length }
      :: refill ns (ds.drop (n.whole.length + n.fraction.length))

/-- The registers of a run hold one radix (rule R166). -/
def sameRadix (regs : List Numeral) : Bool :=
  match regs with
  | [] => true
  | n :: ns => ns.all (fun x => x.radix == n.radix)

/-- `shift(registers[], positions, kind)` (rules R163 to R166). The checks stand in the order of rule R166's
pseudocode, which 60_exceptions.md rule R295 (3) makes decisive (DEDUCED against the prose of decision D31,
notes/assumptions/5.md). -/
def shiftRegisters (k : ShiftKind) (positions : Nat) (vs : List (Option Numeral)) :
    Except Failure (List Numeral) := do
  let regs ← heldAll vs
  failIf (sameRadix regs = false) .differentBase
  failIf (regs.any (fun n => n.kind == .signed)) .invalidOperand
  failIf (regs.any (fun n => !(digitsBelow n.radix n.whole && digitsBelow n.radix n.fraction)))
    .invalidDigit
  let view := shiftView regs
  let p := min positions view.length
  .ok (refill regs (shiftedView k (shraFill regs) p view))

/-- A shift over `N[first], ..., N[last]`. With `first > last` the command is illegal: the decoder
rejects its word, and here it has the same effect (rule R78). -/
def shiftCommand (k : ShiftKind) (first last : Fin 8) (positions : BitVec 12) (s : State) : Out :=
  if first ≤ last then
    let is := registerRun first last
    finishInPlace is (shiftRegisters k (immUnsigned positions) (is.map s.readN)) s
  else .next (illegalCommand s)

/-- `SHL Nfirst, Nlast, positions` (rule R163). -/
def execShl (first last : Fin 8) (positions : BitVec 12) (s : State) : Out :=
  shiftCommand .left first last positions s

/-- `SHRL Nfirst, Nlast, positions` (rule R164). -/
def execShrl (first last : Fin 8) (positions : BitVec 12) (s : State) : Out :=
  shiftCommand .rightLogical first last positions s

/-- `SHRA Nfirst, Nlast, positions` (rule R165). -/
def execShra (first last : Fin 8) (positions : BitVec 12) (s : State) : Out :=
  shiftCommand .rightArithmetic first last positions s

/-- `addToLowestPoint` on a magnitude: UNSIGNED, SIGNED and SMR (rule R167). -/
def addToMagnitude (a : Numeral) (delta : Int) : Except Failure Numeral := do
  let r := a.radix.val
  let m := a.fraction.length
  let x : Int := (a.digitsInt : Int) + delta
  failIf (x < 0) .underflow
  let n := leastLength r m x.toNat (max a.whole.length 1)
  .ok { a with whole := (splitDigits r n m x.toNat).1, fraction := (splitDigits r n m x.toNat).2 }

/-- `addToLowestPoint(numeral, delta)` (rule R167). -/
def addToLowestPoint (caps : Capacities) (delta : Int) (v : Option Numeral) :
    Except Failure Numeral := do
  let a ← held v
  failIf (a.valid = false) .invalidOperand
  let m := a.fraction.length
  let x ← match a.kind with
    | .unsigned | .signed | .signMagnitude => addToMagnitude a delta
    | .onesComplement | .twosComplement =>
      .ok (reprNumeral (a.valScaled m + delta) a.radix a.kind (max a.whole.length 1) m false)
  capWhole caps x

/-- `ADDLP Nd, Ns, delta` (rule R167). -/
def execAddlp (rd rs1 : Fin 8) (delta : BitVec 12) (s : State) : Out :=
  finishN rd (addToLowestPoint s.caps (immSigned delta) (s.readN rs1)) s

/-- The checks `MULU` and `DIVS` share, giving the two standardized integers of kind `k` (rules R168,
R169). -/
def integerOperands (k : Kind) (va vb : Option Numeral) : Except Failure (Numeral × Numeral) := do
  let na ← held va
  let nb ← held vb
  failIf (na.radix ≠ nb.radix) .differentBase
  failIf (na.kind ≠ k ∨ nb.kind ≠ k) .invalidOperand
  let a ← na.std
  let b ← nb.std
  failIf (a.fraction ≠ [] ∨ b.fraction ≠ []) .invalidOperand
  .ok (a, b)

/-- `multiplyUnsigned(a, b)` (rule R168). -/
def multiplyUnsigned (caps : Capacities) (va vb : Option Numeral) : Except Failure Numeral := do
  let ab ← integerOperands .unsigned va vb
  let r := ab.1.radix
  let p := ofDigits r.val ab.1.whole * ofDigits r.val ab.2.whole
  capWhole caps ⟨[], minDigits r.val p, [], r, .unsigned⟩

/-- `MULU Nd, Na, Nb` (rule R168). -/
def execMulu (rd rs1 rs2 : Fin 8) (s : State) : Out :=
  finishN rd (multiplyUnsigned s.caps (s.readN rs1) (s.readN rs2)) s

/-- The SIGNED numeral of an integer, `mk(v)` of rule R169; a zero is `+0`. -/
def signedInteger (r : Cell) (v : Int) : Numeral :=
  ⟨if v < 0 then [1] else [0], minDigits r.val v.natAbs, [], r, .signed⟩

/-- The integer value of a standardized SIGNED numeral with no fraction. -/
def signedValue (n : Numeral) : Int := n.sm.toInt * (ofDigits n.radix.val n.whole : Int)

/-- `divideSigned(a, b)`: the truncating quotient and the remainder (rule R169). -/
def divideSigned (caps : Capacities) (va vb : Option Numeral) :
    Except Failure (Numeral × Numeral) := do
  let ab ← integerOperands .signed va vb
  let x := signedValue ab.1
  let y := signedValue ab.2
  failIf (y = 0) .invalidOperand
  let q ← capWhole caps (signedInteger ab.1.radix (x.tdiv y))
  let rem ← capWhole caps (signedInteger ab.1.radix (x - x.tdiv y * y))
  .ok (q, rem)

/-- `DIVS Nd, Na, Nb` (rule R169). -/
def execDivs (rd rs1 rs2 : Fin 8) (s : State) : Out :=
  finishNPair rd (divideSigned s.caps (s.readN rs1) (s.readN rs2)) s

end Sys2Proof.Machine
end

