-- ==== Sys2Proof/Machine/IeeeEncode.lean ====
section
/-! DEFINITION. The IEEE754 encoder `ENC.f`, the DPD transcoder and `FPARSE.f` (44_ieee_encode.md
rules R190 to R211). -/

namespace Sys2Proof.Machine

/-- Step 1: the standardized decimal significand and the exponent text (rule R190). -/
def encodeOperands (v : Option Numeral) (tx : Option Text) : Except Failure (Numeral × Text) := do
  let n ← held v
  let t ← held tx
  failIf (n.kind ≠ .signed ∨ n.radix ≠ 10) .invalidOperand
  let s ← n.std
  .ok (s, t)

/-- The sign bit: it depends on the sign token only (rule R192). -/
def signBit (s : Numeral) : Bool := decide (s.sign = [1])

/-- Step 2: the significand in the format's radix (rule R191). -/
def encodeRadix (caps : Capacities) (fmt : Format) (s : Numeral) : Except Failure Numeral :=
  match fmt with
  | .b32 | .b64 | .h32 => fromDecimal caps true fmt.radix (some s)
  | .d32dpd | .d32bid => .ok s

/-- A decimal digit character. -/
def isDecimalChar (c : Byte) : Bool := decide (0x30 ≤ c.toNat ∧ c.toNat ≤ 0x39)

/-- The natural number that a sequence of decimal digit characters denotes; the empty sequence and
any other character are `InvalidExponent` (rule R194). -/
def decimalChars (t : Text) : Except Failure Nat :=
  if t = [] ∨ t.all isDecimalChar = false then .error .invalidExponent
  else .ok (t.foldl (fun acc c => acc * 10 + (c.toNat - 0x30)) 0)

/-- Step 4: the exponent text, `[+-]?[0-9]+` (rule R194). -/
def parseExponent (t : Text) : Except Failure Int :=
  match t with
  | [] => .error .invalidExponent
  | c :: cs =>
    if c = 0x2B#8 then do
      let v ← decimalChars cs
      .ok (v : Int)
    else if c = 0x2D#8 then do
      let v ← decimalChars cs
      .ok (-(v : Int))
    else do
      let v ← decimalChars (c :: cs)
      .ok (v : Int)

/-- `len` copies of a bit. -/
def rep (b : Bool) (len : Nat) : Bits := List.replicate len b

/-- The ±∞ pattern of a format (rule R209). -/
def infPattern (fmt : Format) (sign : Bool) : Ieee :=
  match fmt with
  | .b32 | .b64 | .h32 =>
    Ieee.ofFields fmt sign (rep true fmt.expWidth) (rep false fmt.sigWidth)
  | .d32dpd | .d32bid =>
    Ieee.ofFields fmt sign (rep true 4 ++ rep false 7) (rep false fmt.sigWidth)

/-- The zero pattern of a binary format or HEXADECIMAL32 (rule R195). -/
def zeroPattern (fmt : Format) (sign : Bool) : Ieee :=
  Ieee.ofFields fmt sign (rep false fmt.expWidth) (rep false fmt.sigWidth)

/-- The number of leading zero digits. -/
def leadingZeros (ds : List Cell) : Nat := (ds.takeWhile (fun d => d == 0)).length

/-- Step 5 for the binary formats: the adjusted exponent and the significand field (rule R199). -/
def normalizeBinary (c : Numeral) (e : Int) (sw : Nat) : Int × Bits :=
  let et : Int × List Cell :=
    if c.whole ≠ [0] then (e + c.whole.length - 1, c.whole.drop 1 ++ c.fraction)
    else
      let p := leadingZeros c.fraction + 1
      (e - p, c.fraction.drop p)
  (et.1, ((et.2 ++ List.replicate sw 0).take sw).map (fun d : Cell => decide (d.val = 1)))

/-- Step 5 for HEXADECIMAL32: the adjusted exponent and the six digits, the radix point before the
first nonzero digit (rule R207). -/
def normalizeHex (c : Numeral) (e : Int) : Int × List Cell :=
  let et : Int × List Cell :=
    if c.whole ≠ [0] then (e + c.whole.length, c.whole ++ c.fraction)
    else
      let z := leadingZeros c.fraction
      (e - z, c.fraction.drop z)
  (et.1, (et.2 ++ List.replicate 6 0).take 6)

/-- The coefficient digits `ds` with more than 7 digits cut to 7 and rounded on the first dropped
digit `g` alone; the number tells how much the exponent grows beyond the cut (rule R200). -/
def roundCoefficient (ds : List Cell) : List Cell × Nat :=
  let kept := ds.take 7
  let g := ((ds.drop 7).headD 0).val
  if 5 < g ∨ (g = 5 ∧ (kept.getLastD 0).val % 2 = 1) then
    let up := minDigits 10 (ofDigits 10 kept + 1)
    if up.length = 8 then (up.take 7, 1) else (up, 0)
  else (kept, 0)

/-- Step 5 for the decimal formats: seven coefficient digits and the exponent `q` (rule R200). -/
def normalizeDecimal (c : Numeral) (e : Int) : List Cell × Int :=
  let ds := trimLeading 0 (c.whole ++ c.fraction)
  let q : Int := e - c.fraction.length
  let dq : List Cell × Int :=
    if 7 < ds.length then
      ((roundCoefficient ds).1, q + ((ds.length - 7 : Nat) : Int) + ((roundCoefficient ds).2 : Int))
    else (ds, q)
  (List.replicate (7 - dq.1.length) 0 ++ dq.1, dq.2)

/-- Steps 6 and 7: the range check and the biased exponent (rule R196). -/
def biasedExponent (fmt : Format) (x : Int) : Except Failure Nat := do
  failIf (x < fmt.emin ∨ fmt.emax < x) .exponentOutOfBounds
  .ok (x + fmt.bias).toNat

/-- The Decimal32 DPD exponent field from the biased exponent and the leading digit (rule R202). -/
def combineDpd (biased : Nat) (d0 : Cell) : Bits :=
  let eb := bits biased 8
  let b := bits d0.val 4
  let comb := if d0.val ≤ 7 then slice eb 0 1 ++ slice b 1 3 else rep true 2 ++ slice eb 0 1 ++ slice b 3 3
  comb ++ slice eb 2 7

/-- The Decimal32 BID exponent and significand fields of the coefficient `c` (rule R206). -/
def combineBid (biased c : Nat) : Bits × Bits :=
  let cb := bits c 24
  let eb := bits biased 8
  if c < 2 ^ 23 then (eb ++ slice cb 1 3, slice cb 4 23)
  else (rep true 2 ++ eb ++ slice cb 3 3, slice cb 4 23)

/-- `decimalToDPD` on one 12-bit group, by the table on the steering bits `a e i` (rule R203). -/
def dpdGroup (a b c d e f g h i j k m : Bool) : Bits :=
  match a, e, i with
  | false, false, false => [b, c, d, f, g, h, false, j, k, m]
  | false, false, true  => [b, c, d, f, g, h, true, false, false, m]
  | false, true,  false => [b, c, d, j, k, h, true, false, true, m]
  | true,  false, false => [j, k, d, f, g, h, true, true, false, m]
  | true,  true,  false => [j, k, d, false, false, h, true, true, true, m]
  | true,  false, true  => [f, g, d, false, true, h, true, true, true, m]
  | false, true,  true  => [b, c, d, true, false, h, true, true, true, m]
  | true,  true,  true  => [false, false, d, true, true, h, true, true, true, m]

/-- `decimalToDPD`: group by group (rule R205). A length that is no multiple of 12 is not reachable;
the odd bits are dropped. -/
def decimalToDPD : Bits → Bits
  | a :: b :: c :: d :: e :: f :: g :: h :: i :: j :: k :: m :: rest =>
    dpdGroup a b c d e f g h i j k m ++ decimalToDPD rest
  | _ => []

/-- `DPDtoDecimal` on one declet, by the table on `v`, `w x`, `s t` (rule R204). -/
def decletDigits (p q r s t u v w x y : Bool) : Bits :=
  match v, w, x, s, t with
  | false, _, _, _, _ => [false, p, q, r, false, s, t, u, false, w, x, y]
  | true, false, false, _, _ => [false, p, q, r, false, s, t, u, true, false, false, y]
  | true, false, true, _, _ => [false, p, q, r, true, false, false, u, false, s, t, y]
  | true, true, false, _, _ => [true, false, false, r, false, s, t, u, false, p, q, y]
  | true, true, true, false, false => [true, false, false, r, true, false, false, u, false, p, q, y]
  | true, true, true, false, true => [true, false, false, r, false, p, q, u, true, false, false, y]
  | true, true, true, true, false => [false, p, q, r, true, false, false, u, true, false, false, y]
  | true, true, true, true, true => [true, false, false, r, true, false, false, u, true, false, false, y]

/-- `DPDtoDecimal`: declet by declet (rules R204, R205). -/
def dpdToDecimal : Bits → Bits
  | p :: q :: r :: s :: t :: u :: v :: w :: x :: y :: rest =>
    decletDigits p q r s t u v w x y ++ dpdToDecimal rest
  | _ => []

/-- Each digit as its 4-bit code. -/
def digitCodes (ds : List Cell) : Bits := ds.flatMap (fun d : Cell => bits d.val 4)

/-- Steps 4 to 8 for a binary format: the converted significand `c` is within capacity (rules R195 to
R199). -/
def packBinary (fmt : Format) (sign : Bool) (c : Numeral) (t : Text) : Except Failure Ieee := do
  let e ← parseExponent t
  if allZero c.whole ∧ allZero c.fraction then .ok (zeroPattern fmt sign)
  else do
    let ef := normalizeBinary c e fmt.sigWidth
    let biased ← biasedExponent fmt ef.1
    .ok (Ieee.ofFields fmt sign (bits biased fmt.expWidth) ef.2)

/-- Steps 4 to 8 for HEXADECIMAL32 (rules R195, R196, R207, R208). -/
def packHex (sign : Bool) (c : Numeral) (t : Text) : Except Failure Ieee := do
  let e ← parseExponent t
  if allZero c.whole ∧ allZero c.fraction then .ok (zeroPattern .h32 sign)
  else do
    let eh := normalizeHex c e
    let biased ← biasedExponent .h32 eh.1
    .ok (Ieee.ofFields .h32 sign (bits biased Format.h32.expWidth) (digitCodes eh.2))

/-- Steps 4 to 8 for Decimal32 DPD (rules R200 to R203). -/
def packDpd (sign : Bool) (c : Numeral) (t : Text) : Except Failure Ieee := do
  let e ← parseExponent t
  let dq := normalizeDecimal c e
  let biased ← biasedExponent .d32dpd dq.2
  .ok (Ieee.ofFields .d32dpd sign (combineDpd biased (dq.1.headD 0))
    (decimalToDPD (digitCodes (dq.1.drop 1))))

/-- Steps 4 to 8 for Decimal32 BID (rules R200, R206, R211). -/
def packBid (sign : Bool) (c : Numeral) (t : Text) : Except Failure Ieee := do
  let e ← parseExponent t
  let dq := normalizeDecimal c e
  let biased ← biasedExponent .d32bid dq.2
  let es := combineBid biased (ofDigits 10 dq.1)
  .ok (Ieee.ofFields .d32bid sign es.1 es.2)

/-- `ENC.f`: steps 1 to 3, with the short-circuit to ±∞ of rule R193, then the format's `pack`. -/
def encodeValue (caps : Capacities) (fmt : Format)
    (pack : Bool → Numeral → Text → Except Failure Ieee) (v : Option Numeral) (tx : Option Text) :
    Except Failure Ieee := do
  let st ← encodeOperands v tx
  let sign := signBit st.1
  let c ← encodeRadix caps fmt st.1
  if fmt.digits < c.whole.length then .ok (infPattern fmt sign) else pack sign c st.2

/-- `ENC.B32 Fd, Ns, Tx` (rule R197). -/
def execEncB32 (rd : Fin 4) (rs1 : Fin 8) (tx : Fin 2) (s : State) : Out :=
  finishF rd (encodeValue s.caps .b32 (packBinary .b32) (s.readN rs1) (s.readT tx)) s

/-- `ENC.B64 Fd, Ns, Tx` (rule R198). -/
def execEncB64 (rd : Fin 4) (rs1 : Fin 8) (tx : Fin 2) (s : State) : Out :=
  finishF rd (encodeValue s.caps .b64 (packBinary .b64) (s.readN rs1) (s.readT tx)) s

/-- `ENC.D32DPD Fd, Ns, Tx` (rule R201). -/
def execEncD32dpd (rd : Fin 4) (rs1 : Fin 8) (tx : Fin 2) (s : State) : Out :=
  finishF rd (encodeValue s.caps .d32dpd packDpd (s.readN rs1) (s.readT tx)) s

/-- `ENC.D32BID Fd, Ns, Tx` (rule R211). -/
def execEncD32bid (rd : Fin 4) (rs1 : Fin 8) (tx : Fin 2) (s : State) : Out :=
  finishF rd (encodeValue s.caps .d32bid packBid (s.readN rs1) (s.readT tx)) s

/-- `ENC.H32 Fd, Ns, Tx` (rule R208). -/
def execEncH32 (rd : Fin 4) (rs1 : Fin 8) (tx : Fin 2) (s : State) : Out :=
  finishF rd (encodeValue s.caps .h32 packHex (s.readN rs1) (s.readT tx)) s

/-- A bit character, `0` or `1`. -/
def isBitChar (c : Byte) : Bool := c == 0x30#8 || c == 0x31#8

/-- A fixed-width bit string supplied as text: spaces removed, exactly the format's width of `0` and
`1`, cut by position (rule R210). -/
def parseBits (fmt : Format) (v : Option Text) : Except Failure Ieee := do
  let raw ← held v
  let t := stripSpaces raw
  failIf (t.length ≠ fmt.width ∨ t.all isBitChar = false) .invalidEncoding
  let bs : Bits := t.map (fun c => c == 0x31#8)
  .ok (Ieee.ofFields fmt (bs.headD false) (slice bs 1 fmt.expWidth)
    (slice bs (fmt.expWidth + 1) (fmt.width - 1)))

/-- `FPARSE.f Fd, Ts` for the format `fmt` (rule R210). -/
def fparseCommand (fmt : Format) (rd : Fin 4) (ts : Fin 2) (s : State) : Out :=
  finishF rd (parseBits fmt (s.readT ts)) s

/-- `FPARSE.B32` (rule R210). -/
def execFparseB32 (rd : Fin 4) (ts : Fin 2) (s : State) : Out := fparseCommand .b32 rd ts s

/-- `FPARSE.B64` (rule R210). -/
def execFparseB64 (rd : Fin 4) (ts : Fin 2) (s : State) : Out := fparseCommand .b64 rd ts s

/-- `FPARSE.D32DPD` (rule R210). -/
def execFparseD32dpd (rd : Fin 4) (ts : Fin 2) (s : State) : Out := fparseCommand .d32dpd rd ts s

/-- `FPARSE.D32BID` (rule R210). -/
def execFparseD32bid (rd : Fin 4) (ts : Fin 2) (s : State) : Out := fparseCommand .d32bid rd ts s

/-- `FPARSE.H32` (rule R210). -/
def execFparseH32 (rd : Fin 4) (ts : Fin 2) (s : State) : Out := fparseCommand .h32 rd ts s

end Sys2Proof.Machine
end

