-- ==== Sys2Proof/Machine/IeeeDecode.lean ====
section
/-! DEFINITION. The IEEE754 decoder `DEC.f` (45_ieee_decode.md rules R230 to R244). -/

namespace Sys2Proof.Machine

/-- What a decode delivers, the SignificandExponentPair of 10_state.md rule R25: a special value, or
the triple of significand, base and exponent. -/
inductive Decoded where
  | special (tag : DecTag)
  | number (x : Numeral) (base : BitVec 6) (ex : Int)
deriving DecidableEq, Repr

/-- The result written to `N[rd]`, `PTAG`, `PBASE`, `PEXP`; for a special value the other three hold
no value (rule R239). -/
def putDecoded (rd : Fin 8) (d : Decoded) (s : State) : State :=
  match d with
  | .special tag => (s.setN rd none).setP (some tag) none none
  | .number x base ex => (s.setN rd (some x)).setP (some .numeric) (some base) (some ex)

/-- The end of `DEC.f` (rules R239, R293). -/
def finishDecoded (rd : Fin 8) (r : Except Failure Decoded) (s : State) : Out :=
  finishWith (.decoded rd) (fun _ => false) (putDecoded rd) r s

/-- Step 1: a value of the format asked for (rule R230). -/
def decodeOperand (fmt : Format) (v : Option Ieee) : Except Failure Ieee := do
  let x ← held v
  failIf (x.format ≠ fmt) .invalidEncoding
  .ok x

/-- Every bit of a string is 0. -/
def noBit (s : Bits) : Bool := s.all (fun b => !b)

/-- Every bit of a string is 1. -/
def everyBit (s : Bits) : Bool := s.all (fun b => b)

/-- Step 2 for the binary formats and HEXADECIMAL32 (rule R231). -/
def specialBinary (sgn : Bool) (e m : Bits) : Option DecTag :=
  if noBit e ∧ noBit m then some (if sgn then .negZero else .posZero)
  else if everyBit e then
    if noBit m then some (if sgn then .negInf else .posInf)
    else if m.headD false then some .qnan else some .snan
  else none

/-- Step 2 for the decimal formats, with the uncovered prefix `111111` refused (rule R232). -/
def specialDecimal (sgn : Bool) (e m : Bits) : Except Failure (Option DecTag) :=
  if noBit e ∧ noBit m then .ok (some (if sgn then .negZero else .posZero))
  else if slice e 0 4 = [true, true, true, true, false] then
    .ok (some (if sgn then .negInf else .posInf))
  else if slice e 0 6 = [true, true, true, true, true, false, false] then .ok (some .snan)
  else if slice e 0 6 = [true, true, true, true, true, false, true] then .ok (some .qnan)
  else if slice e 0 5 = [true, true, true, true, true, true] then .error .refused
  else .ok none

/-- A reconstructed significand: whole and fraction digits, and the exponent. -/
structure Reconstructed where
  whole    : List Cell
  fraction : List Cell
  exponent : Int
deriving DecidableEq, Repr

/-- Step 3 for the binary formats: normal numbers by rule R233, subnormal ones by rule R234. -/
def reconstructBinary (fmt : Format) (e m : Bits) : Reconstructed :=
  if noBit e then
    let p := (m.takeWhile (fun b => !b)).length + 1
    ⟨[1], bitDigits (m.drop p), 1 - fmt.bias - p⟩
  else ⟨[1], bitDigits m, (int e : Int) - fmt.bias⟩

/-- Step 3 for HEXADECIMAL32 (rule R235). -/
def reconstructHex (e m : Bits) : Reconstructed :=
  ⟨[0], [cell (int (slice m 0 3)), cell (int (slice m 4 7)), cell (int (slice m 8 11)),
    cell (int (slice m 12 15)), cell (int (slice m 16 19)), cell (int (slice m 20 23))],
    (int e : Int) - Format.h32.bias⟩

/-- Step 4: the radix point moved `DEC_SHIFT` places to the right (rule R238). -/
def rescale (fmt : Format) (c : Reconstructed) : Reconstructed :=
  let k := decShift fmt c.exponent
  let f := c.fraction ++ List.replicate (k - c.fraction.length) 0
  ⟨c.whole ++ f.take k, f.drop k, c.exponent - k⟩

/-- The sign token of a decoded significand (rule R239). -/
def decodedSign (sgn : Bool) : List Cell := if sgn then [1] else [0]

/-- Step 5 for the binary formats and HEXADECIMAL32: conversion to base 10 (rule R239). -/
def decodedNumber (caps : Capacities) (fmt : Format) (sgn : Bool) (c : Reconstructed) :
    Except Failure Decoded := do
  let d := rescale fmt c
  let x ← toDecimal caps false
    (some ⟨decodedSign sgn, d.whole, d.fraction, cell fmt.radix, .signed⟩)
  .ok (.number x (BitVec.ofNat 6 fmt.radix) d.exponent)

/-- The decoded decimal number of the coefficient `c` and exponent `q` (rule R239). -/
def decodedDecimal (sgn : Bool) (c : Nat) (q : Int) : Decoded :=
  .number ⟨decodedSign sgn, minDigits 10 c, [], 10, .signed⟩ 10 q

/-- Step 3 for Decimal32 DPD: the coefficient and the exponent (rule R236). -/
def reconstructDpd (e m : Bits) : Nat × Int :=
  let ehd : Bits × Nat :=
    if slice e 0 1 ≠ [true, true] then (slice e 0 1, int (slice e 2 4))
    else (slice e 2 3, 8 + int (slice e 4 4))
  let bcd := dpdToDecimal (slice m 0 9) ++ dpdToDecimal (slice m 10 19)
  (ofDigits 10 [cell ehd.2, cell (int (slice bcd 0 3)), cell (int (slice bcd 4 7)),
      cell (int (slice bcd 8 11)), cell (int (slice bcd 12 15)), cell (int (slice bcd 16 19)),
      cell (int (slice bcd 20 23))],
    (int (ehd.1 ++ slice e 5 10) : Int) - Format.d32dpd.bias)

/-- Step 3 for Decimal32 BID: the coefficient and the exponent (rule R237). -/
def reconstructBid (e m : Bits) : Nat × Int :=
  if slice e 0 1 ≠ [true, true] then
    (int (slice e 8 10 ++ m), (int (slice e 0 7) : Int) - Format.d32bid.bias)
  else
    (int ([true, false, false] ++ slice e 10 10 ++ m), (int (slice e 2 9) : Int) - Format.d32bid.bias)

/-- `DEC.B32`, `DEC.B64` (rules R240, R241). -/
def decodeBinary (caps : Capacities) (fmt : Format) (v : Option Ieee) : Except Failure Decoded := do
  let x ← decodeOperand fmt v
  match specialBinary x.sign x.exponent x.significand with
  | some tag => .ok (.special tag)
  | none => decodedNumber caps fmt x.sign (reconstructBinary fmt x.exponent x.significand)

/-- `DEC.H32` (rule R244). -/
def decodeHex (caps : Capacities) (v : Option Ieee) : Except Failure Decoded := do
  let x ← decodeOperand .h32 v
  match specialBinary x.sign x.exponent x.significand with
  | some tag => .ok (.special tag)
  | none => decodedNumber caps .h32 x.sign (reconstructHex x.exponent x.significand)

/-- `DEC.D32DPD`, `DEC.D32BID` with the format's reconstruction (rules R242, R243). -/
def decodeDecimal (fmt : Format) (reconstruct : Bits → Bits → Nat × Int) (v : Option Ieee) :
    Except Failure Decoded := do
  let x ← decodeOperand fmt v
  let special ← specialDecimal x.sign x.exponent x.significand
  match special with
  | some tag => .ok (.special tag)
  | none =>
    let cq := reconstruct x.exponent x.significand
    .ok (decodedDecimal x.sign cq.1 cq.2)

/-- `DEC.B32 Nd, Fs` (rule R240). -/
def execDecB32 (rd : Fin 8) (fs : Fin 4) (s : State) : Out :=
  finishDecoded rd (decodeBinary s.caps .b32 (s.readF fs)) s

/-- `DEC.B64 Nd, Fs` (rule R241). -/
def execDecB64 (rd : Fin 8) (fs : Fin 4) (s : State) : Out :=
  finishDecoded rd (decodeBinary s.caps .b64 (s.readF fs)) s

/-- `DEC.D32DPD Nd, Fs` (rule R242). -/
def execDecD32dpd (rd : Fin 8) (fs : Fin 4) (s : State) : Out :=
  finishDecoded rd (decodeDecimal .d32dpd reconstructDpd (s.readF fs)) s

/-- `DEC.D32BID Nd, Fs` (rule R243). -/
def execDecD32bid (rd : Fin 8) (fs : Fin 4) (s : State) : Out :=
  finishDecoded rd (decodeDecimal .d32bid reconstructBid (s.readF fs)) s

/-- `DEC.H32 Nd, Fs` (rule R244). -/
def execDecH32 (rd : Fin 8) (fs : Fin 4) (s : State) : Out :=
  finishDecoded rd (decodeHex s.caps (s.readF fs)) s

end Sys2Proof.Machine
end

