-- ==== Sys2Proof/Machine/IeeeArith.lean ====
section
/-! DEFINITION. Binary32 arithmetic: `FADD`, `FSUB`, `FMUL`, `FDIV` (46_ieee_arith.md rules R260 to
R271), on exact integers. -/

namespace Sys2Proof.Machine

/-- The fields of a BINARY32 word: sign `x[31]`, exponent `x[30:23]`, significand `x[22:0]` (rule
R261). -/
def signOf (x : Word) : Bool := x.getLsbD 31

/-- The exponent field `x[30:23]`. -/
def expOf (x : Word) : Nat := (x.extractLsb' 23 8).toNat

/-- The significand field `x[22:0]`. -/
def sigOf (x : Word) : Nat := (x.extractLsb' 0 23).toNat

/-- The word `(s, E, M)` of rule R264: `s * 2^31 + E * 2^23 + M`. -/
def wordOf (s : Bool) (e m : Nat) : Word := BitVec.ofNat 32 (s.toNat * 2 ^ 31 + e * 2 ^ 23 + m)

/-- The classes of rule R261. -/
inductive FloatClass where
  | nan
  | inf
  | zero
  | fin
deriving DecidableEq, Repr

/-- `class(x)` (rule R261). -/
def classOf (x : Word) : FloatClass :=
  if expOf x = 255 then (if sigOf x = 0 then .inf else .nan)
  else if expOf x = 0 ∧ sigOf x = 0 then .zero
  else .fin

/-- `unpack(x)` of a `fin` word: the magnitude `Mx` and the exponent `xx` (rule R262). -/
def unpack (x : Word) : Nat × Int :=
  if 1 ≤ expOf x then (2 ^ 23 + sigOf x, (expOf x : Int) - 150) else (sigOf x, -149)

/-- Bit `k` of a natural number. -/
def bitAt (v k : Nat) : Bool := decide (v / 2 ^ k % 2 = 1)

/-- A magnitude rounded up by one when `round` and the guard bit `g` are set (rule R264). -/
def roundUp (round g : Bool) (sig : Nat) : Nat := if round && g then sig + 1 else sig

/-- The normal result of `finish`, for `-126 <= e <= 127` (rule R264). -/
def finishNormal (s : Bool) (mv : Nat) (e : Int) (round : Bool) : Word :=
  let len := mv.log2 + 1
  let sig0 := if len ≤ 24 then mv * 2 ^ (24 - len) else mv / 2 ^ (len - 24)
  let g := if len ≤ 24 then false else bitAt mv (len - 25)
  let sig := roundUp round g sig0
  if sig = 2 ^ 24 then
    if 127 < e + 1 then wordOf s 255 0 else wordOf s (e + 1 + 127).toNat 0
  else wordOf s (e + 127).toNat (sig - 2 ^ 23)

/-- The result of `finish` on the subnormal grid, for `e < -126` (rule R264). -/
def finishSubnormal (s : Bool) (mv : Nat) (xv : Int) (round : Bool) : Word :=
  let sh := -(xv + 149)
  let sig0 := if sh ≤ 0 then mv * 2 ^ (-sh).toNat else mv / 2 ^ sh.toNat
  let g := if sh ≤ 0 then false else bitAt mv (sh.toNat - 1)
  let sig := roundUp round g sig0
  if sig = 2 ^ 23 then wordOf s 1 0 else wordOf s 0 sig

/-- `finish(s, Mv, xv, round)`: the word of the magnitude `Mv * 2^xv` with sign `s` (rule R264). -/
def finish (s : Bool) (mv : Nat) (xv : Int) (round : Bool) : Word :=
  if mv = 0 then 0
  else
    let e := xv + mv.log2
    if 127 < e then wordOf s 255 0
    else if -126 ≤ e then finishNormal s mv e round
    else finishSubnormal s mv xv round

/-- The infinity of sign `s`. -/
def infinity (s : Bool) : Word := wordOf s 255 0

/-- The zero of sign `s`. -/
def signedZero (s : Bool) : Word := wordOf s 0 0

/-- The `add` rows of the special-value table (rule R269). -/
def specialAdd (a b : Word) : Option Word :=
  match classOf a, classOf b with
  | .nan, _ => some qnan32
  | _, .nan => some qnan32
  | .inf, .inf => some (if signOf a = signOf b then a else qnan32)
  | .inf, .zero => some a
  | .inf, .fin => some a
  | .zero, .inf => some b
  | .fin, .inf => some b
  | .zero, .zero => some (signedZero (signOf a && signOf b))
  | .zero, .fin => some b
  | .fin, .zero => some a
  | .fin, .fin => none

/-- The `mul` rows of the special-value table (rule R269). -/
def specialMul (a b : Word) : Option Word :=
  match classOf a, classOf b with
  | .nan, _ => some qnan32
  | _, .nan => some qnan32
  | .zero, .inf => some qnan32
  | .inf, .zero => some qnan32
  | .inf, .inf => some (infinity (signOf a ^^ signOf b))
  | .inf, .fin => some (infinity (signOf a ^^ signOf b))
  | .fin, .inf => some (infinity (signOf a ^^ signOf b))
  | .zero, .zero => some (signedZero (signOf a ^^ signOf b))
  | .zero, .fin => some (signedZero (signOf a ^^ signOf b))
  | .fin, .zero => some (signedZero (signOf a ^^ signOf b))
  | .fin, .fin => none

/-- The `div` rows of the special-value table (rule R269). -/
def specialDiv (a b : Word) : Option Word :=
  match classOf a, classOf b with
  | .nan, _ => some qnan32
  | _, .nan => some qnan32
  | .zero, .zero => some qnan32
  | .inf, .inf => some qnan32
  | .fin, .zero => some (infinity (signOf a ^^ signOf b))
  | .inf, .zero => some (infinity (signOf a ^^ signOf b))
  | .fin, .inf => some (signedZero (signOf a ^^ signOf b))
  | .zero, .inf => some (signedZero (signOf a ^^ signOf b))
  | .inf, .fin => some (infinity (signOf a ^^ signOf b))
  | .zero, .fin => some (signedZero (signOf a ^^ signOf b))
  | .fin, .fin => none

/-- A magnitude with its sign as an integer. -/
def signedMag (s : Bool) (m : Nat) : Int := if s then -(m : Int) else m

/-- The sum of two `fin` words: the exact sum at the lower exponent, then `finish` (rule R265). -/
def addFinite (a b : Word) : Word :=
  let ua := unpack a
  let ub := unpack b
  let x := min ua.2 ub.2
  let v := signedMag (signOf a) (ua.1 * 2 ^ (ua.2 - x).toNat)
    + signedMag (signOf b) (ub.1 * 2 ^ (ub.2 - x).toNat)
  if v = 0 then 0 else finish (decide (v < 0)) v.natAbs x false

/-- `a + b` (rule R265). -/
def addWords (a b : Word) : Word := (specialAdd a b).getD (addFinite a b)

/-- `b` with bit 31 inverted (rule R266). -/
def negateWord (b : Word) : Word := b ^^^ 0x80000000#32

/-- `a - b` (rule R266). -/
def subWords (a b : Word) : Word := addWords a (negateWord b)

/-- The product of two `fin` words, truncated (rule R267). -/
def mulFinite (a b : Word) : Word :=
  finish (signOf a ^^ signOf b) ((unpack a).1 * (unpack b).1) ((unpack a).2 + (unpack b).2) false

/-- `a * b` (rule R267). -/
def mulWords (a b : Word) : Word := (specialMul a b).getD (mulFinite a b)

/-- "`while M < 2^23: M <- 2 * M ; x <- x - 1`", at most `fuel` times (rule R268); 23 suffice for a
nonzero `M` (70_reset_and_hazards.md rule R327). -/
def normalizeMag : Nat → Nat × Int → Nat × Int
  | 0, m => m
  | fuel + 1, m => if m.1 < 2 ^ 23 then normalizeMag fuel (2 * m.1, m.2 - 1) else m

/-- The quotient of two `fin` words: 25 quotient bits, the last one the guard bit (rule R268). -/
def divFinite (a b : Word) : Word :=
  let na := normalizeMag 23 (unpack a)
  let nb := normalizeMag 23 (unpack b)
  let ma : Nat × Int := if na.1 < nb.1 then (2 * na.1, na.2 - 1) else na
  finish (signOf a ^^ signOf b) (ma.1 * 2 ^ 24 / nb.1) (ma.2 - nb.2 - 24) true

/-- `a / b` (rule R268). -/
def divWords (a b : Word) : Word := (specialDiv a b).getD (divFinite a b)

/-- Step 1 of the four commands: two BINARY32 words (rule R260). -/
def floatOperands (va vb : Option Ieee) : Except Failure (Word × Word) := do
  let a ← held va
  let b ← held vb
  failIf (a.format ≠ .b32 ∨ b.format ≠ .b32) .invalidOperand
  .ok (a.word.extractLsb' 0 32, b.word.extractLsb' 0 32)

/-- A BINARY32 value in an `F` register (20_memory.md rule R55). -/
def Ieee.ofWord32 (w : Word) : Ieee := Ieee.ofWord .b32 (w.zeroExtend 64)

/-- A Binary32 command with the operation `op`. -/
def floatCommand (op : Word → Word → Word) (rd fa fb : Fin 4) (s : State) : Out :=
  finishF rd (do
    let ab ← floatOperands (s.readF fa) (s.readF fb)
    .ok (Ieee.ofWord32 (op ab.1 ab.2))) s

/-- `FADD Fd, Fa, Fb` (rule R265). -/
def execFadd (rd fa fb : Fin 4) (s : State) : Out := floatCommand addWords rd fa fb s

/-- `FSUB Fd, Fa, Fb` (rule R266). -/
def execFsub (rd fa fb : Fin 4) (s : State) : Out := floatCommand subWords rd fa fb s

/-- `FMUL Fd, Fa, Fb` (rule R267). -/
def execFmul (rd fa fb : Fin 4) (s : State) : Out := floatCommand mulWords rd fa fb s

/-- `FDIV Fd, Fa, Fb` (rule R268). -/
def execFdiv (rd fa fb : Fin 4) (s : State) : Out := floatCommand divWords rd fa fb s

end Sys2Proof.Machine
end

