-- ==== Sys2Proof/Machine/HostPort.lean ====
section
/-! DEFINITION. The host port (20_memory.md rules R54, R58): every operation except `ISSUE`, which is
in Machine/Step.lean. Each is atomic, and none has a side effect beyond the one stated. -/

namespace Sys2Proof.Machine

/-- `WRITE_T(i, s)`: refused when the text is longer than `TCAP` (rules R54, R302). -/
def writeText (i : Fin 2) (text : Text) (s : State) : State :=
  if exceeds s.caps.tcap text.length then refuseWrite .capacityExceeded s else s.setT i (some text)

/-- `WRITE_N(i, n)`: refused when a capacity is exceeded, else unchecked (rules R54, R302). -/
def writeNumeral (i : Fin 8) (n : Numeral) (s : State) : State :=
  if n.fits s.caps then s.setN i (some n) else refuseWrite .capacityExceeded s

/-- `WRITE_F(i, fmt, w)`: a format code above 4 is refused with `IllegalCommand` (rules R54, R302). -/
def writeIeee (i : Fin 4) (fmt : BitVec 3) (w : Word64) (s : State) : State :=
  match Format.ofCode fmt with
  | some f => s.setF i (some (Ieee.ofWord f w))
  | none => refuseWrite .illegalCommand s

/-- The answer of a read: the register's content, or "no value" (rule R54). -/
def readAnswer (a : Answer) (s : State) : State := s.setAnswer (some a)

end Sys2Proof.Machine
end

