-- ==== Sys2Proof/Machine/Dispatch.lean ====
section
/-! DEFINITION. The dispatch of a command to its meaning. The `LOG` bit has no architectural effect
(10_state.md rule R33), so no meaning takes it. -/

namespace Sys2Proof.Machine

/-- The effect of one command, besides `CMD`. -/
def exec (i : Instr) (s : State) : Host.Outcome State Fault Refusal :=
  match i with
  | .parseUns _ rd ts radix => Sys2Proof.Machine.execParseUns rd ts radix s
  | .parseSgn _ rd ts radix => Sys2Proof.Machine.execParseSgn rd ts radix s
  | .parseSmr _ rd ts radix => Sys2Proof.Machine.execParseSmr rd ts radix s
  | .parseOc _ rd ts radix => Sys2Proof.Machine.execParseOc rd ts radix s
  | .parseTc _ rd ts radix => Sys2Proof.Machine.execParseTc rd ts radix s
  | .stdz _ rd rs1 => Sys2Proof.Machine.execStdz rd rs1 s
  | .padw _ rd rs1 length => Sys2Proof.Machine.execPadw rd rs1 length s
  | .padf _ rd rs1 length => Sys2Proof.Machine.execPadf rd rs1 length s
  | .eqlen _ rs1 rs2 => Sys2Proof.Machine.execEqlen rs1 rs2 s
  | .signm _ std rs1 => Sys2Proof.Machine.execSignm std rs1 s
  | .cvtkUns _ rd rs1 => Sys2Proof.Machine.execCvtkUns rd rs1 s
  | .cvtkSgn _ rd rs1 => Sys2Proof.Machine.execCvtkSgn rd rs1 s
  | .cvtkSmr _ rd rs1 => Sys2Proof.Machine.execCvtkSmr rd rs1 s
  | .cvtkOc _ rd rs1 => Sys2Proof.Machine.execCvtkOc rd rs1 s
  | .cvtkTc _ rd rs1 => Sys2Proof.Machine.execCvtkTc rd rs1 s
  | .compl _ rd rs1 => Sys2Proof.Machine.execCompl rd rs1 s
  | .absv _ rd rs1 => Sys2Proof.Machine.execAbsv rd rs1 s
  | .todec _ std rd rs1 => Sys2Proof.Machine.execTodec std rd rs1 s
  | .fromdec _ std rd rs1 radix => Sys2Proof.Machine.execFromdec std rd rs1 radix s
  | .cvtb _ rd rs1 radix => Sys2Proof.Machine.execCvtb rd rs1 radix s
  | .cmpm _ rs1 rs2 => Sys2Proof.Machine.execCmpm rs1 rs2 s
  | .addn _ rd rs1 rs2 => Sys2Proof.Machine.execAddn rd rs1 rs2 s
  | .shl _ first last positions => Sys2Proof.Machine.execShl first last positions s
  | .shrl _ first last positions => Sys2Proof.Machine.execShrl first last positions s
  | .shra _ first last positions => Sys2Proof.Machine.execShra first last positions s
  | .addlp _ rd rs1 delta => Sys2Proof.Machine.execAddlp rd rs1 delta s
  | .mulu _ rd rs1 rs2 => Sys2Proof.Machine.execMulu rd rs1 rs2 s
  | .divs _ rd rs1 rs2 => Sys2Proof.Machine.execDivs rd rs1 rs2 s
  | .encB32 _ rd rs1 tx => Sys2Proof.Machine.execEncB32 rd rs1 tx s
  | .encB64 _ rd rs1 tx => Sys2Proof.Machine.execEncB64 rd rs1 tx s
  | .encD32dpd _ rd rs1 tx => Sys2Proof.Machine.execEncD32dpd rd rs1 tx s
  | .encD32bid _ rd rs1 tx => Sys2Proof.Machine.execEncD32bid rd rs1 tx s
  | .encH32 _ rd rs1 tx => Sys2Proof.Machine.execEncH32 rd rs1 tx s
  | .decB32 _ rd fs => Sys2Proof.Machine.execDecB32 rd fs s
  | .decB64 _ rd fs => Sys2Proof.Machine.execDecB64 rd fs s
  | .decD32dpd _ rd fs => Sys2Proof.Machine.execDecD32dpd rd fs s
  | .decD32bid _ rd fs => Sys2Proof.Machine.execDecD32bid rd fs s
  | .decH32 _ rd fs => Sys2Proof.Machine.execDecH32 rd fs s
  | .fparseB32 _ rd ts => Sys2Proof.Machine.execFparseB32 rd ts s
  | .fparseB64 _ rd ts => Sys2Proof.Machine.execFparseB64 rd ts s
  | .fparseD32dpd _ rd ts => Sys2Proof.Machine.execFparseD32dpd rd ts s
  | .fparseD32bid _ rd ts => Sys2Proof.Machine.execFparseD32bid rd ts s
  | .fparseH32 _ rd ts => Sys2Proof.Machine.execFparseH32 rd ts s
  | .fadd _ rd fa fb => Sys2Proof.Machine.execFadd rd fa fb s
  | .fsub _ rd fa fb => Sys2Proof.Machine.execFsub rd fa fb s
  | .fmul _ rd fa fb => Sys2Proof.Machine.execFmul rd fa fb s
  | .fdiv _ rd fa fb => Sys2Proof.Machine.execFdiv rd fa fb s

end Sys2Proof.Machine
end

