-- ==== Sys2Proof/Machine/Step.lean ====
section
/-! DEFINITION. One step of the NFU: the next operation of the host port, performed to completion
(10_state.md rule R30; 20_memory.md rules R54, R58, R60). There is no fetch: `ISSUE(w)` performs
exactly `w` (rule R63). -/

namespace Sys2Proof.Machine

/-- `ISSUE(w)`: `CMD <- w`, then the command `w` encodes is performed, or the word is illegal
(30_encoding.md rules R70, R78). -/
def issue (w : Word) (s : State) : Out :=
  match decode w with
  | .ok i => exec i (s.setCmd w)
  | .error _ => .next (illegalCommand (s.setCmd w))

/-- One input performed (rule R54; reset by 70_reset_and_hazards.md rule R320). -/
def perform (op : HostOp) (s : State) : Out :=
  match op with
  | .writeT i text => .next (writeText i text s)
  | .writeN i n => .next (writeNumeral i n s)
  | .writeF i fmt w => .next (writeIeee i fmt w s)
  | .clearT i => .next (s.setT i none)
  | .clearN i => .next (s.setN i none)
  | .clearF i => .next (s.setF i none)
  | .issue w => issue w s
  | .readN i => .next (readAnswer (.numeral (s.readN i)) s)
  | .readF i => .next (readAnswer (.ieee (s.readF i)) s)
  | .readT i => .next (readAnswer (.text (s.readT i)) s)
  | .readCC => .next (readAnswer (.cond s.cc) s)
  | .readPTag => .next (readAnswer (.tag s.ptag) s)
  | .readPBase => .next (readAnswer (.base s.pbase) s)
  | .readPExp => .next (readAnswer (.exponent s.pexp) s)
  | .readStatus => .next (readAnswer (.word s.status) s)
  | .readESticky => .next (readAnswer (.word s.esticky) s)
  | .readCmd => .next (readAnswer (.word s.cmd) s)
  | .reset => .next (resetRegisters s)

/-- One step: the first waiting input is performed; with none waiting the NFU waits (70_reset_and_hazards.md
rule R321). -/
def step (s : State) : Host.Outcome State Fault Refusal :=
  match s.inputs with
  | [] => .next s
  | op :: rest => perform op (s.setInputs rest)

/-- `s` with an `ISSUE` of the table word `w` as its next input, so that the next step performs
exactly that command. A command is one 32-bit word (rule R70). -/
def State.withFetchWord (s : State) (nbits w : Nat) : State :=
  s.setInputs (.issue (BitVec.ofNat 32 (w % 2 ^ nbits)) :: s.inputs)

end Sys2Proof.Machine
end

