-- ==== Sys2Proof/Safety.lean ====
section
/-! DEFINITION. The terms in which the claims are stated: the destinations of each command and the
failures it can end with, the invariants of the state, the texts of numerals and exponents, and the
values of IEEE words. -/

namespace Sys2Proof.Machine

/-- The destinations of each command (60_exceptions.md rule R293 (b), (c)). -/
def destination (i : Instr) : Dest :=
  match i with
  | .parseUns _ rd _ _ => .num rd
  | .parseSgn _ rd _ _ => .num rd
  | .parseSmr _ rd _ _ => .num rd
  | .parseOc _ rd _ _ => .num rd
  | .parseTc _ rd _ _ => .num rd
  | .stdz _ rd _ => .num rd
  | .padw _ rd _ _ => .num rd
  | .padf _ rd _ _ => .num rd
  | .eqlen _ _ _ => .inPlace
  | .signm _ _ _ => .cond
  | .cvtkUns _ rd _ => .num rd
  | .cvtkSgn _ rd _ => .num rd
  | .cvtkSmr _ rd _ => .num rd
  | .cvtkOc _ rd _ => .num rd
  | .cvtkTc _ rd _ => .num rd
  | .compl _ rd _ => .num rd
  | .absv _ rd _ => .num rd
  | .todec _ _ rd _ => .num rd
  | .fromdec _ _ rd _ _ => .num rd
  | .cvtb _ rd _ _ => .num rd
  | .cmpm _ _ _ => .cond
  | .addn _ rd _ _ => .num rd
  | .shl _ _ _ _ => .inPlace
  | .shrl _ _ _ _ => .inPlace
  | .shra _ _ _ _ => .inPlace
  | .addlp _ rd _ _ => .num rd
  | .mulu _ rd _ _ => .num rd
  | .divs _ rd _ _ => .numPair rd
  | .encB32 _ rd _ _ => .ieee rd
  | .encB64 _ rd _ _ => .ieee rd
  | .encD32dpd _ rd _ _ => .ieee rd
  | .encD32bid _ rd _ _ => .ieee rd
  | .encH32 _ rd _ _ => .ieee rd
  | .decB32 _ rd _ => .decoded rd
  | .decB64 _ rd _ => .decoded rd
  | .decD32dpd _ rd _ => .decoded rd
  | .decD32bid _ rd _ => .decoded rd
  | .decH32 _ rd _ => .decoded rd
  | .fparseB32 _ rd _ => .ieee rd
  | .fparseB64 _ rd _ => .ieee rd
  | .fparseD32dpd _ rd _ => .ieee rd
  | .fparseD32bid _ rd _ => .ieee rd
  | .fparseH32 _ rd _ => .ieee rd
  | .fadd _ rd _ _ => .ieee rd
  | .fsub _ rd _ _ => .ieee rd
  | .fmul _ rd _ _ => .ieee rd
  | .fdiv _ rd _ _ => .ieee rd

/-- The failures each command can end with (60_exceptions.md rule R292). -/
def failureCodes (i : Instr) : List Failure :=
  match i with
  | .parseUns _ _ _ _ => [.invalidInput, .invalidBase, .invalidDigit, .capacityExceeded]
  | .parseSgn _ _ _ _ => [.invalidInput, .invalidBase, .invalidDigit, .capacityExceeded]
  | .parseSmr _ _ _ _ => [.invalidInput, .invalidBase, .invalidDigit, .capacityExceeded]
  | .parseOc _ _ _ _ => [.invalidInput, .invalidBase, .invalidDigit, .capacityExceeded]
  | .parseTc _ _ _ _ => [.invalidInput, .invalidBase, .invalidDigit, .capacityExceeded]
  | .stdz _ _ _ => [.invalidInput, .invalidNumeral]
  | .padw _ _ _ _ => [.invalidInput, .invalidNumeral, .tooLarge, .capacityExceeded]
  | .padf _ _ _ _ => [.invalidInput, .invalidNumeral, .capacityExceeded]
  | .eqlen _ _ _ => [.invalidInput, .incompatibleTypes, .invalidNumeral]
  | .signm _ _ _ => [.invalidInput]
  | .cvtkUns _ _ _ => [.invalidInput, .invalidNumeral, .capacityExceeded]
  | .cvtkSgn _ _ _ => [.invalidInput, .invalidNumeral, .capacityExceeded]
  | .cvtkSmr _ _ _ => [.invalidInput, .invalidNumeral, .capacityExceeded]
  | .cvtkOc _ _ _ => [.invalidInput, .invalidNumeral, .capacityExceeded]
  | .cvtkTc _ _ _ => [.invalidInput, .invalidNumeral, .capacityExceeded]
  | .compl _ _ _ => [.invalidInput, .unsupportedForUnsigned, .invalidNumeral, .capacityExceeded]
  | .absv _ _ _ => [.invalidInput, .invalidNumeral, .capacityExceeded]
  | .todec _ _ _ _ => [.invalidInput, .invalidOperand, .invalidNumeral, .capacityExceeded]
  | .fromdec _ _ _ _ _ => [.invalidInput, .invalidOperand, .invalidBase, .invalidNumeral, .capacityExceeded]
  | .cvtb _ _ _ _ => [.invalidInput, .invalidBase, .invalidOperand, .invalidNumeral, .capacityExceeded]
  | .cmpm _ _ _ => [.invalidInput, .differentBase, .differentType, .invalidOperand]
  | .addn _ _ _ _ => [.invalidInput, .differentBase, .differentType, .invalidOperand, .capacityExceeded]
  | .shl _ _ _ _ => [.invalidInput, .differentBase, .invalidOperand, .invalidDigit]
  | .shrl _ _ _ _ => [.invalidInput, .differentBase, .invalidOperand, .invalidDigit]
  | .shra _ _ _ _ => [.invalidInput, .differentBase, .invalidOperand, .invalidDigit]
  | .addlp _ _ _ _ => [.invalidInput, .invalidOperand, .underflow, .capacityExceeded]
  | .mulu _ _ _ _ => [.invalidInput, .differentBase, .invalidOperand, .invalidNumeral, .capacityExceeded]
  | .divs _ _ _ _ => [.invalidInput, .differentBase, .invalidOperand, .invalidNumeral]
  | .encB32 _ _ _ _ => [.invalidInput, .invalidOperand, .invalidNumeral, .capacityExceeded, .invalidExponent, .exponentOutOfBounds]
  | .encB64 _ _ _ _ => [.invalidInput, .invalidOperand, .invalidNumeral, .capacityExceeded, .invalidExponent, .exponentOutOfBounds]
  | .encD32dpd _ _ _ _ => [.invalidInput, .invalidOperand, .invalidNumeral, .invalidExponent, .exponentOutOfBounds]
  | .encD32bid _ _ _ _ => [.invalidInput, .invalidOperand, .invalidNumeral, .invalidExponent, .exponentOutOfBounds]
  | .encH32 _ _ _ _ => [.invalidInput, .invalidOperand, .invalidNumeral, .capacityExceeded, .invalidExponent, .exponentOutOfBounds]
  | .decB32 _ _ _ => [.invalidInput, .invalidEncoding, .capacityExceeded]
  | .decB64 _ _ _ => [.invalidInput, .invalidEncoding, .capacityExceeded]
  | .decD32dpd _ _ _ => [.invalidInput, .invalidEncoding, .refused]
  | .decD32bid _ _ _ => [.invalidInput, .invalidEncoding, .refused]
  | .decH32 _ _ _ => [.invalidInput, .invalidEncoding, .capacityExceeded]
  | .fparseB32 _ _ _ => [.invalidInput, .invalidEncoding]
  | .fparseB64 _ _ _ => [.invalidInput, .invalidEncoding]
  | .fparseD32dpd _ _ _ => [.invalidInput, .invalidEncoding]
  | .fparseD32bid _ _ _ => [.invalidInput, .invalidEncoding]
  | .fparseH32 _ _ _ => [.invalidInput, .invalidEncoding]
  | .fadd _ _ _ _ => [.invalidInput, .invalidOperand]
  | .fsub _ _ _ _ => [.invalidInput, .invalidOperand]
  | .fmul _ _ _ _ => [.invalidInput, .invalidOperand]
  | .fdiv _ _ _ _ => [.invalidInput, .invalidOperand]

/-- The same command with its `LOG` bit set to `b`. -/
def setLog (b : Bool) (i : Instr) : Instr :=
  match i with
  | .parseUns _ rd ts radix => .parseUns b rd ts radix
  | .parseSgn _ rd ts radix => .parseSgn b rd ts radix
  | .parseSmr _ rd ts radix => .parseSmr b rd ts radix
  | .parseOc _ rd ts radix => .parseOc b rd ts radix
  | .parseTc _ rd ts radix => .parseTc b rd ts radix
  | .stdz _ rd rs1 => .stdz b rd rs1
  | .padw _ rd rs1 length => .padw b rd rs1 length
  | .padf _ rd rs1 length => .padf b rd rs1 length
  | .eqlen _ rs1 rs2 => .eqlen b rs1 rs2
  | .signm _ std rs1 => .signm b std rs1
  | .cvtkUns _ rd rs1 => .cvtkUns b rd rs1
  | .cvtkSgn _ rd rs1 => .cvtkSgn b rd rs1
  | .cvtkSmr _ rd rs1 => .cvtkSmr b rd rs1
  | .cvtkOc _ rd rs1 => .cvtkOc b rd rs1
  | .cvtkTc _ rd rs1 => .cvtkTc b rd rs1
  | .compl _ rd rs1 => .compl b rd rs1
  | .absv _ rd rs1 => .absv b rd rs1
  | .todec _ std rd rs1 => .todec b std rd rs1
  | .fromdec _ std rd rs1 radix => .fromdec b std rd rs1 radix
  | .cvtb _ rd rs1 radix => .cvtb b rd rs1 radix
  | .cmpm _ rs1 rs2 => .cmpm b rs1 rs2
  | .addn _ rd rs1 rs2 => .addn b rd rs1 rs2
  | .shl _ first last positions => .shl b first last positions
  | .shrl _ first last positions => .shrl b first last positions
  | .shra _ first last positions => .shra b first last positions
  | .addlp _ rd rs1 delta => .addlp b rd rs1 delta
  | .mulu _ rd rs1 rs2 => .mulu b rd rs1 rs2
  | .divs _ rd rs1 rs2 => .divs b rd rs1 rs2
  | .encB32 _ rd rs1 tx => .encB32 b rd rs1 tx
  | .encB64 _ rd rs1 tx => .encB64 b rd rs1 tx
  | .encD32dpd _ rd rs1 tx => .encD32dpd b rd rs1 tx
  | .encD32bid _ rd rs1 tx => .encD32bid b rd rs1 tx
  | .encH32 _ rd rs1 tx => .encH32 b rd rs1 tx
  | .decB32 _ rd fs => .decB32 b rd fs
  | .decB64 _ rd fs => .decB64 b rd fs
  | .decD32dpd _ rd fs => .decD32dpd b rd fs
  | .decD32bid _ rd fs => .decD32bid b rd fs
  | .decH32 _ rd fs => .decH32 b rd fs
  | .fparseB32 _ rd ts => .fparseB32 b rd ts
  | .fparseB64 _ rd ts => .fparseB64 b rd ts
  | .fparseD32dpd _ rd ts => .fparseD32dpd b rd ts
  | .fparseD32bid _ rd ts => .fparseD32bid b rd ts
  | .fparseH32 _ rd ts => .fparseH32 b rd ts
  | .fadd _ rd fa fb => .fadd b rd fa fb
  | .fsub _ rd fa fb => .fsub b rd fa fb
  | .fmul _ rd fa fb => .fmul b rd fa fb
  | .fdiv _ rd fa fb => .fdiv b rd fa fb

/-- `CVTK.k` for the kind `k` (41_representation_converter.md rules R122 to R126). -/
def cvtkOf (k : Kind) (log : Bool) (rd rs1 : Fin 8) : Instr :=
  match k with
  | .unsigned => .cvtkUns log rd rs1
  | .signed => .cvtkSgn log rd rs1
  | .signMagnitude => .cvtkSmr log rd rs1
  | .onesComplement => .cvtkOc log rd rs1
  | .twosComplement => .cvtkTc log rd rs1

/-- `PARSE.k` for the kind `k` (40_numeral_primitives.md rule R93). -/
def parseOf (k : Kind) (log : Bool) (rd : Fin 8) (ts : Fin 2) (radix : BitVec 12) : Instr :=
  match k with
  | .unsigned => .parseUns log rd ts radix
  | .signed => .parseSgn log rd ts radix
  | .signMagnitude => .parseSmr log rd ts radix
  | .onesComplement => .parseOc log rd ts radix
  | .twosComplement => .parseTc log rd ts radix

/-- `DEC.f` for the format `f` (45_ieee_decode.md rules R240 to R244). -/
def decOf (f : Format) (log : Bool) (rd : Fin 8) (fs : Fin 4) : Instr :=
  match f with
  | .b32 => .decB32 log rd fs
  | .b64 => .decB64 log rd fs
  | .d32dpd => .decD32dpd log rd fs
  | .d32bid => .decD32bid log rd fs
  | .h32 => .decH32 log rd fs

/-- `ENC.f` for the format `f` (44_ieee_encode.md rules R197, R198, R201, R211, R208). -/
def encOf (f : Format) (log : Bool) (rd : Fin 4) (rs1 : Fin 8) (tx : Fin 2) : Instr :=
  match f with
  | .b32 => .encB32 log rd rs1 tx
  | .b64 => .encB64 log rd rs1 tx
  | .d32dpd => .encD32dpd log rd rs1 tx
  | .d32bid => .encD32bid log rd rs1 tx
  | .h32 => .encH32 log rd rs1 tx

/-- `FPARSE.f` for the format `f` (44_ieee_encode.md rule R210). -/
def fparseOf (f : Format) (log : Bool) (rd : Fin 4) (ts : Fin 2) : Instr :=
  match f with
  | .b32 => .fparseB32 log rd ts
  | .b64 => .fparseB64 log rd ts
  | .d32dpd => .fparseD32dpd log rd ts
  | .d32bid => .fparseD32bid log rd ts
  | .h32 => .fparseH32 log rd ts

/-- Every register holds what the capacities allow (10_state.md rule R27; 60_exceptions.md rule
R302), and the capacities are at least 64. -/
abbrev State.capacityInv (s : State) : Prop :=
  s.caps.wf = true ∧ (∀ i : Fin 8, (s.readN i).all (fun n => n.fits s.caps) = true) ∧
    ∀ i : Fin 2, (s.readT i).all (fun t => !exceeds s.caps.tcap t.length) = true

/-- Every `F` register has zero bits above its format's width (20_memory.md rule R55). -/
abbrev State.ieeeInv (s : State) : Prop :=
  ∀ i : Fin 4, (s.readF i).all (fun x => decide (x.word.toNat < 2 ^ x.format.width)) = true

/-- The values `STATUS.code` can have: 0, and the codes of rule R290 that rule R292 gives to some
command. -/
def writtenCodes : List (BitVec 6) :=
  [0, 1, 2, 4, 5, 6, 7, 8, 9, 10, 11, 12, 14, 15, 16, 29, 30, 31]

/-- The bits of `ESTICKY` that no rule sets: 3, 13 and 17 to 28 (rules R290, R292). -/
def neverStickyMask : Word := 0x1FFE2008#32

/-- `STATUS` has zero bits 31:8 and a code of `writtenCodes`, and `ESTICKY` no bit that no rule sets
(10_state.md rules R31, R32). -/
abbrev State.statusInv (s : State) : Prop :=
  s.status.toNat < 256 ∧ statusCode s.status ∈ writtenCodes ∧ s.esticky &&& neverStickyMask = 0

/-- The three decode-result registers fit together: a numeric tag has a base 2, 10 or 16 and an
exponent in `[-1074, 1023]`, any other content of `PTAG` leaves the two without value (10_state.md
rule R25). -/
def decodeRegistersLegal (tag : Option DecTag) (base : Option (BitVec 6)) (ex : Option Int) : Bool :=
  match tag, base, ex with
  | some .numeric, some b, some e =>
    (b == 2#6 || b == 10#6 || b == 16#6) && decide (-1074 ≤ e ∧ e ≤ 1023)
  | some .numeric, _, _ => false
  | _, none, none => true
  | _, _, _ => false

/-- The decode-result registers fit together (10_state.md rule R25). -/
abbrev State.decodeInv (s : State) : Prop := decodeRegistersLegal s.ptag s.pbase s.pexp = true

/-- Every register of 10_state.md rule R20 has its reset value (rule R36). -/
abbrev State.registersReset (s : State) : Prop :=
  (∀ i : Fin 8, s.readN i = none) ∧ (∀ i : Fin 4, s.readF i = none) ∧
    (∀ i : Fin 2, s.readT i = none) ∧ s.ptag = none ∧ s.pbase = none ∧ s.pexp = none ∧
    s.cc = none ∧ s.cmd = 0 ∧ s.status = 0 ∧ s.esticky = 0

/-- The character of a digit value (40_numeral_primitives.md rule R91). -/
def digitChar (d : Cell) : Byte :=
  match valueDigit d.val with
  | .ok c => c
  | .error _ => 0

/-- The text of whole digits and, after a radix point, fraction digits (20_memory.md rule R51). -/
def digitText (whole fraction : List Cell) (point : Bool) : Text :=
  whole.map digitChar ++ (if point then 0x2E#8 :: fraction.map digitChar else [])

/-- The character of a SIGNED sign token: `-` when `minus`, else `+`. -/
def signChar (minus : Bool) : Byte := if minus then 0x2D#8 else 0x2B#8

/-- A character, other than the radix point, that is no digit below the radix `r`
(40_numeral_primitives.md rule R93). -/
def badDigit (r : Nat) (c : Byte) : Prop := c ≠ 0x2E#8 ∧ ∀ v : Cell, dv c = .ok v → r ≤ v.val

/-- The optional sign of an exponent text. -/
def exponentSign (sign : Option Bool) : Text :=
  match sign with
  | none => []
  | some minus => [signChar minus]

/-- The character of a bit. -/
def bitChar (b : Bool) : Byte := if b then 0x31#8 else 0x30#8

/-- The word of sign `s` and the 31 bits `low`. -/
def signedWord (s : Bool) (low : BitVec 31) : Word := BitVec.ofBool s ++ low

/-- The value of a BINARY32 word that is neither infinite nor a NaN (46_ieee_arith.md rule R262). -/
def wordValue (x : Word) : ℚ :=
  (signedMag (signOf x) (unpack x).1 : ℚ) * (2 : ℚ) ^ (unpack x).2

/-- The exponent of the grid on which a BINARY32 result of magnitude in `[2^e, 2^(e+1))` lies: 24
significant bits, or the subnormal grid `2^-149` (46_ieee_arith.md rule R264). -/
def gridExponent (e : Int) : Int := max (e - 23) (-149)

/-- The exponent field of an `F` register as an integer. -/
def Ieee.expInt (x : Ieee) : Nat := int x.exponent

/-- The significand field of an `F` register as an integer. -/
def Ieee.sigInt (x : Ieee) : Nat := int x.significand

/-- The magnitude of a normal or subnormal value of a binary format (45_ieee_decode.md rules R233,
R234). -/
def Ieee.binaryMagnitude (x : Ieee) : ℚ :=
  if x.expInt = 0 then (x.sigInt : ℚ) * (2 : ℚ) ^ (1 - x.format.bias - x.format.sigWidth)
  else ((2 ^ x.format.sigWidth + x.sigInt : Nat) : ℚ) *
    (2 : ℚ) ^ ((x.expInt : Int) - x.format.bias - x.format.sigWidth)

/-- The magnitude of a HEXADECIMAL32 value, `0.h1h2h3h4h5h6 * 16^e` (45_ieee_decode.md rule R235). -/
def Ieee.hexMagnitude (x : Ieee) : ℚ := (x.sigInt : ℚ) * (16 : ℚ) ^ ((x.expInt : Int) - 64 - 6)

/-- Coefficient and exponent of a Decimal32 value of the format (45_ieee_decode.md rules R236,
R237). -/
def Ieee.decimalParts (x : Ieee) : Nat × Int :=
  match x.format with
  | .d32bid => reconstructBid x.exponent x.significand
  | .b32 | .b64 | .h32 | .d32dpd => reconstructDpd x.exponent x.significand

/-- The three digits of the declet `p q r s t u v w x y`, read as the number `x`, row by row from the table
of 44_ieee_encode.md rule R204: `pqr` is `x / 128`, `stu` is `x / 16 % 8`, `wxy` is `x % 8`. -/
def decletToDigits (x : Nat) : List Cell :=
  let pqr := x / 128
  let stu := x / 16 % 8
  let y := x % 2
  let digits : Nat × Nat × Nat :=
    if x / 8 % 2 = 0 then (pqr, stu, x % 8)
    else match x % 8 / 2, stu / 2 with
      | 0, _ => (pqr, stu, 8 + y)
      | 1, st => (pqr, 8 + stu % 2, 2 * st + y)
      | 2, _ => (8 + pqr % 2, stu, 2 * (pqr / 2) + y)
      | _, 0 => (8 + pqr % 2, 8 + stu % 2, 2 * (pqr / 2) + y)
      | _, 1 => (8 + pqr % 2, 2 * (pqr / 2) + stu % 2, 8 + y)
      | _, 2 => (pqr, 8 + stu % 2, 8 + y)
      | _, _ => (8 + pqr % 2, 8 + stu % 2, 8 + y)
  [cell digits.1, cell digits.2.1, cell digits.2.2]

/-- The declet of three decimal digits as a number, row by row from the table of 44_ieee_encode.md rule
R203: a digit below 8 gives its three bits, a digit 8 or 9 its last bit. -/
def digitsToDeclet (d1 d2 d3 : Nat) : Nat :=
  match decide (8 ≤ d1), decide (8 ≤ d2), decide (8 ≤ d3) with
  | false, false, false => d1 * 128 + d2 * 16 + d3
  | false, false, true => d1 * 128 + d2 * 16 + 8 + d3 % 2
  | false, true, false => d1 * 128 + (d3 / 2 * 2 + d2 % 2) * 16 + 10 + d3 % 2
  | true, false, false => (d3 / 2 * 2 + d1 % 2) * 128 + d2 * 16 + 12 + d3 % 2
  | true, true, false => (d3 / 2 * 2 + d1 % 2) * 128 + d2 % 2 * 16 + 14 + d3 % 2
  | true, false, true => (d2 / 2 * 2 + d1 % 2) * 128 + (2 + d2 % 2) * 16 + 14 + d3 % 2
  | false, true, true => d1 * 128 + (4 + d2 % 2) * 16 + 14 + d3 % 2
  | true, true, true => d1 % 2 * 128 + (6 + d2 % 2) * 16 + 14 + d3 % 2

/-- The ±∞ words of 44_ieee_encode.md rule R209, the positive ones. -/
def infinityWord (f : Format) : Word64 :=
  match f with
  | .b32 => 0x7F800000#64
  | .b64 => 0x7FF0000000000000#64
  | .d32dpd => 0x78000000#64
  | .d32bid => 0x78000000#64
  | .h32 => 0x7F000000#64

/-- A word with the sign bit of the format's width set when `minus` (20_memory.md rule R55). -/
def withSign (f : Format) (minus : Bool) (w : Word64) : Word64 :=
  if minus then w ||| BitVec.twoPow 64 (f.width - 1) else w

/-- Mask and match of each command's row in spec/opcode_table.json (30_encoding.md rule R81). -/
def tableRow (i : Instr) : Word × Word :=
  match i with
  | .parseUns _ _ _ _ => (0xFDE37000#32, 0x04000000#32)
  | .parseSgn _ _ _ _ => (0xFDE37000#32, 0x04200000#32)
  | .parseSmr _ _ _ _ => (0xFDE37000#32, 0x04400000#32)
  | .parseOc _ _ _ _ => (0xFDE37000#32, 0x04600000#32)
  | .parseTc _ _ _ _ => (0xFDE37000#32, 0x04800000#32)
  | .stdz _ _ _ => (0xFDE07FFF#32, 0x08000000#32)
  | .padw _ _ _ _ => (0xFDE07000#32, 0x0C000000#32)
  | .padf _ _ _ _ => (0xFDE07000#32, 0x10000000#32)
  | .eqlen _ _ _ => (0xFDFC0FFF#32, 0x14000000#32)
  | .signm _ _ _ => (0xFCFC7FFF#32, 0x18000000#32)
  | .cvtkUns _ _ _ => (0xFDE07FFF#32, 0x20000000#32)
  | .cvtkSgn _ _ _ => (0xFDE07FFF#32, 0x20200000#32)
  | .cvtkSmr _ _ _ => (0xFDE07FFF#32, 0x20400000#32)
  | .cvtkOc _ _ _ => (0xFDE07FFF#32, 0x20600000#32)
  | .cvtkTc _ _ _ => (0xFDE07FFF#32, 0x20800000#32)
  | .compl _ _ _ => (0xFDE07FFF#32, 0x24000000#32)
  | .absv _ _ _ => (0xFDE07FFF#32, 0x28000000#32)
  | .todec _ _ _ _ => (0xFCE07FFF#32, 0x40000000#32)
  | .fromdec _ _ _ _ _ => (0xFCE07000#32, 0x44000000#32)
  | .cvtb _ _ _ _ => (0xFDE07000#32, 0x48000000#32)
  | .cmpm _ _ _ => (0xFDFC0FFF#32, 0x60000000#32)
  | .addn _ _ _ _ => (0xFDE00FFF#32, 0x64000000#32)
  | .shl _ _ _ _ => (0xFDFC0000#32, 0x68000000#32)
  | .shrl _ _ _ _ => (0xFDFC0000#32, 0x68200000#32)
  | .shra _ _ _ _ => (0xFDFC0000#32, 0x68400000#32)
  | .addlp _ _ _ _ => (0xFDE07000#32, 0x6C000000#32)
  | .mulu _ _ _ _ => (0xFDE00FFF#32, 0x70000000#32)
  | .divs _ _ _ _ => (0xFDE00FFF#32, 0x74000000#32)
  | .encB32 _ _ _ _ => (0xFDF06FFF#32, 0x80000000#32)
  | .encB64 _ _ _ _ => (0xFDF06FFF#32, 0x80200000#32)
  | .encD32dpd _ _ _ _ => (0xFDF06FFF#32, 0x80400000#32)
  | .encD32bid _ _ _ _ => (0xFDF06FFF#32, 0x80600000#32)
  | .encH32 _ _ _ _ => (0xFDF06FFF#32, 0x80800000#32)
  | .decB32 _ _ _ => (0xFDE27FFF#32, 0x84000000#32)
  | .decB64 _ _ _ => (0xFDE27FFF#32, 0x84200000#32)
  | .decD32dpd _ _ _ => (0xFDE27FFF#32, 0x84400000#32)
  | .decD32bid _ _ _ => (0xFDE27FFF#32, 0x84600000#32)
  | .decH32 _ _ _ => (0xFDE27FFF#32, 0x84800000#32)
  | .fparseB32 _ _ _ => (0xFDF37FFF#32, 0x88000000#32)
  | .fparseB64 _ _ _ => (0xFDF37FFF#32, 0x88200000#32)
  | .fparseD32dpd _ _ _ => (0xFDF37FFF#32, 0x88400000#32)
  | .fparseD32bid _ _ _ => (0xFDF37FFF#32, 0x88600000#32)
  | .fparseH32 _ _ _ => (0xFDF37FFF#32, 0x88800000#32)
  | .fadd _ _ _ _ => (0xFDF24FFF#32, 0xA0000000#32)
  | .fsub _ _ _ _ => (0xFDF24FFF#32, 0xA4000000#32)
  | .fmul _ _ _ _ => (0xFDF24FFF#32, 0xA8000000#32)
  | .fdiv _ _ _ _ => (0xFDF24FFF#32, 0xAC000000#32)

/-- Every source register of the command holds a value (10_state.md rule R23; 60_exceptions.md rule
R295 (2)). -/
def sourcesHeld (i : Instr) (s : State) : Bool :=
  match i with
  | .parseUns _ _ ts _ => (s.readT ts).isSome
  | .parseSgn _ _ ts _ => (s.readT ts).isSome
  | .parseSmr _ _ ts _ => (s.readT ts).isSome
  | .parseOc _ _ ts _ => (s.readT ts).isSome
  | .parseTc _ _ ts _ => (s.readT ts).isSome
  | .stdz _ _ rs1 => (s.readN rs1).isSome
  | .padw _ _ rs1 _ => (s.readN rs1).isSome
  | .padf _ _ rs1 _ => (s.readN rs1).isSome
  | .eqlen _ rs1 rs2 => (s.readN rs1).isSome && (s.readN rs2).isSome
  | .signm _ _ rs1 => (s.readN rs1).isSome
  | .cvtkUns _ _ rs1 => (s.readN rs1).isSome
  | .cvtkSgn _ _ rs1 => (s.readN rs1).isSome
  | .cvtkSmr _ _ rs1 => (s.readN rs1).isSome
  | .cvtkOc _ _ rs1 => (s.readN rs1).isSome
  | .cvtkTc _ _ rs1 => (s.readN rs1).isSome
  | .compl _ _ rs1 => (s.readN rs1).isSome
  | .absv _ _ rs1 => (s.readN rs1).isSome
  | .todec _ _ _ rs1 => (s.readN rs1).isSome
  | .fromdec _ _ _ rs1 _ => (s.readN rs1).isSome
  | .cvtb _ _ rs1 _ => (s.readN rs1).isSome
  | .cmpm _ rs1 rs2 => (s.readN rs1).isSome && (s.readN rs2).isSome
  | .addn _ _ rs1 rs2 => (s.readN rs1).isSome && (s.readN rs2).isSome
  | .shl _ first last _ => (registerRun first last).all (fun j => (s.readN j).isSome)
  | .shrl _ first last _ => (registerRun first last).all (fun j => (s.readN j).isSome)
  | .shra _ first last _ => (registerRun first last).all (fun j => (s.readN j).isSome)
  | .addlp _ _ rs1 _ => (s.readN rs1).isSome
  | .mulu _ _ rs1 rs2 => (s.readN rs1).isSome && (s.readN rs2).isSome
  | .divs _ _ rs1 rs2 => (s.readN rs1).isSome && (s.readN rs2).isSome
  | .encB32 _ _ rs1 tx => (s.readN rs1).isSome && (s.readT tx).isSome
  | .encB64 _ _ rs1 tx => (s.readN rs1).isSome && (s.readT tx).isSome
  | .encD32dpd _ _ rs1 tx => (s.readN rs1).isSome && (s.readT tx).isSome
  | .encD32bid _ _ rs1 tx => (s.readN rs1).isSome && (s.readT tx).isSome
  | .encH32 _ _ rs1 tx => (s.readN rs1).isSome && (s.readT tx).isSome
  | .decB32 _ _ fs => (s.readF fs).isSome
  | .decB64 _ _ fs => (s.readF fs).isSome
  | .decD32dpd _ _ fs => (s.readF fs).isSome
  | .decD32bid _ _ fs => (s.readF fs).isSome
  | .decH32 _ _ fs => (s.readF fs).isSome
  | .fparseB32 _ _ ts => (s.readT ts).isSome
  | .fparseB64 _ _ ts => (s.readT ts).isSome
  | .fparseD32dpd _ _ ts => (s.readT ts).isSome
  | .fparseD32bid _ _ ts => (s.readT ts).isSome
  | .fparseH32 _ _ ts => (s.readT ts).isSome
  | .fadd _ _ fa fb => (s.readF fa).isSome && (s.readF fb).isSome
  | .fsub _ _ fa fb => (s.readF fa).isSome && (s.readF fb).isSome
  | .fmul _ _ fa fb => (s.readF fa).isSome && (s.readF fb).isSome
  | .fdiv _ _ fa fb => (s.readF fa).isSome && (s.readF fb).isSome

/-- The exponent text with an optional sign and the decimal digits `ds` (44_ieee_encode.md rule
R194). -/
def exponentText (sign : Option Bool) (ds : List Cell) : Text := exponentSign sign ++ ds.map digitChar

/-- The integer that `exponentText sign ds` denotes. -/
def exponentValue (sign : Option Bool) (ds : List Cell) : Int :=
  if sign = some true then -(ofDigits 10 ds : Int) else ofDigits 10 ds

/-- A text that rule R194 of 44_ieee_encode.md accepts as an exponent. -/
def isExponentText (t : Text) : Prop :=
  ∃ (sign : Option Bool) (ds : List Cell), ds ≠ [] ∧ (∀ d ∈ ds, d.val < 10) ∧ t = exponentText sign ds

/-- `C * 10^q'` is the coefficient `D * 10^q` cut to seven digits and rounded half-to-even on the first
dropped digit alone (44_ieee_encode.md rule R200). -/
def roundsToSeven (D : Nat) (q : Int) (C : Nat) (q' : Int) : Prop :=
  (D < 10 ^ 7 ∧ C = D ∧ q' = q) ∨
  ∃ k kept guard up : Nat, 10 ^ (k + 7) ≤ D ∧ D < 10 ^ (k + 8) ∧ kept = D / 10 ^ (k + 1) ∧
    guard = D / 10 ^ k % 10 ∧ up = (if 5 < guard ∨ (guard = 5 ∧ kept % 2 = 1) then 1 else 0) ∧
    (if kept + up = 10 ^ 7 then C = 10 ^ 6 ∧ q' = q + k + 2 else C = kept + up ∧ q' = q + k + 1)

/-- The word `w` is the nonzero value `v` brought to the BINARY32 grid by `toGrid`, an infinity when
the result reaches `2^128` (46_ieee_arith.md rule R264). -/
def roundsTo (toGrid : ℚ → Int) (v : ℚ) (w : Word) : Prop :=
  ∀ e : Int, (2 : ℚ) ^ e ≤ |v| → |v| < (2 : ℚ) ^ (e + 1) →
    let m : ℚ := toGrid (|v| / (2 : ℚ) ^ gridExponent e) * (2 : ℚ) ^ gridExponent e
    if (2 : ℚ) ^ (128 : Int) ≤ m then w = signedWord (decide (v < 0)) 0x7F800000#31
    else signOf w = decide (v < 0) ∧ expOf w < 255 ∧ |wordValue w| = m

/-- Truncation towards zero, of `FADD`, `FSUB` and `FMUL` (46_ieee_arith.md rule R264, D54). -/
def truncatesTo (v : ℚ) (w : Word) : Prop := (v = 0 → w = 0) ∧ roundsTo (fun x => ⌊x⌋) v w

/-- Rounding half up on one guard bit, of `FDIV` (46_ieee_arith.md rules R264, R268, D55). -/
def roundsHalfUpTo (v : ℚ) (w : Word) : Prop := roundsTo (fun x => ⌊x + 1 / 2⌋) v w

end Sys2Proof.Machine
end

