-- ==== Sys2Proof/Certificates/Slice0/Obligations.lean ====
section
/-! DEFINITION. The statements about the NFU. Numerals are spoken of through `Numeral.val`,
`Numeral.sm`, `Numeral.valid` and `Numeral.standardized` (Machine/Numerals.lean), which no command
computes with, and IEEE words through the readings of Safety.lean. A premise on `s.caps` says that a
result fits the OPEN capacities of 10_state.md rule R27. -/

open Sys2Proof Sys2Proof.Machine

/-! ### The machine: reset, step, host port -/

/-- After reset every `N`, `F`, `T`, `PTAG`, `PBASE`, `PEXP` and `CC` holds no value and `CMD`, `STATUS`,
`ESTICKY` are 0 (10_state.md rule R36): in `State.reset`, and in the state that a reset brings about from
any state. That a reset is an input, and that the inputs still to come stay, is the model's choice
(notes/assumptions/6.md). -/
def Obligations.ResetLeavesNoValue : Prop :=
  State.reset.registersReset ∧
  ∀ (s : State) (rest : List HostOp), s.inputs = .reset :: rest →
    ∃ t, step s = .next t ∧ t.registersReset ∧ t.caps = s.caps ∧ t.inputs = rest

/-- `ISSUE(w)` writes `CMD` and performs the command that `w` encodes; with no input waiting the NFU
waits (10_state.md rules R29, R30; 30_encoding.md rule R70; 70_reset_and_hazards.md rule R321; the list
of inputs is the model's, notes/assumptions/2.md). -/
def Obligations.StepRunsTheIssuedCommand : Prop :=
  (∀ (s : State) (w : Word) (rest : List HostOp) (i : Instr),
      s.inputs = .issue w :: rest → decode w = .ok i →
      step s = exec i ((s.setInputs rest).setCmd w)) ∧
  (∀ (s : State) (w : Nat) (i : Instr), w < 2 ^ 32 → decodeTableWord 32 w = some i →
      step (s.withFetchWord 32 w) = exec i (s.setCmd (BitVec.ofNat 32 w))) ∧
  (∀ s : State, s.inputs = [] → step s = .next s)

/-- An illegal word changes only `CMD`, `STATUS` (code 30, `warn` 0, `done` 1) and bit 30 of `ESTICKY`
(60_exceptions.md rule R301; 30_encoding.md rule R78). -/
def Obligations.IllegalWordChangesOnlyStatus : Prop :=
  ∀ (s : State) (w : Word) (rest : List HostOp) (e : DecodeError),
    s.inputs = .issue w :: rest → decode w = .error e →
    step s = .next { s with
      inputs := rest, cmd := w, status := 0x9E#32, esticky := s.esticky ||| 0x40000000#32 }

/-- Every host write stores its value, or is refused with the target unchanged, `STATUS.code` and one
bit of `ESTICKY` written, `warn` and `done` kept (20_memory.md rule R54; 60_exceptions.md rule R302). -/
def Obligations.HostWritesStoreOrAreRefused : Prop :=
  ∀ (s : State) (rest : List HostOp),
    let s0 : State := { s with inputs := rest }
    let full : State := { s0 with
      status := (s.status &&& 0xFFFFFFC0#32) ||| 31#32, esticky := s.esticky ||| 0x80000000#32 }
    let badFormat : State := { s0 with
      status := (s.status &&& 0xFFFFFFC0#32) ||| 30#32, esticky := s.esticky ||| 0x40000000#32 }
    (∀ i x, s.inputs = .writeT i x :: rest →
      step s = .next (if exceeds s.caps.tcap x.length then full else s0.setT i (some x))) ∧
    (∀ i x, s.inputs = .writeN i x :: rest →
      step s = .next (if exceeds s.caps.wcap x.whole.length ∨ exceeds s.caps.fcap x.fraction.length ∨
        exceeds s.caps.scap x.sign.length then full else s0.setN i (some x))) ∧
    (∀ i c w, s.inputs = .writeF i c w :: rest → 5 ≤ c.toNat → step s = .next badFormat) ∧
    (∀ i w (f : Format), s.inputs = .writeF i f.code w :: rest →
      ∃ x : Ieee, step s = .next (s0.setF i (some x)) ∧ x.format = f ∧
        ∀ k, x.word.getLsbD k = (decide (k < f.width) && w.getLsbD k)) ∧
    (∀ i, s.inputs = .clearT i :: rest → step s = .next (s0.setT i none)) ∧
    (∀ i, s.inputs = .clearN i :: rest → step s = .next (s0.setN i none)) ∧
    (∀ i, s.inputs = .clearF i :: rest → step s = .next (s0.setF i none))

/-- A read of the host port delivers the register and changes nothing but the model's own `answer`
(20_memory.md rules R54, R58; notes/assumptions/3.md). -/
def Obligations.HostReadsDeliverTheRegister : Prop :=
  ∀ (s : State) (rest : List HostOp) (op : HostOp) (a : Answer), s.inputs = op :: rest →
    ((∃ i, op = .readN i ∧ a = .numeral (s.readN i)) ∨ (∃ i, op = .readF i ∧ a = .ieee (s.readF i)) ∨
      (∃ i, op = .readT i ∧ a = .text (s.readT i)) ∨ (op = .readCC ∧ a = .cond s.cc) ∨
      (op = .readPTag ∧ a = .tag s.ptag) ∨ (op = .readPBase ∧ a = .base s.pbase) ∨
      (op = .readPExp ∧ a = .exponent s.pexp) ∨ (op = .readStatus ∧ a = .word s.status) ∨
      (op = .readESticky ∧ a = .word s.esticky) ∨ (op = .readCmd ∧ a = .word s.cmd)) →
    step s = .next { s with inputs := rest, answer := some a }

/-- Two words that differ in the `LOG` bit alone lead to states that differ in `CMD` alone (10_state.md
rule R33; 30_encoding.md rule R71). -/
def Obligations.LogBitChangesOnlyCmd : Prop :=
  ∀ (s : State) (w : Word) (rest : List HostOp), s.inputs = .issue w :: rest →
    ∃ t, step s = .next t ∧
      step { s with inputs := .issue (w ^^^ 0x02000000#32) :: rest } =
        .next { t with cmd := w ^^^ 0x02000000#32 }

/-! ### The encoding -/

/-- The encoder and the decoder agree on every command: no bit of a field is dropped, and a word that
decodes is the word of a well-formed command (30_encoding.md rules R71, R78, R80, R81). -/
def Obligations.DecodeAndEncodeAgree : Prop :=
  (∀ i : Instr, wellFormed i = true → decode (encode i) = .ok i) ∧
  ∀ (w : Word) (i : Instr), decode w = .ok i → wellFormed i = true ∧ encode i = w

/-- The legal words are exactly those that match a row of spec/opcode_table.json, with `rs1 <= rs2` for
the shift opcode, and a decoded command matches its own row (30_encoding.md rules R78, R80, R81). -/
def Obligations.LegalWordsAreThoseOfTheTable : Prop :=
  ∀ w : Word,
    ((∃ i, decode w = .ok i) ↔
      (∃ row : Instr, w &&& (tableRow row).1 = (tableRow row).2) ∧
        (w.extractLsb' 26 6 = 0x1A#6 → (w.extractLsb' 15 3).toNat ≤ (w.extractLsb' 12 3).toNat)) ∧
    ∀ i, decode w = .ok i → w &&& (tableRow i).1 = (tableRow i).2

/-- The three words that 30_encoding.md rule R81 writes out decode to the commands it names, and the word
of zeros is illegal, its opcode being reserved (rule R78). -/
def Obligations.WordsOfTheSpecDecode : Prop :=
  decode 0x80001000#32 = .ok (.encB32 false 0 0 1) ∧
  decode 0x0420000A#32 = .ok (.parseSgn false 0 0 10) ∧
  decode 0x6C088FFF#32 = .ok (.addlp false 2 1 (-1)) ∧ immSigned (-1) = -1 ∧
  decode 0x00000000#32 = .error .reservedOpcode

/-! ### Every command: completion, failure, flags, frames -/

/-- Every command answers a next state: it succeeded and every destination holds a value (after `DEC.f`
of a special value only `PTAG` does), or it failed with a code that 60_exceptions.md rule R292 lists for
it, no destination holds a value, and nothing else changed but `STATUS` and one bit of `ESTICKY` (rule
R293). -/
def Obligations.EveryCommandDeliversOrFailsAsListed : Prop :=
  ∀ (i : Instr) (s : State), wellFormed i = true → s.capacityInv →
    ∃ t, exec i s = .next t ∧
      (((t.status = 0x80#32 ∨ t.status = 0xC0#32) ∧
        (∀ rd, destination i = .num rd → (t.readN rd).isSome) ∧
        (∀ rd, destination i = .numPair rd → (t.readN rd).isSome ∧ (t.readN (rd + 1)).isSome) ∧
        (∀ rd, destination i = .ieee rd → (t.readF rd).isSome) ∧
        (destination i = .cond → t.cc.isSome) ∧
        (∀ rd, destination i = .decoded rd → t.ptag.isSome ∧
          (t.ptag = some .numeric → (t.readN rd).isSome ∧ t.pbase.isSome ∧ t.pexp.isSome) ∧
          (t.ptag ≠ some .numeric → t.readN rd = none ∧ t.pbase = none ∧ t.pexp = none))) ∨
      ∃ c ∈ failureCodes i,
        t = { clearDest (destination i) s with
          status := 0x80#32 ||| c.code.zeroExtend 32,
          esticky := s.esticky ||| BitVec.twoPow 32 c.code.toNat } ∧
        (∀ rd, destination i = .num rd → t.readN rd = none) ∧
        (∀ rd, destination i = .numPair rd → t.readN rd = none ∧ t.readN (rd + 1) = none) ∧
        (∀ rd, destination i = .ieee rd → t.readF rd = none) ∧
        (destination i = .cond → t.cc = none) ∧
        (∀ rd, destination i = .decoded rd →
          t.readN rd = none ∧ t.ptag = none ∧ t.pbase = none ∧ t.pexp = none) ∧
        (destination i = .inPlace → t.n = s.n))

/-- A command whose source register or buffer holds no value fails with `InvalidInput` (10_state.md
rule R23; 60_exceptions.md rule R295 (2)). -/
def Obligations.NoValueSourceFailsInvalidInput : Prop :=
  ∀ (i : Instr) (s : State), wellFormed i = true → sourcesHeld i s = false →
    exec i s = .next (raiseFail (destination i) .invalidInput s)

/-- Every command writes all of `STATUS`, with `done` 1 and bits 31:8 zero, and sets in `ESTICKY` the bit of
its failure, or bit 0 for the warning, and no other; a bit of `ESTICKY` is cleared by reset alone
(10_state.md rules R31, R32). -/
def Obligations.CommandWritesStatusAndOneStickyBit : Prop :=
  (∀ (i : Instr) (s t : State), exec i s = .next t →
    statusDone t.status = true ∧ t.status.toNat < 256 ∧
    (statusCode t.status ≠ 0 → statusWarn t.status = false ∧
      t.esticky = s.esticky ||| BitVec.twoPow 32 (statusCode t.status).toNat) ∧
    (statusCode t.status = 0 →
      t.esticky = if statusWarn t.status then s.esticky ||| 1#32 else s.esticky)) ∧
  ∀ s t : State, step s = .next t → (∀ rest, s.inputs ≠ .reset :: rest) →
    s.esticky &&& t.esticky = s.esticky

/-- The warning is set by `CVTK.UNS` on a source of negative sign, when it succeeds, and by nothing else
(60_exceptions.md rule R294; 41_representation_converter.md rule R122). -/
def Obligations.OnlyCvtkUnsWarns : Prop :=
  ∀ (i : Instr) (s t : State), exec i s = .next t →
    (statusWarn t.status = true ↔
      statusCode t.status = 0 ∧ ∃ log rd rs1 n, i = .cvtkUns log rd rs1 ∧
        s.readN rs1 = some n ∧ n.sm = .minus)

/-- Frame of the commands whose destination is `N[rd]`, or for `DIVS` also `N[(rd+1) mod 8]`: `PARSE.k`,
`STDZ`, `PADW`, `PADF`, `CVTK.k`, `COMPL`, `ABSV`, `TODEC`, `FROMDEC`, `CVTB`, `ADDN`, `ADDLP`, `MULU`,
`DIVS` (60_exceptions.md rule R293; 10_state.md rule R35). -/
def Obligations.FrameOfNumeralCommands : Prop :=
  ∀ (i : Instr) (s t : State) (rd : Fin 8),
    (destination i = .num rd ∨ destination i = .numPair rd) → exec i s = .next t →
    (∀ j, j ≠ rd → (destination i = .numPair rd → j ≠ rd + 1) → t.readN j = s.readN j) ∧
    t.f = s.f ∧ t.t = s.t ∧ t.ptag = s.ptag ∧ t.pbase = s.pbase ∧ t.pexp = s.pexp ∧ t.cc = s.cc ∧
    t.cmd = s.cmd ∧ t.caps = s.caps ∧ t.inputs = s.inputs ∧ t.answer = s.answer

/-- Frame of the commands whose destination is `F[rd]`: `ENC.f`, `FPARSE.f`, `FADD`, `FSUB`, `FMUL`,
`FDIV` (60_exceptions.md rule R293; 46_ieee_arith.md rule R271 (e)). -/
def Obligations.FrameOfIeeeCommands : Prop :=
  ∀ (i : Instr) (s t : State) (rd : Fin 4), destination i = .ieee rd → exec i s = .next t →
    (∀ j, j ≠ rd → t.readF j = s.readF j) ∧
    t.n = s.n ∧ t.t = s.t ∧ t.ptag = s.ptag ∧ t.pbase = s.pbase ∧ t.pexp = s.pexp ∧ t.cc = s.cc ∧
    t.cmd = s.cmd ∧ t.caps = s.caps ∧ t.inputs = s.inputs ∧ t.answer = s.answer

/-- Frame of the commands whose destination is `CC`, `SIGNM` and `CMPM`, and of `DEC.f`, whose destinations
are `N[rd]`, `PTAG`, `PBASE` and `PEXP`; and `CC` is written by no other command (10_state.md rule R28;
60_exceptions.md rule R293; 70_reset_and_hazards.md rules R324, R325). -/
def Obligations.FrameOfConditionAndDecodeCommands : Prop :=
  ∀ (i : Instr) (s t : State), exec i s = .next t →
    (destination i = .cond →
      t.n = s.n ∧ t.f = s.f ∧ t.t = s.t ∧ t.ptag = s.ptag ∧ t.pbase = s.pbase ∧ t.pexp = s.pexp ∧
      t.cmd = s.cmd ∧ t.caps = s.caps ∧ t.inputs = s.inputs ∧ t.answer = s.answer) ∧
    (∀ rd, destination i = .decoded rd →
      (∀ j, j ≠ rd → t.readN j = s.readN j) ∧ t.f = s.f ∧ t.t = s.t ∧ t.cc = s.cc ∧
      t.cmd = s.cmd ∧ t.caps = s.caps ∧ t.inputs = s.inputs ∧ t.answer = s.answer) ∧
    (destination i ≠ .cond → t.cc = s.cc)

/-- Frame of the in-place commands: `EQLEN Na, Nb` writes `N[a]` and `N[b]`, a shift the run from
`N[first]` to `N[last]`; in those registers the sign run, the radix and the kind stay
(43_fixed_point.md rule R166; 40_numeral_primitives.md rule R99; 60_exceptions.md rule R293 (c)). -/
def Obligations.FrameOfInPlaceCommands : Prop :=
  ∀ (i : Instr) (s t : State), destination i = .inPlace → exec i s = .next t →
    (∀ j : Fin 8,
      ((∃ log a b, i = .eqlen log a b ∧ j ≠ a ∧ j ≠ b) ∨
        (∃ log first last p, (i = .shl log first last p ∨ i = .shrl log first last p ∨
          i = .shra log first last p) ∧ (j < first ∨ last < j)) ∨ statusCode t.status ≠ 0) →
      t.readN j = s.readN j) ∧
    (∀ j : Fin 8, (t.readN j).map (fun n => (n.sign, n.radix, n.kind)) =
      (s.readN j).map (fun n => (n.sign, n.radix, n.kind))) ∧
    t.f = s.f ∧ t.t = s.t ∧ t.ptag = s.ptag ∧ t.pbase = s.pbase ∧ t.pexp = s.pexp ∧ t.cc = s.cc ∧
    t.cmd = s.cmd ∧ t.caps = s.caps ∧ t.inputs = s.inputs ∧ t.answer = s.answer

/-! ### Invariants -/

/-- Every step keeps every register within its capacity (10_state.md rule R27; 60_exceptions.md rule
R302). -/
def Obligations.EveryStepKeepsCapacities : Prop :=
  ∀ s t : State, s.capacityInv → step s = .next t → t.capacityInv

/-- Every step keeps the zero bits above the width of an `F` register (20_memory.md rule R55), the
fields of `STATUS` and the never written bits of `ESTICKY` (10_state.md rules R31, R32; 60_exceptions.md
rule R292), and the fit of `PTAG`, `PBASE` and `PEXP` with `PEXP` in `[-1074, 1023]` (10_state.md rule
R25). -/
def Obligations.EveryStepKeepsRegisterForms : Prop :=
  ∀ s t : State, step s = .next t →
    (s.ieeeInv → t.ieeeInv) ∧ (s.statusInv → t.statusInv) ∧ (s.decodeInv → t.decodeInv)

/-- The invariants hold right after reset. -/
def Obligations.ResetMeetsTheInvariants : Prop :=
  State.reset.capacityInv ∧ State.reset.ieeeInv ∧ State.reset.statusInv ∧ State.reset.decodeInv

/-! ### Numeral primitives -/

/-- `valueDigit` gives `0` to `9` and `A` to `Z`, and `dv` and `valueDigit` are inverse on the digit
characters and the values 0 to 35, and fail on everything else (40_numeral_primitives.md rules R90, R91). -/
def Obligations.DigitMapsAreInverse : Prop :=
  (∀ v : Nat, v ≤ 35 → ∃ c, valueDigit v = .ok c ∧
    c.toNat = (if v ≤ 9 then 0x30 + v else 0x41 + v - 10) ∧ dv c = .ok (cell v)) ∧
  (∀ v : Nat, 35 < v → valueDigit v = .error .invalidDigitValue) ∧
  (∀ (c : Byte) (d : Cell), dv c = .ok d → valueDigit d.val = .ok c) ∧
  (∀ c : Byte, dv c = .error .invalidDigit ∨ ∃ d, dv c = .ok d)

/-- `PARSE.UNS` and `PARSE.SGN` read a text, spaces apart, of sign characters (`SGN` alone), whole digits
and, after a radix point, fraction digits; a radix outside `[2, 35]`, a text without a digit, a second radix
point and a character that is no digit below the radix fail, the first offending character deciding the code
(40_numeral_primitives.md rule R93). -/
def Obligations.ParseReadsMagnitudeTexts : Prop :=
  ∀ (s : State) (log : Bool) (rd : Fin 8) (ts : Fin 2) (radix : BitVec 12) (text : Text),
    s.readT ts = some text →
    let fails (k : Kind) (c : Failure) : Prop :=
      exec (parseOf k log rd ts radix) s = .next (raiseFail (.num rd) c s)
    (radix.toNat < 2 ∨ 35 < radix.toNat → fails .signed .invalidBase ∧ fails .unsigned .invalidBase) ∧
    (2 ≤ radix.toNat → radix.toNat ≤ 35 →
      ∀ (minus : List Bool) (whole fraction : List Cell) (point : Bool) (rest : Text),
        text.filter (fun c => c ≠ 0x20#8) =
          minus.map signChar ++ digitText whole fraction point ++ rest →
        (∀ d ∈ whole ++ fraction, d.val < radix.toNat) → (point = false → fraction = []) →
        let fits : Bool := !exceeds s.caps.scap minus.length && !exceeds s.caps.wcap whole.length &&
          !exceeds s.caps.fcap fraction.length
        (rest = [] → whole ++ fraction ≠ [] → fits = true →
          exec (.parseSgn log rd ts radix) s = .next (succeed false (s.setN rd (some
            ⟨minus.map (fun m => if m then 1 else 0), whole, fraction, cell radix.toNat, .signed⟩))) ∧
          (minus = [] → exec (.parseUns log rd ts radix) s = .next (succeed false (s.setN rd (some
            ⟨[], whole, fraction, cell radix.toNat, .unsigned⟩))))) ∧
        (rest = [] → whole ++ fraction ≠ [] → fits = false →
          fails .signed .capacityExceeded ∧ (minus = [] → fails .unsigned .capacityExceeded)) ∧
        (rest = [] → whole ++ fraction = [] →
          fails .signed .invalidInput ∧ (minus = [] → fails .unsigned .invalidInput)) ∧
        ∀ (c : Byte) (tail : Text), rest = c :: tail →
          (c = 0x2E#8 → point = true →
            fails .signed .invalidInput ∧ (minus = [] → fails .unsigned .invalidInput)) ∧
          (badDigit radix.toNat c →
            (digitText whole fraction point ≠ [] ∨ (∀ m, c ≠ signChar m) → fails .signed .invalidDigit) ∧
            (minus = [] → fails .unsigned .invalidDigit)))

/-- `PARSE.SMR` takes one sign digit, `PARSE.OC` and `PARSE.TC` the maximal run of copies of the first
sign digit, each 0 or `r-1`; a radix outside `[2, 35]`, an empty text, a first character that is no sign digit,
an SMR text without a digit after it, a second radix point and a character that is no digit below the radix
fail (40_numeral_primitives.md rule R93, corner cases (c), (d)). -/
def Obligations.ParseReadsPositionalTexts : Prop :=
  ∀ (s : State) (log : Bool) (rd : Fin 8) (ts : Fin 2) (radix : BitVec 12) (text : Text) (k : Kind),
    s.readT ts = some text → k = .signMagnitude ∨ k = .onesComplement ∨ k = .twosComplement →
    let fails (c : Failure) : Prop :=
      exec (parseOf k log rd ts radix) s = .next (raiseFail (.num rd) c s)
    let t : Text := text.filter (fun c => c ≠ 0x20#8)
    (radix.toNat < 2 ∨ 35 < radix.toNat → fails .invalidBase) ∧
    (2 ≤ radix.toNat → radix.toNat ≤ 35 →
      (t = [] → fails .invalidInput) ∧
      (∀ (c : Byte) (tail : Text), t = c :: tail →
        (c = 0x2E#8 → fails .invalidInput) ∧
        (c ≠ 0x2E#8 → dv c = .error .invalidDigit → fails .invalidDigit) ∧
        (∀ v : Cell, dv c = .ok v → v ≠ 0 → v.val + 1 ≠ radix.toNat → fails .invalidInput)) ∧
      ∀ (v : Cell) (more : Nat) (whole fraction : List Cell) (point : Bool) (rest : Text),
        t = List.replicate (more + 1) (digitChar v) ++ digitText whole fraction point ++ rest →
        (v = 0 ∨ v.val + 1 = radix.toNat) →
        (∀ d ∈ whole ++ fraction, d.val < radix.toNat) → (point = false → fraction = []) →
        (k = .signMagnitude → more = 0) →
        (k ≠ .signMagnitude → (digitText whole fraction point ++ rest).head? ≠ some (digitChar v)) →
        let fits : Bool := !exceeds s.caps.scap (more + 1) && !exceeds s.caps.wcap whole.length &&
          !exceeds s.caps.fcap fraction.length
        (rest = [] → k = .signMagnitude → whole ++ fraction = [] → fails .invalidInput) ∧
        (rest = [] → (k = .signMagnitude → whole ++ fraction ≠ []) →
          (fits = false → fails .capacityExceeded) ∧
          (fits = true → exec (parseOf k log rd ts radix) s = .next (succeed false (s.setN rd (some
            ⟨List.replicate (more + 1) v, whole, fraction, cell radix.toNat, k⟩))))) ∧
        ∀ (c : Byte) (tail : Text), rest = c :: tail →
          (c = 0x2E#8 → point = true → fails .invalidInput) ∧
          (badDigit radix.toNat c → fails .invalidDigit))

/-- `STDZ` of a valid numeral is a standardized numeral of the same kind, radix, value and sign; a
standardized numeral is unchanged; an invalid one fails (40_numeral_primitives.md rules R94, R95). -/
def Obligations.StdzGivesTheCanonicalForm : Prop :=
  ∀ (s : State) (log : Bool) (rd rs1 : Fin 8) (n : Numeral), s.readN rs1 = some n →
    (n.valid = true → ∃ m : Numeral,
      exec (.stdz log rd rs1) s = .next (succeed false (s.setN rd (some m))) ∧
      m.standardized = true ∧ m.kind = n.kind ∧ m.radix = n.radix ∧ m.val = n.val ∧ m.sm = n.sm ∧
      (n.standardized = true → m = n)) ∧
    (n.valid = false → exec (.stdz log rd rs1) s = .next (raiseFail (.num rd) .invalidNumeral s))

/-- `PADW` makes the whole part exactly `length` digits, `PADF` the fraction, and padding keeps the
value; `PADF` truncates silently, towards minus infinity for TWO'S-COMPLEMENT and towards zero for SIGNED
and SMR; an invalid numeral, a whole part that is longer already and a capacity exceeded fail, in that order
(40_numeral_primitives.md rules R97, R98, R101). -/
def Obligations.PaddingKeepsTheValue : Prop :=
  ∀ (s : State) (log : Bool) (rd rs1 : Fin 8) (length : BitVec 12) (n : Numeral),
    s.readN rs1 = some n →
    let failsW (c : Failure) : Prop :=
      exec (.padw log rd rs1 length) s = .next (raiseFail (.num rd) c s)
    let failsF (c : Failure) : Prop :=
      exec (.padf log rd rs1 length) s = .next (raiseFail (.num rd) c s)
    (n.valid = false → failsW .invalidNumeral ∧ failsF .invalidNumeral) ∧
    (n.valid = true →
      (n.whole.length ≤ length.toNat → exceeds s.caps.wcap length.toNat = false →
        ∃ m : Numeral, exec (.padw log rd rs1 length) s = .next (succeed false (s.setN rd (some m))) ∧
          m.valid = true ∧ m.whole.length = length.toNat ∧ m.val = n.val ∧ m.sign = n.sign ∧
          m.fraction = n.fraction ∧
          m.radix = n.radix ∧ m.kind = n.kind ∧ ∃ pad, m.whole = pad ++ n.whole) ∧
      (length.toNat < n.whole.length → failsW .tooLarge) ∧
      (n.whole.length ≤ length.toNat → exceeds s.caps.wcap length.toNat = true →
        failsW .capacityExceeded) ∧
      (exceeds s.caps.fcap length.toNat = true → failsF .capacityExceeded) ∧
      (exceeds s.caps.fcap length.toNat = false →
        ∃ m : Numeral, exec (.padf log rd rs1 length) s = .next (succeed false (s.setN rd (some m))) ∧
          m.valid = true ∧ m.fraction.length = length.toNat ∧ m.sign = n.sign ∧ m.whole = n.whole ∧
          m.radix = n.radix ∧ m.kind = n.kind ∧
          (n.fraction.length ≤ length.toNat → m.val = n.val ∧ ∃ pad, m.fraction = n.fraction ++ pad) ∧
          (length.toNat ≤ n.fraction.length → m.fraction = n.fraction.take length.toNat ∧
            (n.kind = .twosComplement ∨ n.sm = .plus → m.val ≤ n.val) ∧
            (n.kind = .signed ∨ n.kind = .signMagnitude → |m.val| ≤ |n.val|))))

/-- `EQLEN` gives both operands the greater whole length and the greater fraction length and keeps both
values; operands of different kind fail (40_numeral_primitives.md rule R99). -/
def Obligations.EqlenEqualizesAndKeepsValues : Prop :=
  ∀ (s : State) (log : Bool) (rs1 rs2 : Fin 8) (a b : Numeral),
    s.readN rs1 = some a → s.readN rs2 = some b →
    (a.kind ≠ b.kind →
      exec (.eqlen log rs1 rs2) s = .next (raiseFail .inPlace .incompatibleTypes s)) ∧
    (a.kind = b.kind → a.valid = false ∨ b.valid = false →
      exec (.eqlen log rs1 rs2) s = .next (raiseFail .inPlace .invalidNumeral s)) ∧
    (a.kind = b.kind → a.valid = true → b.valid = true → ∃ x y : Numeral,
      exec (.eqlen log rs1 rs2) s =
        .next (succeed false ((s.setN rs1 (some x)).setN rs2 (some y))) ∧
      x.valid = true ∧ y.valid = true ∧ x.val = a.val ∧ y.val = b.val ∧
      x.sign = a.sign ∧ y.sign = b.sign ∧ x.radix = a.radix ∧ y.radix = b.radix ∧
      x.kind = a.kind ∧ y.kind = b.kind ∧
      x.whole.length = max a.whole.length b.whole.length ∧ y.whole.length = x.whole.length ∧
      x.fraction.length = max a.fraction.length b.fraction.length ∧
      y.fraction.length = x.fraction.length)

/-- `SIGNM` delivers the sign multiplier of rule R96, and with `STD = 1` only for a sign run in
single-token form (40_numeral_primitives.md rules R96, R100). The sign digit 0 in
radix 1 alone, to which rule R96 gives both signs, is left out (notes/assumptions/11.md). -/
def Obligations.SignmDeliversTheSignMultiplier : Prop :=
  ∀ (s : State) (log std : Bool) (rs1 : Fin 8),
    (s.readN rs1 = none → exec (.signm log std rs1) s = .next (raiseFail .cond .invalidInput s)) ∧
    ∀ n : Numeral, s.readN rs1 = some n → ∃ c : Cond, exec (.signm log std rs1) s = .next (succeed false (s.setCC (some c))) ∧
      (std = true → n.kind ≠ .unsigned → n.sign.length ≠ 1 → c = .zero) ∧
      (std = false ∨ n.kind = .unsigned ∨ n.sign.length = 1 →
        (n.kind = .unsigned → c = if n.sign = [] then .plus else .zero) ∧
        (n.kind = .signed →
          (∀ minus : List Bool, n.sign = minus.map (fun m => if m then 1 else 0) →
            c.toInt = (minus.map (fun m => if m then (-1 : Int) else 1)).prod) ∧
          ((∃ d ∈ n.sign, 2 ≤ d.val) → c = .zero)) ∧
        (n.kind = .signMagnitude → n.sign.length ≠ 1 → c = .zero) ∧
        (n.kind = .signMagnitude ∨ n.kind = .onesComplement ∨ n.kind = .twosComplement →
          (n.sign = [] → c = .zero) ∧ ((∃ d ∈ n.sign, ∃ e ∈ n.sign, d ≠ e) → c = .zero) ∧
          ∀ (d : Cell) (k : Nat), n.sign = List.replicate (k + 1) d →
            (n.kind = .signMagnitude → k = 0) → (d = 0 → n.radix.val ≠ 1) →
            c = if d = 0 then .plus else if d.val + 1 = n.radix.val then .minus else .zero))

/-! ### Representation converter -/

/-- `CVTK.k` keeps the value, standardizes, and keeps the sign of a zero where the kind has one; to
UNSIGNED it gives the absolute value and warns on a negative source; an invalid source fails
(41_representation_converter.md rules R120 to R126). -/
def Obligations.CvtkKeepsTheValue : Prop :=
  ∀ (s : State) (log : Bool) (k : Kind) (rd rs1 : Fin 8) (n : Numeral), s.readN rs1 = some n →
    (n.valid = false →
      exec (cvtkOf k log rd rs1) s = .next (raiseFail (.num rd) .invalidNumeral s)) ∧
    (n.valid = true → exceeds s.caps.wcap (max n.whole.length 1 + 1) = false →
      ∃ m : Numeral,
        exec (cvtkOf k log rd rs1) s = .next (succeed (decide (k = .unsigned ∧ n.sm = .minus))
          (s.setN rd (some m))) ∧
        m.standardized = true ∧ m.kind = k ∧ m.radix = n.radix ∧
        m.val = (if k = .unsigned then |n.val| else n.val) ∧
        (k = .signed ∨ k = .signMagnitude ∨ k = .onesComplement → m.sm = n.sm) ∧
        (k = .twosComplement → n.val = 0 → m.sm = .plus))

/-- Converting to another kind and back is `std`, except that UNSIGNED loses a minus sign and
TWO'S-COMPLEMENT the sign of a zero (41_representation_converter.md rule R130). -/
def Obligations.CvtkRoundTripStandardizes : Prop :=
  ∀ (s : State) (log : Bool) (k : Kind) (mid rd rs1 : Fin 8) (n m : Numeral),
    s.readN rs1 = some n → n.std = .ok m →
    exceeds s.caps.wcap (max n.whole.length 1 + 2) = false →
    (k = .unsigned → n.sm = .plus) → (k = .twosComplement → n.val = 0 → n.sm = .plus) →
    ∃ t u, exec (cvtkOf k log mid rs1) s = .next t ∧ exec (cvtkOf n.kind log rd mid) t = .next u ∧
      statusCode t.status = 0 ∧ statusCode u.status = 0 ∧ u.readN rd = some m

/-- `COMPL` negates the value and keeps kind, radix and fraction length; UNSIGNED fails
(41_representation_converter.md rule R128). -/
def Obligations.ComplNegatesTheValue : Prop :=
  ∀ (s : State) (log : Bool) (rd rs1 : Fin 8) (n : Numeral), s.readN rs1 = some n →
    (n.kind = .unsigned →
      exec (.compl log rd rs1) s = .next (raiseFail (.num rd) .unsupportedForUnsigned s)) ∧
    (n.kind ≠ .unsigned → n.valid = false →
      exec (.compl log rd rs1) s = .next (raiseFail (.num rd) .invalidNumeral s)) ∧
    (n.kind ≠ .unsigned → n.valid = true → exceeds s.caps.wcap (n.whole.length + 1) = false →
      ∃ m : Numeral, exec (.compl log rd rs1) s = .next (succeed false (s.setN rd (some m))) ∧
        m.valid = true ∧ m.val = -n.val ∧ m.kind = n.kind ∧ m.radix = n.radix ∧
        m.fraction.length = n.fraction.length ∧
        (n.sign ≠ [] → m.sign.length = n.sign.length) ∧
        (n.kind = .twosComplement → n.val = 0 → m = n) ∧
        (n.kind ≠ .twosComplement → m.sm ≠ n.sm ∧ m.whole.length = n.whole.length) ∧
        (n.kind = .twosComplement → ¬(n.sm = .minus ∧ n.digitsInt = 0) →
          m.whole.length = n.whole.length))

/-- `COMPL` twice gives the numeral back, except for a SIGNED numeral with an empty sign run and the most
negative TWO'S-COMPLEMENT value of its length, where `std` of the two sides agree
(41_representation_converter.md rule R130). -/
def Obligations.ComplIsAnInvolution : Prop :=
  ∀ (s : State) (log : Bool) (mid rd rs1 : Fin 8) (n : Numeral),
    s.readN rs1 = some n → n.kind ≠ .unsigned → n.valid = true →
    exceeds s.caps.wcap (n.whole.length + 2) = false →
    ∃ t u m, exec (.compl log mid rs1) s = .next t ∧ exec (.compl log rd mid) t = .next u ∧
      statusCode t.status = 0 ∧ statusCode u.status = 0 ∧ u.readN rd = some m ∧ m.std = n.std ∧
      (¬(n.kind = .signed ∧ n.sign = []) →
        ¬(n.kind = .twosComplement ∧ n.sm = .minus ∧ n.digitsInt = 0) → m = n)

/-- `ABSV` delivers the absolute value in the same kind, with positive sign, and copies a numeral of
positive sign (41_representation_converter.md rule R129). -/
def Obligations.AbsvDeliversTheAbsoluteValue : Prop :=
  ∀ (s : State) (log : Bool) (rd rs1 : Fin 8) (n : Numeral), s.readN rs1 = some n →
    (n.valid = false → exec (.absv log rd rs1) s = .next (raiseFail (.num rd) .invalidNumeral s)) ∧
    (n.valid = true → exceeds s.caps.wcap (n.whole.length + 1) = false →
      ∃ m : Numeral, exec (.absv log rd rs1) s = .next (succeed false (s.setN rd (some m))) ∧
        m.valid = true ∧ m.val = |n.val| ∧ m.kind = n.kind ∧ m.radix = n.radix ∧
        m.sm = .plus ∧ (n.sm = .plus → m = n))

/-! ### Base converter -/

/-- `TODEC` keeps sign, kind and the integer part exactly, and its fraction is the accumulator of rule
R142, digit by digit: below the exact one by less than `len(fraction)` units of `10^-8`; another kind than
UNSIGNED and SIGNED, an invalid numeral, a false `STD = 1` and a whole part beyond the capacity fail, in that
order (42_base_converter.md rules R140 to R143; 30_encoding.md rule R79). -/
def Obligations.TodecAccumulatesEightDigits : Prop :=
  ∀ (s : State) (log std : Bool) (rd rs1 : Fin 8) (n : Numeral), s.readN rs1 = some n →
    let fails (c : Failure) : Prop :=
      exec (.todec log std rd rs1) s = .next (raiseFail (.num rd) c s)
    (n.kind ≠ .unsigned → n.kind ≠ .signed → fails .invalidOperand) ∧
    (n.kind = .unsigned ∨ n.kind = .signed →
      (n.valid = false → fails .invalidNumeral) ∧
      (n.valid = true → std = true → n.standardized = false → fails .invalidNumeral) ∧
      (n.valid = true → (std = true → n.standardized = true) →
        ∀ w : Nat, s.caps.wcap = some w → (10 : ℚ) ^ w ≤ |n.val| → fails .capacityExceeded) ∧
      ∀ m : Numeral, n.std = .ok m → (std = true → n.standardized = true) →
        exceeds s.caps.wcap (2 * max n.whole.length 1) = false →
        ∃ x : Numeral, exec (.todec log std rd rs1) s = .next (succeed false (s.setN rd (some x))) ∧
          x.standardized = true ∧ x.radix = 10 ∧ x.kind = n.kind ∧ x.sm = n.sm ∧
          x.fraction.length ≤ 8 ∧
          |x.val| = (⌊|n.val|⌋ : ℚ) +
            ((∑ k ∈ Finset.range m.fraction.length,
              (m.fraction.getD k 0).val * 100000000 / n.radix.val ^ (k + 1) : Nat) : ℚ) / 100000000 ∧
          |x.val| ≤ |n.val| ∧ |n.val| * 100000000 ≤ |x.val| * 100000000 + m.fraction.length)

/-- `FROMDEC` keeps sign and kind, and its magnitude is the exact one truncated to eight radix-`R`
fraction digits; another kind than UNSIGNED and SIGNED, another source radix than 10, a target radix outside
`[2, 35]`, an invalid numeral, a false `STD = 1` and a whole part beyond the capacity fail, in that order
(42_base_converter.md rules R140, R144; 30_encoding.md rule R79). -/
def Obligations.FromdecTruncatesToEightDigits : Prop :=
  ∀ (s : State) (log std : Bool) (rd rs1 : Fin 8) (radix : BitVec 12) (n : Numeral),
    s.readN rs1 = some n →
    let fails (c : Failure) : Prop :=
      exec (.fromdec log std rd rs1 radix) s = .next (raiseFail (.num rd) c s)
    (n.kind ≠ .unsigned → n.kind ≠ .signed → fails .invalidOperand) ∧
    (n.kind = .unsigned ∨ n.kind = .signed →
      (n.radix ≠ 10 ∨ radix.toNat < 2 ∨ 35 < radix.toNat → fails .invalidBase) ∧
      (n.radix = 10 → 2 ≤ radix.toNat → radix.toNat ≤ 35 →
        (n.valid = false → fails .invalidNumeral) ∧
        (n.valid = true → std = true → n.standardized = false → fails .invalidNumeral) ∧
        (n.valid = true → (std = true → n.standardized = true) →
          (∀ w : Nat, s.caps.wcap = some w → (radix.toNat : ℚ) ^ w ≤ |n.val| →
            fails .capacityExceeded) ∧
          (exceeds s.caps.wcap (4 * max n.whole.length 1) = false →
            ∃ x : Numeral,
              exec (.fromdec log std rd rs1 radix) s = .next (succeed false (s.setN rd (some x))) ∧
              x.standardized = true ∧ x.radix = cell radix.toNat ∧ x.kind = n.kind ∧ x.sm = n.sm ∧
              x.fraction.length ≤ 8 ∧
              |x.val| = (⌊|n.val| * (radix.toNat : ℚ) ^ 8⌋ : ℚ) / (radix.toNat : ℚ) ^ 8))))

/-- `CVTB` copies the register when the radices agree, whatever it holds, and otherwise is `TODEC`
followed by `FROMDEC`, stopping at the first failure (42_base_converter.md rule R145; 60_exceptions.md
rule R300). -/
def Obligations.CvtbIsTodecThenFromdec : Prop :=
  ∀ (s : State) (log : Bool) (rd rs1 : Fin 8) (radix : BitVec 12),
    (s.readN rs1 = none →
      exec (.cvtb log rd rs1 radix) s = .next (raiseFail (.num rd) .invalidInput s)) ∧
    ∀ n : Numeral, s.readN rs1 = some n →
      (radix.toNat < 2 ∨ 35 < radix.toNat →
        exec (.cvtb log rd rs1 radix) s = .next (raiseFail (.num rd) .invalidBase s)) ∧
      (2 ≤ radix.toNat → radix.toNat ≤ 35 →
        (n.radix.val = radix.toNat →
          exec (.cvtb log rd rs1 radix) s = .next (succeed false (s.setN rd (some n)))) ∧
        (n.radix.val ≠ radix.toNat → ∃ t, exec (.todec log false rd rs1) s = .next t ∧
          (statusCode t.status ≠ 0 → exec (.cvtb log rd rs1 radix) s = .next t) ∧
          (statusCode t.status = 0 →
            exec (.cvtb log rd rs1 radix) s = exec (.fromdec log false rd rd radix) t)))

/-- `CVTB` to another radix completes on every valid UNSIGNED or SIGNED numeral, with the two truncations
of the way through eight decimal digits (42_base_converter.md rule R145). -/
def Obligations.CvtbTruncatesTwice : Prop :=
  ∀ (s : State) (log : Bool) (rd rs1 : Fin 8) (radix : BitVec 12) (n m : Numeral),
    s.readN rs1 = some n → (n.kind = .unsigned ∨ n.kind = .signed) → n.std = .ok m →
    2 ≤ radix.toNat → radix.toNat ≤ 35 → n.radix.val ≠ radix.toNat →
    exceeds s.caps.wcap (8 * max n.whole.length 1) = false →
    ∃ x : Numeral, exec (.cvtb log rd rs1 radix) s = .next (succeed false (s.setN rd (some x))) ∧
      x.standardized = true ∧ x.radix = cell radix.toNat ∧ x.kind = n.kind ∧ x.sm = n.sm ∧
      ⌊|x.val|⌋ = ⌊|n.val|⌋ ∧ |x.val| ≤ |n.val| ∧
      |n.val| < |x.val| + m.fraction.length / 100000000 + 1 / (radix.toNat : ℚ) ^ 8

/-- The bounded round trip: `TODEC` then `FROMDEC` back gives the same sign, kind and whole digits and a
fraction from below; with exact terms in rule R142 it gives the numeral itself (42_base_converter.md
rule R146). -/
def Obligations.DecimalRoundTripIsBounded : Prop :=
  ∀ (s : State) (log : Bool) (mid rd rs1 : Fin 8) (radix : BitVec 12) (n : Numeral),
    s.readN rs1 = some n → (n.kind = .unsigned ∨ n.kind = .signed) → n.standardized = true →
    n.fraction.length ≤ 8 → n.radix.val = radix.toNat →
    exceeds s.caps.wcap (8 * n.whole.length) = false →
    ∃ t u x, exec (.todec log true mid rs1) s = .next t ∧ exec (.fromdec log true rd mid radix) t = .next u ∧
      statusCode t.status = 0 ∧ statusCode u.status = 0 ∧ u.readN rd = some x ∧
      x.sign = n.sign ∧ x.kind = n.kind ∧ x.radix = n.radix ∧ x.whole = n.whole ∧
      |x.val| ≤ |n.val| ∧
      (n.fraction ≠ [] → |n.val| < |x.val| + n.fraction.length / 100000000 + 1 / (n.radix.val : ℚ) ^ 8) ∧
      ((∀ k, k < n.fraction.length →
        n.radix.val ^ (k + 1) ∣ (n.fraction.getD k 0).val * 100000000) → x = n)

/-! ### Fixed-point engine -/

/-- `CMPM` compares the digit strings at their first difference, and fails by the first of its checks
(43_fixed_point.md rule R160). -/
def Obligations.CmpmComparesDigitStrings : Prop :=
  ∀ (s : State) (log : Bool) (rs1 rs2 : Fin 8),
    let fails (c : Failure) : Prop := exec (.cmpm log rs1 rs2) s = .next (raiseFail .cond c s)
    let delivers (c : Cond) : Prop := exec (.cmpm log rs1 rs2) s = .next (succeed false (s.setCC (some c)))
    (s.readN rs1 = none ∨ s.readN rs2 = none → fails .invalidInput) ∧
    ∀ a b : Numeral, s.readN rs1 = some a → s.readN rs2 = some b →
      (a.radix ≠ b.radix → fails .differentBase) ∧
      (a.radix = b.radix → a.kind ≠ b.kind → fails .differentType) ∧
      (a.radix = b.radix → a.kind = b.kind →
        (a.valid = false ∨ b.valid = false ∨ a.whole.length ≠ b.whole.length ∨
          a.fraction.length ≠ b.fraction.length → fails .invalidOperand) ∧
        (a.valid = true → b.valid = true → a.whole.length = b.whole.length →
          a.fraction.length = b.fraction.length →
          (a.whole ++ a.fraction = b.whole ++ b.fraction → delivers .zero) ∧
          (∀ (p u v : List Cell) (x y : Cell), a.whole ++ a.fraction = p ++ x :: u →
            b.whole ++ b.fraction = p ++ y :: v →
            (x.val < y.val → delivers .minus) ∧ (y.val < x.val → delivers .plus))))

/-- `ADDN` is value-exact, grows the whole part only as far as needed, and gives a negative zero for two
negative SIGNED or SMR operands alone; different radices, different kinds, an invalid operand and a sum
beyond the capacity fail, in that order (43_fixed_point.md rules R161, R171). -/
def Obligations.AddnIsValueExact : Prop :=
  ∀ (s : State) (log : Bool) (rd rs1 rs2 : Fin 8) (a b : Numeral),
    s.readN rs1 = some a → s.readN rs2 = some b →
    let fails (c : Failure) : Prop :=
      exec (.addn log rd rs1 rs2) s = .next (raiseFail (.num rd) c s)
    let lw : Nat := max (max a.whole.length b.whole.length) 1
    let isSum (y : Numeral) : Prop := y.valid = true ∧ y.val = a.val + b.val ∧ y.radix = a.radix ∧
      y.kind = a.kind ∧ y.fraction.length = max a.fraction.length b.fraction.length ∧
      lw ≤ y.whole.length
    (a.radix ≠ b.radix → fails .differentBase) ∧
    (a.radix = b.radix → a.kind ≠ b.kind → fails .differentType) ∧
    (a.radix = b.radix → a.kind = b.kind → a.valid = false ∨ b.valid = false →
      fails .invalidOperand) ∧
    (a.radix = b.radix → a.kind = b.kind → a.valid = true → b.valid = true →
      (∀ w : Nat, s.caps.wcap = some w → (∀ y, isSum y → w < y.whole.length) →
        fails .capacityExceeded) ∧
      (exceeds s.caps.wcap (lw + 1) = false →
        ∃ x : Numeral, exec (.addn log rd rs1 rs2) s = .next (succeed false (s.setN rd (some x))) ∧
          isSum x ∧ x.sign.length = (if a.kind = .unsigned then 0 else 1) ∧
          (x.val = 0 → x.sm =
            if (a.kind = .signed ∨ a.kind = .signMagnitude) ∧ a.sm = .minus ∧ b.sm = .minus
            then .minus else .plus) ∧
          ∀ y, isSum y → x.whole.length ≤ y.whole.length))

/-- `ADDN`, `MULU`, `FADD` and `FMUL` deliver the same for exchanged operands, on every state
(43_fixed_point.md rules R168, R170; 46_ieee_arith.md rule R271 (a)). -/
def Obligations.SumsAndProductsCommute : Prop :=
  ∀ (s : State) (log : Bool) (rd a b : Fin 8) (fd fa fb : Fin 4),
    exec (.addn log rd a b) s = exec (.addn log rd b a) s ∧
    exec (.mulu log rd a b) s = exec (.mulu log rd b a) s ∧
    exec (.fadd log fd fa fb) s = exec (.fadd log fd fb fa) s ∧
    exec (.fmul log fd fa fb) s = exec (.fmul log fd fb fa) s

/-- The shifts move the concatenated digits of the run `N[first] … N[last]` by `positions`: `SHL` to the
left with zeros from the right, `SHRL` to the right with zeros, `SHRA` to the right with the sign digit
of a complement-kind first register, else zeros; each register keeps its sign, radix, kind and lengths.
Different radices, a SIGNED register and a digit not below the radix fail, in the order of the pseudocode,
which decision D31 words differently (43_fixed_point.md rules R163 to R166; 60_exceptions.md rule R295;
notes/assumptions/5.md). -/
def Obligations.ShiftsMoveTheView : Prop :=
  ∀ (s : State) (log : Bool) (first last : Fin 8) (positions : BitVec 12) (i : Instr)
    (regs : List Numeral),
    first ≤ last → (registerRun first last).map s.readN = regs.map some →
    i = .shl log first last positions ∨ i = .shrl log first last positions ∨
      i = .shra log first last positions →
    let fails (c : Failure) : Prop := exec i s = .next (raiseFail .inPlace c s)
    ((∃ a ∈ regs, ∃ b ∈ regs, a.radix ≠ b.radix) → fails .differentBase) ∧
    ((∀ a ∈ regs, ∀ b ∈ regs, a.radix = b.radix) →
      ((∃ n ∈ regs, n.kind = .signed) → fails .invalidOperand) ∧
      ((∀ n ∈ regs, n.kind ≠ .signed) →
        ((∃ n ∈ regs, ∃ d ∈ n.whole ++ n.fraction, n.radix.val ≤ d.val) → fails .invalidDigit) ∧
        ((∀ n ∈ regs, ∀ d ∈ n.whole ++ n.fraction, d.val < n.radix.val) →
          let view := regs.flatMap (fun n => n.whole ++ n.fraction)
          let p := positions.toNat
          ∃ out : List Numeral, exec i s = .next (succeed false (s.setNs (registerRun first last) out)) ∧
            out.map (fun n => (n.sign, n.radix, n.kind, n.whole.length, n.fraction.length)) =
              regs.map (fun n => (n.sign, n.radix, n.kind, n.whole.length, n.fraction.length)) ∧
            ∀ j, j < view.length →
              let digit := (out.flatMap (fun n => n.whole ++ n.fraction)).getD j 0
              (i = .shl log first last positions →
                digit = if j + p < view.length then view.getD (j + p) 0 else 0) ∧
              (i = .shrl log first last positions → digit = if p ≤ j then view.getD (j - p) 0 else 0) ∧
              (i = .shra log first last positions → digit = if p ≤ j then view.getD (j - p) 0 else
                match regs with
                | [] => 0
                | n :: _ =>
                  if n.kind = .onesComplement ∨ n.kind = .twosComplement then n.sign.headD 0 else 0))))

/-- `ADDLP` adds `delta` units of the last fraction digit: to the magnitude for UNSIGNED, SIGNED and SMR,
with `Underflow` below zero, and to the value for OC and TC; the whole part grows only as far as needed
(43_fixed_point.md rule R167). -/
def Obligations.AddlpAddsAtTheLowestPoint : Prop :=
  ∀ (s : State) (log : Bool) (rd rs1 : Fin 8) (delta : BitVec 12) (a : Numeral),
    s.readN rs1 = some a →
    (a.valid = false → exec (.addlp log rd rs1 delta) s = .next (raiseFail (.num rd) .invalidOperand s)) ∧
    (a.valid = true → a.kind = .unsigned ∨ a.kind = .signed ∨ a.kind = .signMagnitude →
      (a.digitsInt : Int) + delta.toInt < 0 →
      exec (.addlp log rd rs1 delta) s = .next (raiseFail (.num rd) .underflow s)) ∧
    (a.valid = true → exceeds s.caps.wcap (max a.whole.length 1 + 12) = false →
      (a.kind = .unsigned ∨ a.kind = .signed ∨ a.kind = .signMagnitude →
        0 ≤ (a.digitsInt : Int) + delta.toInt) →
      ∃ x : Numeral, exec (.addlp log rd rs1 delta) s = .next (succeed false (s.setN rd (some x))) ∧
        x.valid = true ∧ x.radix = a.radix ∧ x.kind = a.kind ∧
        x.fraction.length = a.fraction.length ∧ max a.whole.length 1 ≤ x.whole.length ∧
        (a.kind = .unsigned ∨ a.kind = .signed ∨ a.kind = .signMagnitude →
          x.sign = a.sign ∧ (x.digitsInt : Int) = a.digitsInt + delta.toInt) ∧
        (a.kind = .onesComplement ∨ a.kind = .twosComplement →
          x.val = a.val + delta.toInt / (a.radix.val : ℚ) ^ a.fraction.length ∧
          (x.val = 0 → x.sm = .plus)) ∧
        ∀ y : Numeral, y.valid = true → y.kind = x.kind → y.radix = x.radix → y.val = x.val →
          y.fraction.length = x.fraction.length → max a.whole.length 1 ≤ y.whole.length →
          x.whole.length ≤ y.whole.length)

/-- `MULU` multiplies two UNSIGNED integers; a zero product is the digit 0; different radices, another
kind, an invalid operand and an operand with a fraction fail, in that order (43_fixed_point.md rule
R168). -/
def Obligations.MuluMultipliesIntegers : Prop :=
  ∀ (s : State) (log : Bool) (rd rs1 rs2 : Fin 8) (a b : Numeral),
    s.readN rs1 = some a → s.readN rs2 = some b →
    let fails (c : Failure) : Prop :=
      exec (.mulu log rd rs1 rs2) s = .next (raiseFail (.num rd) c s)
    (a.radix ≠ b.radix → fails .differentBase) ∧
    (a.radix = b.radix → a.kind ≠ .unsigned ∨ b.kind ≠ .unsigned → fails .invalidOperand) ∧
    (a.radix = b.radix → a.kind = .unsigned → b.kind = .unsigned →
      (a.valid = false ∨ b.valid = false → fails .invalidNumeral) ∧
      (a.valid = true → b.valid = true →
        (¬((∃ k : Nat, a.val = k) ∧ ∃ k : Nat, b.val = k) → fails .invalidOperand) ∧
        ∀ p q : Nat, a.val = p → b.val = q →
          (∀ w : Nat, s.caps.wcap = some w → a.radix.val ^ w ≤ p * q → fails .capacityExceeded) ∧
          (exceeds s.caps.wcap (a.whole.length + b.whole.length + 2) = false →
            ∃ x : Numeral, exec (.mulu log rd rs1 rs2) s = .next (succeed false (s.setN rd (some x))) ∧
              x.standardized = true ∧ x.kind = .unsigned ∧ x.radix = a.radix ∧ x.fraction = [] ∧
              x.val = p * q)))

/-- `DIVS` divides two SIGNED integers, truncating towards zero, the quotient to `N[rd]` and the
remainder, of the dividend's sign, to `N[(rd+1) mod 8]`; different radices, another kind, an invalid operand,
an operand with a fraction and a zero divisor fail, in that order (43_fixed_point.md rule R169). -/
def Obligations.DivsTruncatesTowardsZero : Prop :=
  ∀ (s : State) (log : Bool) (rd rs1 rs2 : Fin 8) (a b : Numeral),
    s.readN rs1 = some a → s.readN rs2 = some b →
    let fails (c : Failure) : Prop :=
      exec (.divs log rd rs1 rs2) s = .next (raiseFail (.numPair rd) c s)
    (a.radix ≠ b.radix → fails .differentBase) ∧
    (a.radix = b.radix → a.kind ≠ .signed ∨ b.kind ≠ .signed → fails .invalidOperand) ∧
    (a.radix = b.radix → a.kind = .signed → b.kind = .signed →
      (a.valid = false ∨ b.valid = false → fails .invalidNumeral) ∧
      (a.valid = true → b.valid = true →
        (¬((∃ k : Int, a.val = k) ∧ ∃ k : Int, b.val = k) → fails .invalidOperand) ∧
        (b.val = 0 → fails .invalidOperand) ∧
        ∀ x y : Int, a.val = x → b.val = y → y ≠ 0 →
          exceeds s.caps.wcap (a.whole.length + 1) = false →
          ∃ q r : Numeral, exec (.divs log rd rs1 rs2) s =
              .next (succeed false ((s.setN rd (some q)).setN (rd + 1) (some r))) ∧
            q.standardized = true ∧ q.kind = .signed ∧ q.radix = a.radix ∧ q.fraction = [] ∧
            r.standardized = true ∧ r.kind = .signed ∧ r.radix = a.radix ∧ r.fraction = [] ∧
            q.val = x.tdiv y ∧ r.val = x.tmod y ∧
            (q.val = 0 → q.sm = .plus) ∧ (r.val = 0 → r.sm = .plus)))

/-! ### IEEE754 encoder -/

/-- A whole part of more than `DIGITS` digits gives the ±∞ pattern, whatever the exponent text
(44_ieee_encode.md rules R193, R209; `DIGITS` is decided, notes/assumptions/4.md). -/
def Obligations.EncOverflowsToInfinity : Prop :=
  ∀ (s : State) (log : Bool) (f : Format) (rd : Fin 4) (rs1 : Fin 8) (tx : Fin 2) (n : Numeral) (t : Text),
    s.readN rs1 = some n → s.readT tx = some t → n.kind = .signed → n.radix = 10 → n.valid = true →
    exceeds s.caps.wcap (4 * max n.whole.length 1) = false →
    (f.radix : ℚ) ^ f.digits ≤ |n.val| →
    exec (encOf f log rd rs1 tx) s = .next (succeed false
      (s.setF rd (some ⟨f, withSign f (decide (n.sm = .minus)) (infinityWord f)⟩)))

/-- `ENC.f` fails by the first of its checks: kind and radix, validity, and, unless the whole part
overflows, the exponent text (44_ieee_encode.md rules R190, R193, R194; `DIGITS` is decided,
notes/assumptions/4.md). -/
def Obligations.EncChecksOperandsAndExponentText : Prop :=
  ∀ (s : State) (log : Bool) (f : Format) (rd : Fin 4) (rs1 : Fin 8) (tx : Fin 2) (n : Numeral) (t : Text),
    s.readN rs1 = some n → s.readT tx = some t →
    let fails (c : Failure) : Prop := exec (encOf f log rd rs1 tx) s = .next (raiseFail (.ieee rd) c s)
    (n.kind ≠ .signed ∨ n.radix ≠ 10 → fails .invalidOperand) ∧
    (n.kind = .signed → n.radix = 10 → n.valid = false → fails .invalidNumeral) ∧
    (n.kind = .signed → n.radix = 10 → n.valid = true → s.caps.wf = true →
      |n.val| < (f.radix : ℚ) ^ f.digits → ¬ isExponentText t → fails .invalidExponent)

/-- `ENC.B32` and `ENC.B64` encode the significand, truncated to eight binary fraction digits, times
`2^e`, truncated to the significand width; a significand that truncates to zero gives the signed zero
whatever the exponent; an adjusted exponent outside `[EMIN, EMAX]` fails (44_ieee_encode.md rules R191,
R195 to R199; the bounds are decided, notes/assumptions/4.md). -/
def Obligations.EncBinaryTruncates : Prop :=
  ∀ (s : State) (log : Bool) (f : Format) (rd : Fin 4) (rs1 : Fin 8) (tx : Fin 2) (n : Numeral)
    (sign : Option Bool) (ds : List Cell),
    f = .b32 ∨ f = .b64 → s.readN rs1 = some n → s.readT tx = some (exponentText sign ds) →
    ds ≠ [] → (∀ d ∈ ds, d.val < 10) → n.kind = .signed → n.radix = 10 → n.valid = true →
    s.caps.wf = true → |n.val| < (2 : ℚ) ^ f.digits →
    let v : ℚ := (⌊|n.val| * 2 ^ 8⌋ : ℚ) / 2 ^ 8 * (2 : ℚ) ^ exponentValue sign ds
    (v = 0 → exec (encOf f log rd rs1 tx) s = .next (succeed false
      (s.setF rd (some ⟨f, withSign f (decide (n.sm = .minus)) 0#64⟩)))) ∧
    ∀ e : Int, (2 : ℚ) ^ e ≤ v → v < (2 : ℚ) ^ (e + 1) →
      (e < f.emin ∨ f.emax < e →
        exec (encOf f log rd rs1 tx) s = .next (raiseFail (.ieee rd) .exponentOutOfBounds s)) ∧
      (f.emin ≤ e → e ≤ f.emax → ∃ x : Ieee,
        exec (encOf f log rd rs1 tx) s = .next (succeed false (s.setF rd (some x))) ∧
        x.format = f ∧ x.word.toNat < 2 ^ f.width ∧ x.sign = decide (n.sm = .minus) ∧
        (x.expInt : Int) = e + f.bias ∧
        x.binaryMagnitude ≤ v ∧ v < x.binaryMagnitude + (2 : ℚ) ^ (e - f.sigWidth))

/-- `ENC.H32` encodes the significand, truncated to eight hexadecimal fraction digits, times `16^e`,
truncated to six hexadecimal digits after the radix point (44_ieee_encode.md rules R191, R195, R196,
R207, R208; `HEX_POINT` and the bounds are decided, notes/assumptions/4.md). -/
def Obligations.EncHexTruncates : Prop :=
  ∀ (s : State) (log : Bool) (rd : Fin 4) (rs1 : Fin 8) (tx : Fin 2) (n : Numeral)
    (sign : Option Bool) (ds : List Cell),
    s.readN rs1 = some n → s.readT tx = some (exponentText sign ds) →
    ds ≠ [] → (∀ d ∈ ds, d.val < 10) → n.kind = .signed → n.radix = 10 → n.valid = true →
    s.caps.wf = true → |n.val| < (16 : ℚ) ^ 6 →
    let v : ℚ := (⌊|n.val| * 16 ^ 8⌋ : ℚ) / 16 ^ 8 * (16 : ℚ) ^ exponentValue sign ds
    (v = 0 → exec (.encH32 log rd rs1 tx) s = .next (succeed false
      (s.setF rd (some ⟨.h32, withSign .h32 (decide (n.sm = .minus)) 0#64⟩)))) ∧
    ∀ e : Int, (16 : ℚ) ^ (e - 1) ≤ v → v < (16 : ℚ) ^ e →
      (e < -64 ∨ 62 < e →
        exec (.encH32 log rd rs1 tx) s = .next (raiseFail (.ieee rd) .exponentOutOfBounds s)) ∧
      (-64 ≤ e → e ≤ 62 → ∃ x : Ieee,
        exec (.encH32 log rd rs1 tx) s = .next (succeed false (s.setF rd (some x))) ∧
        x.format = .h32 ∧ x.word.toNat < 2 ^ 32 ∧ x.sign = decide (n.sm = .minus) ∧
        (x.expInt : Int) = e + 64 ∧
        x.hexMagnitude ≤ v ∧ v < x.hexMagnitude + (16 : ℚ) ^ (e - 6))

/-- `ENC.D32DPD` and `ENC.D32BID` encode the decimal digits as they stand, or rounded to seven with the
guard digit alone, with the exponent `q` in `[-101, 90]`; the fields of the word are those of the DPD table
and of the two layouts, written out (44_ieee_encode.md rules R196, R200 to R203, R206, R211; the bounds are
decided, notes/assumptions/4.md, and the DPD table is the spec's own decision D43). -/
def Obligations.EncDecimalRoundsToSevenDigits : Prop :=
  ∀ (s : State) (log : Bool) (f : Format) (rd : Fin 4) (rs1 : Fin 8) (tx : Fin 2) (n m : Numeral)
    (sign : Option Bool) (ds : List Cell) (C : Nat) (q : Int),
    f = .d32dpd ∨ f = .d32bid → s.readN rs1 = some n → s.readT tx = some (exponentText sign ds) →
    ds ≠ [] → (∀ d ∈ ds, d.val < 10) → n.kind = .signed → n.radix = 10 → n.std = .ok m →
    |n.val| < (10 : ℚ) ^ 7 →
    roundsToSeven m.digitsInt (exponentValue sign ds - m.fraction.length) C q →
    (q < -101 ∨ 90 < q →
      exec (encOf f log rd rs1 tx) s = .next (raiseFail (.ieee rd) .exponentOutOfBounds s)) ∧
    (-101 ≤ q → q ≤ 90 → ∃ x : Ieee,
      exec (encOf f log rd rs1 tx) s = .next (succeed false (s.setF rd (some x))) ∧
      x.format = f ∧ x.word.toNat < 2 ^ 32 ∧ x.sign = decide (n.sm = .minus) ∧
      x.expInt < 1920 ∧ x.decimalParts = (C, q) ∧
      ∃ biased : Nat, (biased : Int) = q + 101 ∧
        (f = .d32bid → x.sigInt = C % 2 ^ 20 ∧
          x.expInt = if C < 2 ^ 23 then biased * 8 + C / 2 ^ 20
            else 1536 + biased * 2 + C / 2 ^ 20 % 2) ∧
        (f = .d32dpd →
          x.sigInt = digitsToDeclet (C / 100000 % 10) (C / 10000 % 10) (C / 1000 % 10) * 1024 +
            digitsToDeclet (C / 100 % 10) (C / 10 % 10) (C % 10) ∧
          x.expInt = if C / 1000000 < 8 then biased / 64 * 512 + C / 1000000 * 64 + biased % 64
            else 1536 + biased / 64 * 128 + (C / 1000000 - 8) * 64 + biased % 64))

/-- `FPARSE.f` takes exactly the format's width of bit characters, spaces apart, as the word, most
significant bit first, and fails on any other text (44_ieee_encode.md rule R210). -/
def Obligations.FparseReadsTheBits : Prop :=
  ∀ (s : State) (log : Bool) (f : Format) (rd : Fin 4) (ts : Fin 2),
    (s.readT ts = none →
      exec (fparseOf f log rd ts) s = .next (raiseFail (.ieee rd) .invalidInput s)) ∧
    ∀ (text t : Text), s.readT ts = some text → t = text.filter (fun c => c ≠ 0x20#8) →
      (t.length ≠ f.width ∨ (∃ c ∈ t, c ≠ 0x30#8 ∧ c ≠ 0x31#8) →
        exec (fparseOf f log rd ts) s = .next (raiseFail (.ieee rd) .invalidEncoding s)) ∧
      ∀ bs : List Bool, t = bs.map bitChar → bs.length = f.width → ∃ x : Ieee,
        exec (fparseOf f log rd ts) s = .next (succeed false (s.setF rd (some x))) ∧
        x.format = f ∧ ∀ k : Nat, x.word.getLsbD k = (decide (k < f.width) && bs.getD (f.width - 1 - k) false)

/-! ### IEEE754 decoder -/

/-- The special values of the binary formats and HEXADECIMAL32: zero exponent and significand, all-one
exponent with zero significand, all-one exponent with the leading significand bit telling the NaNs apart
(45_ieee_decode.md rules R231, R239). -/
def Obligations.DecClassifiesBinaryAndHexSpecials : Prop :=
  ∀ (s : State) (log : Bool) (f : Format) (rd : Fin 8) (fs : Fin 4) (x : Ieee),
    f = .b32 ∨ f = .b64 ∨ f = .h32 → s.readF fs = some x → x.format = f →
    let delivers (tag : DecTag) : Prop := exec (decOf f log rd fs) s =
      .next (succeed false ((s.setN rd none).setP (some tag) none none))
    (x.expInt = 0 → x.sigInt = 0 → delivers (if x.sign then .negZero else .posZero)) ∧
    (x.expInt + 1 = 2 ^ f.expWidth →
      (x.sigInt = 0 → delivers (if x.sign then .negInf else .posInf)) ∧
      (0 < x.sigInt → x.sigInt < 2 ^ (f.sigWidth - 1) → delivers .snan) ∧
      (2 ^ (f.sigWidth - 1) ≤ x.sigInt → delivers .qnan))

/-- The special values of the decimal formats by the leading bits of the exponent field: `11110` is ±∞,
`1111100` sNaN, `1111101` qNaN, and `111111` is refused (45_ieee_decode.md rules R232, R239). -/
def Obligations.DecClassifiesDecimalSpecials : Prop :=
  ∀ (s : State) (log : Bool) (f : Format) (rd : Fin 8) (fs : Fin 4) (x : Ieee),
    f = .d32dpd ∨ f = .d32bid → s.readF fs = some x → x.format = f →
    let delivers (tag : DecTag) : Prop := exec (decOf f log rd fs) s =
      .next (succeed false ((s.setN rd none).setP (some tag) none none))
    (x.expInt = 0 → x.sigInt = 0 → delivers (if x.sign then .negZero else .posZero)) ∧
    (x.expInt / 2 ^ 6 = 0b11110 → delivers (if x.sign then .negInf else .posInf)) ∧
    (x.expInt / 2 ^ 4 = 0b1111100 → delivers .snan) ∧
    (x.expInt / 2 ^ 4 = 0b1111101 → delivers .qnan) ∧
    (x.expInt / 2 ^ 5 = 0b111111 →
      exec (decOf f log rd fs) s = .next (raiseFail (.decoded rd) .refused s))

/-- A binary number decodes to a decimal significand and a power of two: exponent 0 for magnitudes in
`[1, 2^10)`, else the exponent of the magnitude's leading bit; the fraction is the accumulator of
42_base_converter.md rule R142, bit by bit, so the significand is truncated by less than `SW` units of
`10^-8` (45_ieee_decode.md rules R233, R234, R238 to R241; `DEC_SHIFT` outside `[0, 10)` is decided,
notes/assumptions/4.md). -/
def Obligations.DecBinaryDeliversTheValue : Prop :=
  ∀ (s : State) (log : Bool) (f : Format) (rd : Fin 8) (fs : Fin 4) (x : Ieee) (e : Int),
    f = .b32 ∨ f = .b64 → s.caps.wf = true → s.readF fs = some x → x.format = f →
    x.expInt + 1 ≠ 2 ^ f.expWidth →
    (2 : ℚ) ^ e ≤ x.binaryMagnitude → x.binaryMagnitude < (2 : ℚ) ^ (e + 1) →
    let ex : Int := if 0 ≤ e ∧ e < 10 then 0 else e
    let v : ℚ := x.binaryMagnitude * (2 : ℚ) ^ (-ex)
    ∃ m : Numeral, exec (decOf f log rd fs) s =
        .next (succeed false ((s.setN rd (some m)).setP (some .numeric) (some 2) (some ex))) ∧
      m.standardized = true ∧ m.kind = .signed ∧ m.radix = 10 ∧
      m.sm = (if x.sign then .minus else .plus) ∧ m.fraction.length ≤ 8 ∧
      ⌊|m.val|⌋ = ⌊v⌋ ∧ |m.val| ≤ v ∧ v * 100000000 < |m.val| * 100000000 + f.sigWidth ∧
      |m.val| = (⌊v⌋ : ℚ) + ((∑ k ∈ Finset.range 26,
        (⌊v * 2 ^ (k + 1)⌋₊ % 2) * 100000000 / 2 ^ (k + 1) : Nat) : ℚ) / 100000000

/-- A HEXADECIMAL32 number decodes to a decimal significand and a power of sixteen, exponent 0 for an
exponent field in `[64, 74)`; the fraction is the accumulator of 42_base_converter.md rule R142, digit by
digit, so it is truncated by less than six units of `10^-8` (45_ieee_decode.md rules R235, R238, R239,
R244; `HEX_POINT` and `DEC_SHIFT` outside `[0, 10)` are decided, notes/assumptions/4.md). -/
def Obligations.DecHexDeliversTheValue : Prop :=
  ∀ (s : State) (log : Bool) (rd : Fin 8) (fs : Fin 4) (x : Ieee),
    s.caps.wf = true → s.readF fs = some x → x.format = .h32 →
    x.expInt ≠ 127 → ¬(x.expInt = 0 ∧ x.sigInt = 0) →
    let e : Int := x.expInt - 64
    let ex : Int := if 0 ≤ e ∧ e < 10 then 0 else e
    let v : ℚ := x.hexMagnitude * (16 : ℚ) ^ (-ex)
    ∃ m : Numeral, exec (.decH32 log rd fs) s =
        .next (succeed false ((s.setN rd (some m)).setP (some .numeric) (some 16) (some ex))) ∧
      m.standardized = true ∧ m.kind = .signed ∧ m.radix = 10 ∧
      m.sm = (if x.sign then .minus else .plus) ∧ m.fraction.length ≤ 8 ∧
      ⌊|m.val|⌋ = ⌊v⌋ ∧ |m.val| ≤ v ∧ v * 100000000 < |m.val| * 100000000 + 6 ∧
      |m.val| = (⌊v⌋ : ℚ) + ((∑ k ∈ Finset.range 6,
        (⌊v * 16 ^ (k + 1)⌋₊ % 16) * 100000000 / 16 ^ (k + 1) : Nat) : ℚ) / 100000000

/-- A Decimal32 number decodes to its integer coefficient and exponent exactly, with the coefficient and
the exponent where the two layouts hold them, the digits of a declet by the table of rule R204, written out
(45_ieee_decode.md rules R236, R237, R239, R242, R243; 44_ieee_encode.md rule R204, the spec's own decision D43). -/
def Obligations.DecDecimalIsExact : Prop :=
  ∀ (s : State) (log : Bool) (f : Format) (rd : Fin 8) (fs : Fin 4) (x : Ieee),
    f = .d32dpd ∨ f = .d32bid → s.readF fs = some x → x.format = f →
    x.expInt < 1920 → ¬(x.expInt = 0 ∧ x.sigInt = 0) →
    ∃ (m : Numeral) (C : Nat) (q : Int), exec (decOf f log rd fs) s =
        .next (succeed false ((s.setN rd (some m)).setP (some .numeric) (some 10) (some q))) ∧
      m.standardized = true ∧ m.kind = .signed ∧ m.radix = 10 ∧ m.fraction = [] ∧
      m.sm = (if x.sign then .minus else .plus) ∧ |m.val| = C ∧ -101 ≤ q ∧ q ≤ 90 ∧
      (f = .d32bid → x.expInt < 1536 →
        C = x.expInt % 8 * 2 ^ 20 + x.sigInt ∧ q = (x.expInt / 8 : Nat) - 101) ∧
      (f = .d32bid → 1536 ≤ x.expInt →
        C = 2 ^ 23 + x.expInt % 2 * 2 ^ 20 + x.sigInt ∧ q = (x.expInt / 2 % 256 : Nat) - 101) ∧
      (f = .d32dpd →
        let hi : List Cell := decletToDigits (x.sigInt / 1024)
        let lo : List Cell := decletToDigits (x.sigInt % 1024)
        dpdToDecimal (bits (x.sigInt / 1024) 10) = digitCodes hi ∧ hi.length = 3 ∧
        dpdToDecimal (bits x.sigInt 10) = digitCodes lo ∧ lo.length = 3 ∧
        (∀ d ∈ hi ++ lo, d.val < 10) ∧
        (x.expInt < 1536 → C = ofDigits 10 (cell (x.expInt / 64 % 8) :: hi ++ lo) ∧
          q = (x.expInt / 512 * 64 + x.expInt % 64 : Nat) - 101) ∧
        (1536 ≤ x.expInt → C = ofDigits 10 (cell (8 + x.expInt / 64 % 2) :: hi ++ lo) ∧
          q = (x.expInt / 128 % 4 * 64 + x.expInt % 64 : Nat) - 101))

/-! ### Binary32 arithmetic -/

/-- A register of another format fails: `DEC.f` with `InvalidEncoding`, the four arithmetic commands, which
take BINARY32 alone, with `InvalidOperand` (45_ieee_decode.md rule R230; 46_ieee_arith.md rule R260). -/
def Obligations.AnotherIeeeFormatFails : Prop :=
  (∀ (s : State) (log : Bool) (f : Format) (rd : Fin 8) (fs : Fin 4) (x : Ieee),
    s.readF fs = some x → x.format ≠ f →
    exec (decOf f log rd fs) s = .next (raiseFail (.decoded rd) .invalidEncoding s)) ∧
  ∀ (s : State) (log : Bool) (rd fa fb : Fin 4) (xa xb : Ieee) (i : Instr),
    s.readF fa = some xa → s.readF fb = some xb → xa.format ≠ .b32 ∨ xb.format ≠ .b32 →
    i = .fadd log rd fa fb ∨ i = .fsub log rd fa fb ∨ i = .fmul log rd fa fb ∨ i = .fdiv log rd fa fb →
    exec i s = .next (raiseFail (.ieee rd) .invalidOperand s)

/-- `FADD`, `FSUB` and `FMUL` deliver the exact sum, difference or product of two finite nonzero words
truncated to the BINARY32 grid, `+0` on exact cancellation, an infinity beyond the range (46_ieee_arith.md
rules R262, R264 to R267). -/
def Obligations.SumsAndProductsAreTruncated : Prop :=
  ∀ (s : State) (log : Bool) (rd fa fb : Fin 4) (xa xb : Ieee) (a b : Word),
    s.readF fa = some xa → s.readF fb = some xb → xa.format = .b32 → xb.format = .b32 →
    a = xa.word.extractLsb' 0 32 → b = xb.word.extractLsb' 0 32 → classOf a = .fin → classOf b = .fin →
    (∃ w, exec (.fadd log rd fa fb) s = .next (succeed false (s.setF rd (some ⟨.b32, w.zeroExtend 64⟩))) ∧
      truncatesTo (wordValue a + wordValue b) w) ∧
    (∃ w, exec (.fsub log rd fa fb) s = .next (succeed false (s.setF rd (some ⟨.b32, w.zeroExtend 64⟩))) ∧
      truncatesTo (wordValue a - wordValue b) w) ∧
    (∃ w, exec (.fmul log rd fa fb) s = .next (succeed false (s.setF rd (some ⟨.b32, w.zeroExtend 64⟩))) ∧
      truncatesTo (wordValue a * wordValue b) w)

/-- `FDIV` delivers the exact quotient rounded half up on the one guard bit (46_ieee_arith.md rules R262,
R264, R268). -/
def Obligations.FdivRoundsHalfUp : Prop :=
  ∀ (s : State) (log : Bool) (rd fa fb : Fin 4) (xa xb : Ieee) (a b : Word),
    s.readF fa = some xa → s.readF fb = some xb → xa.format = .b32 → xb.format = .b32 →
    a = xa.word.extractLsb' 0 32 → b = xb.word.extractLsb' 0 32 → classOf a = .fin → classOf b = .fin →
    ∃ w, exec (.fdiv log rd fa fb) s = .next (succeed false (s.setF rd (some ⟨.b32, w.zeroExtend 64⟩))) ∧
      roundsHalfUpTo (wordValue a / wordValue b) w

/-- The special-value table of the four commands, row by row; `FSUB` is the `add` rows with the sign of
`b` inverted (46_ieee_arith.md rules R261, R263, R266, R269); the NaN word of the rows is `QNAN32`, whose
value 0x7FC00000 is decided (DESIGN CHOICE, notes/assumptions/4.md). -/
def Obligations.FloatSpecialValueTable : Prop :=
  ∀ (s : State) (log : Bool) (rd fa fb : Fin 4) (xa xb : Ieee) (a b : Word) (i : Instr),
    s.readF fa = some xa → s.readF fb = some xb → xa.format = .b32 → xb.format = .b32 →
    a = xa.word.extractLsb' 0 32 → b = xb.word.extractLsb' 0 32 →
    let ca := classOf a
    let cb := classOf b
    let sb := if i = .fsub log rd fa fb then !signOf b else signOf b
    let b' := signedWord sb (b.extractLsb' 0 31)
    let signXor := signOf a ^^ signOf b
    let delivers (w : Word) : Prop :=
      exec i s = .next (succeed false (s.setF rd (some ⟨.b32, w.zeroExtend 64⟩)))
    let inf (minus : Bool) : Word := signedWord minus 0x7F800000#31
    let zero (minus : Bool) : Word := signedWord minus 0#31
    let qnan : Word := 0x7FC00000#32
    (i = .fadd log rd fa fb ∨ i = .fsub log rd fa fb →
      (ca = .nan ∨ cb = .nan → delivers qnan) ∧
      (ca = .inf → cb = .inf → delivers (if signOf a = sb then a else qnan)) ∧
      (ca = .inf → cb = .zero ∨ cb = .fin → delivers a) ∧
      (ca = .zero ∨ ca = .fin → cb = .inf → delivers b') ∧
      (ca = .zero → cb = .zero → delivers (zero (signOf a && sb))) ∧
      (ca = .zero → cb = .fin → delivers b') ∧ (ca = .fin → cb = .zero → delivers a)) ∧
    (i = .fmul log rd fa fb →
      (ca = .nan ∨ cb = .nan → delivers qnan) ∧
      (ca = .zero → cb = .inf → delivers qnan) ∧ (ca = .inf → cb = .zero → delivers qnan) ∧
      (ca = .inf → cb = .inf ∨ cb = .fin → delivers (inf signXor)) ∧
      (ca = .fin → cb = .inf → delivers (inf signXor)) ∧
      (ca = .zero → cb = .zero ∨ cb = .fin → delivers (zero signXor)) ∧
      (ca = .fin → cb = .zero → delivers (zero signXor))) ∧
    (i = .fdiv log rd fa fb →
      (ca = .nan ∨ cb = .nan → delivers qnan) ∧
      (ca = .zero → cb = .zero → delivers qnan) ∧ (ca = .inf → cb = .inf → delivers qnan) ∧
      (ca = .fin ∨ ca = .inf → cb = .zero → delivers (inf signXor)) ∧
      (ca = .fin ∨ ca = .zero → cb = .inf → delivers (zero signXor)) ∧
      (ca = .inf → cb = .fin → delivers (inf signXor)) ∧
      (ca = .zero → cb = .fin → delivers (zero signXor)))

/-- A NaN delivered by the four commands is 0x7FC00000, and `FSUB Fd, Fa, Fa` is that word for a NaN or
an infinity and `+0` for anything else (46_ieee_arith.md rules R263, R271 (b), (c)); the word is `QNAN32`,
whose value is decided (DESIGN CHOICE, notes/assumptions/4.md). -/
def Obligations.FloatNanIsCanonical : Prop :=
  ∀ (s : State) (log : Bool) (rd fa fb : Fin 4) (xa xb : Ieee),
    s.readF fa = some xa → s.readF fb = some xb → xa.format = .b32 → xb.format = .b32 →
    (∀ i, i = .fadd log rd fa fb ∨ i = .fsub log rd fa fb ∨ i = .fmul log rd fa fb ∨
        i = .fdiv log rd fa fb →
      ∃ w : Word, exec i s = .next (succeed false (s.setF rd (some ⟨.b32, w.zeroExtend 64⟩))) ∧
        (classOf w = .nan → w = 0x7FC00000#32)) ∧
    exec (.fsub log rd fa fa) s = .next (succeed false (s.setF rd (some ⟨.b32,
      if expOf (xa.word.extractLsb' 0 32) = 255 then 0x7FC00000#64 else 0#64⟩)))
end

