-- ==== Sys2Proof/Laws/Decode.lean ====
section
/-! SUPPORT. The fields of a command word and the word are the same data (30_encoding.md rules R71,
R81). -/

namespace Sys2Proof

/-- Cutting the word of some fields gives the fields back. -/
theorem Fields.ofWord_toWord (f : Fields) : Fields.ofWord f.toWord = f := by
  obtain ⟨op, log, std, sel, rd, rs1, rs2, imm⟩ := f
  simp only [Fields.ofWord, Fields.toWord, Fields.mk.injEq]
  refine ⟨?_, ?_, ?_, ?_, ?_, ?_, ?_, ?_⟩
  case refine_2 => simp only [BitVec.getLsbD_append]; simp
  case refine_3 => simp only [BitVec.getLsbD_append]; simp
  all_goals
    apply BitVec.eq_of_getLsbD_eq
    intro i hi
    simp only [BitVec.getLsbD_extractLsb', BitVec.getLsbD_append]
    interval_cases i <;> simp

theorem Fields.toWord_ofWord (w : Word) : (Fields.ofWord w).toWord = w := by
  apply BitVec.eq_of_getLsbD_eq
  intro i hi
  simp only [Fields.ofWord, Fields.toWord, BitVec.getLsbD_append, BitVec.getLsbD_extractLsb']
  interval_cases i <;> simp

/-- Decoding the word of a command is decoding its fields. -/
theorem decode_encode_eq (i : Instr) : decode (encode i) = decodeFields (encodeFields i) := by
  simp only [decode, encode, Fields.ofWord_toWord]

@[simp] theorem numIndex_numField (i : Fin 8) : numIndex (numField i) = i := by
  revert i; decide

@[simp] theorem numField_numIndex (b : BitVec 3) : numField (numIndex b) = b := by
  revert b; decide

@[simp] theorem ieeeIndex_ieeeField (i : Fin 4) : ieeeIndex (ieeeField i) = .ok i := by
  revert i; decide

@[simp] theorem textIndex_textField (i : Fin 2) : textIndex (textField i) = .ok i := by
  revert i; decide

theorem ieeeIndex_eq_ok {b : BitVec 3} {i : Fin 4} (h : ieeeIndex b = .ok i) : ieeeField i = b := by
  revert b i; decide

theorem textIndex_eq_ok {b : BitVec 3} {i : Fin 2} (h : textIndex b = .ok i) : textField i = b := by
  revert b i; decide

@[simp] theorem needNoStd_eq_ok {f : Fields} {u : Unit} : needNoStd f = .ok u ↔ f.std = false := by
  cases h : f.std <;> simp [needNoStd, h]

@[simp] theorem needZero_eq_ok {w : Nat} {b : BitVec w} {u : Unit} : needZero b = .ok u ↔ b = 0 := by
  unfold needZero; split <;> simp_all

end Sys2Proof
end

