-- ==== Sys2Proof/Laws/State.lean ====
section
/-! SUPPORT. One lemma per field per update of the state, true by `rfl`, and how the three register
files read after a write. -/

namespace Sys2Proof.Machine

variable (s : State)

@[simp] theorem State.setN_n (i : Fin 8) (v : Option Numeral) : (s.setN i v).n = s.n.set i v := rfl
@[simp] theorem State.setN_f (i : Fin 8) (v : Option Numeral) : (s.setN i v).f = s.f := rfl
@[simp] theorem State.setN_t (i : Fin 8) (v : Option Numeral) : (s.setN i v).t = s.t := rfl
@[simp] theorem State.setN_ptag (i : Fin 8) (v : Option Numeral) : (s.setN i v).ptag = s.ptag := rfl
@[simp] theorem State.setN_pbase (i : Fin 8) (v : Option Numeral) : (s.setN i v).pbase = s.pbase := rfl
@[simp] theorem State.setN_pexp (i : Fin 8) (v : Option Numeral) : (s.setN i v).pexp = s.pexp := rfl
@[simp] theorem State.setN_cc (i : Fin 8) (v : Option Numeral) : (s.setN i v).cc = s.cc := rfl
@[simp] theorem State.setN_cmd (i : Fin 8) (v : Option Numeral) : (s.setN i v).cmd = s.cmd := rfl
@[simp] theorem State.setN_status (i : Fin 8) (v : Option Numeral) : (s.setN i v).status = s.status := rfl
@[simp] theorem State.setN_esticky (i : Fin 8) (v : Option Numeral) : (s.setN i v).esticky = s.esticky := rfl
@[simp] theorem State.setN_caps (i : Fin 8) (v : Option Numeral) : (s.setN i v).caps = s.caps := rfl
@[simp] theorem State.setN_inputs (i : Fin 8) (v : Option Numeral) : (s.setN i v).inputs = s.inputs := rfl
@[simp] theorem State.setN_answer (i : Fin 8) (v : Option Numeral) : (s.setN i v).answer = s.answer := rfl
@[simp] theorem State.readF_setN (i : Fin 8) (v : Option Numeral) (j : Fin 4) : (s.setN i v).readF j = s.readF j := rfl
@[simp] theorem State.readT_setN (i : Fin 8) (v : Option Numeral) (j : Fin 2) : (s.setN i v).readT j = s.readT j := rfl

@[simp] theorem State.setF_n (i : Fin 4) (v : Option Ieee) : (s.setF i v).n = s.n := rfl
@[simp] theorem State.setF_f (i : Fin 4) (v : Option Ieee) : (s.setF i v).f = s.f.set i v := rfl
@[simp] theorem State.setF_t (i : Fin 4) (v : Option Ieee) : (s.setF i v).t = s.t := rfl
@[simp] theorem State.setF_ptag (i : Fin 4) (v : Option Ieee) : (s.setF i v).ptag = s.ptag := rfl
@[simp] theorem State.setF_pbase (i : Fin 4) (v : Option Ieee) : (s.setF i v).pbase = s.pbase := rfl
@[simp] theorem State.setF_pexp (i : Fin 4) (v : Option Ieee) : (s.setF i v).pexp = s.pexp := rfl
@[simp] theorem State.setF_cc (i : Fin 4) (v : Option Ieee) : (s.setF i v).cc = s.cc := rfl
@[simp] theorem State.setF_cmd (i : Fin 4) (v : Option Ieee) : (s.setF i v).cmd = s.cmd := rfl
@[simp] theorem State.setF_status (i : Fin 4) (v : Option Ieee) : (s.setF i v).status = s.status := rfl
@[simp] theorem State.setF_esticky (i : Fin 4) (v : Option Ieee) : (s.setF i v).esticky = s.esticky := rfl
@[simp] theorem State.setF_caps (i : Fin 4) (v : Option Ieee) : (s.setF i v).caps = s.caps := rfl
@[simp] theorem State.setF_inputs (i : Fin 4) (v : Option Ieee) : (s.setF i v).inputs = s.inputs := rfl
@[simp] theorem State.setF_answer (i : Fin 4) (v : Option Ieee) : (s.setF i v).answer = s.answer := rfl
@[simp] theorem State.readN_setF (i : Fin 4) (v : Option Ieee) (j : Fin 8) : (s.setF i v).readN j = s.readN j := rfl
@[simp] theorem State.readT_setF (i : Fin 4) (v : Option Ieee) (j : Fin 2) : (s.setF i v).readT j = s.readT j := rfl

@[simp] theorem State.setT_n (i : Fin 2) (v : Option Text) : (s.setT i v).n = s.n := rfl
@[simp] theorem State.setT_f (i : Fin 2) (v : Option Text) : (s.setT i v).f = s.f := rfl
@[simp] theorem State.setT_t (i : Fin 2) (v : Option Text) : (s.setT i v).t = s.t.set i v := rfl
@[simp] theorem State.setT_ptag (i : Fin 2) (v : Option Text) : (s.setT i v).ptag = s.ptag := rfl
@[simp] theorem State.setT_pbase (i : Fin 2) (v : Option Text) : (s.setT i v).pbase = s.pbase := rfl
@[simp] theorem State.setT_pexp (i : Fin 2) (v : Option Text) : (s.setT i v).pexp = s.pexp := rfl
@[simp] theorem State.setT_cc (i : Fin 2) (v : Option Text) : (s.setT i v).cc = s.cc := rfl
@[simp] theorem State.setT_cmd (i : Fin 2) (v : Option Text) : (s.setT i v).cmd = s.cmd := rfl
@[simp] theorem State.setT_status (i : Fin 2) (v : Option Text) : (s.setT i v).status = s.status := rfl
@[simp] theorem State.setT_esticky (i : Fin 2) (v : Option Text) : (s.setT i v).esticky = s.esticky := rfl
@[simp] theorem State.setT_caps (i : Fin 2) (v : Option Text) : (s.setT i v).caps = s.caps := rfl
@[simp] theorem State.setT_inputs (i : Fin 2) (v : Option Text) : (s.setT i v).inputs = s.inputs := rfl
@[simp] theorem State.setT_answer (i : Fin 2) (v : Option Text) : (s.setT i v).answer = s.answer := rfl
@[simp] theorem State.readN_setT (i : Fin 2) (v : Option Text) (j : Fin 8) : (s.setT i v).readN j = s.readN j := rfl
@[simp] theorem State.readF_setT (i : Fin 2) (v : Option Text) (j : Fin 4) : (s.setT i v).readF j = s.readF j := rfl

@[simp] theorem State.setCC_n (v : Option Cond) : (s.setCC v).n = s.n := rfl
@[simp] theorem State.setCC_f (v : Option Cond) : (s.setCC v).f = s.f := rfl
@[simp] theorem State.setCC_t (v : Option Cond) : (s.setCC v).t = s.t := rfl
@[simp] theorem State.setCC_ptag (v : Option Cond) : (s.setCC v).ptag = s.ptag := rfl
@[simp] theorem State.setCC_pbase (v : Option Cond) : (s.setCC v).pbase = s.pbase := rfl
@[simp] theorem State.setCC_pexp (v : Option Cond) : (s.setCC v).pexp = s.pexp := rfl
@[simp] theorem State.setCC_cc (v : Option Cond) : (s.setCC v).cc = v := rfl
@[simp] theorem State.setCC_cmd (v : Option Cond) : (s.setCC v).cmd = s.cmd := rfl
@[simp] theorem State.setCC_status (v : Option Cond) : (s.setCC v).status = s.status := rfl
@[simp] theorem State.setCC_esticky (v : Option Cond) : (s.setCC v).esticky = s.esticky := rfl
@[simp] theorem State.setCC_caps (v : Option Cond) : (s.setCC v).caps = s.caps := rfl
@[simp] theorem State.setCC_inputs (v : Option Cond) : (s.setCC v).inputs = s.inputs := rfl
@[simp] theorem State.setCC_answer (v : Option Cond) : (s.setCC v).answer = s.answer := rfl
@[simp] theorem State.readN_setCC (v : Option Cond) (j : Fin 8) : (s.setCC v).readN j = s.readN j := rfl
@[simp] theorem State.readF_setCC (v : Option Cond) (j : Fin 4) : (s.setCC v).readF j = s.readF j := rfl
@[simp] theorem State.readT_setCC (v : Option Cond) (j : Fin 2) : (s.setCC v).readT j = s.readT j := rfl

@[simp] theorem State.setP_n (a : Option DecTag) (b : Option (BitVec 6)) (e : Option Int) : (s.setP a b e).n = s.n := rfl
@[simp] theorem State.setP_f (a : Option DecTag) (b : Option (BitVec 6)) (e : Option Int) : (s.setP a b e).f = s.f := rfl
@[simp] theorem State.setP_t (a : Option DecTag) (b : Option (BitVec 6)) (e : Option Int) : (s.setP a b e).t = s.t := rfl
@[simp] theorem State.setP_ptag (a : Option DecTag) (b : Option (BitVec 6)) (e : Option Int) : (s.setP a b e).ptag = a := rfl
@[simp] theorem State.setP_pbase (a : Option DecTag) (b : Option (BitVec 6)) (e : Option Int) : (s.setP a b e).pbase = b := rfl
@[simp] theorem State.setP_pexp (a : Option DecTag) (b : Option (BitVec 6)) (e : Option Int) : (s.setP a b e).pexp = e := rfl
@[simp] theorem State.setP_cc (a : Option DecTag) (b : Option (BitVec 6)) (e : Option Int) : (s.setP a b e).cc = s.cc := rfl
@[simp] theorem State.setP_cmd (a : Option DecTag) (b : Option (BitVec 6)) (e : Option Int) : (s.setP a b e).cmd = s.cmd := rfl
@[simp] theorem State.setP_status (a : Option DecTag) (b : Option (BitVec 6)) (e : Option Int) : (s.setP a b e).status = s.status := rfl
@[simp] theorem State.setP_esticky (a : Option DecTag) (b : Option (BitVec 6)) (e : Option Int) : (s.setP a b e).esticky = s.esticky := rfl
@[simp] theorem State.setP_caps (a : Option DecTag) (b : Option (BitVec 6)) (e : Option Int) : (s.setP a b e).caps = s.caps := rfl
@[simp] theorem State.setP_inputs (a : Option DecTag) (b : Option (BitVec 6)) (e : Option Int) : (s.setP a b e).inputs = s.inputs := rfl
@[simp] theorem State.setP_answer (a : Option DecTag) (b : Option (BitVec 6)) (e : Option Int) : (s.setP a b e).answer = s.answer := rfl
@[simp] theorem State.readN_setP (a : Option DecTag) (b : Option (BitVec 6)) (e : Option Int) (j : Fin 8) : (s.setP a b e).readN j = s.readN j := rfl
@[simp] theorem State.readF_setP (a : Option DecTag) (b : Option (BitVec 6)) (e : Option Int) (j : Fin 4) : (s.setP a b e).readF j = s.readF j := rfl
@[simp] theorem State.readT_setP (a : Option DecTag) (b : Option (BitVec 6)) (e : Option Int) (j : Fin 2) : (s.setP a b e).readT j = s.readT j := rfl

@[simp] theorem State.setCmd_n (w : Word) : (s.setCmd w).n = s.n := rfl
@[simp] theorem State.setCmd_f (w : Word) : (s.setCmd w).f = s.f := rfl
@[simp] theorem State.setCmd_t (w : Word) : (s.setCmd w).t = s.t := rfl
@[simp] theorem State.setCmd_ptag (w : Word) : (s.setCmd w).ptag = s.ptag := rfl
@[simp] theorem State.setCmd_pbase (w : Word) : (s.setCmd w).pbase = s.pbase := rfl
@[simp] theorem State.setCmd_pexp (w : Word) : (s.setCmd w).pexp = s.pexp := rfl
@[simp] theorem State.setCmd_cc (w : Word) : (s.setCmd w).cc = s.cc := rfl
@[simp] theorem State.setCmd_cmd (w : Word) : (s.setCmd w).cmd = w := rfl
@[simp] theorem State.setCmd_status (w : Word) : (s.setCmd w).status = s.status := rfl
@[simp] theorem State.setCmd_esticky (w : Word) : (s.setCmd w).esticky = s.esticky := rfl
@[simp] theorem State.setCmd_caps (w : Word) : (s.setCmd w).caps = s.caps := rfl
@[simp] theorem State.setCmd_inputs (w : Word) : (s.setCmd w).inputs = s.inputs := rfl
@[simp] theorem State.setCmd_answer (w : Word) : (s.setCmd w).answer = s.answer := rfl
@[simp] theorem State.readN_setCmd (w : Word) (j : Fin 8) : (s.setCmd w).readN j = s.readN j := rfl
@[simp] theorem State.readF_setCmd (w : Word) (j : Fin 4) : (s.setCmd w).readF j = s.readF j := rfl
@[simp] theorem State.readT_setCmd (w : Word) (j : Fin 2) : (s.setCmd w).readT j = s.readT j := rfl

@[simp] theorem State.setStatus_n (w : Word) : (s.setStatus w).n = s.n := rfl
@[simp] theorem State.setStatus_f (w : Word) : (s.setStatus w).f = s.f := rfl
@[simp] theorem State.setStatus_t (w : Word) : (s.setStatus w).t = s.t := rfl
@[simp] theorem State.setStatus_ptag (w : Word) : (s.setStatus w).ptag = s.ptag := rfl
@[simp] theorem State.setStatus_pbase (w : Word) : (s.setStatus w).pbase = s.pbase := rfl
@[simp] theorem State.setStatus_pexp (w : Word) : (s.setStatus w).pexp = s.pexp := rfl
@[simp] theorem State.setStatus_cc (w : Word) : (s.setStatus w).cc = s.cc := rfl
@[simp] theorem State.setStatus_cmd (w : Word) : (s.setStatus w).cmd = s.cmd := rfl
@[simp] theorem State.setStatus_status (w : Word) : (s.setStatus w).status = w := rfl
@[simp] theorem State.setStatus_esticky (w : Word) : (s.setStatus w).esticky = s.esticky := rfl
@[simp] theorem State.setStatus_caps (w : Word) : (s.setStatus w).caps = s.caps := rfl
@[simp] theorem State.setStatus_inputs (w : Word) : (s.setStatus w).inputs = s.inputs := rfl
@[simp] theorem State.setStatus_answer (w : Word) : (s.setStatus w).answer = s.answer := rfl
@[simp] theorem State.readN_setStatus (w : Word) (j : Fin 8) : (s.setStatus w).readN j = s.readN j := rfl
@[simp] theorem State.readF_setStatus (w : Word) (j : Fin 4) : (s.setStatus w).readF j = s.readF j := rfl
@[simp] theorem State.readT_setStatus (w : Word) (j : Fin 2) : (s.setStatus w).readT j = s.readT j := rfl

@[simp] theorem State.setESticky_n (w : Word) : (s.setESticky w).n = s.n := rfl
@[simp] theorem State.setESticky_f (w : Word) : (s.setESticky w).f = s.f := rfl
@[simp] theorem State.setESticky_t (w : Word) : (s.setESticky w).t = s.t := rfl
@[simp] theorem State.setESticky_ptag (w : Word) : (s.setESticky w).ptag = s.ptag := rfl
@[simp] theorem State.setESticky_pbase (w : Word) : (s.setESticky w).pbase = s.pbase := rfl
@[simp] theorem State.setESticky_pexp (w : Word) : (s.setESticky w).pexp = s.pexp := rfl
@[simp] theorem State.setESticky_cc (w : Word) : (s.setESticky w).cc = s.cc := rfl
@[simp] theorem State.setESticky_cmd (w : Word) : (s.setESticky w).cmd = s.cmd := rfl
@[simp] theorem State.setESticky_status (w : Word) : (s.setESticky w).status = s.status := rfl
@[simp] theorem State.setESticky_esticky (w : Word) : (s.setESticky w).esticky = w := rfl
@[simp] theorem State.setESticky_caps (w : Word) : (s.setESticky w).caps = s.caps := rfl
@[simp] theorem State.setESticky_inputs (w : Word) : (s.setESticky w).inputs = s.inputs := rfl
@[simp] theorem State.setESticky_answer (w : Word) : (s.setESticky w).answer = s.answer := rfl
@[simp] theorem State.readN_setESticky (w : Word) (j : Fin 8) : (s.setESticky w).readN j = s.readN j := rfl
@[simp] theorem State.readF_setESticky (w : Word) (j : Fin 4) : (s.setESticky w).readF j = s.readF j := rfl
@[simp] theorem State.readT_setESticky (w : Word) (j : Fin 2) : (s.setESticky w).readT j = s.readT j := rfl

@[simp] theorem State.setInputs_n (l : List HostOp) : (s.setInputs l).n = s.n := rfl
@[simp] theorem State.setInputs_f (l : List HostOp) : (s.setInputs l).f = s.f := rfl
@[simp] theorem State.setInputs_t (l : List HostOp) : (s.setInputs l).t = s.t := rfl
@[simp] theorem State.setInputs_ptag (l : List HostOp) : (s.setInputs l).ptag = s.ptag := rfl
@[simp] theorem State.setInputs_pbase (l : List HostOp) : (s.setInputs l).pbase = s.pbase := rfl
@[simp] theorem State.setInputs_pexp (l : List HostOp) : (s.setInputs l).pexp = s.pexp := rfl
@[simp] theorem State.setInputs_cc (l : List HostOp) : (s.setInputs l).cc = s.cc := rfl
@[simp] theorem State.setInputs_cmd (l : List HostOp) : (s.setInputs l).cmd = s.cmd := rfl
@[simp] theorem State.setInputs_status (l : List HostOp) : (s.setInputs l).status = s.status := rfl
@[simp] theorem State.setInputs_esticky (l : List HostOp) : (s.setInputs l).esticky = s.esticky := rfl
@[simp] theorem State.setInputs_caps (l : List HostOp) : (s.setInputs l).caps = s.caps := rfl
@[simp] theorem State.setInputs_inputs (l : List HostOp) : (s.setInputs l).inputs = l := rfl
@[simp] theorem State.setInputs_answer (l : List HostOp) : (s.setInputs l).answer = s.answer := rfl
@[simp] theorem State.readN_setInputs (l : List HostOp) (j : Fin 8) : (s.setInputs l).readN j = s.readN j := rfl
@[simp] theorem State.readF_setInputs (l : List HostOp) (j : Fin 4) : (s.setInputs l).readF j = s.readF j := rfl
@[simp] theorem State.readT_setInputs (l : List HostOp) (j : Fin 2) : (s.setInputs l).readT j = s.readT j := rfl

@[simp] theorem State.setAnswer_n (a : Option Answer) : (s.setAnswer a).n = s.n := rfl
@[simp] theorem State.setAnswer_f (a : Option Answer) : (s.setAnswer a).f = s.f := rfl
@[simp] theorem State.setAnswer_t (a : Option Answer) : (s.setAnswer a).t = s.t := rfl
@[simp] theorem State.setAnswer_ptag (a : Option Answer) : (s.setAnswer a).ptag = s.ptag := rfl
@[simp] theorem State.setAnswer_pbase (a : Option Answer) : (s.setAnswer a).pbase = s.pbase := rfl
@[simp] theorem State.setAnswer_pexp (a : Option Answer) : (s.setAnswer a).pexp = s.pexp := rfl
@[simp] theorem State.setAnswer_cc (a : Option Answer) : (s.setAnswer a).cc = s.cc := rfl
@[simp] theorem State.setAnswer_cmd (a : Option Answer) : (s.setAnswer a).cmd = s.cmd := rfl
@[simp] theorem State.setAnswer_status (a : Option Answer) : (s.setAnswer a).status = s.status := rfl
@[simp] theorem State.setAnswer_esticky (a : Option Answer) : (s.setAnswer a).esticky = s.esticky := rfl
@[simp] theorem State.setAnswer_caps (a : Option Answer) : (s.setAnswer a).caps = s.caps := rfl
@[simp] theorem State.setAnswer_inputs (a : Option Answer) : (s.setAnswer a).inputs = s.inputs := rfl
@[simp] theorem State.setAnswer_answer (a : Option Answer) : (s.setAnswer a).answer = a := rfl
@[simp] theorem State.readN_setAnswer (a : Option Answer) (j : Fin 8) : (s.setAnswer a).readN j = s.readN j := rfl
@[simp] theorem State.readF_setAnswer (a : Option Answer) (j : Fin 4) : (s.setAnswer a).readF j = s.readF j := rfl
@[simp] theorem State.readT_setAnswer (a : Option Answer) (j : Fin 2) : (s.setAnswer a).readT j = s.readT j := rfl

theorem State.readN_eq (i : Fin 8) : s.readN i = s.n[i.val] := rfl

@[simp] theorem State.readN_setN_same (i : Fin 8) (v : Option Numeral) : (s.setN i v).readN i = v := by
  simp [State.readN_eq, State.setN]

theorem State.readN_setN_ne (i j : Fin 8) (v : Option Numeral) (h : j ≠ i) : (s.setN i v).readN j = s.readN j := by
  have h' : (i : Nat) ≠ j := fun e => h (Fin.ext e.symm)
  simp [State.readN_eq, State.setN, h']

theorem State.readN_setN (i j : Fin 8) (v : Option Numeral) :
    (s.setN i v).readN j = if j = i then v else s.readN j := by
  split
  · next h => subst h; simp
  · next h => exact s.readN_setN_ne i j v h

@[simp] theorem State.setN_setN_same (i : Fin 8) (v w : Option Numeral) : (s.setN i v).setN i w = s.setN i w := by
  simp [State.setN]

theorem State.readF_eq (i : Fin 4) : s.readF i = s.f[i.val] := rfl

@[simp] theorem State.readF_setF_same (i : Fin 4) (v : Option Ieee) : (s.setF i v).readF i = v := by
  simp [State.readF_eq, State.setF]

theorem State.readF_setF_ne (i j : Fin 4) (v : Option Ieee) (h : j ≠ i) : (s.setF i v).readF j = s.readF j := by
  have h' : (i : Nat) ≠ j := fun e => h (Fin.ext e.symm)
  simp [State.readF_eq, State.setF, h']

theorem State.readF_setF (i j : Fin 4) (v : Option Ieee) :
    (s.setF i v).readF j = if j = i then v else s.readF j := by
  split
  · next h => subst h; simp
  · next h => exact s.readF_setF_ne i j v h

@[simp] theorem State.setF_setF_same (i : Fin 4) (v w : Option Ieee) : (s.setF i v).setF i w = s.setF i w := by
  simp [State.setF]

theorem State.readT_eq (i : Fin 2) : s.readT i = s.t[i.val] := rfl

@[simp] theorem State.readT_setT_same (i : Fin 2) (v : Option Text) : (s.setT i v).readT i = v := by
  simp [State.readT_eq, State.setT]

theorem State.readT_setT_ne (i j : Fin 2) (v : Option Text) (h : j ≠ i) : (s.setT i v).readT j = s.readT j := by
  have h' : (i : Nat) ≠ j := fun e => h (Fin.ext e.symm)
  simp [State.readT_eq, State.setT, h']

theorem State.readT_setT (i j : Fin 2) (v : Option Text) :
    (s.setT i v).readT j = if j = i then v else s.readT j := by
  split
  · next h => subst h; simp
  · next h => exact s.readT_setT_ne i j v h

@[simp] theorem State.setT_setT_same (i : Fin 2) (v w : Option Text) : (s.setT i v).setT i w = s.setT i w := by
  simp [State.setT]

/-- Two states are equal when every register file reads alike and every other field agrees. -/
theorem State.ext_reads {s t : State} (hn : ∀ i, s.readN i = t.readN i) (hf : ∀ i, s.readF i = t.readF i)
    (ht : ∀ i, s.readT i = t.readT i) (h1 : s.ptag = t.ptag) (h2 : s.pbase = t.pbase)
    (h3 : s.pexp = t.pexp) (h4 : s.cc = t.cc) (h5 : s.cmd = t.cmd) (h6 : s.status = t.status)
    (h7 : s.esticky = t.esticky) (h8 : s.caps = t.caps) (h9 : s.inputs = t.inputs)
    (h10 : s.answer = t.answer) : s = t := by
  cases s; cases t
  simp only [State.mk.injEq] at *
  refine ⟨?_, ?_, ?_, h1, h2, h3, h4, h5, h6, h7, h8, h9, h10⟩
  · ext i hi : 1; exact hn ⟨i, hi⟩
  · ext i hi : 1; exact hf ⟨i, hi⟩
  · ext i hi : 1; exact ht ⟨i, hi⟩

end Sys2Proof.Machine
end

