-- ==== Sys2Proof/Laws/Ops.lean ====
section
/-! SUPPORT. What each shared operation can do: the checks of a command, its two ends, and, once for all
commands, the outcomes of `exec`. -/

namespace Sys2Proof.Machine

/-! ### Checks and their sequence -/

section Except

variable {α β : Type} {ε : Failure}

@[simp] theorem except_ok_bind (a : α) (f : α → Except Failure β) : ((.ok a : Except Failure α) >>= f) = f a := rfl

@[simp] theorem except_error_bind (f : α → Except Failure β) :
    ((.error ε : Except Failure α) >>= f) = .error ε := rfl

/-- A sequence of two checks delivers exactly when both do. -/
theorem except_bind_eq_ok {x : Except Failure α} {f : α → Except Failure β} {b : β} :
    (x >>= f) = .ok b ↔ ∃ a, x = .ok a ∧ f a = .ok b := by
  cases x <;> simp

/-- A sequence of two checks fails with the first failure. -/
theorem except_bind_eq_error {x : Except Failure α} {f : α → Except Failure β} :
    (x >>= f) = .error ε ↔ x = .error ε ∨ ∃ a, x = .ok a ∧ f a = .error ε := by
  cases x <;> simp

@[simp] theorem held_some (a : α) : held (some a) = .ok a := rfl

@[simp] theorem held_none : held (none : Option α) = .error .invalidInput := rfl

theorem held_eq_ok {v : Option α} {a : α} : held v = .ok a ↔ v = some a := by
  cases v <;> simp [held]

theorem held_eq_error {v : Option α} : held v = .error ε ↔ v = none ∧ ε = .invalidInput := by
  cases v <;> simp [held, eq_comm]

variable {p : Prop} [Decidable p]

theorem failIf_pos (h : p) : failIf p ε = .error ε := if_pos h

theorem failIf_neg (h : ¬ p) : failIf p ε = .ok () := if_neg h

theorem failIf_eq_ok {u : Unit} : failIf p ε = .ok u ↔ ¬ p := by
  unfold failIf; split <;> simp [*]

theorem failIf_eq_error {e : Failure} : failIf p ε = .error e ↔ p ∧ e = ε := by
  unfold failIf; split <;> simp [*, eq_comm]

end Except

/-! ### Capacities -/

@[simp] theorem exceeds_none (len : Nat) : exceeds none len = false := rfl

theorem exceeds_some (c len : Nat) : exceeds (some c) len = decide (c < len) := rfl

/-- A length below one that fits also fits. -/
theorem exceeds_mono {cap : Option Nat} {a b : Nat} (hab : a ≤ b) (h : exceeds cap b = false) :
    exceeds cap a = false := by
  cases cap with
  | none => rfl
  | some c => simp only [exceeds_some, decide_eq_false_iff_not] at *; omega

/-- A capacity of at least 64 holds 64 elements. -/
theorem exceeds_64 {cap : Option Nat} (h : capAtLeast64 cap = true) : exceeds cap 64 = false := by
  cases cap with
  | none => rfl
  | some c => simp only [capAtLeast64, decide_eq_true_eq] at h; simp [exceeds_some, h]

theorem capWhole_eq_ok {caps : Capacities} {x y : Numeral} :
    capWhole caps x = .ok y ↔ exceeds caps.wcap x.whole.length = false ∧ y = x := by
  cases h : exceeds caps.wcap x.whole.length <;> simp [capWhole, h, eq_comm]

theorem capWhole_eq_error {caps : Capacities} {x : Numeral} {e : Failure} :
    capWhole caps x = .error e ↔ exceeds caps.wcap x.whole.length = true ∧ e = .capacityExceeded := by
  cases h : exceeds caps.wcap x.whole.length <;> simp [capWhole, h, eq_comm]

theorem fits_iff {caps : Capacities} {x : Numeral} :
    x.fits caps = true ↔ exceeds caps.wcap x.whole.length = false ∧
      exceeds caps.fcap x.fraction.length = false ∧ exceeds caps.scap x.sign.length = false := by
  simp [Numeral.fits, and_assoc]

/-! ### The two ends of a command -/

section Ends

variable (s : State) (d : Dest) (c : Failure) (warn : Bool)
@[simp] theorem succeed_n : (succeed warn s).n = s.n := rfl
@[simp] theorem succeed_f : (succeed warn s).f = s.f := rfl
@[simp] theorem succeed_t : (succeed warn s).t = s.t := rfl
@[simp] theorem succeed_ptag : (succeed warn s).ptag = s.ptag := rfl
@[simp] theorem succeed_pbase : (succeed warn s).pbase = s.pbase := rfl
@[simp] theorem succeed_pexp : (succeed warn s).pexp = s.pexp := rfl
@[simp] theorem succeed_cc : (succeed warn s).cc = s.cc := rfl
@[simp] theorem succeed_cmd : (succeed warn s).cmd = s.cmd := rfl
@[simp] theorem succeed_caps : (succeed warn s).caps = s.caps := rfl
@[simp] theorem succeed_inputs : (succeed warn s).inputs = s.inputs := rfl
@[simp] theorem succeed_answer : (succeed warn s).answer = s.answer := rfl
@[simp] theorem succeed_readN (i : Fin 8) : (succeed warn s).readN i = s.readN i := rfl
@[simp] theorem succeed_readF (i : Fin 4) : (succeed warn s).readF i = s.readF i := rfl
@[simp] theorem succeed_readT (i : Fin 2) : (succeed warn s).readT i = s.readT i := rfl
@[simp] theorem succeed_status : (succeed warn s).status = completedStatus 0 warn := rfl
@[simp] theorem succeed_esticky : (succeed warn s).esticky = stickyAfter s.esticky warn := rfl

@[simp] theorem raiseFail_n : (raiseFail d c s).n = (clearDest d s).n := rfl
@[simp] theorem raiseFail_f : (raiseFail d c s).f = (clearDest d s).f := rfl
@[simp] theorem raiseFail_t : (raiseFail d c s).t = (clearDest d s).t := rfl
@[simp] theorem raiseFail_ptag : (raiseFail d c s).ptag = (clearDest d s).ptag := rfl
@[simp] theorem raiseFail_pbase : (raiseFail d c s).pbase = (clearDest d s).pbase := rfl
@[simp] theorem raiseFail_pexp : (raiseFail d c s).pexp = (clearDest d s).pexp := rfl
@[simp] theorem raiseFail_cc : (raiseFail d c s).cc = (clearDest d s).cc := rfl
@[simp] theorem raiseFail_cmd : (raiseFail d c s).cmd = (clearDest d s).cmd := rfl
@[simp] theorem raiseFail_caps : (raiseFail d c s).caps = (clearDest d s).caps := rfl
@[simp] theorem raiseFail_inputs : (raiseFail d c s).inputs = (clearDest d s).inputs := rfl
@[simp] theorem raiseFail_answer : (raiseFail d c s).answer = (clearDest d s).answer := rfl
@[simp] theorem raiseFail_readN (i : Fin 8) : (raiseFail d c s).readN i = (clearDest d s).readN i := rfl
@[simp] theorem raiseFail_readF (i : Fin 4) : (raiseFail d c s).readF i = (clearDest d s).readF i := rfl
@[simp] theorem raiseFail_readT (i : Fin 2) : (raiseFail d c s).readT i = (clearDest d s).readT i := rfl
@[simp] theorem raiseFail_status : (raiseFail d c s).status = completedStatus c.code false := rfl
@[simp] theorem clearDest_esticky : (clearDest d s).esticky = s.esticky := by cases d <;> rfl
@[simp] theorem clearDest_cmd : (clearDest d s).cmd = s.cmd := by cases d <;> rfl
@[simp] theorem clearDest_t : (clearDest d s).t = s.t := by cases d <;> rfl
@[simp] theorem clearDest_caps : (clearDest d s).caps = s.caps := by cases d <;> rfl
@[simp] theorem clearDest_inputs : (clearDest d s).inputs = s.inputs := by cases d <;> rfl
@[simp] theorem clearDest_answer : (clearDest d s).answer = s.answer := by cases d <;> rfl

@[simp] theorem raiseFail_esticky :
    (raiseFail d c s).esticky = withSticky s.esticky c.code.toNat := by
  cases d <;> rfl

/-- An illegal command fails like an in-place command: no destination is cleared. -/
theorem illegalCommand_eq : illegalCommand s = raiseFail .inPlace .illegalCommand s := rfl

end Ends

@[simp] theorem statusCode_completed (c : BitVec 6) (warn : Bool) :
    statusCode (completedStatus c warn) = c := by
  revert c warn; decide

@[simp] theorem statusWarn_completed (c : BitVec 6) (warn : Bool) :
    statusWarn (completedStatus c warn) = warn := by
  revert c warn; decide

@[simp] theorem statusDone_completed (c : BitVec 6) (warn : Bool) :
    statusDone (completedStatus c warn) = true := by
  revert c warn; decide

theorem failure_code_ne_zero (c : Failure) : c.code ≠ 0 := by cases c <;> decide

/-! ### A run of registers written -/

section Run

variable (s : State) (is : List (Fin 8)) (xs : List Numeral)

@[simp] theorem State.setNs_f : (s.setNs is xs).f = s.f := by
  induction is generalizing s xs with
  | nil => rfl
  | cons i is ih => cases xs with
    | nil => rfl
    | cons x xs => exact ih ..

@[simp] theorem State.setNs_t : (s.setNs is xs).t = s.t := by
  induction is generalizing s xs with
  | nil => rfl
  | cons i is ih => cases xs with
    | nil => rfl
    | cons x xs => exact ih ..

@[simp] theorem State.setNs_ptag : (s.setNs is xs).ptag = s.ptag := by
  induction is generalizing s xs with
  | nil => rfl
  | cons i is ih => cases xs with
    | nil => rfl
    | cons x xs => exact ih ..

@[simp] theorem State.setNs_pbase : (s.setNs is xs).pbase = s.pbase := by
  induction is generalizing s xs with
  | nil => rfl
  | cons i is ih => cases xs with
    | nil => rfl
    | cons x xs => exact ih ..

@[simp] theorem State.setNs_pexp : (s.setNs is xs).pexp = s.pexp := by
  induction is generalizing s xs with
  | nil => rfl
  | cons i is ih => cases xs with
    | nil => rfl
    | cons x xs => exact ih ..

@[simp] theorem State.setNs_cc : (s.setNs is xs).cc = s.cc := by
  induction is generalizing s xs with
  | nil => rfl
  | cons i is ih => cases xs with
    | nil => rfl
    | cons x xs => exact ih ..

@[simp] theorem State.setNs_cmd : (s.setNs is xs).cmd = s.cmd := by
  induction is generalizing s xs with
  | nil => rfl
  | cons i is ih => cases xs with
    | nil => rfl
    | cons x xs => exact ih ..

@[simp] theorem State.setNs_status : (s.setNs is xs).status = s.status := by
  induction is generalizing s xs with
  | nil => rfl
  | cons i is ih => cases xs with
    | nil => rfl
    | cons x xs => exact ih ..

@[simp] theorem State.setNs_esticky : (s.setNs is xs).esticky = s.esticky := by
  induction is generalizing s xs with
  | nil => rfl
  | cons i is ih => cases xs with
    | nil => rfl
    | cons x xs => exact ih ..

@[simp] theorem State.setNs_caps : (s.setNs is xs).caps = s.caps := by
  induction is generalizing s xs with
  | nil => rfl
  | cons i is ih => cases xs with
    | nil => rfl
    | cons x xs => exact ih ..

@[simp] theorem State.setNs_inputs : (s.setNs is xs).inputs = s.inputs := by
  induction is generalizing s xs with
  | nil => rfl
  | cons i is ih => cases xs with
    | nil => rfl
    | cons x xs => exact ih ..

@[simp] theorem State.setNs_answer : (s.setNs is xs).answer = s.answer := by
  induction is generalizing s xs with
  | nil => rfl
  | cons i is ih => cases xs with
    | nil => rfl
    | cons x xs => exact ih ..

/-- A register outside the run is untouched. -/
theorem State.readN_setNs_of_not_mem {j : Fin 8} (h : j ∉ is) : (s.setNs is xs).readN j = s.readN j := by
  induction is generalizing s xs with
  | nil => rfl
  | cons i is ih => cases xs with
    | nil => rfl
    | cons x xs =>
      simp only [List.mem_cons, not_or] at h
      rw [State.setNs, ih _ _ h.2, State.readN_setN_ne _ _ _ _ h.1]

end Run

/-! ### The outcomes of a command -/

/-- `u` is `s` with a result written to the destination `d`. -/
def Wrote (d : Dest) (s u : State) : Prop :=
  match d with
  | .num rd => ∃ x, u = s.setN rd (some x)
  | .numPair rd => ∃ x y, u = (s.setN rd (some x)).setN (rd + 1) (some y)
  | .ieee rd => ∃ x, u = s.setF rd (some x)
  | .cond => ∃ x, u = s.setCC (some x)
  | .decoded rd => ∃ x, u = putDecoded rd x s
  | .inPlace => ∃ is xs, u = s.setNs is xs

/-- The two ways a command with destination `d` can end. -/
def Ended (d : Dest) (s t : State) : Prop :=
  (∃ c, t = raiseFail d c s) ∨ ∃ warn u, Wrote d s u ∧ t = succeed warn u

/-- A command ends in one of its two ways, by what its result is. -/
theorem finishWith_cases {α : Type} {d : Dest} {warn : α → Bool} {put : α → State → State}
    {r : Except Failure α} {s t : State} (h : finishWith d warn put r s = .next t) :
    (∃ a, r = .ok a ∧ t = succeed (warn a) (put a s)) ∨ ∃ c, r = .error c ∧ t = raiseFail d c s := by
  cases r with
  | ok a => exact .inl ⟨a, rfl, by injection h with h; exact h.symm⟩
  | error c => exact .inr ⟨c, rfl, by injection h with h; exact h.symm⟩

theorem finishWith_outcome {α : Type} (d : Dest) (warn : α → Bool) (put : α → State → State)
    (r : Except Failure α) (s : State) (hput : ∀ a, Wrote d s (put a s)) :
    ∃ t, finishWith d warn put r s = .next t ∧ Ended d s t := by
  cases r with
  | ok a => exact ⟨_, rfl, .inr ⟨warn a, put a s, hput a, rfl⟩⟩
  | error c => exact ⟨_, rfl, .inl ⟨c, rfl⟩⟩

theorem finishN_outcome (rd r s) : ∃ t, finishN rd r s = .next t ∧ Ended (.num rd) s t :=
  finishWith_outcome _ _ _ _ _ fun a => ⟨a, rfl⟩

theorem finishNWarn_outcome (rd r s) : ∃ t, finishNWarn rd r s = .next t ∧ Ended (.num rd) s t :=
  finishWith_outcome _ _ _ _ _ fun a => ⟨a.1, rfl⟩

theorem finishNPair_outcome (rd r s) :
    ∃ t, finishNPair rd r s = .next t ∧ Ended (.numPair rd) s t :=
  finishWith_outcome _ _ _ _ _ fun a => ⟨a.1, a.2, rfl⟩

theorem finishF_outcome (rd r s) : ∃ t, finishF rd r s = .next t ∧ Ended (.ieee rd) s t :=
  finishWith_outcome _ _ _ _ _ fun a => ⟨a, rfl⟩

theorem finishCC_outcome (r s) : ∃ t, finishCC r s = .next t ∧ Ended .cond s t :=
  finishWith_outcome _ _ _ _ _ fun a => ⟨a, rfl⟩

theorem finishDecoded_outcome (rd r s) :
    ∃ t, finishDecoded rd r s = .next t ∧ Ended (.decoded rd) s t :=
  finishWith_outcome _ _ _ _ _ fun a => ⟨a, rfl⟩

theorem finishInPlace_outcome (is r s) :
    ∃ t, finishInPlace is r s = .next t ∧ Ended .inPlace s t :=
  finishWith_outcome _ _ _ _ _ fun a => ⟨is, a, rfl⟩

theorem shiftCommand_outcome (k first last p s) :
    ∃ t, shiftCommand k first last p s = .next t ∧ Ended .inPlace s t := by
  unfold shiftCommand
  split
  · exact finishInPlace_outcome ..
  · exact ⟨_, rfl, .inl ⟨.illegalCommand, rfl⟩⟩

/-- Every command, whatever its operands and the state, answers a next state: either a failure took its
effect, or a result was written to the command's own destination. -/
theorem exec_outcome (i : Instr) (s : State) : ∃ t, exec i s = .next t ∧ Ended (destination i) s t := by
  cases i with
  | parseUns => exact finishN_outcome ..
  | parseSgn => exact finishN_outcome ..
  | parseSmr => exact finishN_outcome ..
  | parseOc => exact finishN_outcome ..
  | parseTc => exact finishN_outcome ..
  | stdz => exact finishN_outcome ..
  | padw => exact finishN_outcome ..
  | padf => exact finishN_outcome ..
  | eqlen => exact finishInPlace_outcome ..
  | signm => exact finishCC_outcome ..
  | cvtkUns => exact finishNWarn_outcome ..
  | cvtkSgn => exact finishNWarn_outcome ..
  | cvtkSmr => exact finishNWarn_outcome ..
  | cvtkOc => exact finishNWarn_outcome ..
  | cvtkTc => exact finishNWarn_outcome ..
  | compl => exact finishN_outcome ..
  | absv => exact finishN_outcome ..
  | todec => exact finishN_outcome ..
  | fromdec => exact finishN_outcome ..
  | cvtb => exact finishN_outcome ..
  | cmpm => exact finishCC_outcome ..
  | addn => exact finishN_outcome ..
  | shl => exact shiftCommand_outcome ..
  | shrl => exact shiftCommand_outcome ..
  | shra => exact shiftCommand_outcome ..
  | addlp => exact finishN_outcome ..
  | mulu => exact finishN_outcome ..
  | divs => exact finishNPair_outcome ..
  | encB32 => exact finishF_outcome ..
  | encB64 => exact finishF_outcome ..
  | encD32dpd => exact finishF_outcome ..
  | encD32bid => exact finishF_outcome ..
  | encH32 => exact finishF_outcome ..
  | decB32 => exact finishDecoded_outcome ..
  | decB64 => exact finishDecoded_outcome ..
  | decD32dpd => exact finishDecoded_outcome ..
  | decD32bid => exact finishDecoded_outcome ..
  | decH32 => exact finishDecoded_outcome ..
  | fparseB32 => exact finishF_outcome ..
  | fparseB64 => exact finishF_outcome ..
  | fparseD32dpd => exact finishF_outcome ..
  | fparseD32bid => exact finishF_outcome ..
  | fparseH32 => exact finishF_outcome ..
  | fadd => exact finishF_outcome ..
  | fsub => exact finishF_outcome ..
  | fmul => exact finishF_outcome ..
  | fdiv => exact finishF_outcome ..

theorem exec_ended {i : Instr} {s t : State} (h : exec i s = .next t) : Ended (destination i) s t := by
  obtain ⟨u, hu, he⟩ := exec_outcome i s
  rw [hu] at h
  injection h with h
  exact h ▸ he

/-- No command stops the machine. -/
theorem exec_ne_fault (i : Instr) (s : State) (f : Fault) : exec i s ≠ .fault f := by cases f

theorem exec_ne_refused (i : Instr) (s : State) (r : Refusal) : exec i s ≠ .refused r := by
  obtain ⟨t, ht, -⟩ := exec_outcome i s
  simp [ht]

end Sys2Proof.Machine
end

