-- ==== Sys2Proof/Laws/Digits.lean ====
section
/-! SUPPORT. Digit sequences and bit strings: what is read from what was written, lengths, bounds, the
least length of an integer, the trims and the complement. -/

namespace Sys2Proof.Machine

/-! ### Reading and writing an integer -/

@[simp] theorem ofDigits_nil (r : Nat) : ofDigits r [] = 0 := rfl

theorem foldl_digits (r acc : Nat) (ds : List Cell) :
    ds.foldl (fun acc d => acc * r + d.val) acc = acc * r ^ ds.length + ofDigits r ds := by
  induction ds generalizing acc with
  | nil => simp
  | cons d ds ih =>
    simp only [List.foldl_cons, ofDigits, List.length_cons, ih (acc * r + d.val), ih (0 * r + d.val)]
    ring

theorem ofDigits_append (r : Nat) (as bs : List Cell) :
    ofDigits r (as ++ bs) = ofDigits r as * r ^ bs.length + ofDigits r bs := by
  rw [ofDigits, List.foldl_append, foldl_digits]; rfl

theorem ofDigits_cons (r : Nat) (d : Cell) (ds : List Cell) :
    ofDigits r (d :: ds) = d.val * r ^ ds.length + ofDigits r ds := by
  simpa [ofDigits] using ofDigits_append r [d] ds

theorem ofDigits_concat (r : Nat) (ds : List Cell) (d : Cell) :
    ofDigits r (ds ++ [d]) = ofDigits r ds * r + d.val := by
  simp [ofDigits]

theorem ofDigits_replicate_zero (r k : Nat) : ofDigits r (List.replicate k 0) = 0 := by
  induction k with
  | zero => rfl
  | succ k ih => simp [List.replicate_succ, ofDigits_cons, ih]

/-- A number of `k` digits is below `r^k`. -/
theorem ofDigits_lt {r : Nat} {ds : List Cell} (h : ∀ d ∈ ds, d.val < r) :
    ofDigits r ds < r ^ ds.length := by
  induction ds with
  | nil => simp
  | cons d ds ih =>
    have hd := h d (by simp)
    have ht := ih fun e he => h e (by simp [he])
    rw [ofDigits_cons, List.length_cons, pow_succ]
    nlinarith [Nat.pow_pos (n := ds.length) (Nat.zero_lt_of_lt hd)]

@[simp] theorem toDigits_length (r k y : Nat) : (toDigits r k y).length = k := by
  induction k generalizing y with
  | zero => rfl
  | succ k ih => simp [toDigits, ih]

theorem cell_val {v : Nat} (h : v < 64) : (cell v).val = v := by
  simp [cell, Fin.ofNat, Nat.mod_eq_of_lt h]

/-- The written digits are below the radix. -/
theorem toDigits_below {r : Nat} (h0 : 0 < r) (h64 : r ≤ 64) {k y : Nat} :
    ∀ d ∈ toDigits r k y, d.val < r := by
  induction k generalizing y with
  | zero => simp [toDigits]
  | succ k ih =>
    intro d hd
    simp only [toDigits, List.mem_append, List.mem_singleton] at hd
    rcases hd with hd | rfl
    · exact ih d hd
    · have := Nat.mod_lt y h0
      rw [cell_val (by omega)]; exact this

/-- The number read from `k` written digits is `y` modulo `r^k`. -/
theorem ofDigits_toDigits {r : Nat} (h0 : 0 < r) (h64 : r ≤ 64) (k y : Nat) :
    ofDigits r (toDigits r k y) = y % r ^ k := by
  induction k generalizing y with
  | zero => simp [toDigits, Nat.mod_one]
  | succ k ih =>
    have := Nat.mod_lt y h0
    rw [toDigits, ofDigits_concat, ih, cell_val (by omega), pow_succ, Nat.mul_comm (r ^ k) r,
      Nat.mod_mul, Nat.mul_comm, Nat.add_comm]

theorem ofDigits_toDigits_of_lt {r : Nat} (h0 : 0 < r) (h64 : r ≤ 64) {k y : Nat} (h : y < r ^ k) :
    ofDigits r (toDigits r k y) = y := by
  rw [ofDigits_toDigits h0 h64, Nat.mod_eq_of_lt h]

/-- Writing a number read from digits below the radix gives the digits back. -/
theorem toDigits_ofDigits {r : Nat} {ds : List Cell} (h : ∀ d ∈ ds, d.val < r) :
    toDigits r ds.length (ofDigits r ds) = ds := by
  induction ds using List.reverseRecOn with
  | nil => rfl
  | append_singleton ds d ih =>
    have hd := h d (by simp)
    have hr : 0 < r := Nat.zero_lt_of_lt hd
    have hds := ih fun e he => h e (by simp [he])
    have h1 : (ofDigits r ds * r + d.val) / r = ofDigits r ds := by
      rw [Nat.mul_comm, Nat.mul_add_div hr, Nat.div_eq_of_lt hd, Nat.add_zero]
    have h2 : (ofDigits r ds * r + d.val) % r = d.val := by
      rw [Nat.mul_comm, Nat.mul_add_mod, Nat.mod_eq_of_lt hd]
    have h3 : cell d.val = d := Fin.ext (cell_val d.isLt)
    rw [List.length_append, List.length_singleton, toDigits, ofDigits_concat, h1, h2, h3, hds]

/-- Two digit sequences of one length and radix with the same number are equal. -/
theorem ofDigits_injective {r : Nat} {as bs : List Cell} (ha : ∀ d ∈ as, d.val < r)
    (hb : ∀ d ∈ bs, d.val < r) (hl : as.length = bs.length) (h : ofDigits r as = ofDigits r bs) :
    as = bs := by
  rw [← toDigits_ofDigits ha, ← toDigits_ofDigits hb, hl, h]

/-! ### The least length -/

/-- The search for the least length finds one that fits, no shorter one does, and it stops in time. -/
theorem leastLengthFrom_spec {r m x : Nat} (fuel n : Nat) (hfit : x < r ^ (n + fuel + m)) :
    n ≤ leastLengthFrom r m x fuel n ∧ x < r ^ (leastLengthFrom r m x fuel n + m) ∧
      ∀ k, n ≤ k → k < leastLengthFrom r m x fuel n → ¬ x < r ^ (k + m) := by
  induction fuel generalizing n with
  | zero => exact ⟨le_rfl, by simpa [leastLengthFrom] using hfit, fun k h1 h2 => by
      simp only [leastLengthFrom] at h2; omega⟩
  | succ fuel ih =>
    simp only [leastLengthFrom]
    split
    · next h => exact ⟨le_rfl, h, fun k h1 h2 => by omega⟩
    · next h =>
      obtain ⟨h1, h2, h3⟩ := ih (n + 1) (by rw [show n + 1 + fuel = n + (fuel + 1) by omega]; exact hfit)
      refine ⟨by omega, h2, fun k hk1 hk2 => ?_⟩
      rcases Nat.eq_or_lt_of_le hk1 with rfl | hk
      · exact h
      · exact h3 k hk hk2

/-- `leastLength` is the least `n >= lw` with `x < r^(n+m)` (43_fixed_point.md rule R171). -/
theorem leastLength_spec {r : Nat} (hr : 2 ≤ r) (m x lw : Nat) :
    lw ≤ leastLength r m x lw ∧ x < r ^ (leastLength r m x lw + m) ∧
      ∀ k, lw ≤ k → k < leastLength r m x lw → ¬ x < r ^ (k + m) := by
  refine leastLengthFrom_spec _ _ ?_
  calc x < 2 ^ (x.log2 + 1) := Nat.lt_log2_self
    _ ≤ r ^ (x.log2 + 1) := Nat.pow_le_pow_left hr _
    _ ≤ r ^ (lw + (x.log2 + 1) + m) := Nat.pow_le_pow_right (by omega) (by omega)

/-- The least length is at most any length that fits. -/
theorem leastLength_le {r : Nat} (hr : 2 ≤ r) {m x lw k : Nat} (hk : lw ≤ k) (h : x < r ^ (k + m)) :
    leastLength r m x lw ≤ k := by
  by_contra hc
  exact (leastLength_spec hr m x lw).2.2 k hk (by omega) h

/-- The digits of `minDigits` are those of `x`, at least one, and no leading zero but in a lone 0. -/
theorem minDigits_spec {r : Nat} (hr : 2 ≤ r) (h64 : r ≤ 64) (x : Nat) :
    ofDigits r (minDigits r x) = x ∧ 1 ≤ (minDigits r x).length ∧
      (∀ d ∈ minDigits r x, d.val < r) ∧
      ((minDigits r x).length = 1 ∨ (minDigits r x).head? ≠ some 0) := by
  obtain ⟨h1, h2, h3⟩ := leastLength_spec hr 0 x 1
  refine ⟨ofDigits_toDigits_of_lt (by omega) h64 h2, by simpa [minDigits] using h1,
    toDigits_below (by omega) h64, ?_⟩
  rcases Nat.eq_or_lt_of_le h1 with h | h
  · exact .inl (by simp [minDigits, ← h])
  · refine .inr fun hd => ?_
    have hx : ofDigits r (minDigits r x) = x := ofDigits_toDigits_of_lt (by omega) h64 h2
    obtain ⟨ds, hds⟩ : ∃ ds, minDigits r x = 0 :: ds := by
      cases hm : minDigits r x with
      | nil => simp [hm] at hd
      | cons d ds => simp [hm] at hd; exact ⟨ds, by rw [hd]⟩
    have hlen : ds.length + 1 = leastLength r 0 x 1 := by
      have := congrArg List.length hds; simpa [minDigits] using this.symm
    have hb : ∀ d ∈ ds, d.val < r := fun d hd => toDigits_below (by omega) h64 (k := leastLength r 0 x 1)
      (y := x) d (by rw [← minDigits, hds]; simp [hd])
    have hlt := ofDigits_lt hb
    rw [hds, ofDigits_cons] at hx
    refine h3 ds.length (by omega) (by omega) ?_
    simpa [← hx] using hlt

/-! ### Trims and complement -/

/-- What `trimLeading` removes is a run of the pad digit, and it keeps one digit of a nonempty
sequence. -/
theorem trimLeading_spec (p : Cell) (ds : List Cell) :
    (∃ k, ds = List.replicate k p ++ trimLeading p ds) ∧ (ds ≠ [] → trimLeading p ds ≠ []) ∧
      ((trimLeading p ds).length ≤ 1 ∨ (trimLeading p ds).head? ≠ some p) := by
  induction ds with
  | nil => exact ⟨⟨0, rfl⟩, by simp [trimLeading], .inl (by simp [trimLeading])⟩
  | cons d ds ih =>
    cases ds with
    | nil => exact ⟨⟨0, rfl⟩, by simp [trimLeading], .inl (by simp [trimLeading])⟩
    | cons e es =>
      obtain ⟨⟨k, hk⟩, hne, hh⟩ := ih
      by_cases h : d = p
      · refine ⟨⟨k + 1, ?_⟩, ?_, ?_⟩
        · rw [trimLeading, if_pos h, List.replicate_succ, List.cons_append, ← hk, h]
        · rw [trimLeading, if_pos h]; exact fun _ => hne (by simp)
        · rw [trimLeading, if_pos h]; exact hh
      · refine ⟨⟨0, by simp [trimLeading, h]⟩, by simp [trimLeading, h], .inr (by simp [trimLeading, h])⟩

/-- What `trimTrailing` removes is a run of the pad digit. -/
theorem trimTrailing_spec (p : Cell) (ds : List Cell) :
    (∃ k, ds = trimTrailing p ds ++ List.replicate k p) ∧ (trimTrailing p ds).getLast? ≠ some p := by
  constructor
  · refine ⟨(ds.reverse.takeWhile (fun d => d == p)).length, ?_⟩
    have h := List.takeWhile_append_dropWhile (p := fun d => d == p) (l := ds.reverse)
    have hrep : ds.reverse.takeWhile (fun d => d == p) =
        List.replicate (ds.reverse.takeWhile (fun d => d == p)).length p := by
      refine List.eq_replicate_iff.2 ⟨rfl, fun b hb => ?_⟩
      simpa using List.mem_takeWhile_imp hb
    have h' := congrArg List.reverse h
    rw [List.reverse_append, List.reverse_reverse, hrep] at h'
    simpa [trimTrailing] using h'.symm
  · rw [trimTrailing, List.getLast?_reverse]
    intro h
    have h0 := List.head?_dropWhile_not (p := fun d => d == p) (l := ds.reverse)
    simp [h] at h0

/-- A trim never lengthens. -/
theorem trimTrailing_length_le (p : Cell) (ds : List Cell) :
    (trimTrailing p ds).length ≤ ds.length := by
  obtain ⟨⟨k, hk⟩, -⟩ := trimTrailing_spec p ds
  have := congrArg List.length hk
  simp at this; omega

theorem trimLeading_length_le (p : Cell) (ds : List Cell) : (trimLeading p ds).length ≤ ds.length := by
  obtain ⟨⟨k, hk⟩, -⟩ := trimLeading_spec p ds
  have := congrArg List.length hk
  simp at this; omega

@[simp] theorem complementDigits_length (r : Nat) (ds : List Cell) :
    (complementDigits r ds).length = ds.length := by simp [complementDigits]

/-- The digitwise complement adds up with the digits to `r^k - 1`. -/
theorem ofDigits_complement {r : Nat} (h64 : r ≤ 64) {ds : List Cell} (h : ∀ d ∈ ds, d.val < r) :
    ofDigits r (complementDigits r ds) + ofDigits r ds + 1 = r ^ ds.length := by
  induction ds with
  | nil => simp [complementDigits]
  | cons d ds ih =>
    have hd := h d (by simp)
    have hr : 0 < r := Nat.zero_lt_of_lt hd
    have ht := ih fun e he => h e (by simp [he])
    have hc : complementDigits r (d :: ds) = cell (r - 1 - d.val) :: complementDigits r ds := rfl
    rw [hc, ofDigits_cons, ofDigits_cons, cell_val (by omega), complementDigits_length,
      List.length_cons, pow_succ]
    obtain ⟨e, rfl⟩ : ∃ e, r = d.val + e + 1 := ⟨r - 1 - d.val, by omega⟩
    rw [show d.val + e + 1 - 1 - d.val = e by omega]
    linarith [ht, Nat.mul_comm ((d.val + e + 1) ^ ds.length) (d.val + e + 1),
      Nat.add_mul (d.val + e) 1 ((d.val + e + 1) ^ ds.length),
      Nat.add_mul d.val e ((d.val + e + 1) ^ ds.length)]

/-! ### Bit strings -/

@[simp] theorem bits_length (v w : Nat) : (bits v w).length = w := by
  induction w generalizing v with
  | zero => rfl
  | succ w ih => simp [bits, ih]

theorem foldl_bits (acc : Nat) (s : Bits) :
    s.foldl (fun acc b => 2 * acc + b.toNat) acc = acc * 2 ^ s.length + int s := by
  induction s generalizing acc with
  | nil => simp [int]
  | cons b s ih =>
    simp only [List.foldl_cons, int, List.length_cons, ih (2 * acc + b.toNat), ih (2 * 0 + b.toNat)]
    ring

theorem int_append (s t : Bits) : int (s ++ t) = int s * 2 ^ t.length + int t := by
  rw [int, List.foldl_append, foldl_bits]; rfl

theorem int_lt (s : Bits) : int s < 2 ^ s.length := by
  induction s using List.reverseRecOn with
  | nil => simp [int]
  | append_singleton s b ih =>
    have hb : int [b] < 2 := by cases b <;> decide
    rw [int_append, List.length_append, List.length_singleton, pow_succ]; omega

/-- `int` inverts `bits` (00_scope.md rule R13). -/
theorem int_bits (v w : Nat) : int (bits v w) = v % 2 ^ w := by
  induction w generalizing v with
  | zero => simp [bits, int, Nat.mod_one]
  | succ w ih =>
    have hb : int [decide (v % 2 = 1)] = v % 2 := by
      rcases Nat.mod_two_eq_zero_or_one v with h | h <;> simp [h, int]
    rw [bits, int_append, ih, hb, List.length_singleton, pow_one, pow_succ, Nat.mul_comm (2 ^ w) 2,
      Nat.mod_mul]
    omega

/-- `bits` inverts `int` on a string of its own length. -/
theorem bits_int (s : Bits) : bits (int s) s.length = s := by
  induction s using List.reverseRecOn with
  | nil => rfl
  | append_singleton s b ih =>
    have hb : int [b] = b.toNat := by cases b <;> rfl
    have h1 : (int s * 2 + b.toNat) / 2 = int s := by cases b <;> simp <;> omega
    have h2 : decide ((int s * 2 + b.toNat) % 2 = 1) = b := by cases b <;> simp
    rw [List.length_append, List.length_singleton, bits, int_append, hb, List.length_singleton,
      pow_one, h1, h2, ih]

end Sys2Proof.Machine
end

