-- ==== Sys2Proof/Laws/Ieee.lean ====
section
/-! SUPPORT. IEEE words: the fields of a packed word are the fields it was packed from (20_memory.md rule
R55), and the classes and parts of a BINARY32 word (46_ieee_arith.md rules R261, R262, R264). -/

namespace Sys2Proof.Machine

/-- The bits above the width are 0 (20_memory.md rule R55). -/
theorem Ieee.ofWord_lt (f : Format) (w : Word64) : (Ieee.ofWord f w).word.toNat < 2 ^ f.width := by
  have h1 : w.toNat % 2 ^ f.width < 2 ^ f.width := Nat.mod_lt _ (Nat.two_pow_pos _)
  simp only [Ieee.ofWord, BitVec.toNat_ofNat]
  exact lt_of_le_of_lt (Nat.mod_le _ _) h1

theorem Format.width_le (f : Format) : f.width ≤ 64 := by cases f <;> decide

/-- The packed word of fields of the format's widths. -/
theorem Ieee.ofFields_toNat {f : Format} {s : Bool} {e m : Bits} (he : e.length = f.expWidth)
    (hm : m.length = f.sigWidth) : (Ieee.ofFields f s e m).word.toNat =
      (s.toNat * 2 ^ f.expWidth + int e) * 2 ^ f.sigWidth + int m := by
  have hs : int [s] = s.toNat := by cases s <;> rfl
  have hv : int ([s] ++ e ++ m) = (s.toNat * 2 ^ f.expWidth + int e) * 2 ^ f.sigWidth + int m := by
    rw [int_append, int_append, hs, he, hm]
  have hlt : int ([s] ++ e ++ m) < 2 ^ f.width := by
    have h := int_lt ([s] ++ e ++ m)
    rwa [List.length_append, List.length_append, List.length_singleton, he, hm] at h
  have h64 : int ([s] ++ e ++ m) < 2 ^ 64 :=
    lt_of_lt_of_le hlt (Nat.pow_le_pow_right (by omega) f.width_le)
  rw [← hv]
  simp only [Ieee.ofFields, Ieee.ofWord, BitVec.toNat_ofNat]
  rw [Nat.mod_eq_of_lt h64, Nat.mod_eq_of_lt hlt, Nat.mod_eq_of_lt h64]

/-- Packing keeps the exponent and significand fields. -/
theorem Ieee.ofFields_fields {f : Format} {s : Bool} {e m : Bits} (he : e.length = f.expWidth)
    (hm : m.length = f.sigWidth) : (Ieee.ofFields f s e m).exponent = e ∧
      (Ieee.ofFields f s e m).significand = m := by
  have hw := Ieee.ofFields_toNat (s := s) he hm
  have hml := hm ▸ int_lt m
  have hel := he ▸ int_lt e
  have bits_mod : ∀ v w : Nat, bits v w = bits (v % 2 ^ w) w := fun v w => by
    have h := bits_int (bits v w)
    rw [bits_length, int_bits] at h
    exact h.symm
  have hf : (Ieee.ofFields f s e m).format = f := rfl
  constructor
  · rw [Ieee.exponent, hf, hw, Nat.mul_comm _ (2 ^ f.sigWidth), Nat.mul_add_div (Nat.two_pow_pos _),
      Nat.div_eq_of_lt hml, Nat.add_zero, bits_mod, Nat.mul_comm, Nat.mul_add_mod,
      Nat.mod_eq_of_lt hel, ← he, bits_int]
  · rw [Ieee.significand, hf, hw, bits_mod, Nat.mul_comm, Nat.mul_add_mod, Nat.mod_eq_of_lt hml,
      ← hm, bits_int]

/-- The exponent and the significand of a word of `finish` fit their fields and come back. -/
theorem wordOf_toNat {s : Bool} {e m : Nat} (he : e < 256) (hm : m < 2 ^ 23) :
    (wordOf s e m).toNat = s.toNat * 2 ^ 31 + e * 2 ^ 23 + m := by
  have hs : s.toNat ≤ 1 := by cases s <;> decide
  simp only [wordOf, BitVec.toNat_ofNat]
  exact Nat.mod_eq_of_lt (by omega)

/-- The fields of a sum of a field below `P` and a field below `Q` scaled by `P`. -/
theorem fields_div_mod (S e m P Q R : Nat) (hR : R = P * Q) (he : e < Q) (hm : m < P) :
    (S * R + e * P + m) / P % Q = e ∧ (S * R + e * P + m) % P = m := by
  subst hR
  have h : S * (P * Q) + e * P + m = m + P * (e + Q * S) := by ring
  have hP : 0 < P := by omega
  constructor
  · rw [h, Nat.add_mul_div_left _ _ hP, Nat.div_eq_of_lt hm, Nat.zero_add,
      Nat.add_mul_mod_self_left, Nat.mod_eq_of_lt he]
  · rw [h, Nat.add_mul_mod_self_left, Nat.mod_eq_of_lt hm]

/-- The exponent field of a packed word. -/
theorem expOf_wordOf {s : Bool} {e m : Nat} (he : e < 256) (hm : m < 2 ^ 23) :
    expOf (wordOf s e m) = e := by
  have h := (fields_div_mod s.toNat e m (2 ^ 23) 256 (2 ^ 31) (by norm_num) he hm).1
  rw [← wordOf_toNat he hm] at h
  rw [expOf, BitVec.extractLsb'_toNat, Nat.shiftRight_eq_div_pow]
  exact h

/-- The significand field of a packed word. -/
theorem sigOf_wordOf {s : Bool} {e m : Nat} (he : e < 256) (hm : m < 2 ^ 23) :
    sigOf (wordOf s e m) = m := by
  have h := (fields_div_mod s.toNat e m (2 ^ 23) 256 (2 ^ 31) (by norm_num) he hm).2
  rw [← wordOf_toNat he hm] at h
  rw [sigOf, BitVec.extractLsb'_toNat, Nat.shiftRight_zero]
  exact h

/-- The sign of a packed word. -/
theorem signOf_wordOf {s : Bool} {e m : Nat} (he : e < 256) (hm : m < 2 ^ 23) :
    signOf (wordOf s e m) = s := by
  have h : (wordOf s e m).toNat / 2 ^ 31 = s.toNat := by
    have hs : s.toNat ≤ 1 := by cases s <;> decide
    rw [wordOf_toNat he hm]; omega
  simp only [signOf, BitVec.getLsbD, Nat.testBit, Nat.shiftRight_eq_div_pow, h]
  cases s <;> rfl

/-- A `fin` word has a positive magnitude below `2^24`. -/
theorem unpack_of_fin {x : Word} (h : classOf x = .fin) : 0 < (unpack x).1 ∧ (unpack x).1 < 2 ^ 24 := by
  have hsig : sigOf x < 2 ^ 23 := by
    simp only [sigOf, BitVec.extractLsb'_toNat]; exact Nat.mod_lt _ (by decide)
  simp only [unpack]
  split
  · simp only; omega
  · refine ⟨?_, by simp only; omega⟩
    rcases Nat.eq_zero_or_pos (sigOf x) with h0 | h0
    · have he : expOf x = 0 := by omega
      simp [classOf, he, h0] at h
    · exact h0

end Sys2Proof.Machine
end

