-- ==== Sys2Proof/Laws/Numerals.lean ====
section
/-! SUPPORT. Numerals: validity taken apart, the sign multiplier of each kind, the exact value as an
integer in units of the last digit, and the pad digits that leave the value alone. -/

namespace Sys2Proof.Machine

/-! ### Validity, sign, standardization -/

theorem legalRadix_iff (r : Nat) : legalRadix r = true ↔ 2 ≤ r ∧ r ≤ 35 := decide_eq_true_iff

theorem Numeral.valid_iff (n : Numeral) : n.valid = true ↔
    (2 ≤ n.radix.val ∧ n.radix.val ≤ 35) ∧ (∀ d ∈ n.whole, d.val < n.radix.val) ∧
      (∀ d ∈ n.fraction, d.val < n.radix.val) ∧ n.sm ≠ .zero := by
  simp only [Numeral.valid, digitsBelow, Bool.and_eq_true, List.all_eq_true, decide_eq_true_eq,
    legalRadix_iff, and_assoc]

theorem Numeral.std_eq_ok {n m : Numeral} : n.std = .ok m ↔ n.valid = true ∧ m = n.stdForm := by
  cases h : n.valid <;> simp [Numeral.std, h, eq_comm]

theorem Numeral.std_eq_error {n : Numeral} {e : Failure} :
    n.std = .error e ↔ n.valid = false ∧ e = .invalidNumeral := by
  cases h : n.valid <;> simp [Numeral.std, h, eq_comm]

theorem Numeral.sm_unsigned {n : Numeral} (h : n.kind = .unsigned) :
    n.sm = if n.sign = [] then .plus else .zero := by
  simp only [Numeral.sm, h]

/-- A valid UNSIGNED numeral is positive. -/
theorem Numeral.sm_of_valid_unsigned {n : Numeral} (h : n.kind = .unsigned) (hv : n.valid = true) :
    n.sm = .plus := by
  have h0 := ((Numeral.valid_iff n).1 hv).2.2.2
  rw [Numeral.sm_unsigned h] at h0 ⊢
  split at h0
  · next hs => simp [hs]
  · exact absurd rfl h0

/-- The sign multiplier of a run of one repeated token of a complement kind. -/
theorem Numeral.sm_complement {n : Numeral} (h : n.kind = .onesComplement ∨ n.kind = .twosComplement)
    (k : Nat) (t : Cell) (hs : n.sign = List.replicate (k + 1) t) : n.sm = tokenSign n.radix t := by
  rcases h with h | h <;> simp [Numeral.sm, h, hs, List.replicate_succ]

/-- A valid numeral of a complement kind has a run of one repeated token, 0 or `r-1`. -/
theorem Numeral.sign_of_valid_complement {n : Numeral}
    (h : n.kind = .onesComplement ∨ n.kind = .twosComplement) (hv : n.valid = true) :
    ∃ k t, n.sign = List.replicate (k + 1) t ∧ n.sm = tokenSign n.radix t ∧
      (t = 0 ∨ t.val + 1 = n.radix.val) := by
  have h0 := ((Numeral.valid_iff n).1 hv).2.2.2
  cases hs : n.sign with
  | nil => rcases h with h | h <;> simp [Numeral.sm, h, hs] at h0
  | cons t ts =>
    have hall : ts.all (fun u => u == t) = true := by
      by_contra hc
      rcases h with h | h <;> simp [Numeral.sm, h, hs, hc] at h0
    have hrep : ts = List.replicate ts.length t :=
      List.eq_replicate_iff.2 ⟨rfl, fun b hb => by simpa using List.all_eq_true.1 hall b hb⟩
    have hs' : n.sign = List.replicate (ts.length + 1) t := by rw [hs, List.replicate_succ, ← hrep]
    have hsm := Numeral.sm_complement h ts.length t hs'
    refine ⟨ts.length, t, by rw [← hs, hs'], hsm, ?_⟩
    rw [hsm, tokenSign] at h0
    split at h0
    · exact .inl ‹_›
    · split at h0
      · exact .inr ‹_›
      · exact absurd rfl h0

/-! ### The value -/

theorem Numeral.digitsInt_eq (n : Numeral) : n.digitsInt =
    ofDigits n.radix.val n.whole * n.radix.val ^ n.fraction.length + ofDigits n.radix.val n.fraction :=
  ofDigits_append ..

/-- The magnitude is below `r^len(whole)`. -/
theorem Numeral.digitsInt_lt {n : Numeral} (hv : n.valid = true) :
    n.digitsInt < n.radix.val ^ (n.whole.length + n.fraction.length) := by
  obtain ⟨-, hw, hf, -⟩ := (Numeral.valid_iff n).1 hv
  have := ofDigits_lt (r := n.radix.val) (ds := n.whole ++ n.fraction) fun d hd =>
    (List.mem_append.1 hd).elim (hw d) (hf d)
  simpa [Numeral.digitsInt] using this

/-- `valScaled` is the value in units of `r^-m`, for any `m` that covers the fraction (00_scope.md rule
R16): the model computes with the integer where a rule computes with the value. -/
theorem Numeral.valScaled_eq (n : Numeral) (m : Nat) (hr : n.radix.val ≠ 0)
    (hm : n.fraction.length ≤ m) : (n.valScaled m : ℚ) = n.val * (n.radix.val : ℚ) ^ m := by
  have hr' : (n.radix.val : ℚ) ≠ 0 := by exact_mod_cast hr
  have hup : (n.radix.val : ℚ) ^ m =
      (n.radix.val : ℚ) ^ n.fraction.length * (n.radix.val : ℚ) ^ (m - n.fraction.length) := by
    rw [← pow_add]; congr 1; omega
  have hmag : n.mag * (n.radix.val : ℚ) ^ n.fraction.length = n.digitsInt := by
    rw [Numeral.mag, div_mul_cancel₀]; exact pow_ne_zero _ hr'
  have hf0 : (n.radix.val : ℚ) ^ n.fraction.length ≠ 0 := pow_ne_zero _ hr'
  rw [hup, ← mul_assoc]
  cases hk : n.kind <;> simp only [Numeral.valScaled, Numeral.val, hk]
  case unsigned | signed | signMagnitude => push_cast; rw [mul_assoc (n.sm.toInt : ℚ), hmag, mul_assoc]
  case onesComplement =>
    split
    · push_cast; rw [hmag]
    · push_cast
      rw [sub_mul n.mag, sub_mul _ (1 / _), hmag, div_mul_cancel₀ _ hf0, ← pow_add]
  case twosComplement =>
    split
    · push_cast; rw [hmag]
    · push_cast
      rw [sub_mul n.mag, hmag, ← pow_add]

/-! ### Pad digits -/

/-- Prepending a zero digit leaves the digits' integer alone. -/
theorem ofDigits_pad_zero (r k : Nat) (ds : List Cell) :
    ofDigits r (List.replicate k 0 ++ ds) = ofDigits r ds := by
  rw [ofDigits_append, ofDigits_replicate_zero, Nat.zero_mul, Nat.zero_add]

/-- Prepending `k` digits `r-1` adds `(r^k - 1) * r^len`. -/
theorem ofDigits_pad_top {r : Nat} (h0 : 0 < r) (h64 : r ≤ 64) (k : Nat) (ds : List Cell) :
    ofDigits r (List.replicate k (cell (r - 1)) ++ ds) + r ^ ds.length =
      r ^ (k + ds.length) + ofDigits r ds := by
  have hk : ofDigits r (List.replicate k (cell (r - 1))) + 1 = r ^ k := by
    induction k with
    | zero => simp
    | succ k ih =>
      rw [List.replicate_succ, ofDigits_cons, cell_val (by omega), List.length_replicate, pow_succ,
        Nat.add_assoc, ih]
      obtain ⟨q, rfl⟩ : ∃ q, r = q + 1 := ⟨r - 1, by omega⟩
      simp only [Nat.add_sub_cancel]; ring
  rw [ofDigits_append, pow_add, ← hk]; ring

end Sys2Proof.Machine
end

