-- ==== Sys2Proof/Tests/Slice0.lean ====
section
/-! SUPPORT. Tests: the ill-formed terms, one word of the encoding tables per command, small single-step
tests whose results stand in the spec (mostly 95_test_vectors.md), and for every statement of
Certificates/Slice0/Obligations.lean a witness that meets its hypotheses. -/

namespace Sys2Proof.Tests
open Sys2Proof Sys2Proof.Machine

/-! ### Well-formedness: `SHL`, `SHRL`, `SHRA` with `rs1 > rs2` (30_encoding.md rule R78) -/

theorem test_illformed_shl : wellFormed (.shl false 3 2 0) = false := by decide
theorem test_illformed_shrl : wellFormed (.shrl false 1 0 5) = false := by decide
theorem test_illformed_shra : wellFormed (.shra true 7 0 4095) = false := by decide
theorem test_wellformed_shl : wellFormed (.shl false 2 2 0) = true := by decide

/-! ### Decoding: one word per command, the fields op, LOG, STD, sel, rd, rs1, rs2, imm written out by the
tables of 30_encoding.md (rules R71, R80), and a word for each clause of rule R78 -/

theorem test_decode_parse_uns : decode 0b000001_0_0_000_110_001_000_000000000010#32 =
    .ok (.parseUns false 6 1 2) := by decide
theorem test_decode_parse_sgn : decode 0b000001_1_0_001_001_001_000_000000001010#32 =
    .ok (.parseSgn true 1 1 10) := by decide
theorem test_decode_parse_smr : decode 0b000001_0_0_010_100_001_000_000000010000#32 =
    .ok (.parseSmr false 4 1 16) := by decide
theorem test_decode_parse_oc : decode 0b000001_1_0_011_101_001_000_000000100011#32 =
    .ok (.parseOc true 5 1 35) := by decide
theorem test_decode_parse_tc : decode 0b000001_0_0_100_011_001_000_000000001000#32 =
    .ok (.parseTc false 3 1 8) := by decide
theorem test_decode_stdz : decode 0b000010_1_0_000_110_100_000_000000000000#32 =
    .ok (.stdz true 6 4) := by decide
theorem test_decode_padw : decode 0b000011_0_0_000_001_101_000_100000000111#32 =
    .ok (.padw false 1 5 2055) := by decide
theorem test_decode_padf : decode 0b000100_1_0_000_100_011_000_100000001000#32 =
    .ok (.padf true 4 3 2056) := by decide
theorem test_decode_eqlen : decode 0b000101_0_0_000_000_101_110_000000000000#32 =
    .ok (.eqlen false 5 6) := by decide
theorem test_decode_signm : decode 0b000110_1_1_000_000_001_000_000000000000#32 =
    .ok (.signm true true 1) := by decide
theorem test_decode_cvtk_uns : decode 0b001000_0_0_000_110_100_000_000000000000#32 =
    .ok (.cvtkUns false 6 4) := by decide
theorem test_decode_cvtk_sgn : decode 0b001000_1_0_001_001_101_000_000000000000#32 =
    .ok (.cvtkSgn true 1 5) := by decide
theorem test_decode_cvtk_smr : decode 0b001000_0_0_010_100_011_000_000000000000#32 =
    .ok (.cvtkSmr false 4 3) := by decide
theorem test_decode_cvtk_oc : decode 0b001000_1_0_011_101_110_000_000000000000#32 =
    .ok (.cvtkOc true 5 6) := by decide
theorem test_decode_cvtk_tc : decode 0b001000_0_0_100_011_001_000_000000000000#32 =
    .ok (.cvtkTc false 3 1) := by decide
theorem test_decode_compl : decode 0b001001_1_0_000_110_100_000_000000000000#32 =
    .ok (.compl true 6 4) := by decide
theorem test_decode_absv : decode 0b001010_0_0_000_001_101_000_000000000000#32 =
    .ok (.absv false 1 5) := by decide
theorem test_decode_todec : decode 0b010000_1_1_000_011_001_000_000000000000#32 =
    .ok (.todec true true 3 1) := by decide
theorem test_decode_fromdec : decode 0b010001_0_1_000_110_100_000_000000100011#32 =
    .ok (.fromdec false true 6 4 35) := by decide
theorem test_decode_cvtb : decode 0b010010_1_0_000_011_001_000_000000001000#32 =
    .ok (.cvtb true 3 1 8) := by decide
theorem test_decode_cmpm : decode 0b011000_0_0_000_000_110_100_000000000000#32 =
    .ok (.cmpm false 6 4) := by decide
theorem test_decode_addn : decode 0b011001_1_0_000_001_101_110_000000000000#32 =
    .ok (.addn true 1 5 6) := by decide
theorem test_decode_shl : decode 0b011010_0_0_000_000_011_110_100000010111#32 =
    .ok (.shl false 3 6 2071) := by decide
theorem test_decode_shrl : decode 0b011010_1_0_001_000_011_110_100000011000#32 =
    .ok (.shrl true 3 6 2072) := by decide
theorem test_decode_shra : decode 0b011010_0_0_010_000_011_110_100000011001#32 =
    .ok (.shra false 3 6 2073) := by decide
theorem test_decode_addlp : decode 0b011011_1_0_000_110_100_000_111111111101#32 =
    .ok (.addlp true 6 4 4093) := by decide
theorem test_decode_mulu : decode 0b011100_0_0_000_001_101_110_000000000000#32 =
    .ok (.mulu false 1 5 6) := by decide
theorem test_decode_divs : decode 0b011101_1_0_000_100_011_001_000000000000#32 =
    .ok (.divs true 4 3 1) := by decide
theorem test_decode_enc_b32 : decode 0b100000_0_0_000_011_110_001_000000000000#32 =
    .ok (.encB32 false 3 6 1) := by decide
theorem test_decode_enc_b64 : decode 0b100000_1_0_001_010_001_001_000000000000#32 =
    .ok (.encB64 true 2 1 1) := by decide
theorem test_decode_enc_d32dpd : decode 0b100000_0_0_010_001_100_001_000000000000#32 =
    .ok (.encD32dpd false 1 4 1) := by decide
theorem test_decode_enc_d32bid : decode 0b100000_1_0_011_011_101_001_000000000000#32 =
    .ok (.encD32bid true 3 5 1) := by decide
theorem test_decode_enc_h32 : decode 0b100000_0_0_100_010_011_001_000000000000#32 =
    .ok (.encH32 false 2 3 1) := by decide
theorem test_decode_dec_b32 : decode 0b100001_1_0_000_101_011_000_000000000000#32 =
    .ok (.decB32 true 5 3) := by decide
theorem test_decode_dec_b64 : decode 0b100001_0_0_001_011_010_000_000000000000#32 =
    .ok (.decB64 false 3 2) := by decide
theorem test_decode_dec_d32dpd : decode 0b100001_1_0_010_110_001_000_000000000000#32 =
    .ok (.decD32dpd true 6 1) := by decide
theorem test_decode_dec_d32bid : decode 0b100001_0_0_011_001_011_000_000000000000#32 =
    .ok (.decD32bid false 1 3) := by decide
theorem test_decode_dec_h32 : decode 0b100001_1_0_100_100_010_000_000000000000#32 =
    .ok (.decH32 true 4 2) := by decide
theorem test_decode_fparse_b32 : decode 0b100010_0_0_000_010_001_000_000000000000#32 =
    .ok (.fparseB32 false 2 1) := by decide
theorem test_decode_fparse_b64 : decode 0b100010_1_0_001_001_001_000_000000000000#32 =
    .ok (.fparseB64 true 1 1) := by decide
theorem test_decode_fparse_d32dpd : decode 0b100010_0_0_010_011_001_000_000000000000#32 =
    .ok (.fparseD32dpd false 3 1) := by decide
theorem test_decode_fparse_d32bid : decode 0b100010_1_0_011_010_001_000_000000000000#32 =
    .ok (.fparseD32bid true 2 1) := by decide
theorem test_decode_fparse_h32 : decode 0b100010_0_0_100_001_001_000_000000000000#32 =
    .ok (.fparseH32 false 1 1) := by decide
theorem test_decode_fadd : decode 0b101000_1_0_000_011_010_001_000000000000#32 =
    .ok (.fadd true 3 2 1) := by decide
theorem test_decode_fsub : decode 0b101001_0_0_000_010_001_011_000000000000#32 =
    .ok (.fsub false 2 1 3) := by decide
theorem test_decode_fmul : decode 0b101010_1_0_000_001_011_010_000000000000#32 =
    .ok (.fmul true 1 3 2) := by decide
theorem test_decode_fdiv : decode 0b101011_0_0_000_011_010_001_000000000000#32 =
    .ok (.fdiv false 3 2 1) := by decide

theorem test_illegal_opcode : decode 0b111111_0_0_000_000_000_000_000000000000#32 = .error .reservedOpcode := by decide
theorem test_illegal_selector : decode 0b001000_0_0_101_000_000_000_000000000000#32 = .error .reservedSelector := by decide
theorem test_illegal_std : decode 0b000010_0_1_000_001_000_000_000000000000#32 = .error .stdNotAllowed := by decide
theorem test_illegal_index : decode 0b100000_0_0_000_100_000_000_000000000000#32 = .error .registerIndex := by decide
theorem test_illegal_unused : decode 0b000010_0_0_000_001_000_000_000000000001#32 = .error .unusedField := by decide
theorem test_illegal_shift_order : decode 0b011010_0_0_000_000_011_010_000000000001#32 = .error .shiftOrder := by decide

/-- One step from reset with one `ISSUE` waiting. -/
theorem test_step_issues : step (State.reset.withFetchWord 32 0x08040000) =
    .next (raiseFail (.num 1) .invalidInput (State.reset.setCmd 0x08040000#32)) := rfl

/-! ### One step of each command -/

/-- Text of a string. -/
def text (s : String) : Text := s.toList.map (fun c => BitVec.ofNat 8 c.toNat)

/-- What `i` leaves in `N[j]` and `STATUS`. -/
def numAfter (i : Instr) (s : State) (j : Fin 8) : Option (Option Numeral × Word) :=
  match exec i s with
  | .next t => some (t.readN j, t.status)
  | _ => none

/-- What `i` leaves in `F[j]` and `STATUS`. -/
def ieeeAfter (i : Instr) (s : State) (j : Fin 4) : Option (Option Ieee × Word) :=
  match exec i s with
  | .next t => some (t.readF j, t.status)
  | _ => none

/-- What `i` leaves in `CC` and `STATUS`. -/
def condAfter (i : Instr) (s : State) : Option (Option Cond × Word) :=
  match exec i s with
  | .next t => some (t.cc, t.status)
  | _ => none

/-- What `i` leaves in `PTAG`, `PBASE`, `PEXP`. -/
def decodeAfter (i : Instr) (s : State) : Option (Option DecTag × Option (BitVec 6) × Option Int) :=
  match exec i s with
  | .next t => some (t.ptag, t.pbase, t.pexp)
  | _ => none

/-- `a` in `N0`. -/
def one (a : Numeral) : State := State.reset.setN 0 (some a)

/-- `a` in `N0` and `b` in `N1`. -/
def two (a b : Numeral) : State := (one a).setN 1 (some b)

/-- A BINARY32 word in `F0` and one in `F1`. -/
def floats (a b : Word64) : State :=
  (State.reset.setF 0 (some ⟨.b32, a⟩)).setF 1 (some ⟨.b32, b⟩)

/-- A SIGNED decimal numeral in `N0` and an exponent text in `T1`. -/
def encoded (a : Numeral) (e : String) : State := (one a).setT 1 (some (text e))

theorem test_parse_uns : numAfter (.parseUns false 1 0 16) (State.reset.setT 0 (some (text "FF.8"))) 1 =
    some (some ⟨[], [15, 15], [8], 16, .unsigned⟩, 0x80#32) := by decide
theorem test_parse_uns_digit : numAfter (.parseUns false 1 0 8) (State.reset.setT 0 (some (text "129"))) 1 =
    some (none, 0x82#32) := by decide
theorem test_parse_sgn : numAfter (.parseSgn false 1 0 10) (State.reset.setT 0 (some (text "+-+ 7 1.75"))) 1 =
    some (some ⟨[0, 1, 0], [7, 1], [7, 5], 10, .signed⟩, 0x80#32) := by decide
theorem test_parse_smr : numAfter (.parseSmr false 1 0 35) (State.reset.setT 0 (some (text "Y1A"))) 1 =
    some (some ⟨[34], [1, 10], [], 35, .signMagnitude⟩, 0x80#32) := by decide
theorem test_parse_smr_input : numAfter (.parseSmr false 1 0 35) (State.reset.setT 0 (some (text "1A"))) 1 =
    some (none, 0x81#32) := by decide
theorem test_parse_oc : numAfter (.parseOc false 1 0 2) (State.reset.setT 0 (some (text "1101.01"))) 1 =
    some (some ⟨[1, 1], [0, 1], [0, 1], 2, .onesComplement⟩, 0x80#32) := by decide
theorem test_parse_tc : numAfter (.parseTc false 1 0 2) (State.reset.setT 0 (some (text "1101.01"))) 1 =
    some (some ⟨[1, 1], [0, 1], [0, 1], 2, .twosComplement⟩, 0x80#32) := by decide
theorem test_stdz_sign : numAfter (.stdz false 1 0) (one ⟨[0, 1, 0], [0, 0, 7, 1], [7, 5, 0, 0], 10, .signed⟩) 1 =
    some (some ⟨[1], [7, 1], [7, 5], 10, .signed⟩, 0x80#32) := by decide
theorem test_stdz_oc : numAfter (.stdz false 1 0) (one ⟨[1, 1, 1], [0], [0, 1, 1, 1], 2, .onesComplement⟩) 1 =
    some (some ⟨[1], [0], [0], 2, .onesComplement⟩, 0x80#32) := by decide
theorem test_padw_sign_digit : numAfter (.padw false 1 0 6) (one ⟨[1], [0, 1], [], 2, .twosComplement⟩) 1 =
    some (some ⟨[1], [1, 1, 1, 1, 0, 1], [], 2, .twosComplement⟩, 0x80#32) := by decide
theorem test_padw_too_large : numAfter (.padw false 1 0 3) (one ⟨[], [1, 2, 3, 4, 5], [], 10, .unsigned⟩) 1 =
    some (none, 0x86#32) := by decide
theorem test_padf_truncates : numAfter (.padf false 1 0 2) (one ⟨[], [1], [2, 3, 4, 5, 6], 10, .unsigned⟩) 1 =
    some (some ⟨[], [1], [2, 3], 10, .unsigned⟩, 0x80#32) := by decide
theorem test_padf_oc : numAfter (.padf false 1 0 3) (one ⟨[1, 1], [0], [1], 2, .onesComplement⟩) 1 =
    some (some ⟨[1, 1], [0], [1, 1, 1], 2, .onesComplement⟩, 0x80#32) := by decide
theorem test_eqlen_first : numAfter (.eqlen false 0 1) (two ⟨[1], [0, 1], [1], 2, .twosComplement⟩ ⟨[0], [1, 1, 0], [0, 1, 1], 2, .twosComplement⟩) 0 =
    some (some ⟨[1], [1, 0, 1], [1, 0, 0], 2, .twosComplement⟩, 0x80#32) := by decide
theorem test_eqlen_second : numAfter (.eqlen false 1 0) (two ⟨[1], [0, 1], [1], 2, .twosComplement⟩ ⟨[0], [1, 1, 0], [0, 1, 1], 2, .twosComplement⟩) 1 =
    some (some ⟨[0], [1, 1, 0], [0, 1, 1], 2, .twosComplement⟩, 0x80#32) := by decide
theorem test_signm_run : condAfter (.signm false false 0) (one ⟨[0, 1, 0], [7, 1], [7, 5], 10, .signed⟩) =
    some (some .minus, 0x80#32) := by decide
theorem test_signm_std : condAfter (.signm false true 0) (one ⟨[0, 1, 0], [7, 1], [7, 5], 10, .signed⟩) =
    some (some .zero, 0x80#32) := by decide
theorem test_cvtk_uns_warns : numAfter (.cvtkUns false 1 0) (one ⟨[1], [5], [2, 5], 10, .signed⟩) 1 =
    some (some ⟨[], [5], [2, 5], 10, .unsigned⟩, 0xC0#32) := by decide
theorem test_cvtk_sgn : numAfter (.cvtkSgn false 1 0) (one ⟨[9], [7, 5], [5], 10, .twosComplement⟩) 1 =
    some (some ⟨[1], [2, 4], [5], 10, .signed⟩, 0x80#32) := by decide
theorem test_cvtk_smr : numAfter (.cvtkSmr false 1 0) (one ⟨[1], [0, 0, 0], [], 2, .twosComplement⟩) 1 =
    some (some ⟨[1], [1, 0, 0, 0], [], 2, .signMagnitude⟩, 0x80#32) := by decide
theorem test_cvtk_oc : numAfter (.cvtkOc false 1 0) (one ⟨[1], [1, 0, 0], [], 10, .signed⟩) 1 =
    some (some ⟨[9], [8, 9, 9], [], 10, .onesComplement⟩, 0x80#32) := by decide
theorem test_cvtk_oc_zero : numAfter (.cvtkOc false 1 0) (one ⟨[1], [0], [], 10, .signed⟩) 1 =
    some (some ⟨[9], [9], [], 10, .onesComplement⟩, 0x80#32) := by decide
theorem test_cvtk_tc : numAfter (.cvtkTc false 1 0) (one ⟨[1], [9, 5], [], 10, .signed⟩) 1 =
    some (some ⟨[9], [0, 5], [], 10, .twosComplement⟩, 0x80#32) := by decide
theorem test_cvtk_tc_zero : numAfter (.cvtkTc false 1 0) (one ⟨[1], [0], [], 10, .signed⟩) 1 =
    some (some ⟨[0], [0], [], 10, .twosComplement⟩, 0x80#32) := by decide
theorem test_compl_grows : numAfter (.compl false 1 0) (one ⟨[1], [0, 0, 0], [], 2, .twosComplement⟩) 1 =
    some (some ⟨[0], [1, 0, 0, 0], [], 2, .twosComplement⟩, 0x80#32) := by decide
theorem test_compl_tc : numAfter (.compl false 1 0) (one ⟨[9, 9], [1, 2, 3], [4], 10, .twosComplement⟩) 1 =
    some (some ⟨[0, 0], [8, 7, 6], [6], 10, .twosComplement⟩, 0x80#32) := by decide
theorem test_absv_oc : numAfter (.absv false 1 0) (one ⟨[1], [0, 1, 0, 0], [1, 0], 2, .onesComplement⟩) 1 =
    some (some ⟨[0], [1, 0, 1, 1], [0, 1], 2, .onesComplement⟩, 0x80#32) := by decide
theorem test_absv_sign_run : numAfter (.absv false 1 0) (one ⟨[0, 1], [5], [], 10, .signed⟩) 1 =
    some (some ⟨[1, 1], [5], [], 10, .signed⟩, 0x80#32) := by decide
theorem test_todec_terms : numAfter (.todec false false 1 0) (one ⟨[], [34, 34], [34], 35, .unsigned⟩) 1 =
    some (some ⟨[], [1, 2, 2, 4], [9, 7, 1, 4, 2, 8, 5, 7], 10, .unsigned⟩, 0x80#32) := by decide
theorem test_todec_std : numAfter (.todec false true 1 0) (one ⟨[], [0, 0], [5], 10, .unsigned⟩) 1 =
    some (none, 0x85#32) := by decide
theorem test_fromdec_eight : numAfter (.fromdec false false 1 0 2) (one ⟨[], [0], [1], 10, .unsigned⟩) 1 =
    some (some ⟨[], [0], [0, 0, 0, 1, 1, 0, 0, 1], 2, .unsigned⟩, 0x80#32) := by decide
theorem test_fromdec_base : numAfter (.fromdec false false 1 0 10) (one ⟨[], [1, 0, 1], [], 2, .unsigned⟩) 1 =
    some (none, 0x84#32) := by decide
theorem test_cvtb_twice : numAfter (.cvtb false 1 0 9) (one ⟨[], [0], [1], 3, .unsigned⟩) 1 =
    some (some ⟨[], [0], [2, 8, 8, 8, 8, 8, 8, 8], 9, .unsigned⟩, 0x80#32) := by decide
theorem test_cvtb_copy : numAfter (.cvtb false 1 0 3) (one ⟨[], [0, 0], [1, 0], 3, .unsigned⟩) 1 =
    some (some ⟨[], [0, 0], [1, 0], 3, .unsigned⟩, 0x80#32) := by decide
theorem test_cmpm_magnitudes : condAfter (.cmpm false 0 1) (two ⟨[1], [7], [], 10, .signed⟩ ⟨[0], [5], [], 10, .signed⟩) =
    some (some .plus, 0x80#32) := by decide
theorem test_cmpm_fraction : condAfter (.cmpm false 0 1) (two ⟨[], [0, 1, 2, 3], [5, 0], 10, .unsigned⟩ ⟨[], [0, 1, 2, 3], [4, 5], 10, .unsigned⟩) =
    some (some .plus, 0x80#32) := by decide
theorem test_addn_negative_zero : numAfter (.addn false 2 0 1) (two ⟨[1], [0], [], 10, .signed⟩ ⟨[1], [0], [], 10, .signed⟩) 2 =
    some (some ⟨[1], [0], [], 10, .signed⟩, 0x80#32) := by decide
theorem test_addn_tc_grows : numAfter (.addn false 2 0 1) (two ⟨[1], [0, 0, 0], [], 2, .twosComplement⟩ ⟨[1], [0, 0, 0], [], 2, .twosComplement⟩) 2 =
    some (some ⟨[1], [0, 0, 0, 0], [], 2, .twosComplement⟩, 0x80#32) := by decide
theorem test_shl : numAfter (.shl false 1 2 1) ((State.reset.setN 1 (some ⟨[0], [1, 0, 1, 1], [], 2, .twosComplement⟩)).setN 2 (some ⟨[0], [0, 1, 1, 0], [], 2, .twosComplement⟩)) 2 =
    some (some ⟨[0], [1, 1, 0, 0], [], 2, .twosComplement⟩, 0x80#32) := by decide
theorem test_shrl : numAfter (.shrl false 1 2 1) ((State.reset.setN 1 (some ⟨[1], [1, 0, 1, 1], [], 2, .twosComplement⟩)).setN 2 (some ⟨[0], [0, 1, 1, 0], [], 2, .twosComplement⟩)) 1 =
    some (some ⟨[1], [0, 1, 0, 1], [], 2, .twosComplement⟩, 0x80#32) := by decide
theorem test_shra : numAfter (.shra false 1 2 3) ((State.reset.setN 1 (some ⟨[1], [1, 0, 1, 1], [], 2, .twosComplement⟩)).setN 2 (some ⟨[0], [0, 1, 1, 0], [], 2, .twosComplement⟩)) 1 =
    some (some ⟨[1], [1, 1, 1, 1], [], 2, .twosComplement⟩, 0x80#32) := by decide
theorem test_shra_second : numAfter (.shra false 1 2 3) ((State.reset.setN 1 (some ⟨[1], [1, 0, 1, 1], [], 2, .twosComplement⟩)).setN 2 (some ⟨[0], [0, 1, 1, 0], [], 2, .twosComplement⟩)) 2 =
    some (some ⟨[0], [0, 1, 1, 0], [], 2, .twosComplement⟩, 0x80#32) := by decide
theorem test_addlp_borrows : numAfter (.addlp false 1 0 0xFFF) (one ⟨[], [1], [0, 0], 10, .unsigned⟩) 1 =
    some (some ⟨[], [0], [9, 9], 10, .unsigned⟩, 0x80#32) := by decide
theorem test_addlp_tc : numAfter (.addlp false 1 0 60) (one ⟨[9], [5, 0], [], 10, .twosComplement⟩) 1 =
    some (some ⟨[0], [1, 0], [], 10, .twosComplement⟩, 0x80#32) := by decide
theorem test_mulu : numAfter (.mulu false 2 0 1) (two ⟨[], [7, 0], [], 10, .unsigned⟩ ⟨[], [5, 1], [], 10, .unsigned⟩) 2 =
    some (some ⟨[], [3, 5, 7, 0], [], 10, .unsigned⟩, 0x80#32) := by decide
theorem test_mulu_fraction : numAfter (.mulu false 2 0 1) (two ⟨[], [1], [5], 10, .unsigned⟩ ⟨[], [2], [], 10, .unsigned⟩) 2 =
    some (none, 0x8B#32) := by decide
theorem test_divs_quotient : numAfter (.divs false 7 0 1) (two ⟨[1], [1, 3, 1], [], 10, .signed⟩ ⟨[0], [1, 2], [], 10, .signed⟩) 7 =
    some (some ⟨[1], [1, 0], [], 10, .signed⟩, 0x80#32) := by decide
theorem test_divs_remainder_wraps : numAfter (.divs false 7 0 1) (two ⟨[1], [1, 3, 1], [], 10, .signed⟩ ⟨[0], [1, 2], [], 10, .signed⟩) 0 =
    some (some ⟨[1], [1, 1], [], 10, .signed⟩, 0x80#32) := by decide
theorem test_enc_b32 : ieeeAfter (.encB32 false 2 0 1) (encoded ⟨[0], [1, 9], [1, 2, 5], 10, .signed⟩ "7") 2 =
    some (some ⟨.b32, 0x45190000#64⟩, 0x80#32) := by decide
theorem test_enc_b32_bounds : ieeeAfter (.encB32 false 2 0 1) (encoded ⟨[], [1], [], 10, .signed⟩ "128") 2 =
    some (none, 0x8F#32) := by decide
set_option maxRecDepth 4000 in
theorem test_enc_b64 : ieeeAfter (.encB64 false 2 0 1) (encoded ⟨[0], [1, 9], [1, 2, 5], 10, .signed⟩ "7") 2 =
    some (some ⟨.b64, 0x40A3200000000000#64⟩, 0x80#32) := by decide
theorem test_enc_d32dpd : ieeeAfter (.encD32dpd false 2 0 1) (encoded ⟨[0], [1, 9], [1, 2, 5], 10, .signed⟩ "7") 2 =
    some (some ⟨.d32dpd, 0x229064A5#64⟩, 0x80#32) := by decide
theorem test_enc_d32dpd_rounds : ieeeAfter (.encD32dpd false 2 0 1) (encoded ⟨[], [9, 9, 9, 9, 9, 9, 9], [5], 10, .signed⟩ "0") 2 =
    some (some ⟨.d32dpd, 0x26600000#64⟩, 0x80#32) := by decide
theorem test_enc_d32bid : ieeeAfter (.encD32bid false 2 0 1) (encoded ⟨[0], [1, 9], [1, 2, 5], 10, .signed⟩ "7") 2 =
    some (some ⟨.d32bid, 0x34804AB5#64⟩, 0x80#32) := by decide
theorem test_enc_d32bid_large : ieeeAfter (.encD32bid false 2 0 1) (encoded ⟨[], [8, 3, 8, 8, 6, 0, 8], [], 10, .signed⟩ "0") 2 =
    some (some ⟨.d32bid, 0x6CA00000#64⟩, 0x80#32) := by decide
theorem test_enc_h32 : ieeeAfter (.encH32 false 2 0 1) (encoded ⟨[0], [1, 9], [1, 2, 5], 10, .signed⟩ "7") 2 =
    some (some ⟨.h32, 0x49132000#64⟩, 0x80#32) := by decide
theorem test_enc_h32_infinity : ieeeAfter (.encH32 false 2 0 1) (encoded ⟨[], [1, 6, 7, 7, 7, 2, 1, 6], [], 10, .signed⟩ "0") 2 =
    some (some ⟨.h32, 0x7F000000#64⟩, 0x80#32) := by decide
theorem test_dec_b32 : numAfter (.decB32 false 3 1) (State.reset.setF 1 (some ⟨.b32, 0xC309A800#64⟩)) 3 =
    some (some ⟨[1], [1, 3, 7], [6, 5, 6, 2, 5], 10, .signed⟩, 0x80#32) := by decide
theorem test_dec_b32_exponent : decodeAfter (.decB32 false 3 1) (State.reset.setF 1 (some ⟨.b32, 0xC309A800#64⟩)) =
    some (some .numeric, some 2#6, some 0) := by decide
theorem test_dec_b64 : numAfter (.decB64 false 3 1) (State.reset.setF 1 (some ⟨.b64, 0x40A3200000000000#64⟩)) 3 =
    some (some ⟨[0], [1], [1, 9, 5, 3, 1, 2, 5], 10, .signed⟩, 0x80#32) := by decide
theorem test_dec_b64_exponent : decodeAfter (.decB64 false 3 1) (State.reset.setF 1 (some ⟨.b64, 0x40A3200000000000#64⟩)) =
    some (some .numeric, some 2#6, some 11) := by decide
theorem test_dec_d32dpd : numAfter (.decD32dpd false 3 1) (State.reset.setF 1 (some ⟨.d32dpd, 0x229064A5#64⟩)) 3 =
    some (some ⟨[0], [1, 9, 1, 2, 5], [], 10, .signed⟩, 0x80#32) := by decide
theorem test_dec_d32dpd_exponent : decodeAfter (.decD32dpd false 3 1) (State.reset.setF 1 (some ⟨.d32dpd, 0x229064A5#64⟩)) =
    some (some .numeric, some 10#6, some 4) := by decide
theorem test_dec_d32bid : numAfter (.decD32bid false 3 1) (State.reset.setF 1 (some ⟨.d32bid, 0x6CB8967F#64⟩)) 3 =
    some (some ⟨[0], [9, 9, 9, 9, 9, 9, 9], [], 10, .signed⟩, 0x80#32) := by decide
theorem test_dec_d32bid_exponent : decodeAfter (.decD32bid false 3 1) (State.reset.setF 1 (some ⟨.d32bid, 0x6CB8967F#64⟩)) =
    some (some .numeric, some 10#6, some 0) := by decide
theorem test_dec_h32 : numAfter (.decH32 false 3 1) (State.reset.setF 1 (some ⟨.h32, 0x49132000#64⟩)) 3 =
    some (some ⟨[0], [5, 1, 3, 3, 8, 2, 8, 0, 9, 6], [], 10, .signed⟩, 0x80#32) := by decide
theorem test_dec_h32_exponent : decodeAfter (.decH32 false 3 1) (State.reset.setF 1 (some ⟨.h32, 0x49132000#64⟩)) =
    some (some .numeric, some 16#6, some 0) := by decide
theorem test_fparse_b32 : ieeeAfter (.fparseB32 false 1 0) (State.reset.setT 0 (some (text "1 10000110 00010011010100000000000"))) 1 =
    some (some ⟨.b32, 0xC309A800#64⟩, 0x80#32) := by decide
theorem test_fparse_b64 : ieeeAfter (.fparseB64 false 1 0) (State.reset.setT 0 (some (text "1 10000000000 1000000000000000000000000000000000000000000000000001"))) 1 =
    some (some ⟨.b64, 0xC008000000000001#64⟩, 0x80#32) := by decide
theorem test_fparse_d32dpd : ieeeAfter (.fparseD32dpd false 1 0) (State.reset.setT 0 (some (text "0 01000101001 00000110010010100101"))) 1 =
    some (some ⟨.d32dpd, 0x229064A5#64⟩, 0x80#32) := by decide
theorem test_fparse_d32bid : ieeeAfter (.fparseD32bid false 1 0) (State.reset.setT 0 (some (text "0 01101001000 00000100101010110101"))) 1 =
    some (some ⟨.d32bid, 0x34804AB5#64⟩, 0x80#32) := by decide
theorem test_fparse_h32 : ieeeAfter (.fparseH32 false 1 0) (State.reset.setT 0 (some (text "0 1001001 000100110010000000000000"))) 1 =
    some (some ⟨.h32, 0x49132000#64⟩, 0x80#32) := by decide
theorem test_fadd : ieeeAfter (.fadd false 2 0 1) (floats 0xBA640000#64 0xBA2E0000#64) 2 =
    some (some ⟨.b32, 0xBAC90000#64⟩, 0x80#32) := by decide
theorem test_fadd_truncates : ieeeAfter (.fadd false 2 0 1) (floats 0x3DCCCCCD#64 0x3E4CCCCD#64) 2 =
    some (some ⟨.b32, 0x3E999999#64⟩, 0x80#32) := by decide
theorem test_fsub_subnormal : ieeeAfter (.fsub false 2 0 1) (floats 0x00800000#64 0x00000001#64) 2 =
    some (some ⟨.b32, 0x007FFFFF#64⟩, 0x80#32) := by decide
theorem test_fsub_infinities : ieeeAfter (.fsub false 2 0 1) (floats 0x7F800000#64 0x7F800000#64) 2 =
    some (some ⟨.b32, 0x7FC00000#64⟩, 0x80#32) := by decide
theorem test_fmul_truncates : ieeeAfter (.fmul false 2 0 1) (floats 0x3FFFFFFF#64 0x3FFFFFFF#64) 2 =
    some (some ⟨.b32, 0x407FFFFE#64⟩, 0x80#32) := by decide
theorem test_fmul_zero_infinity : ieeeAfter (.fmul false 2 0 1) (floats 0x00000000#64 0x7F800000#64) 2 =
    some (some ⟨.b32, 0x7FC00000#64⟩, 0x80#32) := by decide
theorem test_fdiv_rounds_up : ieeeAfter (.fdiv false 2 0 1) (floats 0x40000000#64 0x40400000#64) 2 =
    some (some ⟨.b32, 0x3F2AAAAB#64⟩, 0x80#32) := by decide
theorem test_fdiv_by_zero : ieeeAfter (.fdiv false 2 0 1) (floats 0x3F800000#64 0x80000000#64) 2 =
    some (some ⟨.b32, 0xFF800000#64⟩, 0x80#32) := by decide

/-! ### Witnesses: a state and operands that meet the hypotheses of each statement

Where a statement has several clauses, one conjunct per clause, at a boundary value of its range. -/

/-- UNSIGNED decimal digits. -/
def uns (w f : List Cell) : Numeral := ⟨[], w, f, 10, .unsigned⟩

/-- SIGNED decimal digits after a sign run. -/
def sgn (s w f : List Cell) : Numeral := ⟨s, w, f, 10, .signed⟩

/-- Finite capacities, the least that 10_state.md rule R27 allows. -/
def least : Capacities := ⟨some 64, some 64, some 64, some 64⟩

/-- From reset, with the inputs `l` and the least capacities. -/
def waiting (l : List HostOp) : State := { State.reset with caps := least, inputs := l }

theorem witness_ResetLeavesNoValue : (waiting [.reset, .readCmd]).inputs = .reset :: [.readCmd] := rfl

theorem witness_StepRunsTheIssuedCommand :
    (waiting [.issue 0x08040000#32]).inputs = .issue 0x08040000#32 :: [] ∧
    decode 0x08040000#32 = .ok (.stdz false 1 0) ∧
    decodeTableWord 32 0x08040000 = some (.stdz false 1 0) ∧ State.reset.inputs = [] := by decide

theorem witness_IllegalWordChangesOnlyStatus :
    (waiting [.issue 0#32]).inputs = .issue 0#32 :: [] ∧ decode 0#32 = .error .reservedOpcode ∧
    decode 0xFFFFFFFF#32 = .error .reservedOpcode := by decide

theorem witness_HostWritesStoreOrAreRefused :
    (∀ op ∈ [HostOp.writeT 1 (List.replicate 64 0x30#8), .writeT 1 (List.replicate 65 0x30#8),
      .writeN 7 (uns (List.replicate 65 1) []), .writeF 3 5#3 1#64, .writeF 3 Format.h32.code 1#64,
      .clearT 0, .clearN 0, .clearF 0], (waiting [op]).inputs = op :: []) ∧
    exceeds (waiting []).caps.tcap 64 = false ∧ exceeds (waiting []).caps.tcap 65 = true ∧
    exceeds (waiting []).caps.wcap 65 = true ∧ 5 ≤ (5#3).toNat := by decide

theorem witness_HostReadsDeliverTheRegister :
    (waiting [.readN 7]).inputs = .readN 7 :: [] ∧ (waiting [.readCmd]).inputs = .readCmd :: [] := by decide

theorem witness_LogBitChangesOnlyCmd :
    (waiting [.issue 0x08040000#32]).inputs = .issue 0x08040000#32 :: [] := by decide

theorem witness_DecodeAndEncodeAgree :
    wellFormed (.shra true 7 7 0xFFF) = true ∧
    decode 0x6A43FFFF#32 = .ok (.shra true 7 7 0xFFF) := by decide

theorem witness_LegalWordsAreThoseOfTheTable :
    (0x6A43FFFF#32).extractLsb' 26 6 = 0x1A#6 ∧
    decode 0x6A43FFFF#32 = .ok (.shra true 7 7 0xFFF) := by decide

theorem witness_EveryCommandDeliversOrFailsAsListed :
    wellFormed (.addn false 2 0 1) = true ∧ (two (uns [9] []) (uns [1] [])).capacityInv ∧
    (waiting []).capacityInv := by decide

theorem witness_NoValueSourceFailsInvalidInput :
    wellFormed (.addn false 2 0 1) = true ∧ sourcesHeld (.addn false 2 0 1) (one (uns [9] [])) = false := by
  decide

theorem witness_CommandWritesStatusAndOneStickyBit :
    (∃ t, exec (.stdz false 1 0) (one (uns [9] [])) = .next t ∧ statusCode t.status = 0) ∧
    (∃ t, exec (.stdz false 1 2) (one (uns [9] [])) = .next t ∧ statusCode t.status ≠ 0) ∧
    (∃ t, step (waiting [.issue 0#32]) = .next t) ∧
    ∀ rest, (waiting [.issue 0#32]).inputs ≠ .reset :: rest :=
  ⟨⟨_, rfl, by decide⟩, ⟨_, rfl, by decide⟩, ⟨_, rfl⟩, fun _ h => by cases h⟩

theorem witness_OnlyCvtkUnsWarns :
    (∃ t, exec (.cvtkUns false 1 0) (one (sgn [1] [5] [])) = .next t ∧ statusWarn t.status = true) ∧
    ∃ t, exec (.cvtkUns false 1 0) (one (sgn [0] [5] [])) = .next t ∧ statusWarn t.status = false :=
  ⟨⟨_, rfl, by decide⟩, ⟨_, rfl, by decide⟩⟩

theorem witness_FrameOfNumeralCommands :
    destination (.addn false 2 0 1) = .num 2 ∧ destination (.divs false 7 0 1) = .numPair 7 ∧
    (∃ t, exec (.addn false 2 0 1) (two (uns [9] []) (uns [1] [])) = .next t) ∧
    ∃ t, exec (.divs false 7 0 1) (two (sgn [] [9] []) (sgn [] [2] [])) = .next t :=
  ⟨rfl, rfl, ⟨_, rfl⟩, ⟨_, rfl⟩⟩

theorem witness_FrameOfIeeeCommands :
    destination (.fadd false 2 0 1) = .ieee 2 ∧
    ∃ t, exec (.fadd false 2 0 1) (floats 0x3F800000#64 0x3F800000#64) = .next t := ⟨rfl, _, rfl⟩

theorem witness_FrameOfConditionAndDecodeCommands :
    destination (.signm false false 0) = .cond ∧ destination (.decB32 false 3 1) = .decoded 3 ∧
    (∃ t, exec (.signm false false 0) (one (uns [9] [])) = .next t) ∧
    ∃ t, exec (.decB32 false 3 1) (floats 0#64 0x3F800000#64) = .next t :=
  ⟨rfl, rfl, ⟨_, rfl⟩, ⟨_, rfl⟩⟩

theorem witness_FrameOfInPlaceCommands :
    destination (.eqlen false 0 1) = .inPlace ∧ destination (.shl false 0 1 4095) = .inPlace ∧
    (∃ t, exec (.eqlen false 0 1) (two (uns [9] []) (uns [1] [2])) = .next t) ∧
    ∃ t, exec (.shl false 0 1 4095) (two (uns [9] []) (uns [1] [2])) = .next t :=
  ⟨rfl, rfl, ⟨_, rfl⟩, ⟨_, rfl⟩⟩

theorem witness_EveryStepKeepsCapacities :
    (waiting [.writeN 0 (uns (List.replicate 64 1) [])]).capacityInv ∧
    ∃ t, step (waiting [.writeN 0 (uns (List.replicate 64 1) [])]) = .next t := ⟨by decide, _, rfl⟩

theorem witness_EveryStepKeepsRegisterForms :
    (∃ t, step (waiting [.issue 0x84000000#32]) = .next t) ∧ (waiting []).ieeeInv ∧
    (waiting []).statusInv ∧ (waiting []).decodeInv := ⟨⟨_, rfl⟩, by decide, by decide, by decide⟩

theorem witness_DigitMapsAreInverse :
    35 ≤ 35 ∧ 35 < 36 ∧ dv 0x5A#8 = .ok 35 ∧ dv 0x7A#8 = .error .invalidDigit := by decide

/-- The least capacities, and `a` in `T0`. -/
def typed (a : Text) : State := { State.reset.setT 0 (some a) with caps := least }

theorem witness_ParseReadsMagnitudeTexts :
    ((1#12).toNat < 2 ∧ 35 < (36#12).toNat ∧ 2 ≤ (2#12).toNat ∧ (35#12).toNat ≤ 35 ∧
    (typed (text "+- 71.75")).readT 0 = some (text "+- 71.75") ∧
    (text "+- 71.75").filter (fun c => c ≠ 0x20#8) =
      [false, true].map signChar ++ digitText [7, 1] [7, 5] true ++ [] ∧
    (∀ d ∈ ([7, 1] ++ [7, 5] : List Cell), d.val < 8) ∧ ([7, 1] ++ [7, 5] : List Cell) ≠ [] ∧
    exceeds least.scap 2 = false ∧ exceeds least.wcap 2 = false ∧ exceeds least.fcap 2 = false ∧
    (text "Y").filter (fun c => c ≠ 0x20#8) = [].map signChar ++ digitText [34] [] false ++ [] ∧
    exceeds least.wcap (List.replicate 65 (1 : Cell)).length = true ∧
    (List.replicate 65 0x31#8).filter (fun c => c ≠ 0x20#8) =
      [].map signChar ++ digitText (List.replicate 65 1) [] false ++ [] ∧
    (text "+.").filter (fun c => c ≠ 0x20#8) = [false].map signChar ++ digitText [] [] true ++ [] ∧
    (text "7.5.").filter (fun c => c ≠ 0x20#8) =
      [].map signChar ++ digitText [7] [5] true ++ 0x2E#8 :: [] ∧
    (text "78").filter (fun c => c ≠ 0x20#8) = [].map signChar ++ digitText [7] [] false ++ 0x38#8 :: [] ∧
    (text "+1").filter (fun c => c ≠ 0x20#8) = [].map signChar ++ digitText [] [] false ++ 0x2B#8 :: text "1") ∧
    badDigit 8 0x38#8 ∧ badDigit 8 0x2B#8 :=
  ⟨by decide, ⟨by decide, by decide⟩, by decide, by decide⟩

theorem witness_ParseReadsPositionalTexts :
    ((1#12).toNat < 2 ∧ 35 < (36#12).toNat ∧ 2 ≤ (2#12).toNat ∧ (2#12).toNat ≤ 35 ∧
    (typed (text "1101.1")).readT 0 = some (text "1101.1") ∧
    (text " ").filter (fun c => c ≠ 0x20#8) = [] ∧ dv 0x61#8 = .error .invalidDigit ∧
    dv 0x35#8 = .ok 5 ∧ (5 : Cell) ≠ 0 ∧ (5 : Cell).val + 1 ≠ (2#12).toNat ∧
    (text "1101.1").filter (fun c => c ≠ 0x20#8) =
      List.replicate (1 + 1) (digitChar 1) ++ digitText [0, 1] [1] true ++ [] ∧
    (1 : Cell).val + 1 = (2#12).toNat ∧ (∀ d ∈ ([0, 1] ++ [1] : List Cell), d.val < (2#12).toNat) ∧
    exceeds least.scap 2 = false ∧ exceeds least.wcap 2 = false ∧ exceeds least.fcap 1 = false ∧
    (digitText [0, 1] [1] true ++ []).head? ≠ some (digitChar 1) ∧
    (text "Y1A").filter (fun c => c ≠ 0x20#8) =
      List.replicate (0 + 1) (digitChar 34) ++ digitText [1, 10] [] false ++ [] ∧
    (text "1").filter (fun c => c ≠ 0x20#8) = List.replicate (0 + 1) (digitChar 1) ++ digitText [] [] false ++ [] ∧
    exceeds least.scap (64 + 1) = true ∧
    (List.replicate 65 0x31#8).filter (fun c => c ≠ 0x20#8) =
      List.replicate (64 + 1) (digitChar 1) ++ digitText [] [] false ++ [] ∧
    (text "1.0.").filter (fun c => c ≠ 0x20#8) =
      List.replicate (0 + 1) (digitChar 1) ++ digitText [] [0] true ++ 0x2E#8 :: [] ∧
    (text "102").filter (fun c => c ≠ 0x20#8) =
      List.replicate (0 + 1) (digitChar 1) ++ digitText [0] [] false ++ 0x32#8 :: []) ∧
    badDigit (2#12).toNat 0x32#8 := ⟨by decide, by decide, by decide⟩

theorem witness_StdzGivesTheCanonicalForm :
    (one (sgn [0, 1] [0, 5] [0])).readN 0 = some (sgn [0, 1] [0, 5] [0]) ∧
    (sgn [0, 1] [0, 5] [0]).valid = true ∧ (sgn [1] [5] []).standardized = true ∧
    (sgn [2] [5] []).valid = false := by decide

theorem witness_PaddingKeepsTheValue :
    let n : Numeral := ⟨[1], [0, 1], [1, 1], 2, .twosComplement⟩
    (one n).readN 0 = some n ∧ n.valid = true ∧ n.whole.length ≤ (2#12).toNat ∧
    exceeds (one n).caps.wcap (2#12).toNat = false ∧ (1#12).toNat < n.whole.length ∧
    exceeds (one n).caps.fcap (2#12).toNat = false ∧ n.fraction.length ≤ (2#12).toNat ∧
    (2#12).toNat ≤ n.fraction.length ∧ (uns [10] []).valid = false ∧
    exceeds least.wcap (65#12).toNat = true ∧ exceeds least.fcap (65#12).toNat = true := by decide

theorem witness_EqlenEqualizesAndKeepsValues :
    let a : Numeral := ⟨[1], [0, 1], [1], 2, .twosComplement⟩
    let b : Numeral := ⟨[0], [1, 1, 0], [0, 1, 1], 2, .twosComplement⟩
    (two a b).readN 0 = some a ∧ (two a b).readN 1 = some b ∧ a.kind = b.kind ∧ a.valid = true ∧
    b.valid = true ∧ (uns [2] []).kind ≠ (sgn [] [2] []).kind ∧
    (uns [10] []).kind = (uns [2] []).kind ∧ (uns [10] []).valid = false := by decide

theorem witness_SignmDeliversTheSignMultiplier :
    State.reset.readN 0 = none ∧ (one (sgn [0, 1] [5] [])).readN 0 = some (sgn [0, 1] [5] []) ∧
    (sgn [0, 1] [5] []).sign = [false, true].map (fun m => if m then (1 : Cell) else 0) ∧
    (sgn [0, 1] [5] []).sign.length ≠ 1 ∧ (∃ d ∈ (sgn [2] [5] []).sign, 2 ≤ d.val) ∧
    ([9, 9] : List Cell) = List.replicate (1 + 1) 9 ∧ (9 : Cell).val + 1 = (10 : Cell).val ∧
    (∃ d ∈ ([1, 0] : List Cell), ∃ e ∈ ([1, 0] : List Cell), d ≠ e) :=
  ⟨by decide, by decide, by decide, by decide, ⟨2, by decide, by decide⟩, by decide, by decide,
    1, by decide, 0, by decide, by decide⟩

theorem witness_CvtkKeepsTheValue :
    let n : Numeral := ⟨[1], [0, 0, 0], [], 2, .twosComplement⟩
    (one n).readN 0 = some n ∧ n.valid = true ∧
    exceeds (one n).caps.wcap (max n.whole.length 1 + 1) = false ∧
    exceeds least.wcap (max 63 1 + 1) = false ∧ (uns [10] []).valid = false := by decide

theorem witness_CvtkRoundTripStandardizes :
    let n : Numeral := ⟨[1], [0, 0, 0], [], 2, .twosComplement⟩
    (one n).readN 0 = some n ∧ n.std = .ok n ∧
    exceeds (one n).caps.wcap (max n.whole.length 1 + 2) = false ∧
    (sgn [] [5] []).sm = .plus ∧ (sgn [] [0] []).sm = .plus := by decide

theorem witness_ComplNegatesTheValue :
    let n : Numeral := ⟨[1], [0, 0, 0], [], 2, .twosComplement⟩
    (one n).readN 0 = some n ∧ n.kind ≠ .unsigned ∧ n.valid = true ∧
    exceeds (one n).caps.wcap (n.whole.length + 1) = false ∧ (uns [5] []).kind = .unsigned ∧
    (sgn [2] [5] []).kind ≠ .unsigned ∧ (sgn [2] [5] []).valid = false := by decide

theorem witness_ComplIsAnInvolution :
    (one (sgn [] [5] [])).readN 0 = some (sgn [] [5] []) ∧ (sgn [] [5] []).kind ≠ .unsigned ∧
    (sgn [] [5] []).valid = true ∧ exceeds (one (sgn [] [5] [])).caps.wcap (1 + 2) = false ∧
    ¬((sgn [0] [5] []).kind = .signed ∧ (sgn [0] [5] []).sign = []) := by decide

theorem witness_AbsvDeliversTheAbsoluteValue :
    (one (sgn [1] [0] [])).readN 0 = some (sgn [1] [0] []) ∧ (sgn [1] [0] []).valid = true ∧
    (sgn [1] [0] []).sm = .minus ∧ (sgn [] [5] []).sm = .plus ∧
    exceeds (one (sgn [1] [0] [])).caps.wcap (1 + 1) = false ∧ (sgn [2] [5] []).valid = false := by decide

/-- The value of an UNSIGNED numeral. -/
theorem uns_val {n : Numeral} (hk : n.kind = .unsigned) (hs : n.sign = []) :
    n.val = n.digitsInt / (n.radix.val : ℚ) ^ n.fraction.length := by
  simp [Numeral.val, Numeral.mag, hk, Numeral.sm, hs, Cond.toInt]

theorem witness_TodecAccumulatesEightDigits :
    let n : Numeral := ⟨[], [34, 34], [34], 35, .unsigned⟩
    let full : Numeral := ⟨[], List.replicate 64 34, [], 35, .unsigned⟩
    ((one n).readN 0 = some n ∧ n.kind = .unsigned ∧ n.std = .ok n ∧ n.standardized = true ∧
      exceeds (one n).caps.wcap (2 * max n.whole.length 1) = false ∧
      (⟨[1], [1], [], 2, .twosComplement⟩ : Numeral).kind ≠ .unsigned ∧ (uns [10] []).valid = false ∧
      (uns [0, 0] []).valid = true ∧ (uns [0, 0] []).standardized = false ∧
      full.valid = true ∧ full.standardized = true ∧ full.fits least = true ∧ least.wcap = some 64) ∧
    (10 : ℚ) ^ 64 ≤ |full.val| := by
  refine ⟨by decide, ?_⟩
  have h : (⟨[], List.replicate 64 34, [], 35, .unsigned⟩ : Numeral).digitsInt = 35 ^ 64 - 1 := by decide
  rw [uns_val rfl rfl, h]
  norm_num

theorem witness_FromdecTruncatesToEightDigits :
    let full := uns (List.replicate 20 9) []
    ((one (sgn [1] [7, 1] [7, 5])).readN 0 = some (sgn [1] [7, 1] [7, 5]) ∧
      (sgn [1] [7, 1] [7, 5]).kind = .signed ∧ (sgn [1] [7, 1] [7, 5]).valid = true ∧
      (sgn [1] [7, 1] [7, 5]).radix = 10 ∧ 2 ≤ (2#12).toNat ∧ (35#12).toNat ≤ 35 ∧
      (sgn [1] [7, 1] [7, 5]).standardized = true ∧
      exceeds (one (sgn [1] [7, 1] [7, 5])).caps.wcap (4 * 2) = false ∧
      (⟨[9], [1], [], 10, .twosComplement⟩ : Numeral).kind ≠ .unsigned ∧
      (⟨[], [1], [], 2, .unsigned⟩ : Numeral).radix ≠ 10 ∧ (1#12).toNat < 2 ∧ 35 < (36#12).toNat ∧
      (uns [10] []).valid = false ∧ (uns [0, 0] []).valid = true ∧ (uns [0, 0] []).standardized = false ∧
      full.valid = true ∧ full.standardized = true ∧ full.fits least = true ∧ least.wcap = some 64) ∧
    ((2#12).toNat : ℚ) ^ 64 ≤ |full.val| := by
  refine ⟨by decide, ?_⟩
  have h : (uns (List.replicate 20 9) []).digitsInt = 10 ^ 20 - 1 := by decide
  rw [uns_val rfl rfl, h]
  norm_num [uns]

theorem witness_CvtbIsTodecThenFromdec :
    State.reset.readN 0 = none ∧ (one (uns [5] [])).readN 0 = some (uns [5] []) ∧ (1#12).toNat < 2 ∧ 35 < (36#12).toNat ∧
    (uns [5] []).radix.val = (10#12).toNat ∧ (uns [5] []).radix.val ≠ (2#12).toNat ∧
    (∃ t, exec (.todec false false 1 0) (one (uns [5] [])) = .next t ∧ statusCode t.status = 0) ∧
    ∃ t, exec (.todec false false 1 0) (one (uns [10] [])) = .next t ∧ statusCode t.status ≠ 0 :=
  ⟨by decide, by decide, by decide, by decide, by decide, by decide, ⟨_, rfl, by decide⟩, ⟨_, rfl, by decide⟩⟩

theorem witness_CvtbTruncatesTwice :
    let n : Numeral := ⟨[], [0], [1], 3, .unsigned⟩
    (one n).readN 0 = some n ∧ n.kind = .unsigned ∧ n.std = .ok n ∧ 2 ≤ (9#12).toNat ∧ (9#12).toNat ≤ 35 ∧
    n.radix.val ≠ (9#12).toNat ∧ exceeds (one n).caps.wcap (8 * max n.whole.length 1) = false := by decide

theorem witness_DecimalRoundTripIsBounded :
    let n : Numeral := ⟨[], [1, 0], [0, 1], 2, .unsigned⟩
    (one n).readN 0 = some n ∧ n.kind = .unsigned ∧ n.standardized = true ∧ n.fraction.length ≤ 8 ∧
    n.radix.val = (2#12).toNat ∧ exceeds (one n).caps.wcap (8 * n.whole.length) = false ∧
    (∀ k, k < n.fraction.length → n.radix.val ^ (k + 1) ∣ (n.fraction.getD k 0).val * 100000000) := by
  refine ⟨by decide, by decide, by decide, by decide, by decide, by decide, ?_⟩
  intro k hk
  have h : k = 0 ∨ k = 1 := by simp at hk; omega
  rcases h with rfl | rfl <;> decide

theorem witness_CmpmComparesDigitStrings :
    (two (uns [1, 2] []) (uns [1, 3] [])).readN 0 = some (uns [1, 2] []) ∧
    (two (uns [1, 2] []) (uns [1, 3] [])).readN 1 = some (uns [1, 3] []) ∧
    (uns [1, 2] []).valid = true ∧ (uns [1, 3] []).valid = true ∧
    (uns [1, 2] []).whole ++ (uns [1, 2] []).fraction = [1] ++ (2 : Cell) :: [] ∧
    (uns [1, 3] []).whole ++ (uns [1, 3] []).fraction = [1] ++ (3 : Cell) :: [] ∧
    (⟨[], [1], [], 2, .unsigned⟩ : Numeral).radix ≠ (uns [1] []).radix ∧
    (uns [1] []).kind ≠ (sgn [] [1] []).kind ∧ (uns [10] []).valid = false ∧
    State.reset.readN 0 = none := by decide

theorem witness_AddnIsValueExact :
    let a : Numeral := ⟨[1], [0, 0, 0], [], 2, .twosComplement⟩
    let b := uns (List.replicate 64 9) []
    ((two a a).readN 0 = some a ∧ (two a a).readN 1 = some a ∧ a.valid = true ∧
      exceeds (two a a).caps.wcap (max (max a.whole.length a.whole.length) 1 + 1) = false ∧
      a.radix ≠ b.radix ∧ b.radix = (sgn [] [1] []).radix ∧ b.kind ≠ (sgn [] [1] []).kind ∧
      (uns [10] []).valid = false ∧ b.valid = true ∧ b.fits least = true ∧ least.wcap = some 64) ∧
    ∀ y : Numeral, y.valid = true → y.val = b.val + b.val → y.radix = b.radix → y.kind = .unsigned →
      y.fraction.length = 0 → 64 < y.whole.length := by
  refine ⟨by decide, fun y hv hy hr hk hf => ?_⟩
  have h : (uns (List.replicate 64 9) []).digitsInt = 10 ^ 64 - 1 := by decide
  have hs : y.sign = [] := by
    have := Numeral.sm_unsigned hk
    by_contra hne
    have hz : y.sm = .zero := by simp [Numeral.sm, hk, hne]
    exact absurd ((Numeral.valid_iff y).1 hv).2.2.2 (by simp [hz])
  have hd : y.digitsInt = 2 * (10 ^ 64 - 1) := by
    rw [uns_val hk hs, hf, uns_val rfl rfl, h] at hy
    have : (y.digitsInt : ℚ) = ((2 * (10 ^ 64 - 1) : Nat) : ℚ) := by
      rw [pow_zero, div_one] at hy
      rw [hy]; norm_num [uns]
    exact_mod_cast this
  have hlt := Numeral.digitsInt_lt hv
  by_contra hle
  have : y.radix.val ^ (y.whole.length + y.fraction.length) ≤ 10 ^ 64 := by
    rw [hr, hf]
    exact Nat.pow_le_pow_right (by decide) (by omega)
  omega

theorem witness_ShiftsMoveTheView :
    let a : Numeral := ⟨[1], [1, 0], [1], 2, .twosComplement⟩
    let b : Numeral := ⟨[0], [0, 1], [], 2, .twosComplement⟩
    let c : Numeral := ⟨[], [1], [], 2, .signed⟩
    let d : Numeral := ⟨[], [2], [], 2, .unsigned⟩
    (registerRun 0 1).map (two a b).readN = [a, b].map some ∧
    (∀ x ∈ [a, b], ∀ y ∈ [a, b], x.radix = y.radix) ∧ (∀ n ∈ [a, b], n.kind ≠ .signed) ∧
    (∀ n ∈ [a, b], ∀ d ∈ n.whole ++ n.fraction, d.val < n.radix.val) ∧
    (registerRun 0 1).map (two a (uns [1] [])).readN = [a, uns [1] []].map some ∧
    a.radix ≠ (uns [1] []).radix ∧
    (registerRun 0 1).map (two a c).readN = [a, c].map some ∧
    (∀ x ∈ [a, c], ∀ y ∈ [a, c], x.radix = y.radix) ∧ c.kind = .signed ∧
    (registerRun 0 1).map (two a d).readN = [a, d].map some ∧
    (∀ x ∈ [a, d], ∀ y ∈ [a, d], x.radix = y.radix) ∧ (∀ n ∈ [a, d], n.kind ≠ .signed) ∧
    d.radix.val ≤ (2 : Cell).val := by decide

theorem witness_AddlpAddsAtTheLowestPoint :
    (one (uns [1] [0])).readN 0 = some (uns [1] [0]) ∧ (uns [10] []).valid = false ∧
    (uns [1] [0]).valid = true ∧ ((uns [1] [0]).digitsInt : Int) + (0xFF5#12).toInt < 0 ∧
    0 ≤ ((uns [1] [0]).digitsInt : Int) + (0xFF6#12).toInt ∧
    exceeds (one (uns [1] [0])).caps.wcap (max 1 1 + 12) = false ∧
    (⟨[9], [5], [], 10, .twosComplement⟩ : Numeral).valid = true := by decide

theorem witness_MuluMultipliesIntegers :
    let full := uns (1 :: List.replicate 32 0) []
    ((two (uns [1] [0]) (uns [5] [])).readN 0 = some (uns [1] [0]) ∧
      (two (uns [1] [0]) (uns [5] [])).readN 1 = some (uns [5] []) ∧
      (uns [1] [0]).valid = true ∧ (uns [5] []).valid = true ∧
      (⟨[], [1], [], 2, .unsigned⟩ : Numeral).radix ≠ (uns [5] []).radix ∧ (sgn [] [1] []).kind ≠ .unsigned ∧
      (uns [10] []).valid = false ∧ full.valid = true ∧ full.fits least = true ∧ least.wcap = some 64 ∧
      full.radix.val ^ 64 ≤ 10 ^ 32 * 10 ^ 32) ∧
    (uns [1] [0]).val = (1 : Nat) ∧ (uns [5] []).val = (5 : Nat) ∧ full.val = (10 ^ 32 : Nat) ∧
    ¬∃ k : Nat, (uns [1] [5]).val = k := by
  have h1 : (uns [1] [0]).digitsInt = 10 := by decide
  have h2 : (uns [5] []).digitsInt = 5 := by decide
  have h3 : (uns [1] [5]).digitsInt = 15 := by decide
  have h4 : (uns (1 :: List.replicate 32 0) []).digitsInt = 10 ^ 32 := by decide
  refine ⟨by decide, by rw [uns_val rfl rfl, h1]; norm_num [uns], by rw [uns_val rfl rfl, h2]; norm_num [uns],
    by rw [uns_val rfl rfl, h4]; norm_num [uns], ?_⟩
  rintro ⟨k, hk⟩
  rw [uns_val rfl rfl, h3] at hk
  have : (15 : ℚ) = ((10 * k : Nat) : ℚ) := by push_cast; rw [← hk]; norm_num [uns]
  have : 15 = 10 * k := by exact_mod_cast this
  omega

/-- The value of a SIGNED decimal integer. -/
theorem sgn_val (s w f : List Cell) : (sgn s w f).val =
    ((sgn s w f).sm.toInt : ℚ) * ((sgn s w f).digitsInt / (10 : ℚ) ^ f.length) := by
  simp [Numeral.val, Numeral.mag, sgn]

theorem witness_DivsTruncatesTowardsZero :
    ((two (sgn [1] [1, 3, 1] []) (sgn [] [1, 2] [])).readN 0 = some (sgn [1] [1, 3, 1] []) ∧
      (two (sgn [1] [1, 3, 1] []) (sgn [] [1, 2] [])).readN 1 = some (sgn [] [1, 2] []) ∧
      (sgn [1] [1, 3, 1] []).valid = true ∧ (sgn [] [1, 2] []).valid = true ∧
      (uns [1] []).kind ≠ .signed ∧ (⟨[], [1], [], 2, .signed⟩ : Numeral).radix ≠ (sgn [] [1, 2] []).radix ∧
      (sgn [2] [1] []).valid = false ∧ (sgn [] [1] [5]).valid = true ∧
      exceeds (two (sgn [1] [1, 3, 1] []) (sgn [] [1, 2] [])).caps.wcap (3 + 1) = false) ∧
    (sgn [1] [1, 3, 1] []).val = (-131 : Int) ∧ (sgn [] [1, 2] []).val = (12 : Int) ∧
    (sgn [] [0] []).val = 0 ∧ ¬∃ k : Int, (sgn [] [1] [5]).val = k := by
  have h1 : (sgn [1] [1, 3, 1] []).digitsInt = 131 ∧ (sgn [1] [1, 3, 1] []).sm = .minus := by decide
  have h2 : (sgn [] [1, 2] []).digitsInt = 12 ∧ (sgn [] [1, 2] []).sm = .plus := by decide
  have h3 : (sgn [] [0] []).digitsInt = 0 := by decide
  have h4 : (sgn [] [1] [5]).digitsInt = 15 ∧ (sgn [] [1] [5]).sm = .plus := by decide
  refine ⟨by decide, ?_, ?_, ?_, ?_⟩
  · rw [sgn_val, h1.1, h1.2]; norm_num [Cond.toInt]
  · rw [sgn_val, h2.1, h2.2]; norm_num [Cond.toInt]
  · rw [sgn_val, h3]; norm_num
  · rintro ⟨k, hk⟩
    rw [sgn_val, h4.1, h4.2] at hk
    have : (15 : ℚ) = ((10 * k : Int) : ℚ) := by push_cast; rw [← hk]; norm_num [Cond.toInt]
    have : 15 = 10 * k := by exact_mod_cast this
    omega

theorem witness_EncOverflowsToInfinity :
    let n := sgn [1] [1, 0, 0, 0, 0, 0, 0, 0] []
    (encoded n "abc").readN 0 = some n ∧ (encoded n "abc").readT 1 = some (text "abc") ∧
    n.kind = .signed ∧ n.radix = 10 ∧ n.valid = true ∧
    exceeds (encoded n "abc").caps.wcap (4 * max n.whole.length 1) = false ∧
    (Format.d32bid.radix : ℚ) ^ Format.d32bid.digits ≤ |n.val| := by
  have h : (sgn [1] [1, 0, 0, 0, 0, 0, 0, 0] []).digitsInt = 10000000 ∧
    (sgn [1] [1, 0, 0, 0, 0, 0, 0, 0] []).sm = .minus := by decide
  refine ⟨by decide, by decide, by decide, by decide, by decide, by decide, ?_⟩
  rw [sgn_val, h.1, h.2]
  norm_num [Cond.toInt, Format.radix, Format.digits]

theorem digitChar_ne {d : Cell} (h : d.val < 10) : 0x30 ≤ (digitChar d).toNat ∧ (digitChar d).toNat ≤ 0x39 := by
  revert h; revert d; decide

theorem witness_EncChecksOperandsAndExponentText :
    let n := sgn [] [9, 9] []
    (encoded n "a").readN 0 = some n ∧ (encoded n "a").readT 1 = some (text "a") ∧
    n.kind = .signed ∧ n.radix = 10 ∧ n.valid = true ∧ (encoded n "a").caps.wf = true ∧
    (uns [1] []).kind ≠ .signed ∧ (sgn [] [10] []).valid = false ∧
    |n.val| < (Format.d32bid.radix : ℚ) ^ Format.d32bid.digits ∧ ¬ isExponentText (text "a") := by
  have h : (sgn [] [9, 9] []).digitsInt = 99 ∧ (sgn [] [9, 9] []).sm = .plus := by decide
  refine ⟨by decide, by decide, by decide, by decide, by decide, by decide, by decide, by decide, ?_, ?_⟩
  · rw [sgn_val, h.1, h.2]; norm_num [Cond.toInt, Format.radix, Format.digits]
  · rintro ⟨sign, ds, hne, hlt, ht⟩
    have hl := congrArg List.length ht
    cases ds with
    | nil => exact hne rfl
    | cons d ds =>
      cases ds with
      | nil =>
        cases sign with
        | none =>
          have hd := digitChar_ne (hlt d (by simp))
          have : text "a" = [digitChar d] := by simpa [exponentText, exponentSign] using ht
          have hc : (0x61#8 : Byte) = digitChar d := by
            have := congrArg List.head? this
            simpa [text] using this
          rw [← hc] at hd
          exact absurd hd.2 (by decide)
        | some m => simp [exponentText, exponentSign, text] at hl
      | cons e es => cases sign <;> simp [exponentText, exponentSign, text] at hl

/-- The significand 1, cut to eight digits of radix 2 or 16, is 1, and the significand 0 is 0. -/
theorem cut_one : (sgn [] [1] []).val = 1 ∧ (⌊|(sgn [] [1] []).val| * 2 ^ 8⌋ : ℚ) / 2 ^ 8 = 1 ∧
    (⌊|(sgn [] [1] []).val| * 16 ^ 8⌋ : ℚ) / 16 ^ 8 = 1 ∧ (sgn [1] [0] [0]).val = 0 := by
  have h : (sgn [] [1] []).digitsInt = 1 ∧ (sgn [] [1] []).sm = .plus := by decide
  have h0 : (sgn [1] [0] [0]).digitsInt = 0 := by decide
  have hv : (sgn [] [1] []).val = 1 := by rw [sgn_val, h.1, h.2]; norm_num [Cond.toInt]
  rw [hv, sgn_val, h0]
  norm_num

theorem witness_EncBinaryTruncates :
    let n := sgn [] [1] []
    let v (sign : Option Bool) (ds : List Cell) : ℚ :=
      (⌊|n.val| * 2 ^ 8⌋ : ℚ) / 2 ^ 8 * (2 : ℚ) ^ exponentValue sign ds
    ((encoded n "-126").readN 0 = some n ∧
      (encoded n "-126").readT 1 = some (exponentText (some true) [1, 2, 6]) ∧
      (encoded n "128").readT 1 = some (exponentText none [1, 2, 8]) ∧
      (∀ d ∈ ([1, 2, 6] : List Cell), d.val < 10) ∧ (∀ d ∈ ([1, 2, 8] : List Cell), d.val < 10) ∧
      n.kind = .signed ∧ n.radix = 10 ∧ n.valid = true ∧ (encoded n "-126").caps.wf = true ∧
      Format.b32.emin = -126 ∧ Format.b32.emax = 127) ∧
    |n.val| < (2 : ℚ) ^ Format.b32.digits ∧
    ((2 : ℚ) ^ (-126 : Int) ≤ v (some true) [1, 2, 6] ∧ v (some true) [1, 2, 6] < (2 : ℚ) ^ (-126 + 1 : Int)) ∧
    ((2 : ℚ) ^ (-127 : Int) ≤ v (some true) [1, 2, 7] ∧ v (some true) [1, 2, 7] < (2 : ℚ) ^ (-127 + 1 : Int)) ∧
    ((2 : ℚ) ^ (127 : Int) ≤ v none [1, 2, 7] ∧ v none [1, 2, 7] < (2 : ℚ) ^ (127 + 1 : Int)) ∧
    ((2 : ℚ) ^ (128 : Int) ≤ v none [1, 2, 8] ∧ v none [1, 2, 8] < (2 : ℚ) ^ (128 + 1 : Int)) ∧
    (⌊|(sgn [1] [0] [0]).val| * 2 ^ 8⌋ : ℚ) / 2 ^ 8 * (2 : ℚ) ^ exponentValue (some true) [1, 2, 6] = 0 := by
  have e1 : exponentValue (some true) [1, 2, 6] = -126 := by decide
  have e2 : exponentValue (some true) [1, 2, 7] = -127 := by decide
  have e3 : exponentValue none [1, 2, 7] = 127 := by decide
  have e4 : exponentValue none [1, 2, 8] = 128 := by decide
  refine ⟨by decide, ?_⟩
  simp only [cut_one.2.1, cut_one.2.2.2, e1, e2, e3, e4]
  norm_num [cut_one.1, Format.digits]

theorem witness_EncHexTruncates :
    let n := sgn [] [1] []
    let v (sign : Option Bool) (ds : List Cell) : ℚ :=
      (⌊|n.val| * 16 ^ 8⌋ : ℚ) / 16 ^ 8 * (16 : ℚ) ^ exponentValue sign ds
    ((encoded n "61").readN 0 = some n ∧ (encoded n "61").readT 1 = some (exponentText none [6, 1]) ∧
      (encoded n "-66").readT 1 = some (exponentText (some true) [6, 6]) ∧
      (∀ d ∈ ([6, 1, 2, 5] : List Cell), d.val < 10) ∧ n.kind = .signed ∧ n.radix = 10 ∧ n.valid = true ∧
      (encoded n "61").caps.wf = true) ∧
    |n.val| < (16 : ℚ) ^ 6 ∧
    ((16 : ℚ) ^ (62 - 1 : Int) ≤ v none [6, 1] ∧ v none [6, 1] < (16 : ℚ) ^ (62 : Int)) ∧
    ((16 : ℚ) ^ (63 - 1 : Int) ≤ v none [6, 2] ∧ v none [6, 2] < (16 : ℚ) ^ (63 : Int)) ∧
    ((16 : ℚ) ^ (-64 - 1 : Int) ≤ v (some true) [6, 5] ∧ v (some true) [6, 5] < (16 : ℚ) ^ (-64 : Int)) ∧
    ((16 : ℚ) ^ (-65 - 1 : Int) ≤ v (some true) [6, 6] ∧ v (some true) [6, 6] < (16 : ℚ) ^ (-65 : Int)) ∧
    (⌊|(sgn [1] [0] [0]).val| * 16 ^ 8⌋ : ℚ) / 16 ^ 8 * (16 : ℚ) ^ exponentValue none [6, 2] = 0 := by
  have e1 : exponentValue none [6, 1] = 61 := by decide
  have e2 : exponentValue none [6, 2] = 62 := by decide
  have e3 : exponentValue (some true) [6, 5] = -65 := by decide
  have e4 : exponentValue (some true) [6, 6] = -66 := by decide
  refine ⟨by decide, ?_⟩
  simp only [cut_one.2.2.1, cut_one.2.2.2, e1, e2, e3, e4]
  norm_num [cut_one.1]

/-- The examples of 44_ieee_encode.md rule R203, by the two tables as Safety.lean writes them out. -/
theorem test_declets :
    digitsToDeclet 0 5 5 = 0b0001010101 ∧ digitsToDeclet 0 7 9 = 0b0001111001 ∧
    digitsToDeclet 0 8 0 = 0b0000001010 ∧ digitsToDeclet 0 9 9 = 0b0001011111 ∧
    digitsToDeclet 4 5 6 = 0b1001010110 ∧ digitsToDeclet 8 0 0 = 0b0000001100 ∧
    digitsToDeclet 8 9 0 = 0b0000011110 ∧ digitsToDeclet 9 0 8 = 0b0010101110 ∧
    digitsToDeclet 9 9 9 = 0b0011111111 ∧ decletToDigits 0b1001010110 = [4, 5, 6] ∧
    decletToDigits 0b1111001111 = [7, 8, 9] ∧ decletToDigits 0b0010101110 = [9, 0, 8] ∧
    decletToDigits 0b1111111111 = [9, 9, 9] := by decide

/-- The same examples by the transcoder of the encoder and the decoder. -/
theorem test_transcoder :
    decimalToDPD (digitCodes [4, 5, 6, 9, 0, 8]) = bits 0b1001010110 10 ++ bits 0b0010101110 10 ∧
    dpdToDecimal (bits 0b1111001111 10 ++ bits 0b1111111111 10) = digitCodes [7, 8, 9, 9, 9, 9] := by decide

theorem witness_EncDecimalRoundsToSevenDigits :
    let n := sgn [0] [9, 9, 9, 9, 9, 9, 9] [5]
    (encoded n "0").readN 0 = some n ∧ (encoded n "0").readT 1 = some (exponentText none [0]) ∧
    n.kind = .signed ∧ n.radix = 10 ∧ n.std = .ok n ∧ |n.val| < (10 : ℚ) ^ 7 ∧
    roundsToSeven n.digitsInt (exponentValue none [0] - n.fraction.length) 1000000 1 ∧
    roundsToSeven 9999999 90 9999999 90 ∧ roundsToSeven 1 91 1 91 ∧
    roundsToSeven 8388608 (-101) 8388608 (-101) ∧ roundsToSeven 1 (-102) 1 (-102) := by
  have h : (sgn [0] [9, 9, 9, 9, 9, 9, 9] [5]).digitsInt = 99999995 ∧
    (sgn [0] [9, 9, 9, 9, 9, 9, 9] [5]).sm = .plus := by decide
  have he : exponentValue none [0] - ((sgn [0] [9, 9, 9, 9, 9, 9, 9] [5]).fraction.length : Int) = -1 := by decide
  refine ⟨by decide, by decide, by decide, by decide, by decide, ?_, ?_, .inl ?_, .inl ?_, .inl ?_, .inl ?_⟩
  · rw [sgn_val, h.1, h.2]; norm_num [Cond.toInt]
  · rw [he, h.1]
    exact .inr ⟨0, 9999999, 5, 1, by norm_num, by norm_num, by norm_num, by norm_num, by norm_num, by norm_num⟩
  · norm_num
  · norm_num
  · norm_num
  · norm_num

theorem witness_FparseReadsTheBits :
    let bs := List.replicate 31 false ++ [true]
    let s := State.reset.setT 0 (some (bs.map bitChar))
    s.readT 0 = some (bs.map bitChar) ∧ (bs.map bitChar).filter (fun c => c ≠ 0x20#8) = bs.map bitChar ∧
    bs.length = Format.b32.width ∧ s.readT 1 = none ∧ (text "1").length ≠ Format.b32.width ∧
    ∃ c ∈ text "2", c ≠ 0x30#8 ∧ c ≠ 0x31#8 := by decide

/-- A state with `x` in `F0`. -/
def ieee (x : Ieee) : State := State.reset.setF 0 (some x)

theorem witness_DecClassifiesBinaryAndHexSpecials :
    (ieee ⟨.b32, 0#64⟩).readF 0 = some ⟨.b32, 0#64⟩ ∧ (⟨.b32, 0#64⟩ : Ieee).expInt = 0 ∧
    (⟨.b32, 0#64⟩ : Ieee).sigInt = 0 ∧ (⟨.b32, 0x7F800000#64⟩ : Ieee).expInt + 1 = 2 ^ Format.b32.expWidth ∧
    (⟨.b32, 0x7F800000#64⟩ : Ieee).sigInt = 0 ∧
    (⟨.b32, 0x7FBFFFFF#64⟩ : Ieee).expInt + 1 = 2 ^ Format.b32.expWidth ∧
    0 < (⟨.b32, 0x7FBFFFFF#64⟩ : Ieee).sigInt ∧
    (⟨.b32, 0x7FBFFFFF#64⟩ : Ieee).sigInt < 2 ^ (Format.b32.sigWidth - 1) ∧
    (⟨.b32, 0x7FC00000#64⟩ : Ieee).expInt + 1 = 2 ^ Format.b32.expWidth ∧
    2 ^ (Format.b32.sigWidth - 1) ≤ (⟨.b32, 0x7FC00000#64⟩ : Ieee).sigInt := by decide

theorem witness_DecClassifiesDecimalSpecials :
    (ieee ⟨.d32bid, 0#64⟩).readF 0 = some ⟨.d32bid, 0#64⟩ ∧ (⟨.d32bid, 0#64⟩ : Ieee).expInt = 0 ∧
    (⟨.d32bid, 0#64⟩ : Ieee).sigInt = 0 ∧
    (⟨.d32bid, 0x78000000#64⟩ : Ieee).expInt / 2 ^ 6 = 0b11110 ∧
    (⟨.d32bid, 0x7BFFFFFF#64⟩ : Ieee).expInt / 2 ^ 6 = 0b11110 ∧
    (⟨.d32bid, 0x7C000000#64⟩ : Ieee).expInt / 2 ^ 4 = 0b1111100 ∧
    (⟨.d32bid, 0x7D000000#64⟩ : Ieee).expInt / 2 ^ 4 = 0b1111101 ∧
    (⟨.d32bid, 0x7E000000#64⟩ : Ieee).expInt / 2 ^ 5 = 0b111111 := by decide

set_option maxRecDepth 4000 in
theorem witness_DecBinaryDeliversTheValue :
    let a : Ieee := ⟨.b32, 0x44000000#64⟩
    let b : Ieee := ⟨.b32, 0x44800000#64⟩
    let c : Ieee := ⟨.b32, 0x80000001#64⟩
    let d : Ieee := ⟨.b64, 0x3FE0000000000000#64⟩
    ((ieee a).caps.wf = true ∧ (ieee a).readF 0 = some a ∧ (ieee d).readF 0 = some d ∧
      ∀ x ∈ [a, b, c, d], x.expInt + 1 ≠ 2 ^ x.format.expWidth) ∧
    ((2 : ℚ) ^ (9 : Int) ≤ a.binaryMagnitude ∧ a.binaryMagnitude < (2 : ℚ) ^ (9 + 1 : Int)) ∧
    ((2 : ℚ) ^ (10 : Int) ≤ b.binaryMagnitude ∧ b.binaryMagnitude < (2 : ℚ) ^ (10 + 1 : Int)) ∧
    ((2 : ℚ) ^ (-149 : Int) ≤ c.binaryMagnitude ∧ c.binaryMagnitude < (2 : ℚ) ^ (-149 + 1 : Int)) ∧
    ((2 : ℚ) ^ (-1 : Int) ≤ d.binaryMagnitude ∧ d.binaryMagnitude < (2 : ℚ) ^ (-1 + 1 : Int)) := by
  have ha : (⟨.b32, 0x44000000#64⟩ : Ieee).expInt = 136 ∧ (⟨.b32, 0x44000000#64⟩ : Ieee).sigInt = 0 := by decide
  have hb : (⟨.b32, 0x44800000#64⟩ : Ieee).expInt = 137 ∧ (⟨.b32, 0x44800000#64⟩ : Ieee).sigInt = 0 := by decide
  have hc : (⟨.b32, 0x80000001#64⟩ : Ieee).expInt = 0 ∧ (⟨.b32, 0x80000001#64⟩ : Ieee).sigInt = 1 := by decide
  have hd : (⟨.b64, 0x3FE0000000000000#64⟩ : Ieee).expInt = 1022 ∧
    (⟨.b64, 0x3FE0000000000000#64⟩ : Ieee).sigInt = 0 := by decide
  refine ⟨by decide, ?_⟩
  simp only [Ieee.binaryMagnitude, ha.1, ha.2, hb.1, hb.2, hc.1, hc.2, hd.1, hd.2]
  norm_num [Format.sigWidth, Format.bias]

theorem witness_DecHexDeliversTheValue :
    let x : Ieee := ⟨.h32, 0x49132000#64⟩
    (ieee x).caps.wf = true ∧ (ieee x).readF 0 = some x ∧ x.expInt = 73 ∧
    (⟨.h32, 0x4A100000#64⟩ : Ieee).expInt = 74 ∧ (⟨.h32, 0x40100000#64⟩ : Ieee).expInt = 64 ∧
    (⟨.h32, 0x3F100000#64⟩ : Ieee).expInt = 63 ∧
    (⟨.h32, 0x00000001#64⟩ : Ieee).expInt = 0 ∧ (⟨.h32, 0x00000001#64⟩ : Ieee).sigInt = 1 := by decide

theorem witness_DecDecimalIsExact :
    let x : Ieee := ⟨.d32bid, 0x77F8967F#64⟩
    (ieee x).readF 0 = some x ∧ x.expInt < 1920 ∧ ¬(x.expInt = 0 ∧ x.sigInt = 0) ∧ 1536 ≤ x.expInt ∧
    (⟨.d32bid, 0x32800001#64⟩ : Ieee).expInt < 1536 ∧ (⟨.d32dpd, 0x22500001#64⟩ : Ieee).expInt < 1536 ∧
    1536 ≤ (⟨.d32dpd, 0x6A500000#64⟩ : Ieee).expInt ∧ (⟨.d32dpd, 0x6A500000#64⟩ : Ieee).expInt < 1920 := by
  decide

theorem witness_AnotherIeeeFormatFails :
    (ieee ⟨.h32, 1#64⟩).readF 0 = some ⟨.h32, 1#64⟩ ∧ Format.h32 ≠ .b32 := by decide

theorem witness_SumsAndProductsAreTruncated :
    (floats 0x3F800000#64 0x00000001#64).readF 0 = some ⟨.b32, 0x3F800000#64⟩ ∧
    (floats 0x3F800000#64 0x00000001#64).readF 1 = some ⟨.b32, 0x00000001#64⟩ ∧
    classOf ((0x3F800000#64).extractLsb' 0 32) = .fin ∧ classOf ((0x00000001#64).extractLsb' 0 32) = .fin := by
  decide

theorem witness_FdivRoundsHalfUp :
    (floats 0x7F7FFFFF#64 0x00800000#64).readF 0 = some ⟨.b32, 0x7F7FFFFF#64⟩ ∧
    (floats 0x7F7FFFFF#64 0x00800000#64).readF 1 = some ⟨.b32, 0x00800000#64⟩ ∧
    classOf ((0x7F7FFFFF#64).extractLsb' 0 32) = .fin ∧ classOf ((0x00800000#64).extractLsb' 0 32) = .fin := by
  decide

theorem witness_FloatSpecialValueTable :
    (floats 0x7F800000#64 0x80000000#64).readF 0 = some ⟨.b32, 0x7F800000#64⟩ ∧
    (floats 0x7F800000#64 0x80000000#64).readF 1 = some ⟨.b32, 0x80000000#64⟩ ∧
    classOf ((0x7F800000#64).extractLsb' 0 32) = .inf ∧ classOf ((0x80000000#64).extractLsb' 0 32) = .zero ∧
    classOf ((0xFF800001#64).extractLsb' 0 32) = .nan ∧ classOf ((0x00000001#64).extractLsb' 0 32) = .fin := by
  decide

theorem witness_FloatNanIsCanonical :
    (floats 0x7F800000#64 0x7F800000#64).readF 0 = some ⟨.b32, 0x7F800000#64⟩ ∧
    (floats 0x7F800000#64 0x7F800000#64).readF 1 = some ⟨.b32, 0x7F800000#64⟩ ∧
    expOf ((0x7F800000#64).extractLsb' 0 32) = 255 ∧ expOf ((0x7F7FFFFF#64).extractLsb' 0 32) = 254 := by decide

end Sys2Proof.Tests
end

section
/-! PROOFS. What one step can do: the equations of `step` and `issue`, and once for all inputs the
effects of `perform` (10_state.md rule R30; 20_memory.md rule R54). -/

namespace Sys2Proof.Machine

theorem step_of_inputs_nil {s : State} (h : s.inputs = []) : step s = .next s := by
  simp only [step, h]

theorem step_of_inputs_cons {s : State} {op : HostOp} {rest : List HostOp}
    (h : s.inputs = op :: rest) : step s = perform op (s.setInputs rest) := by
  simp only [step, h]

theorem issue_of_ok {w : Word} {i : Instr} (h : decode w = .ok i) (s : State) :
    issue w s = exec i (s.setCmd w) := by
  simp only [issue, h]

theorem issue_of_error {w : Word} {e : DecodeError} (h : decode w = .error e) (s : State) :
    issue w s = .next (illegalCommand (s.setCmd w)) := by
  simp only [issue, h]

/-- What performing the input `op` in the state `s` can bring about. -/
inductive Performed (s : State) : HostOp → State → Prop where
  /-- A text within `TCAP` was written, or a buffer cleared. -/
  | textStored {op : HostOp} (i : Fin 2) (v : Option Text)
      (hv : v.all (fun x => !exceeds s.caps.tcap x.length) = true) : Performed s op (s.setT i v)
  /-- A numeral within the capacities was written, or a register cleared. -/
  | numeralStored {op : HostOp} (i : Fin 8) (v : Option Numeral)
      (hv : v.all (fun x => x.fits s.caps) = true) : Performed s op (s.setN i v)
  /-- A word cut to its format's width was written, or a register cleared. -/
  | ieeeStored {op : HostOp} (i : Fin 4) (v : Option Ieee)
      (hv : ∀ x, v = some x → ∃ f w, x = Ieee.ofWord f w) : Performed s op (s.setF i v)
  /-- A host write was refused (60_exceptions.md rule R302). -/
  | refused {op : HostOp} (c : Failure) (hc : c = .capacityExceeded ∨ c = .illegalCommand) :
      Performed s op (refuseWrite c s)
  /-- A register was read. -/
  | answered {op : HostOp} (a : Answer) : Performed s op (readAnswer a s)
  /-- An illegal word was issued. -/
  | illegal {w : Word} : Performed s (.issue w) (illegalCommand (s.setCmd w))
  /-- A legal word was issued and its command performed. -/
  | command {w : Word} {i : Instr} {t : State} (hi : decode w = .ok i)
      (ht : exec i (s.setCmd w) = .next t) : Performed s (.issue w) t
  /-- The registers were reset. -/
  | reset : Performed s .reset (resetRegisters s)

section Writes

variable (op : HostOp) (s : State)

theorem writeText_performed (i : Fin 2) (x : Text) :
    Performed s op (writeText i x s) := by
  unfold writeText
  split
  · exact .refused _ (.inl rfl)
  · next h => exact .textStored _ _ (by simpa using h)

theorem writeNumeral_performed (i : Fin 8) (n : Numeral) :
    Performed s op (writeNumeral i n s) := by
  unfold writeNumeral
  split
  · next h => exact .numeralStored _ _ h
  · exact .refused _ (.inl rfl)

theorem writeIeee_performed (i : Fin 4) (c : BitVec 3) (w : Word64) :
    Performed s op (writeIeee i c w s) := by
  unfold writeIeee
  split
  · next f _ => exact .ieeeStored _ _ fun x hx => ⟨f, w, (Option.some.inj hx).symm⟩
  · exact .refused _ (.inr rfl)

end Writes

theorem issue_performed {w : Word} {s t : State} (h : issue w s = .next t) :
    Performed s (.issue w) t := by
  cases hd : decode w with
  | ok i => exact .command hd (issue_of_ok hd s ▸ h)
  | error e =>
    rw [issue_of_error hd] at h
    injection h with h
    exact h ▸ .illegal

/-- Every input has one of the effects of `Performed`. -/
theorem perform_performed {op : HostOp} {s t : State} (h : perform op s = .next t) :
    Performed s op t := by
  cases op with
  | issue w => exact issue_performed h
  | writeT i x => injection h with h; exact h ▸ writeText_performed ..
  | writeN i n => injection h with h; exact h ▸ writeNumeral_performed ..
  | writeF i c w => injection h with h; exact h ▸ writeIeee_performed ..
  | clearT i => injection h with h; exact h ▸ .textStored i none rfl
  | clearN i => injection h with h; exact h ▸ .numeralStored i none rfl
  | clearF i => injection h with h; exact h ▸ .ieeeStored i none nofun
  | readN | readF | readT | readCC | readPTag | readPBase | readPExp | readStatus | readESticky
  | readCmd => injection h with h; exact h ▸ .answered ..
  | reset => injection h with h; exact h ▸ .reset

/-- A step leaves the state as it is when no input waits, and else performs the first input. -/
theorem step_cases {s t : State} (h : step s = .next t) : (s.inputs = [] ∧ t = s) ∨
    ∃ op rest, s.inputs = op :: rest ∧ Performed (s.setInputs rest) op t := by
  cases hi : s.inputs with
  | nil =>
    rw [step_of_inputs_nil hi] at h
    injection h with h
    exact .inl ⟨rfl, h.symm⟩
  | cons op rest => exact .inr ⟨op, rest, rfl, perform_performed (step_of_inputs_cons hi ▸ h)⟩

/-! ### Reset -/

@[simp] theorem readN_resetRegisters (s : State) (i : Fin 8) : (resetRegisters s).readN i = none :=
  Vector.getElem_replicate ..

@[simp] theorem readF_resetRegisters (s : State) (i : Fin 4) : (resetRegisters s).readF i = none :=
  Vector.getElem_replicate ..

@[simp] theorem readT_resetRegisters (s : State) (i : Fin 2) : (resetRegisters s).readT i = none :=
  Vector.getElem_replicate ..

theorem registersReset_resetRegisters (s : State) : (resetRegisters s).registersReset :=
  ⟨readN_resetRegisters s, readF_resetRegisters s, readT_resetRegisters s,
    rfl, rfl, rfl, rfl, rfl, rfl, rfl⟩

end Sys2Proof.Machine
end

section
/-! PROOFS. Every step keeps every register within its capacity (10_state.md rule R27; 60_exceptions.md
rule R302): what the digit functions make of a length, then one lemma per command's result, then the
ends of a command, and from these the step. -/

namespace Sys2Proof.Machine

/-! ### Lengths against a capacity -/

theorem Capacities.wf_iff {caps : Capacities} : caps.wf = true ↔
    capAtLeast64 caps.wcap = true ∧ capAtLeast64 caps.fcap = true ∧
      capAtLeast64 caps.scap = true ∧ capAtLeast64 caps.tcap = true := by
  simp [Capacities.wf, and_assoc]

theorem exceeds_of_le_64 {cap : Option Nat} (h : capAtLeast64 cap = true) {len : Nat} (hl : len ≤ 64) :
    exceeds cap len = false :=
  exceeds_mono hl (exceeds_64 h)

theorem exceeds_max {cap : Option Nat} {a b : Nat} (ha : exceeds cap a = false)
    (hb : exceeds cap b = false) : exceeds cap (max a b) = false := by
  rcases max_choice a b with h | h <;> rw [h] <;> assumption

/-- A register's content, if any, fits the capacities: what `State.capacityInv` says of each `N[i]`. -/
abbrev HeldFits (caps : Capacities) (v : Option Numeral) : Prop :=
  v.all (fun n => n.fits caps) = true

section Results

variable {caps : Capacities} {n x : Numeral} {v va vb : Option Numeral}

theorem fits_of_held (hv : HeldFits caps v) (h : v = some n) : n.fits caps = true := by
  subst h; exact hv

/-- A numeral of a checked whole part fits when its other parts are at most as long as those of a
numeral that fits, or as 64. -/
theorem fits_of_lengths (hc : caps.wf = true) (hn : n.fits caps = true)
    (hw : exceeds caps.wcap x.whole.length = false)
    (hf : x.fraction.length ≤ max n.fraction.length 64) (hs : x.sign.length ≤ max n.sign.length 64) :
    x.fits caps = true := by
  obtain ⟨-, hfc, hsc, -⟩ := Capacities.wf_iff.1 hc
  obtain ⟨-, hnf, hns⟩ := fits_iff.1 hn
  exact fits_iff.2 ⟨hw, exceeds_mono hf (exceeds_max hnf (exceeds_64 hfc)),
    exceeds_mono hs (exceeds_max hns (exceeds_64 hsc))⟩

theorem fits_of_short (hc : caps.wf = true) (hw : exceeds caps.wcap x.whole.length = false)
    (hf : x.fraction.length ≤ 64) (hs : x.sign.length ≤ 64) : x.fits caps = true := by
  obtain ⟨-, hfc, hsc, -⟩ := Capacities.wf_iff.1 hc
  exact fits_iff.2 ⟨hw, exceeds_of_le_64 hfc hf, exceeds_of_le_64 hsc hs⟩

/-! ### Lengths of the parts that the commands compute -/

@[simp] theorem splitDigits_fst_length (r k m y : Nat) : (splitDigits r k m y).1.length = k := by
  simp [splitDigits]

@[simp] theorem splitDigits_snd_length (r k m y : Nat) : (splitDigits r k m y).2.length = m := by
  simp [splitDigits]

@[simp] theorem radixComplement_snd_length (r k m y : Nat) : (radixComplement r k m y).2.length = m := by
  unfold radixComplement; split <;> simp

theorem Numeral.stdSign_length_le (n : Numeral) : n.stdSign.length ≤ 1 := by
  unfold Numeral.stdSign
  split
  · simp
  · split <;> simp
  all_goals simp

theorem Numeral.stdWhole_length_le (n : Numeral) : n.stdWhole.length ≤ max n.whole.length 1 := by
  have h := trimLeading_length_le n.wp n.whole
  unfold Numeral.stdWhole
  split
  · simp
  · next heq => rw [heq] at h; exact le_max_of_le_left h

@[simp] theorem toSignMag_fraction_length (n : Numeral) :
    (toSignMag n).fraction.length = n.fraction.length := by
  unfold toSignMag
  split
  · rfl
  · split <;> simp

@[simp] theorem rawFromSignMag_fraction_length (p : SignMag) (r : Cell) (k : Kind) :
    (rawFromSignMag p r k).fraction.length = p.fraction.length := by
  cases k with
  | unsigned | signed | signMagnitude => rfl
  | onesComplement => unfold rawFromSignMag; dsimp only; split <;> simp
  | twosComplement =>
    by_cases h : p.neg = true ∧ ¬ (allZero (if p.whole = [] then [0] else p.whole) = true ∧
        allZero p.fraction = true)
    · simp only [rawFromSignMag, if_pos h, splitDigits_snd_length]
    · simp only [rawFromSignMag, if_neg h]

@[simp] theorem complementOf_fraction_length (a : Numeral) :
    (complementOf a).fraction.length = a.fraction.length := by
  unfold complementOf
  split
  case h_5 => split <;> simp
  all_goals simp

theorem complementOf_sign_length_le (a : Numeral) :
    (complementOf a).sign.length ≤ max a.sign.length 1 := by
  unfold complementOf
  split
  case h_2 => cases h : a.sign <;> simp [flipFirst]
  case h_5 => split <;> simp
  all_goals simp

@[simp] theorem reprNumeral_fraction_length (y : Int) (r : Cell) (k : Kind) (lw m : Nat) (z : Bool) :
    (reprNumeral y r k lw m z).fraction.length = m := by
  unfold reprNumeral
  cases k with
  | unsigned | signed | signMagnitude => simp
  | onesComplement | twosComplement => dsimp only; split <;> simp

theorem reprNumeral_sign_length_le (y : Int) (r : Cell) (k : Kind) (lw m : Nat) (z : Bool) :
    (reprNumeral y r k lw m z).sign.length ≤ 1 := by
  unfold reprNumeral
  cases k with
  | unsigned => simp
  | signed | signMagnitude | onesComplement | twosComplement => dsimp only; split <;> simp

theorem fractionDigits_length_le (r den fuel y : Nat) : (fractionDigits r den fuel y).length ≤ fuel := by
  induction fuel generalizing y with
  | zero => simp [fractionDigits]
  | succ fuel ih =>
    unfold fractionDigits
    split
    · simp
    · simpa using ih _

theorem decimalOf_fraction_length_le (n : Numeral) : (decimalOf n).fraction.length ≤ 8 := by
  simpa [decimalOf, decimalFraction, fractionPrecision] using
    trimTrailing_length_le 0 (toDigits 10 fractionPrecision (fractionAcc n.radix.val 0 n.fraction))

theorem radixOf_fraction_length_le (r : Nat) (n : Numeral) : (radixOf r n).fraction.length ≤ 8 :=
  (trimTrailing_length_le _ _).trans (fractionDigits_length_le ..)

theorem minDigits_length_le {r : Nat} (hr : 2 ≤ r) {y k : Nat} (hk : 1 ≤ k) (h : y < r ^ k) :
    (minDigits r y).length ≤ k := by
  simpa [minDigits] using leastLength_le (m := 0) hr hk h

/-! ### The result of each command fits -/

theorem parseText_fits {k : Kind} {radix : Nat} {text : Option Text}
    (h : parseText caps k radix text = .ok x) : x.fits caps = true := by
  simp only [parseText, except_bind_eq_ok, failIf_eq_ok] at h
  obtain ⟨raw, -, -, -, -, -, st, -, wf, -, -, -, -, hcap, hx⟩ := h
  injection hx with hx
  subst hx
  simp only [not_or, Bool.not_eq_true] at hcap
  exact fits_iff.2 ⟨hcap.2.1, hcap.2.2, hcap.1⟩

theorem stdForm_fits (hc : caps.wf = true) (hn : n.fits caps = true) : n.stdForm.fits caps = true := by
  have hw : exceeds caps.wcap (max n.whole.length 1) = false :=
    exceeds_max (fits_iff.1 hn).1 (exceeds_of_le_64 (Capacities.wf_iff.1 hc).1 (by omega))
  have hf : n.stdForm.fraction.length ≤ n.fraction.length := trimTrailing_length_le _ _
  have hs : n.stdForm.sign.length ≤ 1 := n.stdSign_length_le
  exact fits_of_lengths hc hn (exceeds_mono n.stdWhole_length_le hw) (by omega) (by omega)

theorem std_fits (hc : caps.wf = true) (hn : n.fits caps = true) (h : n.std = .ok x) :
    x.fits caps = true := by
  obtain ⟨-, rfl⟩ := Numeral.std_eq_ok.1 h
  exact stdForm_fits hc hn

theorem padWhole_length (n : Numeral) (len : Nat) : (n.padWhole len).length = max len n.whole.length := by
  simp [Numeral.padWhole]; omega

theorem padFraction_length (n : Numeral) (len : Nat) :
    (n.padFraction len).length = max len n.fraction.length := by
  simp [Numeral.padFraction]; omega

theorem padWholeTo_fits {len : Nat} (hv : HeldFits caps v) (h : padWholeTo caps len v = .ok x) :
    x.fits caps = true := by
  simp only [padWholeTo, except_bind_eq_ok, held_eq_ok, failIf_eq_ok] at h
  obtain ⟨n, hn, -, -, -, hlen, -, hcap, hx⟩ := h
  injection hx with hx
  subst hx
  obtain ⟨-, hf, hs⟩ := fits_iff.1 (fits_of_held hv hn)
  refine fits_iff.2 ⟨?_, hf, hs⟩
  rw [padWhole_length, max_eq_left (by omega)]
  simpa using hcap

theorem padFractionTo_fits {len : Nat} (hv : HeldFits caps v) (h : padFractionTo caps len v = .ok x) :
    x.fits caps = true := by
  simp only [padFractionTo, except_bind_eq_ok, held_eq_ok, failIf_eq_ok, Bool.not_eq_true] at h
  obtain ⟨n, hn, -, -, -, hcap, hx⟩ := h
  injection hx with hx
  subst hx
  obtain ⟨hw, hf, hs⟩ := fits_iff.1 (fits_of_held hv hn)
  refine fits_iff.2 ⟨hw, ?_, hs⟩
  dsimp only
  split
  · exact exceeds_mono (List.length_take_le _ _) hcap
  · rw [padFraction_length, max_eq_left (by omega)]; exact hcap

theorem padTo_fits {w f : Nat} (hn : n.fits caps = true) (hw : exceeds caps.wcap w = false)
    (hf : exceeds caps.fcap f = false) : (n.padTo w f).fits caps = true := by
  obtain ⟨hnw, hnf, hns⟩ := fits_iff.1 hn
  refine fits_iff.2 ⟨?_, ?_, hns⟩
  · exact padWhole_length n w ▸ exceeds_max hw hnw
  · exact padFraction_length n f ▸ exceeds_max hf hnf

theorem equalizeLength_fits {xs : List Numeral} (ha : HeldFits caps va) (hb : HeldFits caps vb)
    (h : equalizeLength va vb = .ok xs) : ∀ y ∈ xs, y.fits caps = true := by
  simp only [equalizeLength, except_bind_eq_ok, held_eq_ok, failIf_eq_ok] at h
  obtain ⟨a, rfl, b, rfl, -, -, -, -, hx⟩ := h
  injection hx with hx
  subst hx
  obtain ⟨haw, haf, -⟩ := fits_iff.1 (fits_of_held ha rfl)
  obtain ⟨hbw, hbf, -⟩ := fits_iff.1 (fits_of_held hb rfl)
  have hw := exceeds_max haw hbw
  have hf := exceeds_max haf hbf
  simp only [List.forall_mem_cons, List.not_mem_nil, false_implies, implies_true, and_true]
  exact ⟨padTo_fits ha hw hf, padTo_fits hb hw hf⟩

theorem convertKind_fits {k : Kind} {xw : Numeral × Bool} (hc : caps.wf = true) (hv : HeldFits caps v)
    (h : convertKind caps k v = .ok xw) : xw.1.fits caps = true := by
  simp only [convertKind, fromSignMag, except_bind_eq_ok, held_eq_ok, Numeral.std_eq_ok,
    capWhole_eq_ok] at h
  obtain ⟨n, hn, s, ⟨-, rfl⟩, yw, ⟨y, ⟨-, rfl⟩, hyw⟩, -, ⟨hcap, -⟩, hxw⟩ := h
  injection hyw with hyw
  injection hxw with hxw
  subst hyw hxw
  refine fits_of_lengths hc (fits_of_held hv hn) hcap ?_ ?_
  · have h1 := trimTrailing_length_le (rawFromSignMag (toSignMag n.stdForm) n.stdForm.radix k).fp
      (rawFromSignMag (toSignMag n.stdForm) n.stdForm.radix k).fraction
    have h2 : n.stdForm.fraction.length ≤ n.fraction.length := trimTrailing_length_le _ _
    rw [rawFromSignMag_fraction_length, toSignMag_fraction_length] at h1
    exact le_max_of_le_left (h1.trans h2)
  · exact le_max_of_le_right ((Numeral.stdSign_length_le _).trans (by omega))

theorem complementNumeral_fits (hc : caps.wf = true) (hv : HeldFits caps v)
    (h : complementNumeral caps v = .ok x) : x.fits caps = true := by
  simp only [complementNumeral, except_bind_eq_ok, held_eq_ok, capWhole_eq_ok] at h
  obtain ⟨a, ha, -, -, -, -, hcap, rfl⟩ := h
  have hs := complementOf_sign_length_le a
  exact fits_of_lengths hc (fits_of_held hv ha) hcap (by simp) (by omega)

theorem absoluteValue_fits (hc : caps.wf = true) (hv : HeldFits caps v)
    (h : absoluteValue caps v = .ok x) : x.fits caps = true := by
  simp only [absoluteValue, except_bind_eq_ok, held_eq_ok] at h
  obtain ⟨a, rfl, -, -, h⟩ := h
  split at h
  · exact complementNumeral_fits hc hv h
  · injection h with h
    exact h ▸ hv

theorem standardizeBy_eq_ok {std : Bool} {y : Numeral} (h : standardizeBy std n = .ok y) :
    y = n.stdForm := by
  simp only [standardizeBy, except_bind_eq_ok, Numeral.std_eq_ok] at h
  obtain ⟨s, ⟨-, rfl⟩, -, -, h⟩ := h
  injection h with h
  exact h.symm

/-- The result of `toDecimal` fits, whatever numeral it is given. -/
theorem toDecimal_fits {std : Bool} (hc : caps.wf = true) (h : toDecimal caps std v = .ok x) :
    x.fits caps = true := by
  simp only [toDecimal, except_bind_eq_ok, capWhole_eq_ok] at h
  obtain ⟨n, -, -, -, s, hs, hcap, rfl⟩ := h
  have h1 : (decimalOf s).sign.length ≤ 1 := by
    rw [standardizeBy_eq_ok hs]; exact n.stdSign_length_le
  exact fits_of_short hc hcap ((decimalOf_fraction_length_le s).trans (by omega)) (by omega)

theorem fromDecimal_fits {std : Bool} {r : Nat} (hc : caps.wf = true)
    (h : fromDecimal caps std r v = .ok x) : x.fits caps = true := by
  simp only [fromDecimal, except_bind_eq_ok, capWhole_eq_ok] at h
  obtain ⟨n, -, -, -, -, -, -, -, s, hs, hcap, rfl⟩ := h
  have h1 : (radixOf r s).sign.length ≤ 1 := by
    rw [standardizeBy_eq_ok hs]; exact n.stdSign_length_le
  exact fits_of_short hc hcap ((radixOf_fraction_length_le r s).trans (by omega)) (by omega)

theorem convertBases_fits {r : Nat} (hc : caps.wf = true) (hv : HeldFits caps v)
    (h : convertBases caps r v = .ok x) : x.fits caps = true := by
  simp only [convertBases, except_bind_eq_ok, held_eq_ok] at h
  obtain ⟨n, rfl, -, -, h⟩ := h
  split at h
  · injection h with h
    exact h ▸ hv
  · obtain ⟨t, -, ht⟩ := except_bind_eq_ok.1 h
    exact fromDecimal_fits hc ht

theorem addNumerals_fits (hc : caps.wf = true) (ha : HeldFits caps va) (hb : HeldFits caps vb)
    (h : addNumerals caps va vb = .ok x) : x.fits caps = true := by
  simp only [addNumerals, except_bind_eq_ok, held_eq_ok, capWhole_eq_ok] at h
  obtain ⟨a, rfl, b, rfl, -, -, -, -, -, -, hcap, rfl⟩ := h
  obtain ⟨-, haf, -⟩ := fits_iff.1 (fits_of_held ha rfl)
  obtain ⟨-, hbf, -⟩ := fits_iff.1 (fits_of_held hb rfl)
  refine fits_iff.2 ⟨hcap, ?_, ?_⟩
  · rw [reprNumeral_fraction_length]; exact exceeds_max haf hbf
  · exact exceeds_of_le_64 (Capacities.wf_iff.1 hc).2.2.1
      ((reprNumeral_sign_length_le ..).trans (by omega))

theorem addToMagnitude_lengths {delta : Int} (h : addToMagnitude n delta = .ok x) :
    x.fraction.length = n.fraction.length ∧ x.sign = n.sign := by
  simp only [addToMagnitude, except_bind_eq_ok] at h
  obtain ⟨-, -, h⟩ := h
  injection h with h
  subst h
  simp

theorem addToLowestPoint_fits {delta : Int} (hc : caps.wf = true) (hv : HeldFits caps v)
    (h : addToLowestPoint caps delta v = .ok x) : x.fits caps = true := by
  simp only [addToLowestPoint, except_bind_eq_ok, held_eq_ok] at h
  obtain ⟨a, ha, -, -, h⟩ := h
  have hx : exceeds caps.wcap x.whole.length = false ∧ x.fraction.length = a.fraction.length ∧
      x.sign.length ≤ max a.sign.length 1 := by
    split at h
    case h_4 | h_5 =>
      obtain ⟨hcap, rfl⟩ := capWhole_eq_ok.1 h
      exact ⟨hcap, by simp, le_max_of_le_right (reprNumeral_sign_length_le ..)⟩
    all_goals
      obtain ⟨y, hy, h⟩ := except_bind_eq_ok.1 h
      obtain ⟨hcap, rfl⟩ := capWhole_eq_ok.1 h
      obtain ⟨hf, hs⟩ := addToMagnitude_lengths hy
      exact ⟨hcap, hf, by simp [hs]⟩
  obtain ⟨hcap, hf, hs⟩ := hx
  exact fits_of_lengths hc (fits_of_held hv ha) hcap (by omega) (by omega)

theorem multiplyUnsigned_fits (hc : caps.wf = true) (h : multiplyUnsigned caps va vb = .ok x) :
    x.fits caps = true := by
  simp only [multiplyUnsigned, except_bind_eq_ok, capWhole_eq_ok] at h
  obtain ⟨ab, -, hcap, rfl⟩ := h
  exact fits_of_short hc hcap (by simp) (by simp)

theorem signedInteger_fits {r : Cell} {y : Int} (hc : caps.wf = true)
    (h : capWhole caps (signedInteger r y) = .ok x) : x.fits caps = true := by
  obtain ⟨hcap, rfl⟩ := capWhole_eq_ok.1 h
  refine fits_of_short hc hcap (by simp [signedInteger]) ?_
  unfold signedInteger
  dsimp only
  split <;> simp

theorem divideSigned_fits {qr : Numeral × Numeral} (hc : caps.wf = true)
    (h : divideSigned caps va vb = .ok qr) : qr.1.fits caps = true ∧ qr.2.fits caps = true := by
  simp only [divideSigned, except_bind_eq_ok] at h
  obtain ⟨ab, -, -, -, q, hq, rem, hrem, h⟩ := h
  injection h with h
  subst h
  exact ⟨signedInteger_fits hc hq, signedInteger_fits hc hrem⟩

theorem heldAll_fits {vs : List (Option Numeral)} {regs : List Numeral}
    (hv : ∀ v ∈ vs, HeldFits caps v) (h : heldAll vs = .ok regs) : ∀ n ∈ regs, n.fits caps = true := by
  induction vs generalizing regs with
  | nil =>
    injection h with h
    simp [← h]
  | cons v vs ih =>
    simp only [heldAll, except_bind_eq_ok, held_eq_ok] at h
    obtain ⟨n, hn, ns, hns, h⟩ := h
    injection h with h
    subst h
    exact List.forall_mem_cons.2 ⟨fits_of_held (hv v (by simp)) hn,
      ih (fun w hw => hv w (by simp [hw])) hns⟩

theorem refill_fits {regs : List Numeral} {ds : List Cell} (h : ∀ n ∈ regs, n.fits caps = true) :
    ∀ y ∈ refill regs ds, y.fits caps = true := by
  induction regs generalizing ds with
  | nil => simp [refill]
  | cons n ns ih =>
    obtain ⟨hn, hns⟩ := List.forall_mem_cons.1 h
    obtain ⟨hw, hf, hs⟩ := fits_iff.1 hn
    exact List.forall_mem_cons.2 ⟨fits_iff.2 ⟨exceeds_mono (List.length_take_le _ _) hw,
      exceeds_mono (List.length_take_le _ _) hf, hs⟩, ih hns⟩

theorem shiftRegisters_fits {k : ShiftKind} {p : Nat} {vs : List (Option Numeral)} {xs : List Numeral}
    (hv : ∀ v ∈ vs, HeldFits caps v) (h : shiftRegisters k p vs = .ok xs) :
    ∀ y ∈ xs, y.fits caps = true := by
  simp only [shiftRegisters, except_bind_eq_ok] at h
  obtain ⟨regs, hregs, -, -, -, -, -, -, h⟩ := h
  injection h with h
  exact h ▸ refill_fits (heldAll_fits hv hregs)

/-- What a decode writes to `N[rd]` fits. -/
def Decoded.Fits (caps : Capacities) (d : Decoded) : Prop :=
  ∀ x base ex, d = .number x base ex → x.fits caps = true

theorem special_fits (tag : DecTag) : (Decoded.special tag).Fits caps := by
  intro x base ex h; cases h

theorem decodedNumber_fits {fmt : Format} {sgn : Bool} {c : Reconstructed} {d : Decoded}
    (hc : caps.wf = true) (h : decodedNumber caps fmt sgn c = .ok d) : d.Fits caps := by
  simp only [decodedNumber, except_bind_eq_ok] at h
  obtain ⟨y, hy, h⟩ := h
  injection h with h
  subst h
  intro x base ex he
  injection he with he
  exact he ▸ toDecimal_fits hc hy

theorem decodeBinary_fits {fmt : Format} {w : Option Ieee} {d : Decoded} (hc : caps.wf = true)
    (h : decodeBinary caps fmt w = .ok d) : d.Fits caps := by
  simp only [decodeBinary, except_bind_eq_ok] at h
  obtain ⟨y, -, h⟩ := h
  split at h
  · injection h with h
    exact h ▸ special_fits _
  · exact decodedNumber_fits hc h

theorem decodeHex_fits {w : Option Ieee} {d : Decoded} (hc : caps.wf = true)
    (h : decodeHex caps w = .ok d) : d.Fits caps := by
  simp only [decodeHex, except_bind_eq_ok] at h
  obtain ⟨y, -, h⟩ := h
  split at h
  · injection h with h
    exact h ▸ special_fits _
  · exact decodedNumber_fits hc h

/-- A decimal coefficient needs no capacity check: with at most 64 digits it fits every capacity. -/
theorem decodedDecimal_fits {sgn : Bool} {c : Nat} {q : Int} (hc : caps.wf = true)
    (h : c < 10 ^ 64) : (decodedDecimal sgn c q).Fits caps := by
  intro x base ex he
  injection he with he
  subst he
  refine fits_of_short hc ?_ (by simp) ?_
  · exact exceeds_of_le_64 (Capacities.wf_iff.1 hc).1 (minDigits_length_le (by omega) (by omega) h)
  · cases sgn <;> simp [decodedSign]

theorem reconstructDpd_lt (e m : Bits) : (reconstructDpd e m).1 < 10 ^ 64 := by
  have h : ∀ a b c d e f g : Cell, ofDigits 10 [a, b, c, d, e, f, g] < 10 ^ 64 := by
    intro a b c d e f g
    simp only [ofDigits, List.foldl_cons, List.foldl_nil]
    omega
  exact h ..

theorem slice_length_le (s : Bits) (i j : Nat) : (slice s i j).length ≤ j + 1 - i :=
  List.length_take_le _ _

theorem reconstructBid_lt (x : Ieee) : (reconstructBid x.exponent x.significand).1 < 10 ^ 64 := by
  have hint : ∀ s : Bits, s.length ≤ 64 → int s < 10 ^ 64 := fun s hs =>
    calc int s < 2 ^ s.length := int_lt s
      _ ≤ 2 ^ 64 := Nat.pow_le_pow_right (by omega) hs
      _ ≤ 10 ^ 64 := Nat.pow_le_pow_left (by omega) 64
  have hm : x.significand.length ≤ 52 := by
    rw [Ieee.significand, bits_length]
    cases x.format <;> decide
  have h8 := slice_length_le x.exponent 8 10
  have h10 := slice_length_le x.exponent 10 10
  unfold reconstructBid
  split
  · exact hint _ (by rw [List.length_append]; omega)
  · exact hint _ (by simp only [List.length_append, List.length_cons, List.length_nil]; omega)

theorem decodeDecimal_fits {fmt : Format} {reconstruct : Bits → Bits → Nat × Int} {w : Option Ieee}
    {d : Decoded} (hc : caps.wf = true)
    (hr : ∀ x : Ieee, (reconstruct x.exponent x.significand).1 < 10 ^ 64)
    (h : decodeDecimal fmt reconstruct w = .ok d) : d.Fits caps := by
  simp only [decodeDecimal, except_bind_eq_ok] at h
  obtain ⟨y, -, special, -, h⟩ := h
  split at h
  · injection h with h
    exact h ▸ special_fits _
  · injection h with h
    exact h ▸ decodedDecimal_fits hc (hr y)

end Results

end Sys2Proof.Machine
end

section
/-! PROOFS. The capacity invariant through the ends of a command and through a step. -/

namespace Sys2Proof.Machine

/-! ### The ends of a command keep the capacity invariant -/

section Ends

variable {s t : State}

theorem capacityInv_setN {i : Fin 8} {v : Option Numeral} (hs : s.capacityInv)
    (hv : HeldFits s.caps v) : (s.setN i v).capacityInv := by
  obtain ⟨hc, hn, ht⟩ := hs
  refine ⟨hc, fun j => ?_, ht⟩
  rw [State.readN_setN]
  split
  · exact hv
  · exact hn j

theorem capacityInv_setN_some {i : Fin 8} {x : Numeral} (hs : s.capacityInv)
    (hx : x.fits s.caps = true) : (s.setN i (some x)).capacityInv :=
  capacityInv_setN hs hx

theorem capacityInv_setT {i : Fin 2} {v : Option Text} (hs : s.capacityInv)
    (hv : v.all (fun x => !exceeds s.caps.tcap x.length) = true) : (s.setT i v).capacityInv := by
  obtain ⟨hc, hn, ht⟩ := hs
  refine ⟨hc, hn, fun j => ?_⟩
  rw [State.readT_setT]
  split
  · exact hv
  · exact ht j

theorem capacityInv_setNs {is : List (Fin 8)} {xs : List Numeral} (hs : s.capacityInv)
    (hx : ∀ x ∈ xs, x.fits s.caps = true) : (s.setNs is xs).capacityInv := by
  induction is generalizing s xs with
  | nil => exact hs
  | cons i is ih =>
    cases xs with
    | nil => exact hs
    | cons x xs =>
      obtain ⟨hx, hxs⟩ := List.forall_mem_cons.1 hx
      exact ih (capacityInv_setN_some hs hx) hxs

theorem capacityInv_clearDest (d : Dest) (hs : s.capacityInv) : (clearDest d s).capacityInv := by
  cases d with
  | num | decoded => exact capacityInv_setN hs rfl
  | numPair => exact capacityInv_setN (capacityInv_setN hs rfl) rfl
  | ieee | cond | inPlace => exact hs

/-- A command keeps the capacity invariant when the writing of its result does. -/
theorem capacityInv_of_finishWith {α : Type} {d : Dest} {warn : α → Bool} {put : α → State → State}
    {r : Except Failure α} (hs : s.capacityInv) (hput : ∀ a, r = .ok a → (put a s).capacityInv)
    (h : finishWith d warn put r s = .next t) : t.capacityInv := by
  rcases finishWith_cases h with ⟨a, ha, rfl⟩ | ⟨c, -, rfl⟩
  · exact hput a ha
  · exact capacityInv_clearDest d hs

theorem capacityInv_of_finishN {rd : Fin 8} {r : Except Failure Numeral} (hs : s.capacityInv)
    (hr : ∀ {x}, r = .ok x → x.fits s.caps = true) (h : finishN rd r s = .next t) : t.capacityInv :=
  capacityInv_of_finishWith hs (fun _ hx => capacityInv_setN_some hs (hr hx)) h

theorem capacityInv_of_finishNWarn {rd : Fin 8} {r : Except Failure (Numeral × Bool)}
    (hs : s.capacityInv) (hr : ∀ {x}, r = .ok x → x.1.fits s.caps = true)
    (h : finishNWarn rd r s = .next t) : t.capacityInv :=
  capacityInv_of_finishWith hs (fun _ hx => capacityInv_setN_some hs (hr hx)) h

theorem capacityInv_of_finishNPair {rd : Fin 8} {r : Except Failure (Numeral × Numeral)}
    (hs : s.capacityInv) (hr : ∀ {x}, r = .ok x → x.1.fits s.caps = true ∧ x.2.fits s.caps = true)
    (h : finishNPair rd r s = .next t) : t.capacityInv :=
  capacityInv_of_finishWith hs
    (fun _ hx => capacityInv_setN_some (capacityInv_setN_some hs (hr hx).1) (hr hx).2) h

theorem capacityInv_of_finishF {rd : Fin 4} {r : Except Failure Ieee} (hs : s.capacityInv)
    (h : finishF rd r s = .next t) : t.capacityInv :=
  capacityInv_of_finishWith hs (fun _ _ => hs) h

theorem capacityInv_of_finishCC {r : Except Failure Cond} (hs : s.capacityInv)
    (h : finishCC r s = .next t) : t.capacityInv :=
  capacityInv_of_finishWith hs (fun _ _ => hs) h

theorem capacityInv_of_finishInPlace {is : List (Fin 8)} {r : Except Failure (List Numeral)}
    (hs : s.capacityInv) (hr : ∀ {xs}, r = .ok xs → ∀ x ∈ xs, x.fits s.caps = true)
    (h : finishInPlace is r s = .next t) : t.capacityInv :=
  capacityInv_of_finishWith hs (fun _ hx => capacityInv_setNs hs (hr hx)) h

theorem capacityInv_of_finishDecoded {rd : Fin 8} {r : Except Failure Decoded} (hs : s.capacityInv)
    (hr : ∀ {x}, r = .ok x → x.Fits s.caps) (h : finishDecoded rd r s = .next t) :
    t.capacityInv := by
  refine capacityInv_of_finishWith hs (fun d hd => ?_) h
  cases d with
  | special tag => exact capacityInv_setN hs rfl
  | number x base ex => exact capacityInv_setN_some hs (hr hd x base ex rfl)

theorem capacityInv_of_shiftCommand {k : ShiftKind} {first last : Fin 8} {p : BitVec 12}
    (hs : s.capacityInv) (h : shiftCommand k first last p s = .next t) : t.capacityInv := by
  unfold shiftCommand at h
  split at h
  · refine capacityInv_of_finishInPlace hs (fun hx => shiftRegisters_fits (fun v hv => ?_) hx) h
    obtain ⟨j, -, rfl⟩ := List.mem_map.1 hv
    exact hs.2.1 j
  · injection h with h
    exact h ▸ hs

end Ends

/-! ### Every command and every step -/

theorem held_std_fits {caps : Capacities} {v : Option Numeral} {x : Numeral} (hc : caps.wf = true)
    (hv : HeldFits caps v) (h : (do let n ← held v; n.std) = .ok x) : x.fits caps = true := by
  obtain ⟨n, hn, hx⟩ := except_bind_eq_ok.1 h
  exact std_fits hc (fits_of_held hv (held_eq_ok.1 hn)) hx

theorem exec_capacityInv {i : Instr} {s t : State} (hs : s.capacityInv) (h : exec i s = .next t) :
    t.capacityInv := by
  have ⟨hc, hn, _⟩ := hs
  cases i with
  | parseUns | parseSgn | parseSmr | parseOc | parseTc =>
    exact capacityInv_of_finishN hs parseText_fits h
  | stdz log rd rs1 => exact capacityInv_of_finishN hs (held_std_fits hc (hn rs1)) h
  | padw log rd rs1 len => exact capacityInv_of_finishN hs (padWholeTo_fits (hn rs1)) h
  | padf log rd rs1 len => exact capacityInv_of_finishN hs (padFractionTo_fits (hn rs1)) h
  | eqlen log a b => exact capacityInv_of_finishInPlace hs (equalizeLength_fits (hn a) (hn b)) h
  | cvtkUns log rd rs1 | cvtkSgn log rd rs1 | cvtkSmr log rd rs1 | cvtkOc log rd rs1
  | cvtkTc log rd rs1 => exact capacityInv_of_finishNWarn hs (convertKind_fits hc (hn rs1)) h
  | compl log rd rs1 => exact capacityInv_of_finishN hs (complementNumeral_fits hc (hn rs1)) h
  | absv log rd rs1 => exact capacityInv_of_finishN hs (absoluteValue_fits hc (hn rs1)) h
  | todec => exact capacityInv_of_finishN hs (toDecimal_fits hc) h
  | fromdec => exact capacityInv_of_finishN hs (fromDecimal_fits hc) h
  | cvtb log rd rs1 => exact capacityInv_of_finishN hs (convertBases_fits hc (hn rs1)) h
  | addn log rd a b => exact capacityInv_of_finishN hs (addNumerals_fits hc (hn a) (hn b)) h
  | shl | shrl | shra => exact capacityInv_of_shiftCommand hs h
  | addlp log rd rs1 => exact capacityInv_of_finishN hs (addToLowestPoint_fits hc (hn rs1)) h
  | mulu => exact capacityInv_of_finishN hs (multiplyUnsigned_fits hc) h
  | divs => exact capacityInv_of_finishNPair hs (divideSigned_fits hc) h
  | decB32 | decB64 => exact capacityInv_of_finishDecoded hs (decodeBinary_fits hc) h
  | decH32 => exact capacityInv_of_finishDecoded hs (decodeHex_fits hc) h
  | decD32dpd =>
    exact capacityInv_of_finishDecoded hs
      (decodeDecimal_fits hc fun _ => reconstructDpd_lt _ _) h
  | decD32bid => exact capacityInv_of_finishDecoded hs (decodeDecimal_fits hc reconstructBid_lt) h
  | signm | cmpm => exact capacityInv_of_finishCC hs h
  | encB32 | encB64 | encD32dpd | encD32bid | encH32 | fparseB32 | fparseB64 | fparseD32dpd
  | fparseD32bid | fparseH32 | fadd | fsub | fmul | fdiv => exact capacityInv_of_finishF hs h

theorem Performed.capacityInv {op : HostOp} {s t : State} (hs : s.capacityInv)
    (h : Performed s op t) : t.capacityInv := by
  cases h with
  | textStored i v hv => exact capacityInv_setT hs hv
  | numeralStored i v hv => exact capacityInv_setN hs hv
  | command hi ht => refine exec_capacityInv ?_ ht; exact hs
  | ieeeStored | refused | answered | illegal => exact hs
  | reset => exact ⟨hs.1, fun i => by simp, fun i => by simp⟩

/-- Settles O18: the only writes of a numeral or a text are results and host writes, and each of them
fits the capacities. -/
theorem everyStepKeepsCapacities : Obligations.EveryStepKeepsCapacities := by
  intro s t hs h
  rcases step_cases h with ⟨-, rfl⟩ | ⟨op, rest, -, hp⟩
  · exact hs
  · exact hp.capacityInv (s := s.setInputs rest) hs

end Sys2Proof.Machine
end

section
/-! PROOFS. Reset and the issue of a command (10_state.md rules R29, R30, R36). -/

namespace Sys2Proof.Machine

/-- Settles O1: `State.reset` is itself a reset state, and the reset input resets every register. -/
theorem resetLeavesNoValue : Obligations.ResetLeavesNoValue := by
  refine ⟨registersReset_resetRegisters State.reset, fun s rest h => ?_⟩
  exact ⟨resetRegisters (s.setInputs rest), step_of_inputs_cons h,
    registersReset_resetRegisters _, rfl, rfl⟩

theorem decode_of_decodeTableWord {w : Nat} {i : Instr} (hw : w < 2 ^ 32)
    (h : decodeTableWord 32 w = some i) : decode (BitVec.ofNat 32 w) = .ok i := by
  rw [decodeTableWord, Nat.mod_eq_of_lt hw] at h
  split at h
  · next hd => rw [hd, Option.some.inj h]
  · cases h

theorem step_withFetchWord {w : Nat} (hw : w < 2 ^ 32) (s : State) :
    step (s.withFetchWord 32 w) = issue (BitVec.ofNat 32 w) s := by
  rw [step_of_inputs_cons rfl, Nat.mod_eq_of_lt hw]
  rfl

/-- Settles O2: the step is the issue of the first waiting word, which runs the decoded command. -/
theorem stepRunsTheIssuedCommand : Obligations.StepRunsTheIssuedCommand := by
  refine ⟨fun s w rest i hin hd => ?_, fun s w i hw hd => ?_, fun s => step_of_inputs_nil⟩
  · rw [step_of_inputs_cons hin]
    exact issue_of_ok hd _
  · rw [step_withFetchWord hw, issue_of_ok (decode_of_decodeTableWord hw hd)]

/-- Settles O20: after reset no register holds a value that an invariant could bind. -/
theorem resetMeetsTheInvariants : Obligations.ResetMeetsTheInvariants := by
  obtain ⟨hn, hf, ht, -⟩ := registersReset_resetRegisters State.reset
  refine ⟨⟨rfl, fun i => ?_, fun i => ?_⟩, fun i => ?_, ?_, rfl⟩
  · exact hn i ▸ rfl
  · exact ht i ▸ rfl
  · exact hf i ▸ rfl
  · decide

end Sys2Proof.Machine
end

section
/-! PROOFS. What every command does to `STATUS`, `ESTICKY` and the registers beside its destination,
read off the two ways it can end (`exec_ended`). -/

namespace Sys2Proof.Machine

/-! ### `STATUS` and `ESTICKY` -/

theorem Wrote.esticky {d : Dest} {s u : State} (h : Wrote d s u) : u.esticky = s.esticky := by
  cases d with
  | num | ieee | cond => obtain ⟨x, rfl⟩ := h; rfl
  | numPair => obtain ⟨x, y, rfl⟩ := h; rfl
  | decoded => obtain ⟨x, rfl⟩ := h; cases x <;> rfl
  | inPlace => obtain ⟨is, xs, rfl⟩ := h; simp

theorem completedStatus_lt (c : BitVec 6) (warn : Bool) : (completedStatus c warn).toNat < 256 := by
  revert c warn; decide

theorem and_or_self (w m : Word) : w &&& (w ||| m) = w := by
  ext k hk
  simp only [BitVec.getElem_and, BitVec.getElem_or]
  cases w[k] <;> simp

theorem and_withSticky (w : Word) (k : Nat) : w &&& withSticky w k = w :=
  and_or_self ..

theorem and_stickyAfter (w : Word) (warn : Bool) : w &&& stickyAfter w warn = w := by
  cases warn with
  | false => exact BitVec.and_self
  | true => exact and_withSticky w 0

theorem Ended.esticky_kept {d : Dest} {s t : State} (h : Ended d s t) :
    s.esticky &&& t.esticky = s.esticky := by
  rcases h with ⟨c, rfl⟩ | ⟨warn, u, hu, rfl⟩
  · rw [raiseFail_esticky, and_withSticky]
  · rw [succeed_esticky, hu.esticky, and_stickyAfter]

/-- No input but a reset clears a bit of `ESTICKY`. -/
theorem Performed.esticky_kept {op : HostOp} {s t : State} (h : Performed s op t)
    (hop : op ≠ .reset) : s.esticky &&& t.esticky = s.esticky := by
  cases h with
  | textStored | numeralStored | ieeeStored | answered => exact BitVec.and_self
  | refused | illegal => exact and_withSticky ..
  | command hi ht => exact (exec_ended ht).esticky_kept
  | reset => exact absurd rfl hop

/-- Settles O12: both ends of a command write a completed status and its one bit, and every other
input leaves `ESTICKY` or sets a bit of it. -/
theorem commandWritesStatusAndOneStickyBit : Obligations.CommandWritesStatusAndOneStickyBit := by
  refine ⟨fun i s t h => ?_, fun s t h hr => ?_⟩
  · rcases exec_ended h with ⟨c, rfl⟩ | ⟨warn, u, hu, rfl⟩
    · have hc := failure_code_ne_zero c
      rw [raiseFail_status, raiseFail_esticky, statusCode_completed, statusWarn_completed,
        statusDone_completed]
      exact ⟨rfl, completedStatus_lt .., fun _ => ⟨rfl, rfl⟩, fun h0 => absurd h0 hc⟩
    · rw [succeed_status, succeed_esticky, statusCode_completed, statusWarn_completed,
        statusDone_completed, hu.esticky]
      exact ⟨rfl, completedStatus_lt .., fun h0 => absurd rfl h0, fun _ => rfl⟩
  · rcases step_cases h with ⟨-, rfl⟩ | ⟨op, rest, hin, hp⟩
    · exact BitVec.and_self
    · exact hp.esticky_kept (s := s.setInputs rest) fun hop => hr rest (hop ▸ hin)

/-! ### Frames -/

section Frames

variable {s t u : State} {d : Dest} {rd : Fin 8}

/-- `CC` alone is written by a command whose destination it is. -/
theorem Ended.cond_frame (h : Ended .cond s t) :
    t.n = s.n ∧ t.f = s.f ∧ t.t = s.t ∧ t.ptag = s.ptag ∧ t.pbase = s.pbase ∧ t.pexp = s.pexp ∧
      t.cmd = s.cmd ∧ t.caps = s.caps ∧ t.inputs = s.inputs ∧ t.answer = s.answer := by
  rcases h with ⟨c, rfl⟩ | ⟨warn, u, ⟨x, rfl⟩, rfl⟩
  · exact ⟨rfl, rfl, rfl, rfl, rfl, rfl, rfl, rfl, rfl, rfl⟩
  · exact ⟨rfl, rfl, rfl, rfl, rfl, rfl, rfl, rfl, rfl, rfl⟩

/-- A decode writes `N[rd]` and the decode-result registers, whatever it delivers. -/
theorem putDecoded_eq (rd : Fin 8) (x : Decoded) (s : State) :
    ∃ v tag base ex, putDecoded rd x s = (s.setN rd v).setP tag base ex := by
  cases x <;> exact ⟨_, _, _, _, rfl⟩

/-- Both ends of a decode write `N[rd]`, the decode-result registers, `STATUS` and `ESTICKY`. -/
theorem Ended.decoded_eq (h : Ended (.decoded rd) s t) : ∃ v tag base ex status esticky,
    t = ((((s.setN rd v).setP tag base ex).setStatus status).setESticky esticky) := by
  rcases h with ⟨c, rfl⟩ | ⟨warn, u, ⟨x, rfl⟩, rfl⟩
  · exact ⟨_, _, _, _, _, _, rfl⟩
  · obtain ⟨v, tag, base, ex, hx⟩ := putDecoded_eq rd x s
    rw [hx]
    exact ⟨_, _, _, _, _, _, rfl⟩

theorem Ended.decoded_frame (h : Ended (.decoded rd) s t) :
    (∀ j, j ≠ rd → t.readN j = s.readN j) ∧ t.f = s.f ∧ t.t = s.t ∧ t.cc = s.cc ∧
      t.cmd = s.cmd ∧ t.caps = s.caps ∧ t.inputs = s.inputs ∧ t.answer = s.answer := by
  obtain ⟨v, tag, base, ex, status, esticky, rfl⟩ := h.decoded_eq
  exact ⟨fun j hj => s.readN_setN_ne rd j v hj, rfl, rfl, rfl, rfl, rfl, rfl, rfl⟩

theorem clearDest_cc (hd : d ≠ .cond) (s : State) : (clearDest d s).cc = s.cc := by
  cases d with
  | cond => exact absurd rfl hd
  | num | numPair | ieee | decoded | inPlace => rfl

theorem Wrote.cc (h : Wrote d s u) (hd : d ≠ .cond) : u.cc = s.cc := by
  cases d with
  | cond => exact absurd rfl hd
  | num | ieee => obtain ⟨x, rfl⟩ := h; rfl
  | numPair => obtain ⟨x, y, rfl⟩ := h; rfl
  | decoded => obtain ⟨x, rfl⟩ := h; cases x <;> rfl
  | inPlace => obtain ⟨is, xs, rfl⟩ := h; simp

theorem Ended.cc (h : Ended d s t) (hd : d ≠ .cond) : t.cc = s.cc := by
  rcases h with ⟨c, rfl⟩ | ⟨warn, u, hu, rfl⟩
  · exact clearDest_cc hd s
  · exact hu.cc hd

end Frames

/-- Settles O16, from the two ways a command with its destination can end. -/
theorem frameOfConditionAndDecodeCommands : Obligations.FrameOfConditionAndDecodeCommands := by
  intro i s t h
  have he := exec_ended h
  refine ⟨fun hd => ?_, fun rd hd => ?_, he.cc⟩
  · exact (hd ▸ he).cond_frame
  · exact (hd ▸ he).decoded_frame

end Sys2Proof.Machine
end

section
/-! PROOFS. A command with a source that holds no value (10_state.md rule R23; 60_exceptions.md rule
R295 (2)). -/

namespace Sys2Proof.Machine

section Results

variable {α β γ : Type}

theorem finishWith_of_error {d : Dest} {warn : α → Bool} {put : α → State → State}
    {r : Except Failure α} {c : Failure} (h : r = .error c) (s : State) :
    finishWith d warn put r s = .next (raiseFail d c s) := by
  rw [h]; rfl

section Fails

variable {c : Failure} {rd : Fin 8} {fd : Fin 4} {is : List (Fin 8)}

theorem finishN_of_error {r} (h : r = .error c) (s : State) :
    finishN rd r s = .next (raiseFail (.num rd) c s) := finishWith_of_error h s

theorem finishNWarn_of_error {r} (h : r = .error c) (s : State) :
    finishNWarn rd r s = .next (raiseFail (.num rd) c s) := finishWith_of_error h s

theorem finishNPair_of_error {r} (h : r = .error c) (s : State) :
    finishNPair rd r s = .next (raiseFail (.numPair rd) c s) := finishWith_of_error h s

theorem finishF_of_error {r} (h : r = .error c) (s : State) :
    finishF fd r s = .next (raiseFail (.ieee fd) c s) := finishWith_of_error h s

theorem finishCC_of_error {r} (h : r = .error c) (s : State) :
    finishCC r s = .next (raiseFail .cond c s) := finishWith_of_error h s

theorem finishDecoded_of_error {r} (h : r = .error c) (s : State) :
    finishDecoded rd r s = .next (raiseFail (.decoded rd) c s) := finishWith_of_error h s

theorem finishInPlace_of_error {r} (h : r = .error c) (s : State) :
    finishInPlace is r s = .next (raiseFail .inPlace c s) := finishWith_of_error h s

end Fails

theorem bind_of_error {x : Except Failure α} {c : Failure} (h : x = .error c)
    (f : α → Except Failure β) : (x >>= f) = .error c := by
  rw [h]; rfl

theorem held_bind_of_none {v : Option α} (h : v.isSome = false) (f : α → Except Failure β) :
    (held v >>= f) = .error .invalidInput := by
  cases v with
  | none => rfl
  | some a => cases h

/-- With two sources it does not matter which of them holds no value: the code is the same. -/
theorem held_bind_held_of_none {v : Option α} {w : Option β} (h : (v.isSome && w.isSome) = false)
    (f : α → β → Except Failure γ) :
    (held v >>= fun a => held w >>= f a) = .error .invalidInput := by
  cases v with
  | none => rfl
  | some a => exact held_bind_of_none h _

theorem heldAll_of_none {is : List (Fin 8)} {read : Fin 8 → Option Numeral}
    (h : is.all (fun j => (read j).isSome) = false) :
    heldAll (is.map read) = .error .invalidInput := by
  induction is with
  | nil => cases h
  | cons i is ih =>
    rw [List.map_cons, heldAll]
    cases hi : read i with
    | none => rfl
    | some n =>
      rw [List.all_cons, hi, Option.isSome_some, Bool.true_and] at h
      exact bind_of_error (ih h) _

end Results

theorem shiftCommand_of_none {k : ShiftKind} {first last : Fin 8} {p : BitVec 12} {s : State}
    (hle : first ≤ last) (h : (registerRun first last).all (fun j => (s.readN j).isSome) = false) :
    shiftCommand k first last p s = .next (raiseFail .inPlace .invalidInput s) := by
  rw [shiftCommand, if_pos hle]
  exact finishInPlace_of_error (bind_of_error (heldAll_of_none h) _) s

/-- Settles O11: every command reads its sources first, so its result is `InvalidInput` before any
other check. -/
theorem noValueSourceFailsInvalidInput : Obligations.NoValueSourceFailsInvalidInput := by
  intro i s hwf h
  cases i with
  | shl | shrl | shra => exact shiftCommand_of_none (of_decide_eq_true hwf) h
  | eqlen => exact finishInPlace_of_error (held_bind_held_of_none h _) s
  | signm => exact finishCC_of_error (held_bind_of_none h _) s
  | cmpm => exact finishCC_of_error (held_bind_held_of_none h _) s
  | addn => exact finishN_of_error (held_bind_held_of_none h _) s
  | mulu => exact finishN_of_error (bind_of_error (held_bind_held_of_none h _) _) s
  | divs => exact finishNPair_of_error (bind_of_error (held_bind_held_of_none h _) _) s
  | cvtkUns | cvtkSgn | cvtkSmr | cvtkOc | cvtkTc =>
    exact finishNWarn_of_error (held_bind_of_none h _) s
  | encB32 | encB64 | encD32dpd | encD32bid | encH32 | fadd | fsub | fmul | fdiv =>
    exact finishF_of_error (bind_of_error (held_bind_held_of_none h _) _) s
  | decB32 | decB64 | decD32dpd | decD32bid | decH32 =>
    exact finishDecoded_of_error (bind_of_error (held_bind_of_none h _) _) s
  | fparseB32 | fparseB64 | fparseD32dpd | fparseD32bid | fparseH32 =>
    exact finishF_of_error (held_bind_of_none h _) s
  | parseUns | parseSgn | parseSmr | parseOc | parseTc | stdz | padw | padf | compl | absv | todec
  | fromdec | cvtb | addlp => exact finishN_of_error (held_bind_of_none h _) s

end Sys2Proof.Machine
end

section
/-! PROOFS. The `LOG` bit (10_state.md rule R33; 30_encoding.md rule R71): the decoder passes it through
to the command, no meaning takes it, and no meaning reads `CMD`. -/

namespace Sys2Proof

open Sys2Proof.Machine

/-! ### The decoder passes the bit through -/

/-- The mask of the `LOG` bit flips that field of a word and no other. -/
theorem Fields.ofWord_xor_log (w : Word) : Fields.ofWord (w ^^^ 0x02000000#32) =
    { Fields.ofWord w with log := !(Fields.ofWord w).log } := by
  have hfield : ∀ start len : Nat, (0x02000000#32).extractLsb' start len = 0 →
      (w ^^^ 0x02000000#32).extractLsb' start len = w.extractLsb' start len := fun start len h => by
    rw [BitVec.extractLsb'_xor, h]; exact BitVec.xor_zero
  simp only [Fields.ofWord, Fields.mk.injEq]
  refine ⟨hfield _ _ rfl, ?_, ?_, hfield _ _ rfl, hfield _ _ rfl, hfield _ _ rfl, hfield _ _ rfl,
    hfield _ _ rfl⟩
  · rw [BitVec.getLsbD_xor]; exact Bool.xor_true _
  · rw [BitVec.getLsbD_xor]; exact Bool.xor_false _

section Map

variable {α : Type} (g : Instr → Instr)

theorem map_bind_except (x : Except DecodeError α) (f : α → Except DecodeError Instr) :
    (x >>= f).map g = x >>= fun a => (f a).map g := by
  cases x <;> rfl

theorem map_ok_except (i : Instr) : (Except.ok i : Except DecodeError Instr).map g = .ok (g i) := rfl

theorem variant_map (sel : BitVec 3) (i0 i1 i2 i3 i4 : Instr) :
    (variant sel i0 i1 i2 i3 i4).map g = variant sel (g i0) (g i1) (g i2) (g i3) (g i4) := by
  unfold variant
  split <;> rfl

end Map

section Forms

variable (f : Fields) (b : Bool)

theorem decodeParse_log : decodeParse { f with log := b } = (decodeParse f).map (setLog b) := by
  simp only [decodeParse, map_bind_except, variant_map]; rfl

theorem decodeCvtk_log : decodeCvtk { f with log := b } = (decodeCvtk f).map (setLog b) := by
  simp only [decodeCvtk, map_bind_except, variant_map]; rfl

theorem decodeEnc_log : decodeEnc { f with log := b } = (decodeEnc f).map (setLog b) := by
  simp only [decodeEnc, map_bind_except, variant_map]; rfl

theorem decodeDec_log : decodeDec { f with log := b } = (decodeDec f).map (setLog b) := by
  simp only [decodeDec, map_bind_except, variant_map]; rfl

theorem decodeFparse_log : decodeFparse { f with log := b } = (decodeFparse f).map (setLog b) := by
  simp only [decodeFparse, map_bind_except, variant_map]; rfl

theorem decodeNN_log {i j : Fin 8 → Fin 8 → Instr}
    (hi : ∀ x y, setLog b (i x y) = j x y) :
    decodeNN { f with log := b } j = (decodeNN f i).map (setLog b) := by
  simp only [decodeNN, map_bind_except, map_ok_except, hi]; rfl

theorem decodeNNi_log {i j : Fin 8 → Fin 8 → BitVec 12 → Instr}
    (hi : ∀ x y z, setLog b (i x y z) = j x y z) :
    decodeNNi { f with log := b } j = (decodeNNi f i).map (setLog b) := by
  simp only [decodeNNi, map_bind_except, map_ok_except, hi]; rfl

theorem decodePair_log {i j : Fin 8 → Fin 8 → Instr}
    (hi : ∀ x y, setLog b (i x y) = j x y) :
    decodePair { f with log := b } j = (decodePair f i).map (setLog b) := by
  simp only [decodePair, map_bind_except, map_ok_except, hi]; rfl

theorem decodeNNN_log {i j : Fin 8 → Fin 8 → Fin 8 → Instr}
    (hi : ∀ x y z, setLog b (i x y z) = j x y z) :
    decodeNNN { f with log := b } j = (decodeNNN f i).map (setLog b) := by
  simp only [decodeNNN, map_bind_except, map_ok_except, hi]; rfl

theorem decodeFFF_log {i j : Fin 4 → Fin 4 → Fin 4 → Instr}
    (hi : ∀ x y z, setLog b (i x y z) = j x y z) :
    decodeFFF { f with log := b } j = (decodeFFF f i).map (setLog b) := by
  simp only [decodeFFF, map_bind_except, map_ok_except, hi]; rfl

theorem decodeSignm_log : decodeSignm { f with log := b } = (decodeSignm f).map (setLog b) := by
  simp only [decodeSignm, map_bind_except]; rfl

theorem decodeTodec_log : decodeTodec { f with log := b } = (decodeTodec f).map (setLog b) := by
  simp only [decodeTodec, map_bind_except]; rfl

theorem decodeFromdec_log :
    decodeFromdec { f with log := b } = (decodeFromdec f).map (setLog b) := by
  simp only [decodeFromdec, map_bind_except]; rfl

theorem decodeShift_log : decodeShift { f with log := b } = (decodeShift f).map (setLog b) := by
  simp only [decodeShift, map_bind_except]
  split
  case h_4 => rfl
  all_goals
    simp only [apply_ite (Except.map (setLog b))]
    rfl

theorem decodeFields_log : decodeFields { f with log := b } = (decodeFields f).map (setLog b) := by
  unfold decodeFields
  dsimp only
  split
  case h_1 => exact decodeParse_log f b
  case h_6 => exact decodeSignm_log f b
  case h_7 => exact decodeCvtk_log f b
  case h_10 => exact decodeTodec_log f b
  case h_11 => exact decodeFromdec_log f b
  case h_15 => exact decodeShift_log f b
  case h_19 => exact decodeEnc_log f b
  case h_20 => exact decodeDec_log f b
  case h_21 => exact decodeFparse_log f b
  case h_26 => rfl
  case h_2 | h_8 | h_9 => exact decodeNN_log f b fun _ _ => rfl
  case h_5 | h_13 => exact decodePair_log f b fun _ _ => rfl
  case h_3 | h_4 | h_12 | h_16 => exact decodeNNi_log f b fun _ _ _ => rfl
  case h_14 | h_17 | h_18 => exact decodeNNN_log f b fun _ _ _ => rfl
  case h_22 | h_23 | h_24 | h_25 => exact decodeFFF_log f b fun _ _ _ => rfl

end Forms

theorem decode_xor_log (w : Word) : decode (w ^^^ 0x02000000#32) =
    (decode w).map (setLog !(Fields.ofWord w).log) := by
  rw [decode, Fields.ofWord_xor_log, decodeFields_log, decode]

end Sys2Proof

namespace Sys2Proof.Machine

/-! ### No meaning takes the bit, and none reads `CMD` -/

theorem exec_setLog (b : Bool) (i : Instr) (s : State) : exec (setLog b i) s = exec i s := by
  cases i <;> rfl

section SetCmd

variable {s t : State} {rd : Fin 8} {fd : Fin 4} {is : List (Fin 8)} (w : Word)

theorem clearDest_setCmd (d : Dest) (s : State) :
    clearDest d (s.setCmd w) = (clearDest d s).setCmd w := by
  cases d <;> rfl

theorem raiseFail_setCmd (d : Dest) (c : Failure) (s : State) :
    raiseFail d c (s.setCmd w) = (raiseFail d c s).setCmd w := by
  cases d <;> rfl

theorem setNs_setCmd (is : List (Fin 8)) (xs : List Numeral) (s : State) :
    (s.setCmd w).setNs is xs = (s.setNs is xs).setCmd w := by
  induction is generalizing s xs with
  | nil => rfl
  | cons i is ih => cases xs with
    | nil => rfl
    | cons x xs => exact ih xs (s.setN i (some x))

theorem putDecoded_setCmd (rd : Fin 8) (x : Decoded) (s : State) :
    putDecoded rd x (s.setCmd w) = (putDecoded rd x s).setCmd w := by
  cases x <;> rfl

/-- A command whose writing of the result passes by `CMD` passes by `CMD`. -/
theorem finishWith_setCmd {α : Type} {d : Dest} {warn : α → Bool} {put : α → State → State}
    {r : Except Failure α} (hput : ∀ a, put a (s.setCmd w) = (put a s).setCmd w)
    (h : finishWith d warn put r s = .next t) :
    finishWith d warn put r (s.setCmd w) = .next (t.setCmd w) := by
  rcases finishWith_cases h with ⟨a, rfl, rfl⟩ | ⟨c, rfl, rfl⟩
  · rw [finishWith, hput]; rfl
  · rw [finishWith, raiseFail_setCmd]

theorem finishN_setCmd {r} (h : finishN rd r s = .next t) :
    finishN rd r (s.setCmd w) = .next (t.setCmd w) := finishWith_setCmd w (fun _ => rfl) h

theorem finishNWarn_setCmd {r} (h : finishNWarn rd r s = .next t) :
    finishNWarn rd r (s.setCmd w) = .next (t.setCmd w) := finishWith_setCmd w (fun _ => rfl) h

theorem finishNPair_setCmd {r} (h : finishNPair rd r s = .next t) :
    finishNPair rd r (s.setCmd w) = .next (t.setCmd w) := finishWith_setCmd w (fun _ => rfl) h

theorem finishF_setCmd {r} (h : finishF fd r s = .next t) :
    finishF fd r (s.setCmd w) = .next (t.setCmd w) := finishWith_setCmd w (fun _ => rfl) h

theorem finishCC_setCmd {r} (h : finishCC r s = .next t) :
    finishCC r (s.setCmd w) = .next (t.setCmd w) := finishWith_setCmd w (fun _ => rfl) h

theorem finishDecoded_setCmd {r} (h : finishDecoded rd r s = .next t) :
    finishDecoded rd r (s.setCmd w) = .next (t.setCmd w) :=
  finishWith_setCmd w (fun x => putDecoded_setCmd w rd x s) h

theorem finishInPlace_setCmd {r} (h : finishInPlace is r s = .next t) :
    finishInPlace is r (s.setCmd w) = .next (t.setCmd w) :=
  finishWith_setCmd w (fun xs => setNs_setCmd w is xs s) h

theorem shiftCommand_setCmd {k : ShiftKind} {first last : Fin 8} {p : BitVec 12}
    (h : shiftCommand k first last p s = .next t) :
    shiftCommand k first last p (s.setCmd w) = .next (t.setCmd w) := by
  by_cases hle : first ≤ last
  · simp only [shiftCommand, if_pos hle] at h ⊢
    exact finishInPlace_setCmd w h
  · simp only [shiftCommand, if_neg hle] at h ⊢
    injection h with h
    exact h ▸ rfl

/-- The effect of a command does not depend on `CMD`, and leaves it. -/
theorem exec_setCmd {i : Instr} (h : exec i s = .next t) :
    exec i (s.setCmd w) = .next (t.setCmd w) := by
  cases i with
  | parseUns | parseSgn | parseSmr | parseOc | parseTc | stdz | padw | padf | compl | absv | todec
  | fromdec | cvtb | addn | addlp | mulu => exact finishN_setCmd w h
  | cvtkUns | cvtkSgn | cvtkSmr | cvtkOc | cvtkTc => exact finishNWarn_setCmd w h
  | divs => exact finishNPair_setCmd w h
  | signm | cmpm => exact finishCC_setCmd w h
  | eqlen => exact finishInPlace_setCmd w h
  | shl | shrl | shra => exact shiftCommand_setCmd w h
  | decB32 | decB64 | decD32dpd | decD32bid | decH32 => exact finishDecoded_setCmd w h
  | encB32 | encB64 | encD32dpd | encD32bid | encH32 | fparseB32 | fparseB64 | fparseD32dpd
  | fparseD32bid | fparseH32 | fadd | fsub | fmul | fdiv => exact finishF_setCmd w h

end SetCmd

/-- Issuing a word with its `LOG` bit flipped changes the `CMD` of the outcome alone. -/
theorem issue_xor_log (w : Word) (s : State) : ∃ t, issue w s = .next t ∧
    issue (w ^^^ 0x02000000#32) s = .next (t.setCmd (w ^^^ 0x02000000#32)) := by
  have hd := decode_xor_log w
  cases hw : decode w with
  | ok i =>
    rw [hw] at hd
    obtain ⟨t, ht, -⟩ := exec_outcome i (s.setCmd w)
    refine ⟨t, by rw [issue_of_ok hw, ht], ?_⟩
    rw [issue_of_ok hd, exec_setLog]
    exact exec_setCmd (s := s.setCmd w) _ ht
  | error e =>
    rw [hw] at hd
    exact ⟨_, issue_of_error hw s, issue_of_error hd s⟩

/-- Settles O6: both words are issued in the same state. -/
theorem logBitChangesOnlyCmd : Obligations.LogBitChangesOnlyCmd := by
  intro s w rest h
  obtain ⟨t, ht, ht'⟩ := issue_xor_log w (s.setInputs rest)
  exact ⟨t, (step_of_inputs_cons h).trans ht, ht'⟩

end Sys2Proof.Machine
end

section
/-! PROOFS. What the result of each command can be (60_exceptions.md rules R292, R295): the rules for a
sequence of checks, and from these the failures of every command's result, as its pseudocode raises
them. -/

namespace Sys2Proof.Machine

/-- Every failure that `r` can be is in `L`. -/
def FailsIn {α : Type} (L : List Failure) (r : Except Failure α) : Prop :=
  ∀ c, r = .error c → c ∈ L

/-- Every value that `r` can deliver satisfies `P`. -/
def Delivers {α : Type} (P : α → Prop) (r : Except Failure α) : Prop :=
  ∀ a, r = .ok a → P a

section Rules

variable {α β : Type} {L K : List Failure} {c : Failure} {P : α → Prop} {Q : β → Prop}
  {x y : Except Failure α} {p : Prop} [Decidable p]

theorem FailsIn.ok (a : α) : FailsIn L (.ok a) := nofun

/-! That a failure is in a list, or a list in a longer one, is a `Bool` here, so that `rfl` proves it. -/

theorem FailsIn.error (hc : L.contains c = true) : FailsIn L (.error c : Except Failure α) := by
  intro e he
  injection he with he
  exact he ▸ List.contains_iff_mem.1 hc

theorem FailsIn.held {v : Option α} (hc : L.contains .invalidInput = true) :
    FailsIn L (held v) := by
  intro e he
  exact (held_eq_error.1 he).2 ▸ List.contains_iff_mem.1 hc

theorem FailsIn.failIf (hc : L.contains c = true) : FailsIn L (failIf p c) := by
  intro e he
  exact (failIf_eq_error.1 he).2 ▸ List.contains_iff_mem.1 hc

theorem FailsIn.bind {f : α → Except Failure β} (hx : FailsIn L x) (hf : ∀ a, FailsIn L (f a)) :
    FailsIn L (x >>= f) := by
  intro e he
  rcases except_bind_eq_error.1 he with he | ⟨a, -, he⟩
  · exact hx e he
  · exact hf a e he

theorem FailsIn.ite (hx : FailsIn L x) (hy : FailsIn L y) : FailsIn L (if p then x else y) := by
  split <;> assumption

theorem FailsIn.mono (hx : FailsIn K x) (hK : K.all L.contains = true) : FailsIn L x :=
  fun c hc => List.contains_iff_mem.1 (List.all_eq_true.1 hK c (hx c hc))

theorem Delivers.ok {a : α} (ha : P a) : Delivers P (.ok a) := by
  intro b hb
  injection hb with hb
  exact hb ▸ ha

/-- A sequence delivers what its last check delivers, given any value that the first one does. -/
theorem Delivers.bind {f : α → Except Failure β} (hf : ∀ a, x = .ok a → Delivers Q (f a)) :
    Delivers Q (x >>= f) := by
  intro b hb
  obtain ⟨a, ha, hb⟩ := except_bind_eq_ok.1 hb
  exact hf a ha b hb

theorem Delivers.ite (hx : Delivers P x) (hy : Delivers P y) : Delivers P (if p then x else y) := by
  split <;> assumption

end Rules

section Results

variable {caps : Capacities} {n : Numeral} {v va vb : Option Numeral} {k : Kind} {r : Nat}

theorem dv_failsIn (c : Byte) : FailsIn [.invalidDigit] (dv c) :=
  .ite (.ok _) (.ite (.ok _) (.error rfl))

theorem capWhole_failsIn (x : Numeral) : FailsIn [.capacityExceeded] (capWhole caps x) :=
  .ite (.error rfl) (.ok _)

theorem std_failsIn (n : Numeral) : FailsIn [.invalidNumeral] n.std :=
  .ite (.ok _) (.error rfl)

theorem firstSignDigit_failsIn (c : Byte) :
    FailsIn [.invalidInput, .invalidDigit] (firstSignDigit r c) :=
  .bind (.failIf rfl) fun _ => .bind ((dv_failsIn c).mono rfl) fun _ => .bind (.failIf rfl) fun _ =>
    .ok _

theorem splitSign_failsIn (k : Kind) (r : Nat) (t : Text) :
    FailsIn [.invalidInput, .invalidDigit] (splitSign k r t) := by
  cases k with
  | unsigned | signed => exact .ok _
  | signMagnitude | onesComplement | twosComplement =>
    cases t with
    | nil => exact .error rfl
    | cons c cs => exact .bind (firstSignDigit_failsIn c) fun _ => .ok _

theorem parseDigits_failsIn (r : Nat) (seen : Bool) (t : Text) :
    FailsIn [.invalidInput, .invalidDigit] (parseDigits r seen t) := by
  induction t generalizing seen with
  | nil => exact .ok _
  | cons c cs ih =>
    exact .ite (.ite (.error rfl) (ih true))
      (.bind ((dv_failsIn c).mono rfl) fun _ => .bind (.failIf rfl) fun _ =>
        .bind (ih seen) fun _ => .ok _)

theorem parseText_failsIn (text : Option Text) :
    FailsIn [.invalidInput, .invalidBase, .invalidDigit, .capacityExceeded]
      (parseText caps k r text) :=
  .bind (.held rfl) fun _ => .bind (.failIf rfl) fun _ => .bind (.failIf rfl) fun _ =>
    .bind ((splitSign_failsIn _ _ _).mono rfl) fun _ =>
      .bind ((parseDigits_failsIn _ _ _).mono rfl) fun _ => .bind (.failIf rfl) fun _ =>
      .bind (.failIf rfl) fun _ => .ok _

theorem padWholeTo_failsIn (len : Nat) :
    FailsIn [.invalidInput, .invalidNumeral, .tooLarge, .capacityExceeded]
      (padWholeTo caps len v) :=
  .bind (.held rfl) fun _ => .bind (.failIf rfl) fun _ => .bind (.failIf rfl) fun _ =>
    .bind (.failIf rfl) fun _ => .ok _

theorem padFractionTo_failsIn (len : Nat) :
    FailsIn [.invalidInput, .invalidNumeral, .capacityExceeded] (padFractionTo caps len v) :=
  .bind (.held rfl) fun _ => .bind (.failIf rfl) fun _ => .bind (.failIf rfl) fun _ => .ok _

theorem equalizeLength_failsIn :
    FailsIn [.invalidInput, .incompatibleTypes, .invalidNumeral] (equalizeLength va vb) :=
  .bind (.held rfl) fun _ => .bind (.held rfl) fun _ => .bind (.failIf rfl) fun _ =>
    .bind (.failIf rfl) fun _ => .ok _

theorem convertKind_failsIn :
    FailsIn [.invalidInput, .invalidNumeral, .capacityExceeded] (convertKind caps k v) :=
  .bind (.held rfl) fun n => .bind ((std_failsIn n).mono rfl) fun _ =>
    .bind (.bind ((std_failsIn _).mono rfl) fun _ => .ok _) fun x =>
      .bind ((capWhole_failsIn x.1).mono rfl) fun _ => .ok _

theorem complementNumeral_failsIn :
    FailsIn [.invalidInput, .unsupportedForUnsigned, .invalidNumeral, .capacityExceeded]
      (complementNumeral caps v) :=
  .bind (.held rfl) fun _ => .bind (.failIf rfl) fun _ => .bind (.failIf rfl) fun _ =>
    (capWhole_failsIn _).mono rfl

theorem absoluteValue_failsIn :
    FailsIn [.invalidInput, .unsupportedForUnsigned, .invalidNumeral, .capacityExceeded]
      (absoluteValue caps v) :=
  .bind (.held rfl) fun _ => .bind (.failIf rfl) fun _ => .ite complementNumeral_failsIn (.ok _)

theorem standardizeBy_failsIn (std : Bool) (n : Numeral) :
    FailsIn [.invalidNumeral] (standardizeBy std n) :=
  .bind (std_failsIn n) fun _ => .bind (.failIf rfl) fun _ => .ok _

theorem toDecimal_failsIn (std : Bool) (v : Option Numeral) :
    FailsIn [.invalidInput, .invalidOperand, .invalidNumeral, .capacityExceeded]
      (toDecimal caps std v) :=
  .bind (.held rfl) fun n => .bind (.failIf rfl) fun _ =>
    .bind ((standardizeBy_failsIn std n).mono rfl) fun _ => (capWhole_failsIn _).mono rfl

theorem fromDecimal_failsIn (std : Bool) (v : Option Numeral) :
    FailsIn [.invalidInput, .invalidOperand, .invalidBase, .invalidNumeral, .capacityExceeded]
      (fromDecimal caps std r v) :=
  .bind (.held rfl) fun n => .bind (.failIf rfl) fun _ => .bind (.failIf rfl) fun _ =>
    .bind (.failIf rfl) fun _ => .bind ((standardizeBy_failsIn std n).mono rfl) fun _ =>
    (capWhole_failsIn _).mono rfl

theorem convertBases_failsIn :
    FailsIn [.invalidInput, .invalidBase, .invalidOperand, .invalidNumeral, .capacityExceeded]
      (convertBases caps r v) :=
  .bind (.held rfl) fun _ => .bind (.failIf rfl) fun _ => .ite (.ok _)
    (.bind ((toDecimal_failsIn _ _).mono rfl) fun _ => (fromDecimal_failsIn _ _).mono rfl)

theorem compareMagnitude_failsIn :
    FailsIn [.invalidInput, .differentBase, .differentType, .invalidOperand]
      (compareMagnitude va vb) :=
  .bind (.held rfl) fun _ => .bind (.held rfl) fun _ => .bind (.failIf rfl) fun _ =>
    .bind (.failIf rfl) fun _ => .bind (.failIf rfl) fun _ => .bind (.failIf rfl) fun _ => .ok _

theorem addNumerals_failsIn :
    FailsIn [.invalidInput, .differentBase, .differentType, .invalidOperand, .capacityExceeded]
      (addNumerals caps va vb) :=
  .bind (.held rfl) fun _ => .bind (.held rfl) fun _ => .bind (.failIf rfl) fun _ =>
    .bind (.failIf rfl) fun _ => .bind (.failIf rfl) fun _ => (capWhole_failsIn _).mono rfl

theorem heldAll_failsIn (vs : List (Option Numeral)) : FailsIn [.invalidInput] (heldAll vs) := by
  induction vs with
  | nil => exact .ok _
  | cons v vs ih => exact .bind (.held rfl) fun _ => .bind ih fun _ => .ok _

theorem shiftRegisters_failsIn (k : ShiftKind) (p : Nat) (vs : List (Option Numeral)) :
    FailsIn [.invalidInput, .differentBase, .invalidOperand, .invalidDigit]
      (shiftRegisters k p vs) :=
  .bind ((heldAll_failsIn vs).mono rfl) fun _ => .bind (.failIf rfl) fun _ =>
    .bind (.failIf rfl) fun _ => .bind (.failIf rfl) fun _ => .ok _

theorem addToMagnitude_failsIn (n : Numeral) (delta : Int) :
    FailsIn [.underflow] (addToMagnitude n delta) :=
  .bind (.failIf rfl) fun _ => .ok _

theorem addToLowestPoint_failsIn (delta : Int) :
    FailsIn [.invalidInput, .invalidOperand, .underflow, .capacityExceeded]
      (addToLowestPoint caps delta v) := by
  refine .bind (.held rfl) fun n => .bind (.failIf rfl) fun _ => ?_
  dsimp only
  split
  case h_4 | h_5 => exact (capWhole_failsIn _).mono rfl
  all_goals exact .bind ((addToMagnitude_failsIn n delta).mono rfl) fun _ =>
    (capWhole_failsIn _).mono rfl

theorem integerOperands_failsIn (k : Kind) :
    FailsIn [.invalidInput, .differentBase, .invalidOperand, .invalidNumeral]
      (integerOperands k va vb) :=
  .bind (.held rfl) fun a => .bind (.held rfl) fun b => .bind (.failIf rfl) fun _ =>
    .bind (.failIf rfl) fun _ => .bind ((std_failsIn a).mono rfl) fun _ =>
    .bind ((std_failsIn b).mono rfl) fun _ => .bind (.failIf rfl) fun _ => .ok _

theorem multiplyUnsigned_failsIn :
    FailsIn [.invalidInput, .differentBase, .invalidOperand, .invalidNumeral, .capacityExceeded]
      (multiplyUnsigned caps va vb) :=
  .bind ((integerOperands_failsIn _).mono rfl) fun _ => (capWhole_failsIn _).mono rfl

theorem divideSigned_failsIn :
    FailsIn [.invalidInput, .differentBase, .invalidOperand, .invalidNumeral, .capacityExceeded]
      (divideSigned caps va vb) :=
  .bind ((integerOperands_failsIn _).mono rfl) fun _ => .bind (.failIf rfl) fun _ =>
    .bind ((capWhole_failsIn _).mono rfl) fun _ => .bind ((capWhole_failsIn _).mono rfl) fun _ =>
      .ok _

theorem encodeOperands_failsIn (tx : Option Text) :
    FailsIn [.invalidInput, .invalidOperand, .invalidNumeral] (encodeOperands v tx) :=
  .bind (.held rfl) fun n => .bind (.held rfl) fun _ => .bind (.failIf rfl) fun _ =>
    .bind ((std_failsIn n).mono rfl) fun _ => .ok _

theorem encodeRadix_failsIn (fmt : Format) (n : Numeral) :
    FailsIn [.invalidInput, .invalidOperand, .invalidBase, .invalidNumeral, .capacityExceeded]
      (encodeRadix caps fmt n) := by
  cases fmt with
  | b32 | b64 | h32 => exact fromDecimal_failsIn _ _
  | d32dpd | d32bid => exact .ok _

theorem decimalChars_failsIn (t : Text) : FailsIn [.invalidExponent] (decimalChars t) :=
  .ite (.error rfl) (.ok _)

theorem parseExponent_failsIn (t : Text) : FailsIn [.invalidExponent] (parseExponent t) := by
  cases t with
  | nil => exact .error rfl
  | cons c cs =>
    have h (u : Text) (f : Nat → Int) :
        FailsIn [.invalidExponent] (decimalChars u >>= fun y => .ok (f y)) :=
      .bind (decimalChars_failsIn u) fun _ => .ok _
    exact .ite (h cs _) (.ite (h cs _) (h (c :: cs) _))

theorem biasedExponent_failsIn (fmt : Format) (e : Int) :
    FailsIn [.exponentOutOfBounds] (biasedExponent fmt e) :=
  .bind (.failIf rfl) fun _ => .ok _

theorem packBinary_failsIn (fmt : Format) (sign : Bool) (n : Numeral) (t : Text) :
    FailsIn [.invalidExponent, .exponentOutOfBounds] (packBinary fmt sign n t) :=
  .bind ((parseExponent_failsIn t).mono rfl) fun _ =>
    .ite (.ok _) (.bind ((biasedExponent_failsIn _ _).mono rfl) fun _ => .ok _)

theorem packHex_failsIn (sign : Bool) (n : Numeral) (t : Text) :
    FailsIn [.invalidExponent, .exponentOutOfBounds] (packHex sign n t) :=
  .bind ((parseExponent_failsIn t).mono rfl) fun _ =>
    .ite (.ok _) (.bind ((biasedExponent_failsIn _ _).mono rfl) fun _ => .ok _)

theorem packDpd_failsIn (sign : Bool) (n : Numeral) (t : Text) :
    FailsIn [.invalidExponent, .exponentOutOfBounds] (packDpd sign n t) :=
  .bind ((parseExponent_failsIn t).mono rfl) fun _ =>
    .bind ((biasedExponent_failsIn _ _).mono rfl) fun _ => .ok _

theorem packBid_failsIn (sign : Bool) (n : Numeral) (t : Text) :
    FailsIn [.invalidExponent, .exponentOutOfBounds] (packBid sign n t) :=
  .bind ((parseExponent_failsIn t).mono rfl) fun _ =>
    .bind ((biasedExponent_failsIn _ _).mono rfl) fun _ => .ok _

theorem encodeValue_failsIn {fmt : Format} {tx : Option Text}
    {pack : Bool → Numeral → Text → Except Failure Ieee}
    (hpack : ∀ sign n t, FailsIn [.invalidExponent, .exponentOutOfBounds] (pack sign n t)) :
    FailsIn [.invalidInput, .invalidOperand, .invalidBase, .invalidNumeral, .capacityExceeded,
      .invalidExponent, .exponentOutOfBounds] (encodeValue caps fmt pack v tx) :=
  .bind ((encodeOperands_failsIn tx).mono rfl) fun st =>
    .bind ((encodeRadix_failsIn fmt st.1).mono rfl) fun _ => .ite (.ok _) ((hpack _ _ _).mono rfl)

theorem parseBits_failsIn (fmt : Format) (t : Option Text) :
    FailsIn [.invalidInput, .invalidEncoding] (parseBits fmt t) :=
  .bind (.held rfl) fun _ => .bind (.failIf rfl) fun _ => .ok _

theorem decodeOperand_failsIn (fmt : Format) (w : Option Ieee) :
    FailsIn [.invalidInput, .invalidEncoding] (decodeOperand fmt w) :=
  .bind (.held rfl) fun _ => .bind (.failIf rfl) fun _ => .ok _

theorem decodedNumber_failsIn (fmt : Format) (sgn : Bool) (c : Reconstructed) :
    FailsIn [.invalidInput, .invalidOperand, .invalidNumeral, .capacityExceeded]
      (decodedNumber caps fmt sgn c) :=
  .bind (toDecimal_failsIn _ _) fun _ => .ok _

theorem decodeBinary_failsIn (fmt : Format) (w : Option Ieee) :
    FailsIn [.invalidInput, .invalidEncoding, .invalidOperand, .invalidNumeral, .capacityExceeded]
      (decodeBinary caps fmt w) := by
  refine .bind ((decodeOperand_failsIn fmt w).mono rfl) fun x => ?_
  split
  · exact .ok _
  · exact (decodedNumber_failsIn _ _ _).mono rfl

theorem decodeHex_failsIn (w : Option Ieee) :
    FailsIn [.invalidInput, .invalidEncoding, .invalidOperand, .invalidNumeral, .capacityExceeded]
      (decodeHex caps w) := by
  refine .bind ((decodeOperand_failsIn .h32 w).mono rfl) fun x => ?_
  split
  · exact .ok _
  · exact (decodedNumber_failsIn _ _ _).mono rfl

theorem specialDecimal_failsIn (sgn : Bool) (e m : Bits) :
    FailsIn [.refused] (specialDecimal sgn e m) :=
  .ite (.ok _) (.ite (.ok _) (.ite (.ok _) (.ite (.ok _) (.ite (.error rfl) (.ok _)))))

theorem decodeDecimal_failsIn (fmt : Format) (reconstruct : Bits → Bits → Nat × Int)
    (w : Option Ieee) :
    FailsIn [.invalidInput, .invalidEncoding, .refused] (decodeDecimal fmt reconstruct w) := by
  refine .bind ((decodeOperand_failsIn fmt w).mono rfl) fun x =>
    .bind ((specialDecimal_failsIn _ _ _).mono rfl) fun special => ?_
  cases special <;> exact .ok _

theorem floatOperands_failsIn (va vb : Option Ieee) :
    FailsIn [.invalidInput, .invalidOperand] (floatOperands va vb) :=
  .bind (.held rfl) fun _ => .bind (.held rfl) fun _ => .bind (.failIf rfl) fun _ => .ok _

end Results

end Sys2Proof.Machine
end

section
/-! PROOFS. Every step keeps the fields of `STATUS` and the never written bits of `ESTICKY` (10_state.md
rules R31, R32; 60_exceptions.md rules R292, R302). -/

namespace Sys2Proof.Machine

/-- The failures of rule R292: those that some command can end with. -/
def raisedFailures : List Failure :=
  [.invalidInput, .invalidDigit, .invalidBase, .invalidNumeral, .tooLarge, .incompatibleTypes,
    .unsupportedForUnsigned, .differentBase, .differentType, .invalidOperand, .underflow,
    .invalidExponent, .exponentOutOfBounds, .invalidEncoding, .refused, .illegalCommand,
    .capacityExceeded]

theorem code_mem_writtenCodes {c : Failure} (hc : c ∈ raisedFailures) : c.code ∈ writtenCodes := by
  revert c; decide

section Ends

variable {s t : State} {rd : Fin 8} {fd : Fin 4} {is : List (Fin 8)}

theorem finishWith_writtenCode {α : Type} {d : Dest} {warn : α → Bool} {put : α → State → State}
    {r : Except Failure α} (hr : FailsIn raisedFailures r)
    (h : finishWith d warn put r s = .next t) : statusCode t.status ∈ writtenCodes := by
  rcases finishWith_cases h with ⟨a, -, rfl⟩ | ⟨c, hc, rfl⟩
  · rw [succeed_status, statusCode_completed]
    decide
  · rw [raiseFail_status, statusCode_completed]
    exact code_mem_writtenCodes (hr c hc)

theorem finishN_writtenCode {r} (hr : FailsIn raisedFailures r)
    (h : finishN rd r s = .next t) : statusCode t.status ∈ writtenCodes :=
  finishWith_writtenCode hr h

theorem finishNWarn_writtenCode {r} (hr : FailsIn raisedFailures r)
    (h : finishNWarn rd r s = .next t) : statusCode t.status ∈ writtenCodes :=
  finishWith_writtenCode hr h

theorem finishNPair_writtenCode {r} (hr : FailsIn raisedFailures r)
    (h : finishNPair rd r s = .next t) : statusCode t.status ∈ writtenCodes :=
  finishWith_writtenCode hr h

theorem finishF_writtenCode {r} (hr : FailsIn raisedFailures r)
    (h : finishF fd r s = .next t) : statusCode t.status ∈ writtenCodes :=
  finishWith_writtenCode hr h

theorem finishCC_writtenCode {r} (hr : FailsIn raisedFailures r)
    (h : finishCC r s = .next t) : statusCode t.status ∈ writtenCodes :=
  finishWith_writtenCode hr h

theorem finishDecoded_writtenCode {r} (hr : FailsIn raisedFailures r)
    (h : finishDecoded rd r s = .next t) : statusCode t.status ∈ writtenCodes :=
  finishWith_writtenCode hr h

theorem finishInPlace_writtenCode {r} (hr : FailsIn raisedFailures r)
    (h : finishInPlace is r s = .next t) : statusCode t.status ∈ writtenCodes :=
  finishWith_writtenCode hr h

end Ends

theorem illegalCommand_code (s : State) :
    statusCode (illegalCommand s).status = Failure.illegalCommand.code :=
  statusCode_completed ..

theorem shiftCommand_writtenCode {k : ShiftKind} {first last : Fin 8} {p : BitVec 12} {s t : State}
    (h : shiftCommand k first last p s = .next t) : statusCode t.status ∈ writtenCodes := by
  unfold shiftCommand at h
  split at h
  · exact finishInPlace_writtenCode ((shiftRegisters_failsIn _ _ _).mono rfl) h
  · injection h with h
    subst h
    rw [illegalCommand_code]
    decide

/-- Every command ends with a code that rule R292 gives to some command. -/
theorem exec_writtenCode {i : Instr} {s t : State} (h : exec i s = .next t) :
    statusCode t.status ∈ writtenCodes := by
  cases i with
  | parseUns | parseSgn | parseSmr | parseOc | parseTc =>
    exact finishN_writtenCode ((parseText_failsIn _).mono rfl) h
  | stdz => exact finishN_writtenCode (.bind (.held rfl) fun n => (std_failsIn n).mono rfl) h
  | padw => exact finishN_writtenCode ((padWholeTo_failsIn _).mono rfl) h
  | padf => exact finishN_writtenCode ((padFractionTo_failsIn _).mono rfl) h
  | eqlen => exact finishInPlace_writtenCode (equalizeLength_failsIn.mono rfl) h
  | signm => exact finishCC_writtenCode (.bind (.held rfl) fun _ => .ok _) h
  | cvtkUns | cvtkSgn | cvtkSmr | cvtkOc | cvtkTc =>
    exact finishNWarn_writtenCode (convertKind_failsIn.mono rfl) h
  | compl => exact finishN_writtenCode (complementNumeral_failsIn.mono rfl) h
  | absv => exact finishN_writtenCode (absoluteValue_failsIn.mono rfl) h
  | todec => exact finishN_writtenCode ((toDecimal_failsIn _ _).mono rfl) h
  | fromdec => exact finishN_writtenCode ((fromDecimal_failsIn _ _).mono rfl) h
  | cvtb => exact finishN_writtenCode (convertBases_failsIn.mono rfl) h
  | cmpm => exact finishCC_writtenCode (compareMagnitude_failsIn.mono rfl) h
  | addn => exact finishN_writtenCode (addNumerals_failsIn.mono rfl) h
  | shl | shrl | shra => exact shiftCommand_writtenCode h
  | addlp => exact finishN_writtenCode ((addToLowestPoint_failsIn _).mono rfl) h
  | mulu => exact finishN_writtenCode (multiplyUnsigned_failsIn.mono rfl) h
  | divs => exact finishNPair_writtenCode (divideSigned_failsIn.mono rfl) h
  | encB32 | encB64 =>
    exact finishF_writtenCode ((encodeValue_failsIn (packBinary_failsIn _)).mono rfl) h
  | encD32dpd => exact finishF_writtenCode ((encodeValue_failsIn packDpd_failsIn).mono rfl) h
  | encD32bid => exact finishF_writtenCode ((encodeValue_failsIn packBid_failsIn).mono rfl) h
  | encH32 => exact finishF_writtenCode ((encodeValue_failsIn packHex_failsIn).mono rfl) h
  | decB32 | decB64 => exact finishDecoded_writtenCode ((decodeBinary_failsIn _ _).mono rfl) h
  | decD32dpd | decD32bid => exact finishDecoded_writtenCode ((decodeDecimal_failsIn _ _ _).mono rfl) h
  | decH32 => exact finishDecoded_writtenCode ((decodeHex_failsIn _).mono rfl) h
  | fparseB32 | fparseB64 | fparseD32dpd | fparseD32bid | fparseH32 =>
    exact finishF_writtenCode ((parseBits_failsIn _ _).mono rfl) h
  | fadd | fsub | fmul | fdiv =>
    exact finishF_writtenCode (.bind ((floatOperands_failsIn _ _).mono rfl) fun _ => .ok _) h

/-- No code that a command can write is the number of a bit of `ESTICKY` that no rule sets. -/
theorem twoPow_and_neverStickyMask {c : BitVec 6} (hc : c ∈ writtenCodes) :
    BitVec.twoPow 32 c.toNat &&& neverStickyMask = 0 := by
  revert c; decide

/-- The invariant of `STATUS` and `ESTICKY` holds when at most the bit of the new code was set. -/
theorem statusInv_of_writtenCode {s t : State} (hs : s.statusInv) (hlt : t.status.toNat < 256)
    (hc : statusCode t.status ∈ writtenCodes)
    (he : t.esticky = s.esticky ∨ t.esticky = withSticky s.esticky (statusCode t.status).toNat) :
    t.statusInv := by
  obtain ⟨-, -, hmask⟩ := hs
  refine ⟨hlt, hc, ?_⟩
  rcases he with he | he <;> rw [he]
  · exact hmask
  · rw [withSticky, BitVec.and_or_distrib_right, hmask, twoPow_and_neverStickyMask hc]
    rfl

/-! ### Every command, refused write and illegal word -/

theorem exec_statusInv {i : Instr} {s t : State} (hs : s.statusInv) (h : exec i s = .next t) :
    t.statusInv := by
  obtain ⟨-, hlt, hfail, hok⟩ := commandWritesStatusAndOneStickyBit.1 i s t h
  refine statusInv_of_writtenCode hs hlt (exec_writtenCode h) ?_
  by_cases h0 : statusCode t.status = 0
  · rw [h0, hok h0]
    split
    · exact .inr rfl
    · exact .inl rfl
  · exact .inr (hfail h0).2

theorem toNat_withCode (w : Word) (c : BitVec 6) :
    (withCode w c).toNat = w.toNat / 64 * 64 + c.toNat := by
  have hc := c.isLt
  have hw : w.toNat / 64 < 2 ^ 26 := by have := w.isLt; omega
  rw [withCode, BitVec.toNat_append, ← Nat.shiftLeft_add_eq_or_of_lt hc, Nat.shiftLeft_eq,
    BitVec.extractLsb'_toNat, Nat.shiftRight_eq_div_pow, Nat.mod_eq_of_lt hw]

@[simp] theorem statusCode_withCode (w : Word) (c : BitVec 6) : statusCode (withCode w c) = c := by
  apply BitVec.eq_of_toNat_eq
  have hc := c.isLt
  rw [statusCode, BitVec.extractLsb'_toNat, toNat_withCode, Nat.shiftRight_zero]
  omega

theorem statusInv_refuseWrite {c : Failure} {s : State} (hs : s.statusInv)
    (hc : c.code ∈ writtenCodes) : (refuseWrite c s).statusInv := by
  have hcode : statusCode (refuseWrite c s).status = c.code := statusCode_withCode ..
  refine statusInv_of_writtenCode hs ?_ (hcode ▸ hc) (.inr (by rw [hcode]; rfl))
  have h1 := hs.1
  have h2 := c.code.isLt
  have h3 : (refuseWrite c s).status.toNat = _ := toNat_withCode s.status c.code
  omega

theorem statusInv_illegalCommand {s : State} (hs : s.statusInv) : (illegalCommand s).statusInv := by
  have hcode := illegalCommand_code s
  refine statusInv_of_writtenCode hs (completedStatus_lt ..) (hcode ▸ by decide)
    (.inr ?_)
  rw [hcode]
  rfl

theorem Performed.statusInv {op : HostOp} {s t : State} (hs : s.statusInv)
    (h : Performed s op t) : t.statusInv := by
  cases h with
  | textStored | numeralStored | ieeeStored | answered => exact hs
  | refused c hc =>
    refine statusInv_refuseWrite hs ?_
    rcases hc with rfl | rfl <;> decide
  | illegal => exact statusInv_illegalCommand hs
  | command hi ht => refine exec_statusInv ?_ ht; exact hs
  | reset => exact resetMeetsTheInvariants.2.2.1

end Sys2Proof.Machine
end

section
/-! PROOFS. Every step keeps the zero bits above the width of an `F` register (20_memory.md rule R55):
every word that is written was cut to its width. -/

namespace Sys2Proof.Machine

/-- A word cut to the width of its format. -/
def Ieee.Packed (x : Ieee) : Prop := ∃ f w, x = Ieee.ofWord f w

theorem Ieee.Packed.lt {x : Ieee} (h : x.Packed) : x.word.toNat < 2 ^ x.format.width := by
  obtain ⟨f, w, rfl⟩ := h
  exact Ieee.ofWord_lt f w

theorem packed_ofWord (f : Format) (w : Word64) : (Ieee.ofWord f w).Packed := ⟨f, w, rfl⟩

theorem packed_ofFields (f : Format) (s : Bool) (e m : Bits) : (Ieee.ofFields f s e m).Packed :=
  packed_ofWord ..

theorem packed_infPattern (f : Format) (s : Bool) : (infPattern f s).Packed := by
  cases f <;> exact packed_ofFields ..

/-! ### The result of each command -/

theorem packBinary_packed (fmt : Format) (sign : Bool) (n : Numeral) (t : Text) :
    Delivers Ieee.Packed (packBinary fmt sign n t) :=
  .bind fun _ _ => .ite (.ok (packed_ofFields ..)) (.bind fun _ _ => .ok (packed_ofFields ..))

theorem packHex_packed (sign : Bool) (n : Numeral) (t : Text) :
    Delivers Ieee.Packed (packHex sign n t) :=
  .bind fun _ _ => .ite (.ok (packed_ofFields ..)) (.bind fun _ _ => .ok (packed_ofFields ..))

theorem packDpd_packed (sign : Bool) (n : Numeral) (t : Text) :
    Delivers Ieee.Packed (packDpd sign n t) :=
  .bind fun _ _ => .bind fun _ _ => .ok (packed_ofFields ..)

theorem packBid_packed (sign : Bool) (n : Numeral) (t : Text) :
    Delivers Ieee.Packed (packBid sign n t) :=
  .bind fun _ _ => .bind fun _ _ => .ok (packed_ofFields ..)

theorem encodeValue_packed {caps : Capacities} {fmt : Format}
    {pack : Bool → Numeral → Text → Except Failure Ieee} {v : Option Numeral} {tx : Option Text}
    (hpack : ∀ sign n t, Delivers Ieee.Packed (pack sign n t)) :
    Delivers Ieee.Packed (encodeValue caps fmt pack v tx) :=
  .bind fun _ _ => .bind fun _ _ => .ite (.ok (packed_infPattern ..)) (hpack _ _ _)

theorem parseBits_packed (fmt : Format) (v : Option Text) :
    Delivers Ieee.Packed (parseBits fmt v) :=
  .bind fun _ _ => .bind fun _ _ => .ok (packed_ofFields ..)

/-- The result of the four arithmetic commands. -/
theorem ofWord32_packed {op : Word → Word → Word} {va vb : Option Ieee} :
    Delivers Ieee.Packed (do let ab ← floatOperands va vb; .ok (Ieee.ofWord32 (op ab.1 ab.2))) :=
  .bind fun _ _ => .ok (packed_ofWord ..)

/-! ### The ends of a command, every command and every input -/

section Steps

variable {s t : State} {d : Dest}

theorem ieeeInv_setF {i : Fin 4} {v : Option Ieee} (hs : s.ieeeInv) (hv : ∀ x, v = some x → x.Packed) :
    (s.setF i v).ieeeInv := by
  intro j
  rw [State.readF_setF]
  split
  · cases v with
    | none => rfl
    | some x => exact decide_eq_true (hv x rfl).lt
  · exact hs j

theorem ieeeInv_of_finishF {rd : Fin 4} {r : Except Failure Ieee} (hs : s.ieeeInv)
    (hr : Delivers Ieee.Packed r) (h : finishF rd r s = .next t) : t.ieeeInv := by
  rcases finishWith_cases h with ⟨x, hx, rfl⟩ | ⟨c, -, rfl⟩
  · exact ieeeInv_setF (v := some x) hs fun y hy => Option.some.inj hy ▸ hr x hx
  · exact ieeeInv_setF hs nofun

theorem clearDest_f (hd : ∀ rd, d ≠ .ieee rd) (s : State) : (clearDest d s).f = s.f := by
  cases d with
  | ieee rd => exact absurd rfl (hd rd)
  | num | numPair | cond | decoded | inPlace => rfl

theorem Wrote.f {u : State} (h : Wrote d s u) (hd : ∀ rd, d ≠ .ieee rd) : u.f = s.f := by
  cases d with
  | ieee rd => exact absurd rfl (hd rd)
  | num | cond => obtain ⟨x, rfl⟩ := h; rfl
  | numPair => obtain ⟨x, y, rfl⟩ := h; rfl
  | decoded => obtain ⟨x, rfl⟩ := h; cases x <;> rfl
  | inPlace => obtain ⟨is, xs, rfl⟩ := h; simp

/-- No `F` register is written by a command whose destination is none. -/
theorem Ended.f (h : Ended d s t) (hd : ∀ rd, d ≠ .ieee rd) : t.f = s.f := by
  rcases h with ⟨c, rfl⟩ | ⟨warn, u, hu, rfl⟩
  · exact clearDest_f hd s
  · exact hu.f hd

theorem ieeeInv_of_f (h : t.f = s.f) (hs : s.ieeeInv) : t.ieeeInv := by
  intro i
  rw [State.readF_eq, h]
  exact hs i

theorem exec_ieeeInv {i : Instr} (hs : s.ieeeInv) (h : exec i s = .next t) : t.ieeeInv := by
  have he := exec_ended h
  cases i with
  | encB32 | encB64 => exact ieeeInv_of_finishF hs (encodeValue_packed (packBinary_packed _)) h
  | encD32dpd => exact ieeeInv_of_finishF hs (encodeValue_packed packDpd_packed) h
  | encD32bid => exact ieeeInv_of_finishF hs (encodeValue_packed packBid_packed) h
  | encH32 => exact ieeeInv_of_finishF hs (encodeValue_packed packHex_packed) h
  | fparseB32 | fparseB64 | fparseD32dpd | fparseD32bid | fparseH32 =>
    exact ieeeInv_of_finishF hs (parseBits_packed _ _) h
  | fadd | fsub | fmul | fdiv => exact ieeeInv_of_finishF hs ofWord32_packed h
  | _ => exact ieeeInv_of_f (he.f nofun) hs

theorem Performed.ieeeInv {op : HostOp} (hs : s.ieeeInv) (h : Performed s op t) : t.ieeeInv := by
  cases h with
  | ieeeStored i v hv => exact ieeeInv_setF hs hv
  | textStored | numeralStored | refused | answered | illegal => exact hs
  | command hi ht => refine exec_ieeeInv ?_ ht; exact hs
  | reset => exact fun i => by simp

end Steps

end Sys2Proof.Machine
end

section
/-! PROOFS. Every step keeps the fit of `PTAG`, `PBASE` and `PEXP` (10_state.md rule R25): the range of the
exponent that each decode delivers. -/

namespace Sys2Proof.Machine

/-- What a decode delivers fits the three registers together (10_state.md rule R25). -/
def Decoded.Legal (d : Decoded) : Prop :=
  match d with
  | .special tag => tag ≠ .numeric
  | .number _ base ex => (base = 2 ∨ base = 10 ∨ base = 16) ∧ -1074 ≤ ex ∧ ex ≤ 1023

/-! ### The numbers of bit strings -/

theorem int_cons (b : Bool) (s : Bits) : int (b :: s) = b.toNat * 2 ^ s.length + int s := by
  have h := int_append [b] s
  rwa [show int [b] = b.toNat by cases b <;> rfl] at h

/-- A string with a 0 bit is not the greatest number of its length. -/
theorem int_succ_lt_of_not_everyBit {s : Bits} (h : ¬ everyBit s = true) : int s + 1 < 2 ^ s.length := by
  induction s with
  | nil => exact absurd rfl h
  | cons b s ih =>
    rw [int_cons, List.length_cons, pow_succ]
    cases b with
    | false =>
      have := int_lt s
      simp only [Bool.toNat_false]
      omega
    | true =>
      have := ih (by simpa [everyBit] using h)
      simp only [Bool.toNat_true]
      omega

/-- A string with a 1 bit has fewer leading zeros than bits. -/
theorem leadingFalse_lt_of_not_noBit {s : Bits} (h : ¬ noBit s = true) :
    (s.takeWhile (fun b => !b)).length < s.length := by
  induction s with
  | nil => exact absurd rfl h
  | cons b s ih =>
    cases b with
    | false =>
      have := ih (by simpa [noBit] using h)
      simpa using this
    | true => simp

theorem int_lt_of_length_le {s : Bits} {k : Nat} (h : s.length ≤ k) : int s < 2 ^ k :=
  (int_lt s).trans_le (Nat.pow_le_pow_right (by omega) h)

@[simp] theorem exponent_length (x : Ieee) : x.exponent.length = x.format.expWidth := bits_length ..

@[simp] theorem significand_length (x : Ieee) : x.significand.length = x.format.sigWidth :=
  bits_length ..

/-! ### The result of each decode -/

/-- The shift of the radix point keeps an exponent in its range: it lowers an exponent of 0 to 9 to 0
and leaves any other (45_ieee_decode.md rule R238). -/
theorem rescale_exponent_range {c : Reconstructed} (fmt : Format)
    (h : -1074 ≤ c.exponent ∧ c.exponent ≤ 1023) :
    -1074 ≤ (rescale fmt c).exponent ∧ (rescale fmt c).exponent ≤ 1023 := by
  simp only [rescale, decShift]
  split <;> omega

section Results

variable {fmt : Format} {sgn : Bool} {e m : Bits} {tag : DecTag}

theorem specialBinary_ne_numeric (h : specialBinary sgn e m = some tag) : tag ≠ .numeric := by
  rintro rfl
  unfold specialBinary at h
  split_ifs at h <;> cases h

theorem specialDecimal_ne_numeric (h : specialDecimal sgn e m = .ok (some tag)) : tag ≠ .numeric := by
  rintro rfl
  unfold specialDecimal at h
  split_ifs at h <;> cases h

/-- What is no special value has an exponent field with a 0 bit and fields that are not both 0. -/
theorem specialBinary_eq_none (h : specialBinary sgn e m = none) :
    ¬ (noBit e = true ∧ noBit m = true) ∧ ¬ everyBit e = true := by
  unfold specialBinary at h
  split_ifs at h with hz hone
  exact ⟨hz, hone⟩

theorem reconstructBinary_exponent_range (hf : fmt = .b32 ∨ fmt = .b64)
    (he : e.length = fmt.expWidth) (hm : m.length = fmt.sigWidth)
    (h : specialBinary sgn e m = none) :
    -1074 ≤ (reconstructBinary fmt e m).exponent ∧ (reconstructBinary fmt e m).exponent ≤ 1023 := by
  obtain ⟨hz, hone⟩ := specialBinary_eq_none h
  unfold reconstructBinary
  split
  · next h0 =>
    have hp := leadingFalse_lt_of_not_noBit fun h1 => hz ⟨h0, h1⟩
    rcases hf with rfl | rfl <;> simp only [Format.bias, Format.sigWidth] at hm ⊢ <;> omega
  · have hi := int_succ_lt_of_not_everyBit hone
    rw [he] at hi
    rcases hf with rfl | rfl <;> simp only [Format.bias, Format.expWidth] at hi ⊢ <;> omega

theorem decodedNumber_legal {caps : Capacities} {c : Reconstructed}
    (hf : fmt.radix = 2 ∨ fmt.radix = 16) (hc : -1074 ≤ c.exponent ∧ c.exponent ≤ 1023) :
    Delivers Decoded.Legal (decodedNumber caps fmt sgn c) := by
  refine .bind fun x _ => .ok ⟨?_, rescale_exponent_range fmt hc⟩
  rcases hf with hf | hf <;> rw [hf]
  · exact .inl rfl
  · exact .inr (.inr rfl)

theorem decodeOperand_format (fmt : Format) (v : Option Ieee) :
    Delivers (fun x => x.format = fmt) (decodeOperand fmt v) :=
  .bind fun _ _ => .bind fun _ h => .ok (not_not.1 (failIf_eq_ok.1 h))

theorem decodeBinary_legal {caps : Capacities} {v : Option Ieee} (hf : fmt = .b32 ∨ fmt = .b64) :
    Delivers Decoded.Legal (decodeBinary caps fmt v) := by
  refine .bind fun x hx => ?_
  have hfmt := decodeOperand_format fmt v x hx
  split
  · next tag htag => exact .ok (specialBinary_ne_numeric htag)
  · next hnone =>
    refine decodedNumber_legal ?_ (reconstructBinary_exponent_range hf ?_ ?_ hnone)
    · rcases hf with rfl | rfl <;> exact .inl rfl
    · rw [exponent_length, hfmt]
    · rw [significand_length, hfmt]

theorem decodeHex_legal {caps : Capacities} {v : Option Ieee} :
    Delivers Decoded.Legal (decodeHex caps v) := by
  refine .bind fun x hx => ?_
  have hlt : int x.exponent < 2 ^ 7 :=
    int_lt_of_length_le (by rw [exponent_length, decodeOperand_format .h32 v x hx]; exact le_rfl)
  split
  · next tag htag => exact .ok (specialBinary_ne_numeric htag)
  · refine decodedNumber_legal (.inr rfl) ?_
    simp only [reconstructHex, Format.bias]
    omega

theorem reconstructDpd_exponent_range (e m : Bits) :
    -1074 ≤ (reconstructDpd e m).2 ∧ (reconstructDpd e m).2 ≤ 1023 := by
  have hlt (i j : Nat) (hij : j + 1 - i ≤ 2) : int (slice e i j ++ slice e 5 10) < 2 ^ 8 :=
    int_lt_of_length_le (by
      have h1 := slice_length_le e i j
      have h2 := slice_length_le e 5 10
      rw [List.length_append]; omega)
  have h01 := hlt 0 1 (by omega)
  have h23 := hlt 2 3 (by omega)
  unfold reconstructDpd
  simp only [Format.bias]
  split <;> dsimp only <;> omega

theorem reconstructBid_exponent_range (e m : Bits) :
    -1074 ≤ (reconstructBid e m).2 ∧ (reconstructBid e m).2 ≤ 1023 := by
  have h07 : int (slice e 0 7) < 2 ^ 8 := int_lt_of_length_le (slice_length_le ..)
  have h29 : int (slice e 2 9) < 2 ^ 8 := int_lt_of_length_le (slice_length_le ..)
  unfold reconstructBid
  simp only [Format.bias]
  split <;> dsimp only <;> omega

theorem decodeDecimal_legal {reconstruct : Bits → Bits → Nat × Int} {v : Option Ieee}
    (hr : ∀ e m, -1074 ≤ (reconstruct e m).2 ∧ (reconstruct e m).2 ≤ 1023) :
    Delivers Decoded.Legal (decodeDecimal fmt reconstruct v) := by
  refine .bind fun x _ => .bind fun special hsp => ?_
  cases special with
  | some tag => exact .ok (specialDecimal_ne_numeric hsp)
  | none => exact .ok ⟨.inr (.inl rfl), hr ..⟩

end Results

/-! ### The ends of a command, every command and every input -/

section Steps

variable {s t : State} {d : Dest}

theorem decodeInv_putDecoded {x : Decoded} (rd : Fin 8) (hx : x.Legal) (s : State) :
    (putDecoded rd x s).decodeInv := by
  cases x with
  | special tag =>
    cases tag with
    | numeric => exact absurd rfl hx
    | posZero | negZero | posInf | negInf | qnan | snan => rfl
  | number n base ex =>
    obtain ⟨hb, he⟩ := hx
    simp only [putDecoded, State.decodeInv, State.setP_ptag, State.setP_pbase, State.setP_pexp,
      decodeRegistersLegal, Bool.and_eq_true, decide_eq_true_eq]
    exact ⟨by rcases hb with rfl | rfl | rfl <;> rfl, he⟩

theorem decodeInv_of_finishDecoded {rd : Fin 8} {r : Except Failure Decoded}
    (hr : Delivers Decoded.Legal r) (h : finishDecoded rd r s = .next t) : t.decodeInv := by
  rcases finishWith_cases h with ⟨x, hx, rfl⟩ | ⟨c, -, rfl⟩
  · exact decodeInv_putDecoded rd (hr x hx) s
  · rfl

theorem clearDest_decodeInv (d : Dest) (hs : s.decodeInv) : (clearDest d s).decodeInv := by
  cases d with
  | decoded => rfl
  | num | numPair | ieee | cond | inPlace => exact hs

theorem Wrote.decodeInv {u : State} (h : Wrote d s u) (hd : ∀ rd, d ≠ .decoded rd) (hs : s.decodeInv) :
    u.decodeInv := by
  cases d with
  | decoded rd => exact absurd rfl (hd rd)
  | num | cond | ieee => obtain ⟨x, rfl⟩ := h; exact hs
  | numPair => obtain ⟨x, y, rfl⟩ := h; exact hs
  | inPlace =>
    obtain ⟨is, xs, rfl⟩ := h
    simpa [State.decodeInv] using hs

theorem Ended.decodeInv (h : Ended d s t) (hd : ∀ rd, d ≠ .decoded rd) (hs : s.decodeInv) :
    t.decodeInv := by
  rcases h with ⟨c, rfl⟩ | ⟨warn, u, hu, rfl⟩
  · exact clearDest_decodeInv d hs
  · exact hu.decodeInv hd hs

theorem exec_decodeInv {i : Instr} (hs : s.decodeInv) (h : exec i s = .next t) : t.decodeInv := by
  have he := exec_ended h
  cases i with
  | decB32 => exact decodeInv_of_finishDecoded (decodeBinary_legal (.inl rfl)) h
  | decB64 => exact decodeInv_of_finishDecoded (decodeBinary_legal (.inr rfl)) h
  | decD32dpd =>
    exact decodeInv_of_finishDecoded (decodeDecimal_legal reconstructDpd_exponent_range) h
  | decD32bid =>
    exact decodeInv_of_finishDecoded (decodeDecimal_legal reconstructBid_exponent_range) h
  | decH32 => exact decodeInv_of_finishDecoded decodeHex_legal h
  | _ => exact he.decodeInv nofun hs

theorem Performed.decodeInv {op : HostOp} (hs : s.decodeInv) (h : Performed s op t) : t.decodeInv := by
  cases h with
  | textStored | numeralStored | ieeeStored | refused | answered | illegal => exact hs
  | command hi ht => refine exec_decodeInv ?_ ht; exact hs
  | reset => rfl

end Steps

/-- Settles O19: each of the three invariants through what one input can do; a write of an `F` register
is cut to its width, a code written is one of rule R292, and only a decode writes the three registers
of its result. -/
theorem everyStepKeepsRegisterForms : Obligations.EveryStepKeepsRegisterForms := by
  intro s t h
  rcases step_cases h with ⟨-, rfl⟩ | ⟨op, rest, -, hp⟩
  · exact ⟨id, id, id⟩
  · exact ⟨hp.ieeeInv (s := s.setInputs rest), hp.statusInv (s := s.setInputs rest),
      hp.decodeInv (s := s.setInputs rest)⟩

end Sys2Proof.Machine
end

section
/-! PROOFS. The host port: what a write stores, when it is refused, and what a read delivers (20_memory.md
rules R54, R58; 60_exceptions.md rule R302). -/

namespace Sys2Proof.Machine

/-- A refused write replaces the low six bits of `STATUS` (10_state.md rule R31). -/
theorem withCode_eq (w : Word) (c : BitVec 6) :
    withCode w c = (w &&& 0xFFFFFFC0#32) ||| c.zeroExtend 32 := by
  apply BitVec.eq_of_getLsbD_eq
  intro k hk
  simp only [withCode, BitVec.getLsbD_append, BitVec.getLsbD_or, BitVec.getLsbD_and,
    BitVec.getLsbD_extractLsb']
  interval_cases k <;> simp

/-- A stored word keeps the bits below the width of its format (20_memory.md rules R54, R55). -/
theorem getLsbD_ofWord (f : Format) (w : Word64) (k : Nat) :
    (Ieee.ofWord f w).word.getLsbD k = (decide (k < f.width) && w.getLsbD k) := by
  rw [Ieee.ofWord, BitVec.getLsbD_ofNat, Nat.testBit_mod_two_pow, BitVec.testBit_toNat]
  by_cases hk : k < 64
  · simp [hk]
  · have := f.width_le
    simp [hk, show ¬ k < f.width by omega]

@[simp] theorem ofCode_code (f : Format) : Format.ofCode f.code = some f := by
  cases f <;> rfl

theorem ofCode_of_five_le {c : BitVec 3} (h : 5 ≤ c.toNat) : Format.ofCode c = none := by
  revert c; decide

theorem refuseWrite_eq (c : Failure) (s : State) : refuseWrite c s = { s with
    status := (s.status &&& 0xFFFFFFC0#32) ||| c.code.zeroExtend 32,
    esticky := s.esticky ||| BitVec.twoPow 32 c.code.toNat } := by
  rw [← withCode_eq]
  rfl

theorem writeNumeral_eq (i : Fin 8) (n : Numeral) (s : State) : writeNumeral i n s =
    if exceeds s.caps.wcap n.whole.length ∨ exceeds s.caps.fcap n.fraction.length ∨
      exceeds s.caps.scap n.sign.length then refuseWrite .capacityExceeded s
    else s.setN i (some n) := by
  have hfits : n.fits s.caps = true ↔ ¬ (exceeds s.caps.wcap n.whole.length = true ∨
      exceeds s.caps.fcap n.fraction.length = true ∨ exceeds s.caps.scap n.sign.length = true) := by
    simp only [fits_iff, not_or, Bool.not_eq_true]
  rw [writeNumeral, if_congr hfits rfl rfl, ite_not]

theorem writeIeee_code (i : Fin 4) (f : Format) (w : Word64) (s : State) :
    writeIeee i f.code w s = s.setF i (some (Ieee.ofWord f w)) := by
  simp only [writeIeee, ofCode_code]

theorem writeIeee_of_five_le {c : BitVec 3} (h : 5 ≤ c.toNat) (i : Fin 4) (w : Word64) (s : State) :
    writeIeee i c w s = refuseWrite .illegalCommand s := by
  simp only [writeIeee, ofCode_of_five_le h]

/-- Settles O4: each write is its equation, with `STATUS` after a refusal written as a mask. -/
theorem hostWritesStoreOrAreRefused : Obligations.HostWritesStoreOrAreRefused := by
  intro s rest s0 full badFormat
  have hfull : refuseWrite .capacityExceeded s0 = full := refuseWrite_eq ..
  have hbad : refuseWrite .illegalCommand s0 = badFormat := refuseWrite_eq ..
  refine ⟨fun i x h => ?_, fun i x h => ?_, fun i c w h hc => ?_, fun i w f h => ?_,
    fun i => step_of_inputs_cons, fun i => step_of_inputs_cons, fun i => step_of_inputs_cons⟩
  · rw [step_of_inputs_cons h, ← hfull]
    rfl
  · rw [step_of_inputs_cons h, ← hfull]
    exact congrArg _ (writeNumeral_eq i x s0)
  · rw [step_of_inputs_cons h, ← hbad]
    exact congrArg _ (writeIeee_of_five_le hc i w s0)
  · refine ⟨Ieee.ofWord f w, ?_, rfl, getLsbD_ofWord f w⟩
    rw [step_of_inputs_cons h]
    exact congrArg _ (writeIeee_code i f w s0)

/-- Settles O5: a step with a read waiting is that read, whose answer is the register's content. -/
theorem hostReadsDeliverTheRegister : Obligations.HostReadsDeliverTheRegister := by
  intro s rest op a h hop
  rw [step_of_inputs_cons h]
  rcases hop with ⟨i, rfl, rfl⟩ | ⟨i, rfl, rfl⟩ | ⟨i, rfl, rfl⟩ | ⟨rfl, rfl⟩ | ⟨rfl, rfl⟩ |
    ⟨rfl, rfl⟩ | ⟨rfl, rfl⟩ | ⟨rfl, rfl⟩ | ⟨rfl, rfl⟩ | ⟨rfl, rfl⟩ <;> rfl

end Sys2Proof.Machine
end

section
/-! PROOFS. The encoding (30_encoding.md rules R71, R73, R78, R80, R81): what each form of the decoder
accepts, that the decoder inverts the encoder, and the rows of the opcode table. -/

namespace Sys2Proof

open Sys2Proof.Machine

/-! ### What each form of the decoder accepts -/

theorem decode_bind_eq_ok {α β : Type} {x : Except DecodeError α} {g : α → Except DecodeError β}
    {b : β} : (x >>= g) = .ok b ↔ ∃ a, x = .ok a ∧ g a = .ok b := by
  cases x <;> simp [bind, Except.bind]

theorem ieeeIndex_eq_ok_iff {b : BitVec 3} {i : Fin 4} : ieeeIndex b = .ok i ↔ ieeeField i = b :=
  ⟨ieeeIndex_eq_ok, fun h => h ▸ ieeeIndex_ieeeField i⟩

theorem textIndex_eq_ok_iff {b : BitVec 3} {i : Fin 2} : textIndex b = .ok i ↔ textField i = b :=
  ⟨textIndex_eq_ok, fun h => h ▸ textIndex_textField i⟩

theorem variant_eq_ok {sel : BitVec 3} {i i0 i1 i2 i3 i4 : Instr} :
    variant sel i0 i1 i2 i3 i4 = .ok i ↔
      sel = 0 ∧ i0 = i ∨ sel = 1 ∧ i1 = i ∨ sel = 2 ∧ i2 = i ∨ sel = 3 ∧ i3 = i ∨ sel = 4 ∧ i4 = i := by
  match sel with
  | 0 | 1 | 2 | 3 | 4 | 5 | 6 | 7 => simp [variant]

section Forms

variable {f : Fields} {i : Instr}

theorem decodeNN_eq_ok {k : Fin 8 → Fin 8 → Instr} : decodeNN f k = .ok i ↔
    f.std = false ∧ f.sel = 0 ∧ f.rs2 = 0 ∧ f.imm = 0 ∧ k (numIndex f.rd) (numIndex f.rs1) = i := by
  simp [decodeNN, decode_bind_eq_ok]

theorem decodeNNi_eq_ok {k : Fin 8 → Fin 8 → BitVec 12 → Instr} : decodeNNi f k = .ok i ↔
    f.std = false ∧ f.sel = 0 ∧ f.rs2 = 0 ∧ k (numIndex f.rd) (numIndex f.rs1) f.imm = i := by
  simp [decodeNNi, decode_bind_eq_ok]

theorem decodePair_eq_ok {k : Fin 8 → Fin 8 → Instr} : decodePair f k = .ok i ↔
    f.std = false ∧ f.sel = 0 ∧ f.rd = 0 ∧ f.imm = 0 ∧ k (numIndex f.rs1) (numIndex f.rs2) = i := by
  simp [decodePair, decode_bind_eq_ok]

theorem decodeNNN_eq_ok {k : Fin 8 → Fin 8 → Fin 8 → Instr} : decodeNNN f k = .ok i ↔
    f.std = false ∧ f.sel = 0 ∧ f.imm = 0 ∧
      k (numIndex f.rd) (numIndex f.rs1) (numIndex f.rs2) = i := by
  simp [decodeNNN, decode_bind_eq_ok]

theorem decodeFFF_eq_ok {k : Fin 4 → Fin 4 → Fin 4 → Instr} : decodeFFF f k = .ok i ↔
    f.std = false ∧ f.sel = 0 ∧ f.imm = 0 ∧ ∃ rd, ieeeField rd = f.rd ∧
      ∃ fa, ieeeField fa = f.rs1 ∧ ∃ fb, ieeeField fb = f.rs2 ∧ k rd fa fb = i := by
  simp [decodeFFF, decode_bind_eq_ok, ieeeIndex_eq_ok_iff]

theorem decodeSignm_eq_ok : decodeSignm f = .ok i ↔
    f.sel = 0 ∧ f.rd = 0 ∧ f.rs2 = 0 ∧ f.imm = 0 ∧ .signm f.log f.std (numIndex f.rs1) = i := by
  simp [decodeSignm, decode_bind_eq_ok]

theorem decodeTodec_eq_ok : decodeTodec f = .ok i ↔
    f.sel = 0 ∧ f.rs2 = 0 ∧ f.imm = 0 ∧
      .todec f.log f.std (numIndex f.rd) (numIndex f.rs1) = i := by
  simp [decodeTodec, decode_bind_eq_ok]

theorem decodeFromdec_eq_ok : decodeFromdec f = .ok i ↔
    f.sel = 0 ∧ f.rs2 = 0 ∧
      .fromdec f.log f.std (numIndex f.rd) (numIndex f.rs1) f.imm = i := by
  simp [decodeFromdec, decode_bind_eq_ok]

theorem decodeParse_eq_ok : decodeParse f = .ok i ↔
    f.std = false ∧ f.rs2 = 0 ∧ ∃ ts, textField ts = f.rs1 ∧
      variant f.sel (.parseUns f.log (numIndex f.rd) ts f.imm) (.parseSgn f.log (numIndex f.rd) ts f.imm)
        (.parseSmr f.log (numIndex f.rd) ts f.imm) (.parseOc f.log (numIndex f.rd) ts f.imm)
        (.parseTc f.log (numIndex f.rd) ts f.imm) = .ok i := by
  simp [decodeParse, decode_bind_eq_ok, textIndex_eq_ok_iff]

theorem decodeCvtk_eq_ok : decodeCvtk f = .ok i ↔
    f.std = false ∧ f.rs2 = 0 ∧ f.imm = 0 ∧
      variant f.sel (.cvtkUns f.log (numIndex f.rd) (numIndex f.rs1))
        (.cvtkSgn f.log (numIndex f.rd) (numIndex f.rs1))
        (.cvtkSmr f.log (numIndex f.rd) (numIndex f.rs1))
        (.cvtkOc f.log (numIndex f.rd) (numIndex f.rs1))
        (.cvtkTc f.log (numIndex f.rd) (numIndex f.rs1)) = .ok i := by
  simp [decodeCvtk, decode_bind_eq_ok]

theorem decodeEnc_eq_ok : decodeEnc f = .ok i ↔
    f.std = false ∧ f.imm = 0 ∧ ∃ rd, ieeeField rd = f.rd ∧ ∃ tx, textField tx = f.rs2 ∧
      variant f.sel (.encB32 f.log rd (numIndex f.rs1) tx) (.encB64 f.log rd (numIndex f.rs1) tx)
        (.encD32dpd f.log rd (numIndex f.rs1) tx) (.encD32bid f.log rd (numIndex f.rs1) tx)
        (.encH32 f.log rd (numIndex f.rs1) tx) = .ok i := by
  simp [decodeEnc, decode_bind_eq_ok, ieeeIndex_eq_ok_iff, textIndex_eq_ok_iff]

theorem decodeDec_eq_ok : decodeDec f = .ok i ↔
    f.std = false ∧ f.rs2 = 0 ∧ f.imm = 0 ∧ ∃ fs, ieeeField fs = f.rs1 ∧
      variant f.sel (.decB32 f.log (numIndex f.rd) fs) (.decB64 f.log (numIndex f.rd) fs)
        (.decD32dpd f.log (numIndex f.rd) fs) (.decD32bid f.log (numIndex f.rd) fs)
        (.decH32 f.log (numIndex f.rd) fs) = .ok i := by
  simp [decodeDec, decode_bind_eq_ok, ieeeIndex_eq_ok_iff]

theorem decodeFparse_eq_ok : decodeFparse f = .ok i ↔
    f.std = false ∧ f.rs2 = 0 ∧ f.imm = 0 ∧ ∃ rd, ieeeField rd = f.rd ∧ ∃ ts, textField ts = f.rs1 ∧
      variant f.sel (.fparseB32 f.log rd ts) (.fparseB64 f.log rd ts) (.fparseD32dpd f.log rd ts)
        (.fparseD32bid f.log rd ts) (.fparseH32 f.log rd ts) = .ok i := by
  simp [decodeFparse, decode_bind_eq_ok, ieeeIndex_eq_ok_iff, textIndex_eq_ok_iff]

theorem decodeShift_eq_ok : decodeShift f = .ok i ↔
    f.std = false ∧ f.rd = 0 ∧ numIndex f.rs1 ≤ numIndex f.rs2 ∧
      (f.sel = 0 ∧ .shl f.log (numIndex f.rs1) (numIndex f.rs2) f.imm = i ∨
        f.sel = 1 ∧ .shrl f.log (numIndex f.rs1) (numIndex f.rs2) f.imm = i ∨
        f.sel = 2 ∧ .shra f.log (numIndex f.rs1) (numIndex f.rs2) f.imm = i) := by
  obtain ⟨op, log, std, sel, rd, rs1, rs2, imm⟩ := f
  by_cases h : numIndex rs1 ≤ numIndex rs2
  all_goals match sel with
    | 0 | 1 | 2 | 3 | 4 | 5 | 6 | 7 => simp [decodeShift, decode_bind_eq_ok, h]

end Forms

/-! ### The decoder inverts the encoder -/

theorem decodeFields_encodeFields {i : Instr} (h : wellFormed i = true) :
    decodeFields (encodeFields i) = .ok i := by
  cases i with
  | stdz | compl | absv => exact decodeNN_eq_ok.2 (by simp [encodeFields])
  | padw | padf | cvtb | addlp => exact decodeNNi_eq_ok.2 (by simp [encodeFields])
  | eqlen | cmpm => exact decodePair_eq_ok.2 (by simp [encodeFields])
  | addn | mulu | divs => exact decodeNNN_eq_ok.2 (by simp [encodeFields])
  | fadd | fsub | fmul | fdiv => exact decodeFFF_eq_ok.2 ⟨rfl, rfl, rfl, _, rfl, _, rfl, _, rfl, rfl⟩
  | signm => exact decodeSignm_eq_ok.2 (by simp [encodeFields])
  | todec => exact decodeTodec_eq_ok.2 (by simp [encodeFields])
  | fromdec => exact decodeFromdec_eq_ok.2 (by simp [encodeFields])
  | parseUns | parseSgn | parseSmr | parseOc | parseTc =>
    exact decodeParse_eq_ok.2 ⟨rfl, rfl, _, rfl, by simp [encodeFields, variant]⟩
  | cvtkUns | cvtkSgn | cvtkSmr | cvtkOc | cvtkTc =>
    exact decodeCvtk_eq_ok.2 (by simp [encodeFields, variant])
  | encB32 | encB64 | encD32dpd | encD32bid | encH32 =>
    exact decodeEnc_eq_ok.2 ⟨rfl, rfl, _, rfl, _, rfl, by simp [encodeFields, variant]⟩
  | decB32 | decB64 | decD32dpd | decD32bid | decH32 =>
    exact decodeDec_eq_ok.2 ⟨rfl, rfl, rfl, _, rfl, by simp [encodeFields, variant]⟩
  | fparseB32 | fparseB64 | fparseD32dpd | fparseD32bid | fparseH32 =>
    exact decodeFparse_eq_ok.2 ⟨rfl, rfl, rfl, _, rfl, _, rfl, by simp [encodeFields, variant]⟩
  | shl | shrl | shra =>
    exact decodeShift_eq_ok.2 (by simpa [encodeFields, wellFormed] using h)

theorem eq_ofNat_of_toNat_eq {n k : Nat} {b : BitVec n} (h : b.toNat = k) : b = BitVec.ofNat n k := by
  rw [← h, BitVec.ofNat_toNat, BitVec.setWidth_eq]

/-- The cases stand in the order of the opcode map, the last one being the reserved opcodes. -/
theorem encodeFields_of_decodeFields {f : Fields} {i : Instr} (h : decodeFields f = .ok i) :
    wellFormed i = true ∧ encodeFields i = f := by
  obtain ⟨op, log, std, sel, rd, rs1, rs2, imm⟩ := f
  unfold decodeFields at h
  dsimp only at h
  split at h
  case h_26 => cases h
  all_goals
    rename_i hop
    obtain rfl := eq_ofNat_of_toNat_eq hop
  case h_1 =>
    obtain ⟨rfl, rfl, ts, rfl, h⟩ := decodeParse_eq_ok.1 h
    obtain ⟨rfl, rfl⟩ | ⟨rfl, rfl⟩ | ⟨rfl, rfl⟩ | ⟨rfl, rfl⟩ | ⟨rfl, rfl⟩ := variant_eq_ok.1 h <;>
      simp [wellFormed, encodeFields]
  case h_2 | h_8 | h_9 =>
    obtain ⟨rfl, rfl, rfl, rfl, rfl⟩ := decodeNN_eq_ok.1 h
    simp [wellFormed, encodeFields]
  case h_3 | h_4 | h_12 | h_16 =>
    obtain ⟨rfl, rfl, rfl, rfl⟩ := decodeNNi_eq_ok.1 h
    simp [wellFormed, encodeFields]
  case h_5 | h_13 =>
    obtain ⟨rfl, rfl, rfl, rfl, rfl⟩ := decodePair_eq_ok.1 h
    simp [wellFormed, encodeFields]
  case h_6 =>
    obtain ⟨rfl, rfl, rfl, rfl, rfl⟩ := decodeSignm_eq_ok.1 h
    simp [wellFormed, encodeFields]
  case h_7 =>
    obtain ⟨rfl, rfl, rfl, h⟩ := decodeCvtk_eq_ok.1 h
    obtain ⟨rfl, rfl⟩ | ⟨rfl, rfl⟩ | ⟨rfl, rfl⟩ | ⟨rfl, rfl⟩ | ⟨rfl, rfl⟩ := variant_eq_ok.1 h <;>
      simp [wellFormed, encodeFields]
  case h_10 =>
    obtain ⟨rfl, rfl, rfl, rfl⟩ := decodeTodec_eq_ok.1 h
    simp [wellFormed, encodeFields]
  case h_11 =>
    obtain ⟨rfl, rfl, rfl⟩ := decodeFromdec_eq_ok.1 h
    simp [wellFormed, encodeFields]
  case h_14 | h_17 | h_18 =>
    obtain ⟨rfl, rfl, rfl, rfl⟩ := decodeNNN_eq_ok.1 h
    simp [wellFormed, encodeFields]
  case h_15 =>
    obtain ⟨rfl, rfl, hle, ⟨rfl, rfl⟩ | ⟨rfl, rfl⟩ | ⟨rfl, rfl⟩⟩ := decodeShift_eq_ok.1 h <;>
      simpa [wellFormed, encodeFields] using hle
  case h_19 =>
    obtain ⟨rfl, rfl, rd, rfl, tx, rfl, h⟩ := decodeEnc_eq_ok.1 h
    obtain ⟨rfl, rfl⟩ | ⟨rfl, rfl⟩ | ⟨rfl, rfl⟩ | ⟨rfl, rfl⟩ | ⟨rfl, rfl⟩ := variant_eq_ok.1 h <;>
      simp [wellFormed, encodeFields]
  case h_20 =>
    obtain ⟨rfl, rfl, rfl, fs, rfl, h⟩ := decodeDec_eq_ok.1 h
    obtain ⟨rfl, rfl⟩ | ⟨rfl, rfl⟩ | ⟨rfl, rfl⟩ | ⟨rfl, rfl⟩ | ⟨rfl, rfl⟩ := variant_eq_ok.1 h <;>
      simp [wellFormed, encodeFields]
  case h_21 =>
    obtain ⟨rfl, rfl, rfl, rd, rfl, ts, rfl, h⟩ := decodeFparse_eq_ok.1 h
    obtain ⟨rfl, rfl⟩ | ⟨rfl, rfl⟩ | ⟨rfl, rfl⟩ | ⟨rfl, rfl⟩ | ⟨rfl, rfl⟩ := variant_eq_ok.1 h <;>
      simp [wellFormed, encodeFields]
  case h_22 | h_23 | h_24 | h_25 =>
    obtain ⟨rfl, rfl, rfl, rd, rfl, fa, rfl, fb, rfl, rfl⟩ := decodeFFF_eq_ok.1 h
    simp [wellFormed, encodeFields]

theorem decode_eq_ok {w : Word} {i : Instr} :
    decode w = .ok i ↔ wellFormed i = true ∧ encode i = w := by
  constructor
  · intro h
    obtain ⟨hwf, hf⟩ := encodeFields_of_decodeFields h
    exact ⟨hwf, by rw [encode, hf, Fields.toWord_ofWord]⟩
  · rintro ⟨hwf, rfl⟩
    rw [decode_encode_eq, decodeFields_encodeFields hwf]

/-- Settles O7: a word decodes to a command exactly when the command is well formed and the word is its
own. -/
theorem decodeAndEncodeAgree : Obligations.DecodeAndEncodeAgree :=
  ⟨fun _ h => decode_eq_ok.2 ⟨h, rfl⟩, fun _ _ => decode_eq_ok.1⟩

/-! ### The rows of the opcode table -/

/-- The fields `f` match the row of the command `row` in the opcode table, mask and match cut into fields
(30_encoding.md rules R71, R81). -/
def Fields.Matches (f : Fields) (row : Instr) : Prop :=
  f.op &&& (tableRow row).1.extractLsb' 26 6 = (tableRow row).2.extractLsb' 26 6 ∧
  (f.log && (tableRow row).1.getLsbD 25) = (tableRow row).2.getLsbD 25 ∧
  (f.std && (tableRow row).1.getLsbD 24) = (tableRow row).2.getLsbD 24 ∧
  f.sel &&& (tableRow row).1.extractLsb' 21 3 = (tableRow row).2.extractLsb' 21 3 ∧
  f.rd &&& (tableRow row).1.extractLsb' 18 3 = (tableRow row).2.extractLsb' 18 3 ∧
  f.rs1 &&& (tableRow row).1.extractLsb' 15 3 = (tableRow row).2.extractLsb' 15 3 ∧
  f.rs2 &&& (tableRow row).1.extractLsb' 12 3 = (tableRow row).2.extractLsb' 12 3 ∧
  f.imm &&& (tableRow row).1.extractLsb' 0 12 = (tableRow row).2.extractLsb' 0 12

theorem Fields.ofWord_matches_iff {w : Word} {row : Instr} :
    (Fields.ofWord w).Matches row ↔ w &&& (tableRow row).1 = (tableRow row).2 := by
  rw [← (Function.LeftInverse.injective Fields.toWord_ofWord).eq_iff]
  simp only [Fields.Matches, Fields.ofWord, Fields.mk.injEq, BitVec.extractLsb'_and, BitVec.getLsbD_and]

theorem and_ones_op (b : BitVec 6) : b &&& 63#6 = b := BitVec.and_allOnes

theorem and_ones_index (b : BitVec 3) : b &&& 7#3 = b := BitVec.and_allOnes

theorem and_ones_imm (b : BitVec 12) : b &&& 4095#12 = b := BitVec.and_allOnes

/-- A legal text index leaves the two upper bits of its field 0 (rule R73). -/
theorem and_text_eq_zero {b : BitVec 3} : b &&& 6#3 = 0#3 ↔ ∃ i, textField i = b := by
  revert b; decide

/-- A legal IEEE index leaves the upper bit of its field 0 (rule R73). -/
theorem and_ieee_eq_zero {b : BitVec 3} : b &&& 4#3 = 0#3 ↔ ∃ i, ieeeField i = b := by
  revert b; decide

theorem encodeFields_matches (i : Instr) : (encodeFields i).Matches i := by
  cases i
  all_goals
    simp only [Fields.Matches, tableRow, encodeFields]
    simp [and_ones_op, and_ones_index, and_text_eq_zero, and_ieee_eq_zero]

/-- The fields that a row fixes are those that the decoder of its form checks (rules R78, R80). -/
theorem exists_decodeFields {f : Fields} {row : Instr} (h : f.Matches row)
    (hle : f.op = 0x1A#6 → f.rs1.toNat ≤ f.rs2.toNat) : ∃ i, decodeFields f = .ok i := by
  rw [decodeFields]
  cases row
  all_goals
    simp only [Fields.Matches, tableRow] at h
    simp only [BitVec.reduceExtractLsb', BitVec.reduceGetLsb, BitVec.and_zero, Bool.and_false,
      Bool.and_true, and_ones_op, and_ones_index, and_ones_imm, and_text_eq_zero, and_ieee_eq_zero] at h
    obtain ⟨hop, -, hstd, hsel, hrd, hrs1, hrs2, himm⟩ := h
    rw [hop]
  case stdz | compl | absv => exact ⟨_, decodeNN_eq_ok.2 ⟨hstd, hsel, hrs2, himm, rfl⟩⟩
  case padw | padf | cvtb | addlp => exact ⟨_, decodeNNi_eq_ok.2 ⟨hstd, hsel, hrs2, rfl⟩⟩
  case eqlen | cmpm => exact ⟨_, decodePair_eq_ok.2 ⟨hstd, hsel, hrd, himm, rfl⟩⟩
  case addn | mulu | divs => exact ⟨_, decodeNNN_eq_ok.2 ⟨hstd, hsel, himm, rfl⟩⟩
  case signm => exact ⟨_, decodeSignm_eq_ok.2 ⟨hsel, hrd, hrs2, himm, rfl⟩⟩
  case todec => exact ⟨_, decodeTodec_eq_ok.2 ⟨hsel, hrs2, himm, rfl⟩⟩
  case fromdec => exact ⟨_, decodeFromdec_eq_ok.2 ⟨hsel, hrs2, rfl⟩⟩
  case parseUns | parseSgn | parseSmr | parseOc | parseTc =>
    obtain ⟨ts, hts⟩ := hrs1
    exact ⟨_, decodeParse_eq_ok.2 ⟨hstd, hrs2, ts, hts, by rw [hsel]; rfl⟩⟩
  case cvtkUns | cvtkSgn | cvtkSmr | cvtkOc | cvtkTc =>
    exact ⟨_, decodeCvtk_eq_ok.2 ⟨hstd, hrs2, himm, by rw [hsel]; rfl⟩⟩
  case encB32 | encB64 | encD32dpd | encD32bid | encH32 =>
    obtain ⟨rd, hrd⟩ := hrd
    obtain ⟨tx, htx⟩ := hrs2
    exact ⟨_, decodeEnc_eq_ok.2 ⟨hstd, himm, rd, hrd, tx, htx, by rw [hsel]; rfl⟩⟩
  case decB32 | decB64 | decD32dpd | decD32bid | decH32 =>
    obtain ⟨fs, hfs⟩ := hrs1
    exact ⟨_, decodeDec_eq_ok.2 ⟨hstd, hrs2, himm, fs, hfs, by rw [hsel]; rfl⟩⟩
  case fparseB32 | fparseB64 | fparseD32dpd | fparseD32bid | fparseH32 =>
    obtain ⟨rd, hrd⟩ := hrd
    obtain ⟨ts, hts⟩ := hrs1
    exact ⟨_, decodeFparse_eq_ok.2 ⟨hstd, hrs2, himm, rd, hrd, ts, hts, by rw [hsel]; rfl⟩⟩
  case fadd | fsub | fmul | fdiv =>
    obtain ⟨rd, hrd⟩ := hrd
    obtain ⟨fa, hfa⟩ := hrs1
    obtain ⟨fb, hfb⟩ := hrs2
    exact ⟨_, decodeFFF_eq_ok.2 ⟨hstd, hsel, himm, rd, hrd, fa, hfa, fb, hfb, rfl⟩⟩
  case shl => exact ⟨_, decodeShift_eq_ok.2 ⟨hstd, hrd, hle hop, .inl ⟨hsel, rfl⟩⟩⟩
  case shrl => exact ⟨_, decodeShift_eq_ok.2 ⟨hstd, hrd, hle hop, .inr (.inl ⟨hsel, rfl⟩)⟩⟩
  case shra => exact ⟨_, decodeShift_eq_ok.2 ⟨hstd, hrd, hle hop, .inr (.inr ⟨hsel, rfl⟩)⟩⟩

theorem shift_order_of_decodeFields {f : Fields} {i : Instr} (h : decodeFields f = .ok i)
    (hop : f.op = 0x1A#6) : f.rs1.toNat ≤ f.rs2.toNat := by
  rw [decodeFields, hop] at h
  obtain ⟨-, -, hle, -⟩ := decodeShift_eq_ok.1 h
  exact hle

theorem matches_own_row {w : Word} {i : Instr} (h : decode w = .ok i) :
    w &&& (tableRow i).1 = (tableRow i).2 := by
  obtain ⟨-, hf⟩ := encodeFields_of_decodeFields h
  exact Fields.ofWord_matches_iff.1 (hf ▸ encodeFields_matches i)

/-- Settles O8: a decoded command matches its own row, and a word that matches some row passes every
check of that row's form. -/
theorem legalWordsAreThoseOfTheTable : Obligations.LegalWordsAreThoseOfTheTable := by
  refine fun w => ⟨⟨?_, ?_⟩, fun _ => matches_own_row⟩
  · rintro ⟨i, h⟩
    exact ⟨⟨i, matches_own_row h⟩, shift_order_of_decodeFields h⟩
  · rintro ⟨⟨row, hrow⟩, hle⟩
    exact exists_decodeFields (Fields.ofWord_matches_iff.2 hrow) hle

/-- Settles O9, by running the decoder. -/
theorem wordsOfTheSpecDecode : Obligations.WordsOfTheSpecDecode :=
  ⟨rfl, rfl, rfl, rfl, rfl⟩

end Sys2Proof
end

section
/-! PROOFS. The digit maps and the two readers of `PARSE` (40_numeral_primitives.md rules R90 to R93): the
character of a digit and back, what the digit loop makes of a text of digits, and the sign run of each
kind. -/

namespace Sys2Proof.Machine

/-! ### The digit maps -/

theorem dv_eq_ok_of_toNat {c : Byte} {v : Nat} (hv : v ≤ 35)
    (hc : c.toNat = if v ≤ 9 then 0x30 + v else 0x41 + v - 10) : dv c = .ok (cell v) := by
  unfold dv
  split at hc
  · rw [if_pos (by omega), hc, Nat.add_sub_cancel_left]
  · rw [if_neg (by omega), if_pos (by omega), hc, show 0x41 + v - 10 - 0x41 + 10 = v by omega]

/-- `dv` inverts `valueDigit` (rule R91). -/
theorem valueDigit_of_le {v : Nat} (hv : v ≤ 35) : ∃ c, valueDigit v = .ok c ∧
    c.toNat = (if v ≤ 9 then 0x30 + v else 0x41 + v - 10) ∧ dv c = .ok (cell v) := by
  refine ⟨BitVec.ofNat 8 (if v ≤ 9 then 0x30 + v else 0x41 + v - 10), ?_, ?_, ?_⟩
  · rw [valueDigit, if_pos hv]; split <;> rfl
  · rw [BitVec.toNat_ofNat]; split <;> omega
  · refine dv_eq_ok_of_toNat hv ?_
    rw [BitVec.toNat_ofNat]; split <;> omega

/-- A character is the one of a digit value, or `dv` rejects it (rule R90). -/
theorem dv_cases (c : Byte) : dv c = .error .invalidDigit ∨
    ∃ v, v ≤ 35 ∧ dv c = .ok (cell v) ∧ valueDigit v = .ok c := by
  unfold dv
  split
  · exact .inr ⟨c.toNat - 0x30, by omega, rfl, by
      rw [valueDigit, if_pos (by omega), show 0x30 + (c.toNat - 0x30) = c.toNat by omega,
        BitVec.ofNat_toNat, BitVec.setWidth_eq]⟩
  · split
    · exact .inr ⟨c.toNat - 0x41 + 10, by omega, rfl, by
        rw [valueDigit, if_neg (by omega), if_pos (by omega),
          show 0x41 + (c.toNat - 0x41 + 10) - 10 = c.toNat by omega,
          BitVec.ofNat_toNat, BitVec.setWidth_eq]⟩
    · exact .inl rfl

/-- Settles O21, by the ranges of the digit characters. -/
theorem digitMapsAreInverse : Obligations.DigitMapsAreInverse := by
  refine ⟨fun v => valueDigit_of_le, fun v hv => ?_, fun c d hd => ?_, fun c => ?_⟩
  · rw [valueDigit, if_neg (by omega), if_neg (by omega)]
  · rcases dv_cases c with he | ⟨v, hv, hok, hc⟩
    · simp [he] at hd
    · obtain rfl : cell v = d := by simpa [hok] using hd
      rwa [cell_val (by omega)]
  · exact (dv_cases c).imp_right fun ⟨v, _, hok, _⟩ => ⟨cell v, hok⟩

theorem dv_digitChar {d : Cell} (h : d.val ≤ 35) : dv (digitChar d) = .ok d := by
  obtain ⟨c, hc, -, hdv⟩ := valueDigit_of_le h
  rw [digitChar, hc, hdv]
  exact congrArg _ (Fin.ext (cell_val d.isLt))

theorem digitChar_ne_point {d : Cell} (h : d.val ≤ 35) : digitChar d ≠ 0x2E#8 := by
  intro hc
  have hdv := dv_digitChar h
  rw [hc] at hdv
  cases hdv

theorem isSignChar_eq_true_iff {c : Byte} : isSignChar c = true ↔ ∃ m, c = signChar m := by
  simp [isSignChar, signChar]

theorem dv_signChar (m : Bool) : dv (signChar m) = .error .invalidDigit := by
  cases m <;> rfl

theorem isSignChar_digitChar {d : Cell} (h : d.val ≤ 35) : isSignChar (digitChar d) = false := by
  rw [Bool.eq_false_iff, ne_eq, isSignChar_eq_true_iff]
  rintro ⟨m, hm⟩
  have hdv := dv_digitChar h
  rw [hm, dv_signChar] at hdv
  cases hdv

/-! ### The digit loop -/

theorem parseDigits_point_of_seen (r : Nat) (cs : Text) :
    parseDigits r true (0x2E#8 :: cs) = .error .invalidInput := rfl

theorem parseDigits_point_of_not_seen (r : Nat) (cs : Text) :
    parseDigits r false (0x2E#8 :: cs) = parseDigits r true cs := rfl

theorem parseDigits_badDigit {r : Nat} {c : Byte} (h : badDigit r c) (seen : Bool) (cs : Text) :
    parseDigits r seen (c :: cs) = .error .invalidDigit := by
  obtain ⟨hp, hv⟩ := h
  rw [parseDigits, if_neg hp]
  rcases dv_cases c with he | ⟨v, -, hok, -⟩
  · rw [he, except_error_bind]
  · rw [hok, except_ok_bind, failIf_pos (hv _ hok), except_error_bind]

/-- Digits below the radix go to the whole part before the point and to the fraction after it. -/
theorem parseDigits_digits {r : Nat} (hr : r ≤ 35) (seen : Bool) {ds : List Cell}
    (hd : ∀ d ∈ ds, d.val < r) (rest : Text) :
    parseDigits r seen (ds.map digitChar ++ rest) = parseDigits r seen rest >>= fun wf =>
      .ok (if seen then (wf.1, ds ++ wf.2) else (ds ++ wf.1, wf.2)) := by
  induction ds with
  | nil =>
    rw [List.map_nil, List.nil_append]
    cases parseDigits r seen rest <;> cases seen <;> rfl
  | cons d ds ih =>
    have hlt : d.val < r := hd d (by simp)
    rw [List.map_cons, List.cons_append, parseDigits, if_neg (digitChar_ne_point (by omega)),
      dv_digitChar (by omega), except_ok_bind, failIf_neg (by omega), except_ok_bind,
      ih fun e he => hd e (by simp [he])]
    cases parseDigits r seen rest <;> cases seen <;> rfl

section DigitText

variable {r : Nat} {whole fraction : List Cell} {point : Bool}

/-- The loop reads the whole digits, the point and the fraction digits, and goes on with the rest. -/
theorem parseDigits_digitText (hr : r ≤ 35) (hd : ∀ d ∈ whole ++ fraction, d.val < r)
    (hp : point = false → fraction = []) (rest : Text) :
    parseDigits r false (digitText whole fraction point ++ rest) =
      parseDigits r point rest >>= fun wf => .ok (whole ++ wf.1, fraction ++ wf.2) := by
  have hw : ∀ d ∈ whole, d.val < r := fun d h => hd d (by simp [h])
  have hf : ∀ d ∈ fraction, d.val < r := fun d h => hd d (by simp [h])
  rw [digitText, List.append_assoc, parseDigits_digits hr false hw]
  cases point with
  | false =>
    rw [hp rfl]
    rfl
  | true =>
    rw [if_pos rfl, List.cons_append, parseDigits_point_of_not_seen, parseDigits_digits hr true hf]
    cases parseDigits r true rest <;> rfl

/-- No digit and no point is a sign character, so a sign run ends before them. -/
theorem isSignChar_head_digitText (hr : r ≤ 35) (hd : ∀ d ∈ whole ++ fraction, d.val < r) {rest : Text}
    (h : digitText whole fraction point ≠ [] ∨ ∀ c ∈ rest.head?, isSignChar c = false) :
    ∀ c ∈ (digitText whole fraction point ++ rest).head?, isSignChar c = false := by
  cases whole with
  | cons d ds =>
    have hlt := hd d (by simp)
    simpa [digitText] using isSignChar_digitChar (show d.val ≤ 35 by omega)
  | nil =>
    cases point with
    | true => simp [digitText, isSignChar]
    | false => simpa [digitText] using h

end DigitText

/-! ### The sign run of each kind -/

theorem takeWhile_append_of_head {α : Type} {p : α → Bool} {l m : List α} (hl : ∀ a ∈ l, p a = true)
    (hm : ∀ a ∈ m.head?, p a = false) :
    (l ++ m).takeWhile p = l ∧ (l ++ m).dropWhile p = m := by
  rw [List.takeWhile_append_of_pos hl, List.dropWhile_append_of_pos hl]
  cases m with
  | nil => simp
  | cons a m => simp [hm a rfl]

/-- The sign characters `minus` are the whole sign run before `body`: a SIGNED run ends at the first other
character, an UNSIGNED text has none (rule R93). -/
def MagnitudeRun (k : Kind) (minus : List Bool) (body : Text) : Prop :=
  k = .signed ∧ (∀ c ∈ body.head?, isSignChar c = false) ∨ k = .unsigned ∧ minus = []

theorem MagnitudeRun.needsDigit {k : Kind} {minus : List Bool} {body : Text}
    (h : MagnitudeRun k minus body) : needsDigit k = true := by
  rcases h with ⟨rfl, -⟩ | ⟨rfl, -⟩ <;> rfl

/-- UNSIGNED takes no sign, SIGNED the run of sign characters (rule R93). -/
theorem splitSign_magnitude {k : Kind} {minus : List Bool} {body : Text} (r : Nat)
    (hk : MagnitudeRun k minus body) :
    splitSign k r (minus.map signChar ++ body) =
      .ok (minus.map (fun m => if m then 1 else 0), body) := by
  rcases hk with ⟨rfl, hb⟩ | ⟨rfl, rfl⟩
  · have hrun : ∀ c ∈ minus.map signChar, isSignChar c = true := fun c hc => by
      obtain ⟨m, -, rfl⟩ := List.mem_map.1 hc
      exact isSignChar_eq_true_iff.2 ⟨m, rfl⟩
    have hcell : signCell ∘ signChar = fun m => if m then 1 else 0 := by
      funext m; cases m <;> rfl
    obtain ⟨htake, hdrop⟩ := takeWhile_append_of_head hrun hb
    rw [splitSign, htake, hdrop, List.map_map, hcell]
  · rfl

theorem firstSignDigit_digitChar {r : Nat} {v : Cell} (hv : v.val ≤ 35)
    (h : v = 0 ∨ v.val + 1 = r) : firstSignDigit r (digitChar v) = .ok v := by
  have hsign : ¬ (v.val ≠ 0 ∧ v.val + 1 ≠ r) := by
    rcases h with rfl | h
    · simp
    · exact fun hc => hc.2 h
  rw [firstSignDigit, failIf_neg (digitChar_ne_point hv), except_ok_bind, dv_digitChar hv,
    except_ok_bind, failIf_neg hsign, except_ok_bind]

theorem firstSignDigit_point {r : Nat} {c : Byte} (h : c = 0x2E#8) :
    firstSignDigit r c = .error .invalidInput := bind_of_error (failIf_pos h) _

theorem firstSignDigit_of_dv_error {r : Nat} {c : Byte} {e : Failure} (hc : c ≠ 0x2E#8)
    (h : dv c = .error e) : firstSignDigit r c = .error e := by
  rw [firstSignDigit, failIf_neg hc, except_ok_bind, h, except_error_bind]

theorem firstSignDigit_of_other {r : Nat} {c : Byte} {v : Cell} (h : dv c = .ok v) (h0 : v ≠ 0)
    (htop : v.val + 1 ≠ r) : firstSignDigit r c = .error .invalidInput := by
  have hc : c ≠ 0x2E#8 := by rintro rfl; cases h
  rw [firstSignDigit, failIf_neg hc, except_ok_bind, h, except_ok_bind,
    failIf_pos ⟨Fin.val_ne_zero_iff.2 h0, htop⟩, except_error_bind]

/-- SMR takes one sign digit, OC and TC the maximal run of its copies (rule R93). -/
theorem splitSign_positional {k : Kind} {r : Nat} {v : Cell} {more : Nat} {body : Text}
    (hk : k = .signMagnitude ∧ more = 0 ∨
      (k = .onesComplement ∨ k = .twosComplement) ∧ body.head? ≠ some (digitChar v))
    (hv : v.val ≤ 35) (hs : v = 0 ∨ v.val + 1 = r) :
    splitSign k r (List.replicate (more + 1) (digitChar v) ++ body) =
      .ok (List.replicate (more + 1) v, body) := by
  have hfirst := firstSignDigit_digitChar hv hs
  rcases hk with ⟨rfl, rfl⟩ | ⟨hk, hb⟩
  · rw [List.replicate_one, List.singleton_append, splitSign, hfirst]; rfl
  · obtain ⟨htake, hdrop⟩ := takeWhile_append_of_head (p := fun d => d == digitChar v)
      (l := List.replicate (more + 1) (digitChar v)) (m := body)
      (fun a ha => by simpa using (List.mem_replicate.1 ha).2)
      (fun a ha => by simpa using fun h : a = digitChar v => hb (h ▸ ha))
    rw [List.replicate_succ, List.cons_append] at htake hdrop ⊢
    rcases hk with rfl | rfl <;>
      rw [splitSign, hfirst, except_ok_bind, htake, hdrop] <;> simp [List.replicate_succ]

/-- The first character of a text whose kind takes a sign digit decides its failure (rule R93). -/
theorem splitSign_of_firstSignDigit_error {k : Kind} {r : Nat} {c : Byte} {e : Failure}
    (hk : k = .signMagnitude ∨ k = .onesComplement ∨ k = .twosComplement)
    (h : firstSignDigit r c = .error e) (cs : Text) : splitSign k r (c :: cs) = .error e := by
  rcases hk with rfl | rfl | rfl <;> rw [splitSign, h] <;> rfl

end Sys2Proof.Machine
end

section
/-! PROOFS. The commands `PARSE.k` (40_numeral_primitives.md rule R93): what `parse` makes of a sign run, a
text of digits and a rest, and from this the outcomes of the commands. -/

namespace Sys2Proof.Machine

/-! ### The outcomes of `parse` -/

/-- The last checks of `parse` and its result, from the sign run and the digits that the text gave
(`parseText_eq`). -/
def parsedNumeral (caps : Capacities) (k : Kind) (r : Nat) (sign whole fraction : List Cell) :
    Except Failure Numeral := do
  failIf (whole = [] ∧ fraction = [] ∧ needsDigit k) .invalidInput
  failIf (exceeds caps.scap sign.length ∨ exceeds caps.wcap whole.length ∨
    exceeds caps.fcap fraction.length) .capacityExceeded
  .ok ⟨sign, whole, fraction, cell r, k⟩

section Outcomes

variable {caps : Capacities} {k : Kind} {r : Nat} {raw : Text} {sign whole fraction : List Cell}

theorem parseText_of_invalidBase (h : r < 2 ∨ 35 < r) :
    parseText caps k r (some raw) = .error .invalidBase := by
  rw [parseText, held_some, except_ok_bind, failIf_pos h, except_error_bind]

theorem parseText_of_empty (h2 : 2 ≤ r) (h35 : r ≤ 35) (ht : stripSpaces raw = []) :
    parseText caps k r (some raw) = .error .invalidInput := by
  rw [parseText, held_some, except_ok_bind, failIf_neg (by omega), except_ok_bind]
  exact bind_of_error (failIf_pos ht) _

/-- With a legal radix `parse` is the sign run, the digit loop and the last checks: these reject the
empty text of the kinds that take no sign digit too. -/
theorem parseText_eq (h2 : 2 ≤ r) (h35 : r ≤ 35) : parseText caps k r (some raw) =
    splitSign k r (stripSpaces raw) >>= fun st => parseDigits r false st.2 >>= fun wf =>
      parsedNumeral caps k r st.1 wf.1 wf.2 := by
  by_cases ht : stripSpaces raw = []
  · rw [parseText_of_empty h2 h35 ht, ht]
    cases k <;> rfl
  · rw [parseText, held_some, except_ok_bind, failIf_neg (by omega), except_ok_bind]
    dsimp only
    rw [failIf_neg ht, except_ok_bind]
    rfl

theorem parsedNumeral_of_no_digit (hk : needsDigit k = true) (h : whole ++ fraction = []) :
    parsedNumeral caps k r sign whole fraction = .error .invalidInput := by
  obtain ⟨rfl, rfl⟩ := List.append_eq_nil_iff.1 h
  exact bind_of_error (failIf_pos ⟨rfl, rfl, hk⟩) _

/-- The last check of a text with all the digits its kind needs is the capacity. -/
theorem parsedNumeral_of_digits (hk : needsDigit k = true → whole ++ fraction ≠ []) :
    parsedNumeral caps k r sign whole fraction =
      if !exceeds caps.scap sign.length && !exceeds caps.wcap whole.length &&
        !exceeds caps.fcap fraction.length
      then .ok ⟨sign, whole, fraction, cell r, k⟩ else .error .capacityExceeded := by
  have hd : ¬ (whole = [] ∧ fraction = [] ∧ needsDigit k = true) := fun ⟨hw, hf, hn⟩ =>
    hk hn (List.append_eq_nil_iff.2 ⟨hw, hf⟩)
  rw [parsedNumeral, failIf_neg hd, except_ok_bind]
  cases exceeds caps.scap sign.length <;> cases exceeds caps.wcap whole.length <;>
    cases exceeds caps.fcap fraction.length <;> rfl

section Body

variable {point : Bool} {rest : Text} (h2 : 2 ≤ r) (h35 : r ≤ 35)
  (hsplit : splitSign k r (stripSpaces raw) = .ok (sign, digitText whole fraction point ++ rest))
  (hd : ∀ d ∈ whole ++ fraction, d.val < r) (hp : point = false → fraction = [])
include h2 h35 hsplit hd hp

/-- After the sign run and a text of digits the rest of the text decides. -/
theorem parseText_of_split : parseText caps k r (some raw) =
    parseDigits r point rest >>= fun wf =>
      parsedNumeral caps k r sign (whole ++ wf.1) (fraction ++ wf.2) := by
  rw [parseText_eq h2 h35, hsplit, except_ok_bind, parseDigits_digitText h35 hd hp]
  cases parseDigits r point rest <;> rfl

theorem parseText_of_digitText (hrest : rest = []) :
    parseText caps k r (some raw) = parsedNumeral caps k r sign whole fraction := by
  rw [parseText_of_split h2 h35 hsplit hd hp, hrest, parseDigits, except_ok_bind, List.append_nil,
    List.append_nil]

theorem parseText_of_second_point {tail : Text} (hrest : rest = 0x2E#8 :: tail)
    (hpoint : point = true) : parseText caps k r (some raw) = .error .invalidInput := by
  rw [parseText_of_split h2 h35 hsplit hd hp, hrest, hpoint, parseDigits_point_of_seen,
    except_error_bind]

theorem parseText_of_badDigit {c : Byte} {tail : Text} (hrest : rest = c :: tail)
    (hc : badDigit r c) : parseText caps k r (some raw) = .error .invalidDigit := by
  rw [parseText_of_split h2 h35 hsplit hd hp, hrest, parseDigits_badDigit hc, except_error_bind]

end Body

end Outcomes

/-! ### The commands -/

theorem exec_parseOf {s : State} {ts : Fin 2} {text : Text} (h : s.readT ts = some text) (k : Kind)
    (log : Bool) (rd : Fin 8) (radix : BitVec 12) : exec (parseOf k log rd ts radix) s =
      finishN rd (parseText s.caps k radix.toNat (some text)) s := by
  rw [← h]; cases k <;> rfl

theorem finishN_of_ok {rd : Fin 8} {r : Except Failure Numeral} {x : Numeral} (h : r = .ok x)
    (s : State) : finishN rd r s = .next (succeed false (s.setN rd (some x))) := by
  rw [h]; rfl

/-- Settles O22: the sign run is split off, the digit loop reads the digit text, and the rest of the
text decides, for both kinds alike. -/
theorem parseReadsMagnitudeTexts : Obligations.ParseReadsMagnitudeTexts := by
  intro s log rd ts radix text ht fails
  have fail {k : Kind} {c : Failure}
      (h : parseText s.caps k radix.toNat (some text) = .error c) : fails k c :=
    (exec_parseOf ht k log rd radix).trans (finishN_of_error h s)
  refine ⟨fun hr => ⟨fail (parseText_of_invalidBase hr), fail (parseText_of_invalidBase hr)⟩,
    fun h2 h35 minus whole fraction point rest htext hd hp => ?_⟩
  intro fits
  let body : Text := digitText whole fraction point ++ rest
  have signed (h : digitText whole fraction point ≠ [] ∨ ∀ c ∈ rest.head?, isSignChar c = false) :
    MagnitudeRun .signed minus body := .inl ⟨rfl, isSignChar_head_digitText h35 hd h⟩
  have unsigned (hm : minus = []) : MagnitudeRun .unsigned minus body := .inr ⟨rfl, hm⟩
  have split {k : Kind} (hk : MagnitudeRun k minus body) : splitSign k radix.toNat
      (stripSpaces text) = .ok (minus.map (fun m => if m then 1 else 0), body) := by
    rw [stripSpaces, htext, List.append_assoc]
    exact splitSign_magnitude _ hk
  have fail_both {c : Failure} (hsigned : MagnitudeRun .signed minus body)
      (h : ∀ k, MagnitudeRun k minus body →
        parseText s.caps k radix.toNat (some text) = .error c) :
      fails .signed c ∧ (minus = [] → fails .unsigned c) :=
    ⟨fail (h _ hsigned), fun hm => fail (h _ (unsigned hm))⟩
  have read {k : Kind} (hk : MagnitudeRun k minus body) (hrest : rest = []) :
      parseText s.caps k radix.toNat (some text) = parsedNumeral s.caps k radix.toNat
        (minus.map (fun m => if m then 1 else 0)) whole fraction :=
    parseText_of_digitText h2 h35 (split hk) hd hp hrest
  have read_digits {k : Kind} (hk : MagnitudeRun k minus body) (hrest : rest = [])
      (hne : whole ++ fraction ≠ []) :
      parseText s.caps k radix.toNat (some text) = if fits = true then
        .ok ⟨minus.map (fun m => if m then 1 else 0), whole, fraction, cell radix.toNat, k⟩
        else .error .capacityExceeded := by
    rw [read hk hrest, parsedNumeral_of_digits fun _ => hne, List.length_map]
  have ended (hrest : rest = []) : MagnitudeRun .signed minus body := signed (.inr (by simp [hrest]))
  refine ⟨fun hrest hne hfit => ⟨?_, fun hm => ?_⟩, fun hrest hne hfit => ?_, fun hrest hno => ?_,
    fun c tail hrest => ⟨fun hc hpoint => ?_, fun hc => ?_⟩⟩
  · exact (exec_parseOf ht .signed log rd radix).trans
      (finishN_of_ok ((read_digits (ended hrest) hrest hne).trans (if_pos hfit)) s)
  · subst hm
    exact (exec_parseOf ht .unsigned log rd radix).trans
      (finishN_of_ok ((read_digits (unsigned rfl) hrest hne).trans (if_pos hfit)) s)
  · exact fail_both (ended hrest) fun k hk =>
      (read_digits hk hrest hne).trans (if_neg (by simp [hfit]))
  · exact fail_both (ended hrest) fun k hk =>
      (read hk hrest).trans (parsedNumeral_of_no_digit hk.needsDigit hno)
  · exact fail_both (signed (.inl (by simp [digitText, hpoint]))) fun k hk =>
      parseText_of_second_point h2 h35 (split hk) hd hp (hc ▸ hrest) hpoint
  · have bad {k : Kind} (hk : MagnitudeRun k minus body) :=
      parseText_of_badDigit (caps := s.caps) h2 h35 (split hk) hd hp hrest hc
    refine ⟨fun hfirst => fail (bad (signed (hfirst.imp_right fun hne => ?_))),
      fun hm => fail (bad (unsigned hm))⟩
    simpa [hrest, Bool.eq_false_iff, isSignChar_eq_true_iff] using hne

/-- Settles O23: the first character is checked as a sign digit, its run is split off, and the rest is
read as for the other kinds. -/
theorem parseReadsPositionalTexts : Obligations.ParseReadsPositionalTexts := by
  intro s log rd ts radix text k ht hk fails t
  have fail {c : Failure} (h : parseText s.caps k radix.toNat (some text) = .error c) : fails c :=
    (exec_parseOf ht k log rd radix).trans (finishN_of_error h s)
  refine ⟨fun hr => fail (parseText_of_invalidBase hr), fun h2 h35 =>
    ⟨fun hnil => fail (parseText_of_empty h2 h35 hnil), fun c tail hc => ?_,
      fun v more whole fraction point rest htext hv hd hp hsmr hrun => ?_⟩⟩
  · -- the first character is no sign digit
    have first {e : Failure} (he : firstSignDigit radix.toNat c = .error e) : fails e := by
      refine fail ((parseText_eq h2 h35).trans (bind_of_error ?_ _))
      rw [show stripSpaces text = c :: tail from hc]
      exact splitSign_of_firstSignDigit_error hk he tail
    refine ⟨fun hpoint => first (firstSignDigit_point hpoint), fun hpoint hdv =>
      first (firstSignDigit_of_dv_error hpoint hdv), fun v hdv h0 htop =>
      first (firstSignDigit_of_other hdv h0 htop)⟩
  · intro fits
    have hv35 : v.val ≤ 35 := by rcases hv with rfl | hv <;> [exact Nat.zero_le _; omega]
    have split : splitSign k radix.toNat (stripSpaces text) =
        .ok (List.replicate (more + 1) v, digitText whole fraction point ++ rest) := by
      rw [show stripSpaces text = t from rfl, htext, List.append_assoc]
      refine splitSign_positional ?_ hv35 hv
      rcases hk with hk | hk
      · exact .inl ⟨hk, hsmr hk⟩
      · exact .inr ⟨hk, hrun (by rcases hk with rfl | rfl <;> decide)⟩
    have read (hrest : rest = []) : parseText s.caps k radix.toNat (some text) =
        parsedNumeral s.caps k radix.toNat (List.replicate (more + 1) v) whole fraction :=
      parseText_of_digitText h2 h35 split hd hp hrest
    have read_digits (hrest : rest = []) (hne : k = .signMagnitude → whole ++ fraction ≠ []) :
        parseText s.caps k radix.toNat (some text) = if fits = true then
          .ok ⟨List.replicate (more + 1) v, whole, fraction, cell radix.toNat, k⟩
          else .error .capacityExceeded := by
      have hneeds : needsDigit k = true → whole ++ fraction ≠ [] := by
        rcases hk with rfl | rfl | rfl
        · exact fun _ => hne rfl
        · nofun
        · nofun
      rw [read hrest, parsedNumeral_of_digits hneeds, List.length_replicate]
    refine ⟨fun hrest hkind hno => ?_, fun hrest hne => ⟨fun hfit => ?_, fun hfit => ?_⟩,
      fun c tail hrest => ⟨fun hc hpoint => ?_, fun hc => ?_⟩⟩
    · exact fail ((read hrest).trans (parsedNumeral_of_no_digit (hkind ▸ rfl) hno))
    · exact fail ((read_digits hrest hne).trans (if_neg (by simp [hfit])))
    · exact (exec_parseOf ht k log rd radix).trans
        (finishN_of_ok ((read_digits hrest hne).trans (if_pos hfit)) s)
    · exact fail (parseText_of_second_point h2 h35 split hd hp (hc ▸ hrest) hpoint)
    · exact fail (parseText_of_badDigit h2 h35 split hd hp hrest hc)

end Sys2Proof.Machine
end

section
/-! PROOFS. Pad digits leave the value alone (40_numeral_primitives.md rule R101), and what rests on it:
`PADW`, `PADF` and `EQLEN` (rules R97 to R99). -/

namespace Sys2Proof.Machine

/-! ### A numeral with pad digits added -/

/-- `n` is `m` with pad digits of `m` prepended to the whole part and appended to the fraction, and a sign
run of the same sign multiplier. -/
structure Numeral.Padded (m n : Numeral) : Prop where
  kind : n.kind = m.kind
  radix : n.radix = m.radix
  sm : n.sm = m.sm
  whole : ∃ k, n.whole = List.replicate k m.wp ++ m.whole
  fraction : ∃ k, n.fraction = m.fraction ++ List.replicate k m.fp

theorem Numeral.padTo_padded (n : Numeral) (w f : Nat) : n.Padded (n.padTo w f) :=
  ⟨rfl, rfl, rfl, ⟨_, rfl⟩, ⟨_, rfl⟩⟩

theorem Numeral.padWhole_padded (n : Numeral) (len : Nat) :
    n.Padded { n with whole := n.padWhole len } :=
  ⟨rfl, rfl, rfl, ⟨_, rfl⟩, ⟨0, (List.append_nil _).symm⟩⟩

theorem Numeral.padFraction_padded (n : Numeral) (len : Nat) :
    n.Padded { n with fraction := n.padFraction len } :=
  ⟨rfl, rfl, rfl, ⟨0, rfl⟩, ⟨_, rfl⟩⟩

/-! ### The pad digits of a valid numeral -/

theorem Numeral.topDigit_val (n : Numeral) : n.topDigit.val = n.radix.val - 1 :=
  cell_val (by have := n.radix.isLt; omega)

/-- The sign token of a valid numeral of a complement kind, as its whole pad digit. -/
theorem Numeral.wp_of_valid_complement {n : Numeral} (hv : n.valid = true)
    (hk : n.kind = .onesComplement ∨ n.kind = .twosComplement) :
    n.sm = .plus ∧ n.wp = 0 ∨ n.sm = .minus ∧ n.wp = n.topDigit := by
  obtain ⟨k, t, hsign, hsm, ht⟩ := Numeral.sign_of_valid_complement hk hv
  obtain ⟨⟨h2, -⟩, -⟩ := (Numeral.valid_iff n).1 hv
  have hwp : n.wp = t := by rcases hk with hk | hk <;> simp [Numeral.wp, hk, hsign, List.replicate_succ]
  by_cases h0 : t = 0
  · exact .inl ⟨by rw [hsm, tokenSign, if_pos h0], hwp.trans h0⟩
  · have ht := ht.resolve_left h0
    refine .inr ⟨by rw [hsm, tokenSign, if_neg h0, if_pos ht], hwp.trans (Fin.ext ?_)⟩
    rw [Numeral.topDigit_val]; omega

/-- The pad digits of a valid numeral are 0, but for the digit `r-1` of a negative complement (rule
R101). -/
theorem Numeral.pad_digits {n : Numeral} (hv : n.valid = true) :
    (n.sm = .plus ∨ n.kind = .unsigned ∨ n.kind = .signed ∨ n.kind = .signMagnitude) ∧
        n.wp = 0 ∧ n.fp = 0 ∨
      n.kind = .twosComplement ∧ n.sm = .minus ∧ n.wp = n.topDigit ∧ n.fp = 0 ∨
      n.kind = .onesComplement ∧ n.sm = .minus ∧ n.wp = n.topDigit ∧ n.fp = n.topDigit := by
  cases hk : n.kind with
  | unsigned | signed | signMagnitude =>
    exact .inl ⟨by simp, by simp [Numeral.wp, hk], by simp [Numeral.fp, hk]⟩
  | onesComplement =>
    rcases Numeral.wp_of_valid_complement hv (.inl hk) with ⟨hsm, hwp⟩ | ⟨hsm, hwp⟩
    · exact .inl ⟨.inl hsm, hwp, by simp [Numeral.fp, hsm]⟩
    · exact .inr (.inr ⟨rfl, hsm, hwp, by simp [Numeral.fp, hk, hsm]⟩)
  | twosComplement =>
    rcases Numeral.wp_of_valid_complement hv (.inr hk) with ⟨hsm, hwp⟩ | ⟨hsm, hwp⟩
    · exact .inl ⟨.inl hsm, hwp, by simp [Numeral.fp, hk]⟩
    · exact .inr (.inl ⟨rfl, hsm, hwp, by simp [Numeral.fp, hk]⟩)

theorem Numeral.pad_digits_lt {n : Numeral} (hv : n.valid = true) :
    n.wp.val < n.radix.val ∧ n.fp.val < n.radix.val := by
  obtain ⟨⟨h2, -⟩, -⟩ := (Numeral.valid_iff n).1 hv
  have htop := n.topDigit_val
  rcases Numeral.pad_digits hv with ⟨-, hw, hf⟩ | ⟨-, -, hw, hf⟩ | ⟨-, -, hw, hf⟩ <;>
    rw [hw, hf] <;> simp only [htop, Fin.val_zero] <;> omega

/-- A valid numeral stays valid under padding. -/
theorem Numeral.Padded.valid {m n : Numeral} (h : m.Padded n) (hv : m.valid = true) :
    n.valid = true := by
  obtain ⟨hr, hw, hf, hsm⟩ := (Numeral.valid_iff m).1 hv
  obtain ⟨hwp, hfp⟩ := Numeral.pad_digits_lt hv
  obtain ⟨i, hi⟩ := h.whole
  obtain ⟨j, hj⟩ := h.fraction
  refine (Numeral.valid_iff n).2 ⟨h.radix ▸ hr, fun d hd => ?_, fun d hd => ?_, h.sm ▸ hsm⟩
  · rw [hi] at hd
    rw [h.radix]
    rcases List.mem_append.1 hd with hd | hd
    · exact (List.mem_replicate.1 hd).2 ▸ hwp
    · exact hw d hd
  · rw [hj] at hd
    rw [h.radix]
    rcases List.mem_append.1 hd with hd | hd
    · exact hf d hd
    · exact (List.mem_replicate.1 hd).2 ▸ hfp

/-! ### The value under padding -/

/-- The magnitude is the whole digits' integer and the fraction of the fraction digits (00_scope.md rule
R16). -/
theorem Numeral.mag_eq {n : Numeral} (hr : n.radix.val ≠ 0) :
    n.mag = (ofDigits n.radix.val n.whole : ℚ) +
      (ofDigits n.radix.val n.fraction : ℚ) / (n.radix.val : ℚ) ^ n.fraction.length := by
  have hr' : (n.radix.val : ℚ) ^ n.fraction.length ≠ 0 := pow_ne_zero _ (by exact_mod_cast hr)
  rw [Numeral.mag, Numeral.digitsInt_eq]
  push_cast
  rw [add_div, mul_div_cancel_right₀ _ hr']

theorem Numeral.val_of_sm_plus {n : Numeral} (h : n.sm = .plus) : n.val = n.mag := by
  cases hk : n.kind <;> simp [Numeral.val, hk, h, Cond.toInt]

theorem Numeral.val_magnitude {n : Numeral}
    (h : n.kind = .unsigned ∨ n.kind = .signed ∨ n.kind = .signMagnitude) :
    n.val = (n.sm.toInt : ℚ) * n.mag := by
  rcases h with h | h | h <;> simp only [Numeral.val, h]

theorem Numeral.val_twosComplement_minus {n : Numeral} (hk : n.kind = .twosComplement)
    (hsm : n.sm = .minus) : n.val = n.mag - (n.radix.val : ℚ) ^ n.whole.length := by
  simp [Numeral.val, hk, hsm]

theorem Numeral.val_onesComplement_minus {n : Numeral} (hk : n.kind = .onesComplement)
    (hsm : n.sm = .minus) : n.val =
      n.mag - ((n.radix.val : ℚ) ^ n.whole.length - 1 / (n.radix.val : ℚ) ^ n.fraction.length) := by
  simp [Numeral.val, hk, hsm]

section Parts

variable {r : Nat}

/-- Appended zeros leave a fraction alone. -/
theorem fraction_pad_zero (h0 : r ≠ 0) (k : Nat) (ds : List Cell) :
    (ofDigits r (ds ++ List.replicate k 0) : ℚ) / (r : ℚ) ^ (ds ++ List.replicate k (0 : Cell)).length =
      (ofDigits r ds : ℚ) / (r : ℚ) ^ ds.length := by
  have hr : (r : ℚ) ≠ 0 := by exact_mod_cast h0
  rw [ofDigits_append, ofDigits_replicate_zero, List.length_append, List.length_replicate, pow_add]
  push_cast
  rw [add_zero, mul_div_mul_right _ _ (pow_ne_zero _ hr)]

/-- Appended digits `r-1` bring a fraction nearer to the next unit of its last place, by as much as that
unit shrinks. -/
theorem fraction_pad_top (h0 : r ≠ 0) (h64 : r ≤ 64) (k : Nat) (ds : List Cell) :
    (ofDigits r (ds ++ List.replicate k (cell (r - 1))) : ℚ) /
        (r : ℚ) ^ (ds ++ List.replicate k (cell (r - 1))).length +
        1 / (r : ℚ) ^ (ds ++ List.replicate k (cell (r - 1))).length =
      (ofDigits r ds : ℚ) / (r : ℚ) ^ ds.length + 1 / (r : ℚ) ^ ds.length := by
  have hr : (r : ℚ) ≠ 0 := by exact_mod_cast h0
  have htop : ofDigits r (List.replicate k (cell (r - 1))) + 1 = r ^ k := by
    simpa using ofDigits_pad_top (Nat.pos_of_ne_zero h0) h64 k []
  have hsum : (ofDigits r (ds ++ List.replicate k (cell (r - 1))) : ℚ) + 1 =
      ((ofDigits r ds : ℚ) + 1) * (r : ℚ) ^ k := by
    rw [ofDigits_append, List.length_replicate]
    have := congrArg (Nat.cast (R := ℚ)) htop
    push_cast at this ⊢
    linarith
  rw [← add_div, ← add_div, hsum, List.length_append, List.length_replicate, pow_add,
    mul_div_mul_right _ _ (pow_ne_zero _ hr)]

/-- Prepended digits `r-1` add to a whole part what its power of the radix grows by. -/
theorem whole_pad_top (h0 : r ≠ 0) (h64 : r ≤ 64) (k : Nat) (ds : List Cell) :
    (ofDigits r (List.replicate k (cell (r - 1)) ++ ds) : ℚ) -
        (r : ℚ) ^ (List.replicate k (cell (r - 1)) ++ ds).length =
      (ofDigits r ds : ℚ) - (r : ℚ) ^ ds.length := by
  have := congrArg (Nat.cast (R := ℚ)) (ofDigits_pad_top (Nat.pos_of_ne_zero h0) h64 k ds)
  rw [List.length_append, List.length_replicate]
  push_cast at this
  linarith

end Parts

/-- Padding never changes the value (rule R101). -/
theorem Numeral.Padded.val_eq {m n : Numeral} (h : m.Padded n) (hv : m.valid = true) :
    n.val = m.val := by
  obtain ⟨⟨h2, -⟩, -⟩ := (Numeral.valid_iff m).1 hv
  have h0 : m.radix.val ≠ 0 := by omega
  have h64 : m.radix.val ≤ 64 := by omega
  obtain ⟨hk, hr, hsm, ⟨i, hi⟩, ⟨j, hj⟩⟩ := h
  have hmag := Numeral.mag_eq h0
  have hmag' := Numeral.mag_eq (n := n) (hr ▸ h0)
  rw [hr] at hmag'
  rcases Numeral.pad_digits hv with ⟨hplus, hwp, hfp⟩ | ⟨htc, hminus, hwp, hfp⟩ |
    ⟨hoc, hminus, hwp, hfp⟩
  · rw [hwp] at hi
    rw [hfp] at hj
    have hmags : n.mag = m.mag := by
      rw [hmag, hmag', hi, hj, ofDigits_pad_zero, fraction_pad_zero h0]
    rcases hplus with hplus | hkind
    · rw [Numeral.val_of_sm_plus hplus, Numeral.val_of_sm_plus (hsm.trans hplus), hmags]
    · rw [Numeral.val_magnitude hkind, Numeral.val_magnitude (hk ▸ hkind), hsm, hmags]
  · rw [hwp, Numeral.topDigit] at hi
    rw [hfp] at hj
    rw [Numeral.val_twosComplement_minus htc hminus,
      Numeral.val_twosComplement_minus (hk.trans htc) (hsm.trans hminus), hmag, hmag', hr, hi, hj,
      fraction_pad_zero h0]
    linarith [whole_pad_top h0 h64 i m.whole]
  · rw [hwp, Numeral.topDigit] at hi
    rw [hfp, Numeral.topDigit] at hj
    rw [Numeral.val_onesComplement_minus hoc hminus,
      Numeral.val_onesComplement_minus (hk.trans hoc) (hsm.trans hminus), hmag, hmag', hr, hi, hj]
    linarith [whole_pad_top h0 h64 i m.whole, fraction_pad_top h0 h64 j m.fraction]

/-! ### Truncation of the fraction -/

/-- The numeral with the fraction cut to its first `len` digits (rule R98). -/
def Numeral.truncate (n : Numeral) (len : Nat) : Numeral := { n with fraction := n.fraction.take len }

theorem Numeral.truncate_sm (n : Numeral) (len : Nat) : (n.truncate len).sm = n.sm := rfl

theorem Numeral.truncate_valid {n : Numeral} (hv : n.valid = true) (len : Nat) :
    (n.truncate len).valid = true := by
  obtain ⟨hr, hw, hf, hsm⟩ := (Numeral.valid_iff n).1 hv
  exact (Numeral.valid_iff _).2 ⟨hr, hw, fun d hd => hf d (List.mem_of_mem_take hd), hsm⟩

theorem Numeral.mag_nonneg (n : Numeral) : 0 ≤ n.mag := by
  rw [Numeral.mag]; positivity

/-- Cutting digits off a fraction does not make it greater. -/
theorem fraction_take_le {r : Nat} (h0 : r ≠ 0) (len : Nat) (ds : List Cell) :
    (ofDigits r (ds.take len) : ℚ) / (r : ℚ) ^ (ds.take len).length ≤
      (ofDigits r ds : ℚ) / (r : ℚ) ^ ds.length := by
  have hr : (0 : ℚ) < r := by exact_mod_cast Nat.pos_of_ne_zero h0
  have hds : (ofDigits r ds : ℚ) = ofDigits r (ds.take len) * (r : ℚ) ^ (ds.drop len).length +
      ofDigits r (ds.drop len) := by
    exact_mod_cast List.take_append_drop len ds ▸ ofDigits_append r (ds.take len) (ds.drop len)
  have hlen : (r : ℚ) ^ ds.length = r ^ (ds.take len).length * r ^ (ds.drop len).length := by
    rw [← pow_add, ← List.length_append, List.take_append_drop]
  rw [← mul_div_mul_right _ _ (pow_ne_zero (ds.drop len).length hr.ne'), ← hlen, hds]
  gcongr
  exact le_add_of_nonneg_right (Nat.cast_nonneg _)

theorem Numeral.truncate_mag_le {n : Numeral} (hr : n.radix.val ≠ 0) (len : Nat) :
    (n.truncate len).mag ≤ n.mag := by
  rw [Numeral.mag_eq hr, Numeral.mag_eq (n := n.truncate len) hr]
  exact add_le_add_right (fraction_take_le hr len n.fraction) _

/-- Truncation goes towards minus infinity for a positive numeral and for TC (rule R98). -/
theorem Numeral.truncate_val_le {n : Numeral} (hv : n.valid = true) (len : Nat)
    (h : n.kind = .twosComplement ∨ n.sm = .plus) : (n.truncate len).val ≤ n.val := by
  obtain ⟨⟨h2, -⟩, -, -, hsm⟩ := (Numeral.valid_iff n).1 hv
  have hmag := Numeral.truncate_mag_le (n := n) (by omega) len
  cases hs : n.sm with
  | zero => exact absurd hs hsm
  | plus => rwa [Numeral.val_of_sm_plus hs, Numeral.val_of_sm_plus (n.truncate_sm len ▸ hs)]
  | minus =>
    have hk := h.resolve_right (by simp [hs])
    rw [Numeral.val_twosComplement_minus hk hs,
      Numeral.val_twosComplement_minus (n := n.truncate len) hk hs]
    exact sub_le_sub_right hmag _

/-- Truncation goes towards zero for SIGNED and SMR (rule R98). -/
theorem Numeral.truncate_abs_val_le {n : Numeral} (hr : n.radix.val ≠ 0) (len : Nat)
    (hk : n.kind = .signed ∨ n.kind = .signMagnitude) : |(n.truncate len).val| ≤ |n.val| := by
  rw [Numeral.val_magnitude (.inr hk), Numeral.val_magnitude (n := n.truncate len) (.inr hk), abs_mul,
    abs_mul, abs_of_nonneg n.mag_nonneg, abs_of_nonneg (n.truncate len).mag_nonneg]
  exact mul_le_mul_of_nonneg_left (Numeral.truncate_mag_le hr len) (abs_nonneg _)

/-! ### The commands -/

section Results

variable {caps : Capacities} {n a b : Numeral} {len : Nat}

theorem padWholeTo_of_invalid (hv : n.valid = false) :
    padWholeTo caps len (some n) = .error .invalidNumeral := bind_of_error (failIf_pos hv) _

theorem padWholeTo_of_longer (hv : n.valid = true) (h : len < n.whole.length) :
    padWholeTo caps len (some n) = .error .tooLarge := by
  rw [padWholeTo, held_some, except_ok_bind, failIf_neg (by simp [hv]), except_ok_bind, failIf_pos h,
    except_error_bind]

theorem padWholeTo_of_le (hv : n.valid = true) (h : n.whole.length ≤ len) :
    padWholeTo caps len (some n) = if exceeds caps.wcap len = true then .error .capacityExceeded
      else .ok { n with whole := n.padWhole len } := by
  rw [padWholeTo, held_some, except_ok_bind, failIf_neg (by simp [hv]), except_ok_bind,
    failIf_neg (by omega), except_ok_bind]
  cases exceeds caps.wcap len <;> rfl

theorem padFractionTo_of_invalid (hv : n.valid = false) :
    padFractionTo caps len (some n) = .error .invalidNumeral := bind_of_error (failIf_pos hv) _

theorem padFractionTo_of_valid (hv : n.valid = true) :
    padFractionTo caps len (some n) = if exceeds caps.fcap len = true then .error .capacityExceeded
      else .ok (if len ≤ n.fraction.length then n.truncate len
        else { n with fraction := n.padFraction len }) := by
  rw [padFractionTo, held_some, except_ok_bind, failIf_neg (by simp [hv]), except_ok_bind]
  cases exceeds caps.fcap len <;> by_cases h : len ≤ n.fraction.length <;>
    simp [failIf, h, Numeral.truncate]

theorem equalizeLength_of_kind_ne (hk : a.kind ≠ b.kind) :
    equalizeLength (some a) (some b) = .error .incompatibleTypes := bind_of_error (failIf_pos hk) _

theorem equalizeLength_of_invalid (hk : a.kind = b.kind) (hv : a.valid = false ∨ b.valid = false) :
    equalizeLength (some a) (some b) = .error .invalidNumeral := by
  rw [equalizeLength, held_some, except_ok_bind, held_some, except_ok_bind, failIf_neg (by simp [hk]),
    except_ok_bind, failIf_pos hv, except_error_bind]

theorem equalizeLength_of_valid (hk : a.kind = b.kind) (hva : a.valid = true) (hvb : b.valid = true) :
    equalizeLength (some a) (some b) =
      .ok [a.padTo (max a.whole.length b.whole.length) (max a.fraction.length b.fraction.length),
        b.padTo (max a.whole.length b.whole.length) (max a.fraction.length b.fraction.length)] := by
  rw [equalizeLength, held_some, except_ok_bind, held_some, except_ok_bind, failIf_neg (by simp [hk]),
    except_ok_bind, failIf_neg (by simp [hva, hvb]), except_ok_bind]

end Results

section Exec

variable {s : State} {n a b : Numeral}

theorem exec_padw {rs1 : Fin 8} (hn : s.readN rs1 = some n) (log : Bool) (rd : Fin 8)
    (length : BitVec 12) : exec (.padw log rd rs1 length) s =
      finishN rd (padWholeTo s.caps length.toNat (some n)) s := by
  rw [← hn]; rfl

theorem exec_padf {rs1 : Fin 8} (hn : s.readN rs1 = some n) (log : Bool) (rd : Fin 8)
    (length : BitVec 12) : exec (.padf log rd rs1 length) s =
      finishN rd (padFractionTo s.caps length.toNat (some n)) s := by
  rw [← hn]; rfl

theorem exec_eqlen {rs1 rs2 : Fin 8} (ha : s.readN rs1 = some a) (hb : s.readN rs2 = some b)
    (log : Bool) : exec (.eqlen log rs1 rs2) s =
      finishInPlace [rs1, rs2] (equalizeLength (some a) (some b)) s := by
  rw [← ha, ← hb]; rfl

end Exec

/-- Settles O25: pad digits keep the value, and truncation takes a part of the fraction away. -/
theorem paddingKeepsTheValue : Obligations.PaddingKeepsTheValue := by
  intro s log rd rs1 length n hn failsW failsF
  have failW {c : Failure} (h : padWholeTo s.caps length.toNat (some n) = .error c) : failsW c :=
    (exec_padw hn log rd length).trans (finishN_of_error h s)
  have failF {c : Failure} (h : padFractionTo s.caps length.toNat (some n) = .error c) : failsF c :=
    (exec_padf hn log rd length).trans (finishN_of_error h s)
  have putF {m : Numeral} (h : padFractionTo s.caps length.toNat (some n) = .ok m) :
      exec (.padf log rd rs1 length) s = .next (succeed false (s.setN rd (some m))) :=
    (exec_padf hn log rd length).trans (finishN_of_ok h s)
  refine ⟨fun hv => ⟨failW (padWholeTo_of_invalid hv), failF (padFractionTo_of_invalid hv)⟩,
    fun hv => ⟨fun hle hcap => ?_, fun hlt => failW (padWholeTo_of_longer hv hlt),
      fun hle hcap => failW ((padWholeTo_of_le hv hle).trans (if_pos hcap)),
      fun hcap => failF ((padFractionTo_of_valid hv).trans (if_pos hcap)), fun hcap => ?_⟩⟩
  · have hok := (padWholeTo_of_le (caps := s.caps) hv hle).trans (if_neg (by simp [hcap]))
    have hpad := n.padWhole_padded length.toNat
    exact ⟨_, (exec_padw hn log rd length).trans (finishN_of_ok hok s), hpad.valid hv,
      (padWhole_length n _).trans (max_eq_left hle), hpad.val_eq hv, rfl, rfl, rfl, rfl, _, rfl⟩
  · obtain ⟨⟨h2, -⟩, -⟩ := (Numeral.valid_iff n).1 hv
    have hok := (padFractionTo_of_valid (caps := s.caps) (len := length.toNat) hv).trans
      (if_neg (by simp [hcap]))
    by_cases hle : length.toNat ≤ n.fraction.length
    · have htake (h : n.fraction.length ≤ length.toNat) : n.truncate length.toNat = n := by
        rw [Numeral.truncate, List.take_of_length_le h]
      rw [if_pos hle] at hok
      exact ⟨_, putF hok, Numeral.truncate_valid hv _, List.length_take_of_le hle, rfl, rfl, rfl, rfl,
        fun h => ⟨congrArg _ (htake h), [], by rw [htake h, List.append_nil]⟩,
        fun _ => ⟨rfl, Numeral.truncate_val_le hv _, Numeral.truncate_abs_val_le (by omega) _⟩⟩
    · have hpad := n.padFraction_padded length.toNat
      rw [if_neg hle] at hok
      exact ⟨_, putF hok, hpad.valid hv, (padFraction_length n _).trans (max_eq_left (by omega)), rfl,
        rfl, rfl, rfl, fun _ => ⟨hpad.val_eq hv, _, rfl⟩, fun h => absurd h hle⟩

theorem Numeral.padTo_length (n : Numeral) (w f : Nat) :
    (n.padTo w f).whole.length = max w n.whole.length ∧
      (n.padTo w f).fraction.length = max f n.fraction.length :=
  ⟨padWhole_length n w, padFraction_length n f⟩

/-- Settles O26: each operand is padded with its own pad digits. -/
theorem eqlenEqualizesAndKeepsValues : Obligations.EqlenEqualizesAndKeepsValues := by
  intro s log rs1 rs2 a b ha hb
  have hexec := exec_eqlen ha hb log
  refine ⟨fun hk => hexec.trans (finishInPlace_of_error (equalizeLength_of_kind_ne hk) s),
    fun hk hv => hexec.trans (finishInPlace_of_error (equalizeLength_of_invalid hk hv) s),
    fun hk hva hvb => ?_⟩
  refine ⟨_, _, hexec.trans (by rw [equalizeLength_of_valid hk hva hvb]; rfl),
    (a.padTo_padded _ _).valid hva, (b.padTo_padded _ _).valid hvb, (a.padTo_padded _ _).val_eq hva,
    (b.padTo_padded _ _).val_eq hvb, rfl, rfl, rfl, rfl, rfl, rfl, ?_, ?_, ?_, ?_⟩ <;>
    simp [Numeral.padTo_length]

end Sys2Proof.Machine
end

section
/-! PROOFS. The sign multiplier of each kind and `SIGNM` (40_numeral_primitives.md rules R96, R100). -/

namespace Sys2Proof.Machine

/-! ### SIGNED -/

/-- A run of `+` and `-` is negative when the number of `-` is odd (rule R96). -/
theorem Numeral.sm_signed {n : Numeral} (hk : n.kind = .signed) {minus : List Bool}
    (hs : n.sign = minus.map (fun m => if m then 1 else 0)) :
    n.sm = if minus.count true % 2 = 0 then .plus else .minus := by
  have hany : n.sign.any (fun t => decide (1 < t.val)) = false := by
    rw [hs, List.any_map, List.any_eq_false]
    intro m _
    cases m <;> decide
  have hcount : n.sign.countP (fun t => t == 1) = minus.count true := by
    rw [hs, List.countP_map, List.count]
    congr 1
    funext m
    cases m <;> rfl
  simp only [Numeral.sm, hk, hany, hcount, Bool.false_eq_true, if_false]

theorem Numeral.sm_signed_of_other {n : Numeral} (hk : n.kind = .signed)
    (h : ∃ d ∈ n.sign, 2 ≤ d.val) : n.sm = .zero := by
  have hany : n.sign.any (fun t => decide (1 < t.val)) = true := by
    obtain ⟨d, hd, h2⟩ := h
    exact List.any_eq_true.2 ⟨d, hd, decide_eq_true h2⟩
  simp only [Numeral.sm, hk, hany, if_true]

/-- The sign run of a valid SIGNED numeral is a run of `+` and `-`. -/
theorem Numeral.sign_of_valid_signed {n : Numeral} (hk : n.kind = .signed) (hv : n.valid = true) :
    ∃ minus : List Bool, n.sign = minus.map (fun m => if m then 1 else 0) := by
  have hsm := ((Numeral.valid_iff n).1 hv).2.2.2
  refine ⟨n.sign.map (fun t => t == 1), ?_⟩
  rw [List.map_map]
  refine (List.map_id' n.sign).symm.trans (List.map_congr_left fun t ht => ?_)
  have hlt : t.val < 2 := by
    by_contra h
    exact hsm (Numeral.sm_signed_of_other hk ⟨t, ht, by omega⟩)
  have h01 : t = 0 ∨ t = 1 := (show t.val = 0 ∨ t.val = 1 by omega).imp Fin.ext Fin.ext
  rcases h01 with rfl | rfl <;> rfl

/-- The product of signs is negative when the number of minus signs is odd. -/
theorem prod_signs (minus : List Bool) : (minus.map (fun m => if m then (-1 : Int) else 1)).prod =
    (if minus.count true % 2 = 0 then Cond.plus else .minus).toInt := by
  have hpow : (minus.map (fun m => if m then (-1 : Int) else 1)).prod = (-1) ^ minus.count true := by
    induction minus with
    | nil => rfl
    | cons m minus ih => cases m <;> simp [ih, pow_succ]
  rw [hpow, neg_one_pow_eq_pow_mod_two]
  rcases Nat.mod_two_eq_zero_or_one (minus.count true) with h | h <;> rw [h] <;> rfl

/-! ### The kinds whose sign is a digit -/

theorem Numeral.sm_signMagnitude_token {n : Numeral} (hk : n.kind = .signMagnitude) (t : Cell)
    (hs : n.sign = [t]) : n.sm = tokenSign n.radix t := by
  simp only [Numeral.sm, hk, hs]

/-- The sign run of an SMR numeral is one token, or its sign multiplier is 0 (rule R96). -/
theorem Numeral.sm_signMagnitude_of_length_ne {n : Numeral} (hk : n.kind = .signMagnitude)
    (h : n.sign.length ≠ 1) : n.sm = .zero := by
  simp only [Numeral.sm, hk]
  split
  · next t ht => simp [ht] at h
  · rfl

/-- The sign run of an OC or TC numeral is one repeated token, or its sign multiplier is 0 (rule R96). -/
theorem Numeral.sm_complement_of_no_run {n : Numeral}
    (hk : n.kind = .onesComplement ∨ n.kind = .twosComplement)
    (h : ∀ k t, n.sign ≠ List.replicate (k + 1) t) : n.sm = .zero := by
  cases hs : n.sign with
  | nil => rcases hk with hk | hk <;> simp only [Numeral.sm, hk, hs]
  | cons t ts =>
    have hall : ts.all (fun u => u == t) = false := by
      rw [Bool.eq_false_iff]
      intro hall
      refine h ts.length t (hs.trans (List.eq_replicate_iff.2 ⟨rfl, fun u hu => ?_⟩))
      rcases List.mem_cons.1 hu with rfl | hu
      · rfl
      · simpa using List.all_eq_true.1 hall u hu
    rcases hk with hk | hk <;> simp only [Numeral.sm, hk, hs, hall, Bool.false_eq_true, if_false]

section SignDigit

variable {n : Numeral}
  (hk : n.kind = .signMagnitude ∨ n.kind = .onesComplement ∨ n.kind = .twosComplement)
include hk

/-- The sign multiplier of a run of one repeated sign digit is that of the digit (rule R96). -/
theorem Numeral.sm_of_run {k : Nat} {d : Cell} (hs : n.sign = List.replicate (k + 1) d)
    (hsmr : n.kind = .signMagnitude → k = 0) : n.sm = tokenSign n.radix d := by
  rcases hk with hk | hk
  · exact Numeral.sm_signMagnitude_token hk d (by rw [hs, hsmr hk, List.replicate_one])
  · exact Numeral.sm_complement hk k d hs

theorem Numeral.sm_of_no_run (h : ∀ k t, n.sign ≠ List.replicate (k + 1) t) : n.sm = .zero := by
  rcases hk with hk | hk
  · refine Numeral.sm_signMagnitude_of_length_ne hk fun hlen => ?_
    obtain ⟨t, ht⟩ := List.length_eq_one_iff.1 hlen
    exact h 0 t ht
  · exact Numeral.sm_complement_of_no_run hk h

end SignDigit

/-! ### The command -/

theorem finishCC_of_ok {r : Except Failure Cond} {x : Cond} (h : r = .ok x) (s : State) :
    finishCC r s = .next (succeed false (s.setCC (some x))) := by
  rw [h]; rfl

theorem exec_signm {s : State} {rs1 : Fin 8} {n : Numeral} (h : s.readN rs1 = some n)
    (log std : Bool) : exec (.signm log std rs1) s =
      .next (succeed false (s.setCC (some (signmValue std n)))) :=
  finishCC_of_ok (by rw [h, held_some, except_ok_bind]) s

/-- Settles O27, from the sign multiplier of each kind. -/
theorem signmDeliversTheSignMultiplier : Obligations.SignmDeliversTheSignMultiplier := by
  intro s log std rs1
  refine ⟨fun hnone => finishCC_of_error (held_bind_of_none (by simp [hnone]) _) s, fun n hn =>
    ⟨_, exec_signm hn log std, fun hstd hk hlen => if_pos ⟨hstd, hk, hlen⟩, fun hsingle => ?_⟩⟩
  have hvalue : signmValue std n = n.sm := by
    refine if_neg fun ⟨hstd, hk, hlen⟩ => ?_
    rcases hsingle with h | h | h
    · exact Bool.false_ne_true (h.symm.trans hstd)
    · exact hk h
    · exact hlen h
  rw [hvalue]
  refine ⟨Numeral.sm_unsigned, fun hk => ⟨fun minus hs => ?_, Numeral.sm_signed_of_other hk⟩,
    Numeral.sm_signMagnitude_of_length_ne, fun hk => ⟨fun hnil => ?_, fun hdiffer => ?_,
      fun d k hs hsmr _ => Numeral.sm_of_run hk hs hsmr⟩⟩
  · rw [Numeral.sm_signed hk hs, prod_signs]
  · exact Numeral.sm_of_no_run hk (by simp [hnil])
  · obtain ⟨d, hd, e, he, hne⟩ := hdiffer
    refine Numeral.sm_of_no_run hk fun k t hs => hne ?_
    rw [hs] at hd he
    exact (List.mem_replicate.1 hd).2.trans (List.mem_replicate.1 he).2.symm

end Sys2Proof.Machine
end

section
/-! PROOFS. `STDZ` (40_numeral_primitives.md rules R94, R95): the standardized form has the same sign, pad
digits and value, and meets the three conditions. -/

namespace Sys2Proof.Machine

/-! ### The collapsed sign run -/

/-- Collapsing the sign run keeps the sign multiplier (rule R95). -/
theorem Numeral.stdForm_sm {n : Numeral} (hv : n.valid = true) : n.stdForm.sm = n.sm := by
  have hsm := ((Numeral.valid_iff n).1 hv).2.2.2
  cases hk : n.kind with
  | unsigned =>
    have hs : n.stdForm.sign = [] := by simp [Numeral.stdForm, Numeral.stdSign, hk]
    rw [Numeral.sm_unsigned (n := n.stdForm) hk, if_pos hs, Numeral.sm_of_valid_unsigned hk hv]
  | signed =>
    have hs : n.stdForm.sign = if n.sm = .plus then [0] else [1] := by
      simp [Numeral.stdForm, Numeral.stdSign, hk]
    cases hsgn : n.sm with
    | zero => exact absurd hsgn hsm
    | plus => exact Numeral.sm_signed (n := n.stdForm) (minus := [false]) hk (by simp [hs, hsgn])
    | minus => exact Numeral.sm_signed (n := n.stdForm) (minus := [true]) hk (by simp [hs, hsgn])
  | signMagnitude =>
    have hlen : n.sign.length = 1 := by
      by_contra h
      exact hsm (Numeral.sm_signMagnitude_of_length_ne hk h)
    obtain ⟨t, ht⟩ := List.length_eq_one_iff.1 hlen
    rw [Numeral.sm_signMagnitude_token hk t ht, Numeral.sm_signMagnitude_token (n := n.stdForm) hk t
      (by simp [Numeral.stdForm, Numeral.stdSign, hk, ht])]
    rfl
  | onesComplement | twosComplement =>
    obtain ⟨k, t, hs, ht, -⟩ := Numeral.sign_of_valid_complement (by simp [hk]) hv
    rw [ht]
    refine Numeral.sm_complement (n := n.stdForm) (by simp [Numeral.stdForm, hk]) 0 t ?_
    simp [Numeral.stdForm, Numeral.stdSign, hk, hs, List.replicate_succ]

theorem Numeral.stdForm_wp (n : Numeral) : n.stdForm.wp = n.wp := by
  cases hk : n.kind <;> simp [Numeral.wp, Numeral.stdForm, Numeral.stdSign, hk]

theorem Numeral.stdForm_fp {n : Numeral} (hv : n.valid = true) : n.stdForm.fp = n.fp := by
  simp only [Numeral.fp, Numeral.stdForm_sm hv]
  rfl

/-! ### The trimmed digits -/

/-- The whole part, with a pad digit in the place of an empty one, is the trimmed whole part with pad
digits prepended. -/
theorem Numeral.padWhole_one (n : Numeral) :
    ∃ k, n.padWhole 1 = List.replicate k n.wp ++ n.stdWhole := by
  cases hw : n.whole with
  | nil => exact ⟨0, by simp [Numeral.padWhole, Numeral.stdWhole, hw, trimLeading]⟩
  | cons d ds =>
    obtain ⟨⟨k, hk⟩, hne, -⟩ := trimLeading_spec n.wp n.whole
    refine ⟨k, ?_⟩
    have hstd : n.stdWhole = trimLeading n.wp n.whole := by
      unfold Numeral.stdWhole
      split
      · next h => exact absurd h (hne (by simp [hw]))
      · next h => exact h.symm
    rw [hstd, ← hk]
    simp [Numeral.padWhole, hw]

/-- A standardized whole part has a digit, and no leading pad digit but a lone one (rule R94). -/
theorem Numeral.stdWhole_spec (n : Numeral) :
    1 ≤ n.stdWhole.length ∧ (n.stdWhole.length = 1 ∨ n.stdWhole.head? ≠ some n.wp) := by
  obtain ⟨-, -, hhead⟩ := trimLeading_spec n.wp n.whole
  unfold Numeral.stdWhole
  split
  · simp
  · next d ds h =>
    rw [h] at hhead
    exact ⟨by simp, hhead.imp_left fun h1 => by simp at h1 ⊢; exact h1⟩

theorem Numeral.stdWhole_below {n : Numeral} (hv : n.valid = true) :
    ∀ d ∈ n.stdWhole, d.val < n.radix.val := by
  obtain ⟨k, hk⟩ := n.padWhole_one
  have hpad := ((Numeral.valid_iff _).1 ((n.padWhole_padded 1).valid hv)).2.1
  exact fun d hd => hpad d (hk ▸ List.mem_append_right _ hd)

/-! ### The standardized form -/

theorem Numeral.stdForm_valid {n : Numeral} (hv : n.valid = true) : n.stdForm.valid = true := by
  obtain ⟨hr, -, hf, hsm⟩ := (Numeral.valid_iff n).1 hv
  obtain ⟨⟨k, hk⟩, -⟩ := trimTrailing_spec n.fp n.fraction
  exact (Numeral.valid_iff _).2 ⟨hr, Numeral.stdWhole_below hv,
    fun d hd => hf d (hk ▸ List.mem_append_left _ hd), Numeral.stdForm_sm hv ▸ hsm⟩

/-- The numeral, with a pad digit in the place of an empty whole part, is its standardized form padded. -/
theorem Numeral.stdForm_padded {n : Numeral} (hv : n.valid = true) :
    n.stdForm.Padded { n with whole := n.padWhole 1 } where
  kind := rfl
  radix := rfl
  sm := (Numeral.stdForm_sm hv).symm
  whole := n.stdForm_wp ▸ n.padWhole_one
  fraction := Numeral.stdForm_fp hv ▸ (trimTrailing_spec n.fp n.fraction).1

/-- Standardizing keeps the value (rule R95). -/
theorem Numeral.stdForm_val {n : Numeral} (hv : n.valid = true) : n.stdForm.val = n.val :=
  ((Numeral.stdForm_padded hv).val_eq (Numeral.stdForm_valid hv)).symm.trans
    ((n.padWhole_padded 1).val_eq hv)

theorem Numeral.standardized_iff (n : Numeral) : n.standardized = true ↔ n.valid = true ∧
    (if n.kind = .unsigned then n.sign = [] else n.sign.length = 1) ∧
    (1 ≤ n.whole.length ∧ (n.whole.length = 1 ∨ n.whole.head? ≠ some n.wp)) ∧
    n.fraction.getLast? ≠ some n.fp := by
  cases hk : n.kind <;> simp [Numeral.standardized, hk, and_assoc]

theorem Numeral.stdForm_standardized {n : Numeral} (hv : n.valid = true) :
    n.stdForm.standardized = true := by
  have hwhole := n.stdWhole_spec
  rw [← n.stdForm_wp] at hwhole
  have hfraction : n.stdForm.fraction.getLast? ≠ some n.stdForm.fp :=
    Numeral.stdForm_fp hv ▸ (trimTrailing_spec n.fp n.fraction).2
  refine n.stdForm.standardized_iff.2 ⟨Numeral.stdForm_valid hv, ?_, hwhole, hfraction⟩
  cases hk : n.kind with
  | unsigned => simp [Numeral.stdForm, Numeral.stdSign, hk]
  | signed => cases hsm : n.sm <;> simp [Numeral.stdForm, Numeral.stdSign, hk, hsm]
  | signMagnitude | onesComplement | twosComplement => simp [Numeral.stdForm, Numeral.stdSign, hk]

/-! ### The standardized form of a standardized numeral -/

/-- A single token is its own collapsed form (rule R95). -/
theorem Numeral.stdSign_of_single {n : Numeral} (hv : n.valid = true)
    (hs : if n.kind = .unsigned then n.sign = [] else n.sign.length = 1) : n.stdSign = n.sign := by
  cases hk : n.kind with
  | unsigned =>
    rw [if_pos hk] at hs
    simp only [Numeral.stdSign, hk, hs]
  | signed =>
    rw [if_neg (by simp [hk])] at hs
    obtain ⟨minus, hm⟩ := Numeral.sign_of_valid_signed hk hv
    obtain ⟨m, rfl⟩ := List.length_eq_one_iff.1 (show minus.length = 1 by simpa [hm] using hs)
    have hsm := Numeral.sm_signed hk hm
    cases m <;> simp [Numeral.stdSign, hk, hm, hsm]
  | signMagnitude | onesComplement | twosComplement =>
    rw [if_neg (by simp [hk])] at hs
    obtain ⟨t, ht⟩ := List.length_eq_one_iff.1 hs
    simp only [Numeral.stdSign, hk, ht, List.headD_cons]

theorem trimLeading_eq_self {p : Cell} {ds : List Cell} (h : ds.length = 1 ∨ ds.head? ≠ some p) :
    trimLeading p ds = ds := by
  cases ds with
  | nil => rfl
  | cons d ds =>
    cases ds with
    | nil => rfl
    | cons e es => exact if_neg (by simpa using h)

theorem trimTrailing_eq_self {p : Cell} {ds : List Cell} (h : ds.getLast? ≠ some p) :
    trimTrailing p ds = ds := by
  obtain ⟨⟨k, hk⟩, -⟩ := trimTrailing_spec p ds
  cases k with
  | zero => exact (hk.trans (List.append_nil _)).symm
  | succ k =>
    refine absurd ?_ h
    rw [hk, List.replicate_succ', ← List.append_assoc, List.getLast?_concat]

theorem Numeral.stdForm_of_standardized {n : Numeral} (h : n.standardized = true) : n.stdForm = n := by
  obtain ⟨hv, hs, ⟨hlen, hw⟩, hf⟩ := n.standardized_iff.1 h
  have hwhole : n.stdWhole = n.whole := by
    have htrim := trimLeading_eq_self hw
    unfold Numeral.stdWhole
    split
    · next hnil => simp [htrim.symm.trans hnil] at hlen
    · next hcons => exact hcons.symm.trans htrim
  rw [Numeral.stdForm, Numeral.stdSign_of_single hv hs, hwhole, trimTrailing_eq_self hf]

/-! ### The command -/

theorem exec_stdz {s : State} {rs1 : Fin 8} {n : Numeral} (h : s.readN rs1 = some n) (log : Bool)
    (rd : Fin 8) : exec (.stdz log rd rs1) s = finishN rd n.std s := by
  rw [exec, execStdz, h, held_some, except_ok_bind]

/-- Settles O24, from the rules for the standardized form. -/
theorem stdzGivesTheCanonicalForm : Obligations.StdzGivesTheCanonicalForm := by
  intro s log rd rs1 n hn
  refine ⟨fun hv => ⟨n.stdForm, ?_, Numeral.stdForm_standardized hv, rfl, rfl, Numeral.stdForm_val hv,
    Numeral.stdForm_sm hv, Numeral.stdForm_of_standardized⟩, fun hv => ?_⟩
  · exact (exec_stdz hn log rd).trans (finishN_of_ok (Numeral.std_eq_ok.2 ⟨hv, rfl⟩) s)
  · exact (exec_stdz hn log rd).trans (finishN_of_error (Numeral.std_eq_error.2 ⟨hv, rfl⟩) s)

end Sys2Proof.Machine
end

section
/-! PROOFS. A numeral by its sign and its magnitude in units of the last digit, and the standardized form as
the one that kind, radix, sign and value determine (00_scope.md rule R16; 40_numeral_primitives.md rules
R94, R95). -/

namespace Sys2Proof.Machine

/-! ### The magnitude as an integer -/

/-- The magnitude of a valid numeral in units of its last digit, `|val(n)| * r^len(fraction)` (rule R16). -/
def Numeral.absInt (n : Numeral) : Nat :=
  if n.kind = .twosComplement ∧ n.sm = .minus then
    n.radix.val ^ (n.whole.length + n.fraction.length) - n.digitsInt
  else if n.kind = .onesComplement ∧ n.sm = .minus then
    n.radix.val ^ (n.whole.length + n.fraction.length) - 1 - n.digitsInt
  else n.digitsInt

section AbsInt

variable {n : Numeral}

theorem Numeral.absInt_of_digits
    (h : n.sm = .plus ∨ n.kind = .unsigned ∨ n.kind = .signed ∨ n.kind = .signMagnitude) :
    n.absInt = n.digitsInt := by
  rcases h with h | h | h | h <;> simp [Numeral.absInt, h]

theorem Numeral.absInt_twosComplement (hv : n.valid = true) (hk : n.kind = .twosComplement)
    (hsm : n.sm = .minus) :
    n.absInt + n.digitsInt = n.radix.val ^ (n.whole.length + n.fraction.length) := by
  have hlt := Numeral.digitsInt_lt hv
  rw [Numeral.absInt, if_pos ⟨hk, hsm⟩]
  omega

theorem Numeral.absInt_onesComplement (hv : n.valid = true) (hk : n.kind = .onesComplement)
    (hsm : n.sm = .minus) :
    n.absInt + n.digitsInt + 1 = n.radix.val ^ (n.whole.length + n.fraction.length) := by
  have hlt := Numeral.digitsInt_lt hv
  rw [Numeral.absInt, if_neg (by simp [hk]), if_pos ⟨hk, hsm⟩]
  omega

theorem Numeral.absInt_eq_of_twosComplement_sum {m : Nat} (hv : n.valid = true)
    (hk : n.kind = .twosComplement) (hsm : n.sm = .minus)
    (hsum : n.digitsInt + m = n.radix.val ^ (n.whole.length + n.fraction.length)) : n.absInt = m := by
  have := Numeral.absInt_twosComplement hv hk hsm
  omega

theorem Numeral.absInt_eq_of_onesComplement_sum {m : Nat} (hv : n.valid = true)
    (hk : n.kind = .onesComplement) (hsm : n.sm = .minus)
    (hsum : n.digitsInt + m + 1 = n.radix.val ^ (n.whole.length + n.fraction.length)) : n.absInt = m := by
  have := Numeral.absInt_onesComplement hv hk hsm
  omega

/-- How the digits give the magnitude: they are its digits, or those of its complement. -/
theorem Numeral.absInt_cases (hv : n.valid = true) :
    (n.sm = .plus ∨ n.kind = .unsigned ∨ n.kind = .signed ∨ n.kind = .signMagnitude) ∧
        n.absInt = n.digitsInt ∨
      n.kind = .twosComplement ∧ n.sm = .minus ∧
        n.absInt + n.digitsInt = n.radix.val ^ (n.whole.length + n.fraction.length) ∨
      n.kind = .onesComplement ∧ n.sm = .minus ∧
        n.absInt + n.digitsInt + 1 = n.radix.val ^ (n.whole.length + n.fraction.length) := by
  rcases Numeral.pad_digits hv with ⟨h, -⟩ | ⟨hk, hsm, -⟩ | ⟨hk, hsm, -⟩
  · exact .inl ⟨h, Numeral.absInt_of_digits h⟩
  · exact .inr (.inl ⟨hk, hsm, Numeral.absInt_twosComplement hv hk hsm⟩)
  · exact .inr (.inr ⟨hk, hsm, Numeral.absInt_onesComplement hv hk hsm⟩)

/-- The digits from the magnitude: the complement is its own inverse. -/
theorem Numeral.digitsInt_eq_of_absInt (hv : n.valid = true) : n.digitsInt =
    if n.kind = .twosComplement ∧ n.sm = .minus then
      n.radix.val ^ (n.whole.length + n.fraction.length) - n.absInt
    else if n.kind = .onesComplement ∧ n.sm = .minus then
      n.radix.val ^ (n.whole.length + n.fraction.length) - 1 - n.absInt
    else n.absInt := by
  have hlt := Numeral.digitsInt_lt hv
  unfold Numeral.absInt
  split_ifs <;> omega

theorem Numeral.radix_pos (hv : n.valid = true) : 0 < n.radix.val := by
  obtain ⟨⟨h2, -⟩, -⟩ := (Numeral.valid_iff n).1 hv
  omega

theorem Numeral.radix_pow_pos (hv : n.valid = true) (k : Nat) : (0 : ℚ) < (n.radix.val : ℚ) ^ k :=
  pow_pos (by exact_mod_cast Numeral.radix_pos hv) k

theorem Numeral.sm_eq_plus_or_minus (hv : n.valid = true) : n.sm = .plus ∨ n.sm = .minus := by
  obtain ⟨-, -, -, hsm⟩ := (Numeral.valid_iff n).1 hv
  cases h : n.sm with
  | zero => exact absurd h hsm
  | plus => exact .inl rfl
  | minus => exact .inr rfl

/-- A valid numeral is its sign times its magnitude (rule R16). -/
theorem Numeral.val_eq_absInt (hv : n.valid = true) :
    n.val = (n.sm.toInt : ℚ) * ((n.absInt : ℚ) / (n.radix.val : ℚ) ^ n.fraction.length) := by
  have hr := (Numeral.radix_pow_pos hv n.fraction.length).ne'
  have hmag : n.mag = (n.digitsInt : ℚ) / (n.radix.val : ℚ) ^ n.fraction.length := rfl
  rcases Numeral.absInt_cases hv with ⟨hplus | hkind, habs⟩ | ⟨hk, hsm, habs⟩ | ⟨hk, hsm, habs⟩
  · simp [Numeral.val_of_sm_plus hplus, hmag, habs, hplus, Cond.toInt]
  · rw [Numeral.val_magnitude hkind, hmag, habs]
  · have habs' : (n.absInt : ℚ) + n.digitsInt =
        (n.radix.val : ℚ) ^ n.whole.length * (n.radix.val : ℚ) ^ n.fraction.length := by
      rw [← pow_add]; exact_mod_cast habs
    rw [Numeral.val_twosComplement_minus hk hsm, hmag, eq_sub_of_add_eq habs', hsm, Cond.toInt, sub_div,
      mul_div_cancel_right₀ _ hr]
    push_cast; ring
  · have habs' : (n.absInt : ℚ) + n.digitsInt + 1 =
        (n.radix.val : ℚ) ^ n.whole.length * (n.radix.val : ℚ) ^ n.fraction.length := by
      rw [← pow_add]; exact_mod_cast habs
    rw [Numeral.val_onesComplement_minus hk hsm, hmag,
      eq_sub_of_add_eq (eq_sub_of_add_eq habs'), hsm, Cond.toInt, sub_div, sub_div,
      mul_div_cancel_right₀ _ hr]
    push_cast; ring

theorem Numeral.abs_val (hv : n.valid = true) :
    |n.val| = (n.absInt : ℚ) / (n.radix.val : ℚ) ^ n.fraction.length := by
  have hnonneg : 0 ≤ (n.absInt : ℚ) / (n.radix.val : ℚ) ^ n.fraction.length := by positivity
  rw [Numeral.val_eq_absInt hv]
  rcases Numeral.sm_eq_plus_or_minus hv with h | h <;> simp [h, Cond.toInt, abs_of_nonneg hnonneg]

theorem Numeral.val_eq_zero_iff (hv : n.valid = true) : n.val = 0 ↔ n.absInt = 0 := by
  have hr := (Numeral.radix_pow_pos hv n.fraction.length).ne'
  rw [← abs_eq_zero, Numeral.abs_val hv, div_eq_zero_iff, or_iff_left hr, Nat.cast_eq_zero]

/-- TWO'S-COMPLEMENT has no negative zero (41_representation_converter.md rule R120). -/
theorem Numeral.sm_of_twosComplement_zero (hv : n.valid = true) (hk : n.kind = .twosComplement)
    (h : n.absInt = 0) : n.sm = .plus := by
  refine (Numeral.sm_eq_plus_or_minus hv).resolve_right fun hsm => ?_
  have habs := Numeral.absInt_twosComplement hv hk hsm
  have hlt := Numeral.digitsInt_lt hv
  omega

end AbsInt

/-! ### The sign run of one token -/

/-- The sign run of one token of kind `k` and radix `r`, negative when `neg`; empty for UNSIGNED
(40_numeral_primitives.md rule R94). -/
def signRun (neg : Bool) (r : Cell) (k : Kind) : List Cell :=
  match k with
  | .unsigned => []
  | .signed => if neg then [1] else [0]
  | .signMagnitude | .onesComplement | .twosComplement => if neg then [cell (r.val - 1)] else [0]

/-- The token 0 is positive, the token `r-1` negative (rule R96). -/
theorem tokenSign_zero (r : Cell) : tokenSign r 0 = .plus := if_pos rfl

theorem tokenSign_top {r : Cell} (h2 : 2 ≤ r.val) : tokenSign r (cell (r.val - 1)) = .minus := by
  have hval : (cell (r.val - 1)).val = r.val - 1 := cell_val (by have := r.isLt; omega)
  have hne : cell (r.val - 1) ≠ 0 := fun h => by rw [h, Fin.val_zero] at hval; omega
  rw [tokenSign, if_neg hne, if_pos (by omega)]

theorem Numeral.sm_of_signRun {n : Numeral} {neg : Bool} (h2 : 2 ≤ n.radix.val)
    (hs : n.sign = signRun neg n.radix n.kind) :
    n.sm = if neg = true ∧ n.kind ≠ .unsigned then .minus else .plus := by
  cases hk : n.kind with
  | unsigned => simp [Numeral.sm_unsigned hk, hs, hk, signRun]
  | signed =>
    rw [Numeral.sm_signed (minus := [neg]) hk (by cases neg <;> simp [hs, hk, signRun])]
    cases neg <;> simp
  | signMagnitude | onesComplement | twosComplement =>
    have hrun (t : Cell) (ht : n.sign = [t]) : n.sm = tokenSign n.radix t :=
      Numeral.sm_of_run (by simp [hk]) (k := 0) ht fun _ => rfl
    cases neg with
    | false => rw [hrun 0 (by rw [hs, hk]; rfl), tokenSign_zero]; rfl
    | true => rw [hrun _ (by rw [hs, hk]; rfl), tokenSign_top h2, if_pos ⟨rfl, nofun⟩]

/-- The sign run of a valid numeral of a kind whose sign is a digit. -/
theorem Numeral.sign_of_valid_digit {n : Numeral}
    (hk : n.kind = .signMagnitude ∨ n.kind = .onesComplement ∨ n.kind = .twosComplement)
    (hv : n.valid = true) : ∃ k t, n.sign = List.replicate (k + 1) t ∧
      (n.kind = .signMagnitude → k = 0) ∧
      (n.sm = .plus ∧ t = 0 ∨ n.sm = .minus ∧ t = n.topDigit) := by
  have hrun : ∃ k t, n.sign = List.replicate (k + 1) t ∧ (n.kind = .signMagnitude → k = 0) := by
    rcases hk with hk | hk
    · have hlen : n.sign.length = 1 := by
        by_contra h
        exact ((Numeral.valid_iff n).1 hv).2.2.2 (Numeral.sm_signMagnitude_of_length_ne hk h)
      obtain ⟨t, ht⟩ := List.length_eq_one_iff.1 hlen
      exact ⟨0, t, ht, fun _ => rfl⟩
    · obtain ⟨k, t, ht, -⟩ := Numeral.sign_of_valid_complement hk hv
      exact ⟨k, t, ht, fun h => by rcases hk with hk | hk <;> simp [hk] at h⟩
  obtain ⟨k, t, hs, hsmr⟩ := hrun
  refine ⟨k, t, hs, hsmr, ?_⟩
  have hsm := Numeral.sm_of_run hk hs hsmr
  by_cases h0 : t = 0
  · exact .inl ⟨hsm.trans (h0 ▸ tokenSign_zero _), h0⟩
  · have htop : t.val + 1 = n.radix.val := by
      by_contra h
      exact ((Numeral.valid_iff n).1 hv).2.2.2 (by rw [hsm, tokenSign, if_neg h0, if_neg h])
    refine .inr ⟨by rw [hsm, tokenSign, if_neg h0, if_pos htop], Fin.ext ?_⟩
    rw [Numeral.topDigit_val]; omega

/-- The collapsed sign run of a valid numeral is the run of one token of its sign (rule R95). -/
theorem Numeral.stdSign_eq {n : Numeral} (hv : n.valid = true) :
    n.stdSign = signRun (decide (n.sm = .minus)) n.radix n.kind := by
  cases hk : n.kind with
  | unsigned => simp [Numeral.stdSign, signRun, hk]
  | signed =>
    rcases Numeral.sm_eq_plus_or_minus hv with hsm | hsm <;> simp [Numeral.stdSign, signRun, hk, hsm]
  | signMagnitude | onesComplement | twosComplement =>
    obtain ⟨k, t, hs, -, ⟨hsm, rfl⟩ | ⟨hsm, rfl⟩⟩ := Numeral.sign_of_valid_digit (by simp [hk]) hv <;>
      simp [Numeral.stdSign, signRun, hk, hs, hsm, List.replicate_succ, Numeral.topDigit]

/-! ### The standardized form is determined -/

theorem trimLeading_replicate_append (p : Cell) (k : Nat) {ds : List Cell} (h : ds ≠ []) :
    trimLeading p (List.replicate k p ++ ds) = trimLeading p ds := by
  induction k with
  | zero => rfl
  | succ k ih =>
    obtain ⟨e, es, he⟩ := List.exists_cons_of_ne_nil (l := List.replicate k p ++ ds) (by simp [h])
    rw [List.replicate_succ, List.cons_append, he, trimLeading, if_pos rfl, ← he, ih]

theorem trimTrailing_append_replicate (p : Cell) (k : Nat) (ds : List Cell) :
    trimTrailing p (ds ++ List.replicate k p) = trimTrailing p ds := by
  rw [trimTrailing, List.reverse_append, List.reverse_replicate,
    List.dropWhile_append_of_pos (by simp +contextual), trimTrailing]

section Determined

variable {a b : Numeral} (hk : a.kind = b.kind) (hr : a.radix = b.radix) (hsm : a.sm = b.sm)
include hk hr hsm

/-- The pad digits of a valid numeral depend on its kind, radix and sign only (rule R101). -/
theorem Numeral.pad_digits_congr (ha : a.valid = true) (hb : b.valid = true) :
    a.wp = b.wp ∧ a.fp = b.fp := by
  have hsign : a.stdForm.sign = b.stdForm.sign := by
    change a.stdSign = b.stdSign
    rw [Numeral.stdSign_eq ha, Numeral.stdSign_eq hb, hk, hr, hsm]
  have hkind : a.stdForm.kind = b.stdForm.kind := hk
  rw [← a.stdForm_wp, ← b.stdForm_wp]
  exact ⟨by simp only [Numeral.wp, hkind, hsign], by simp only [Numeral.fp, Numeral.topDigit, hk, hr, hsm]⟩

/-- Valid numerals of one kind, radix, sign, value and shape have the same digits. -/
theorem Numeral.digits_eq_of_val_eq (ha : a.valid = true) (hb : b.valid = true) (hval : a.val = b.val)
    (hw : a.whole.length = b.whole.length) (hf : a.fraction.length = b.fraction.length) :
    a.whole = b.whole ∧ a.fraction = b.fraction := by
  have habs : a.absInt = b.absInt := by
    have h := congrArg abs hval
    rw [Numeral.abs_val ha, Numeral.abs_val hb, hr, hf,
      div_left_inj' (Numeral.radix_pow_pos hb _).ne'] at h
    exact_mod_cast h
  have hint : a.digitsInt = b.digitsInt := by
    rw [Numeral.digitsInt_eq_of_absInt ha, Numeral.digitsInt_eq_of_absInt hb, hk, hr, hsm, hw, hf, habs]
  obtain ⟨-, hwa, hfa, -⟩ := (Numeral.valid_iff a).1 ha
  obtain ⟨-, hwb, hfb, -⟩ := (Numeral.valid_iff b).1 hb
  refine List.append_inj (ofDigits_injective (r := b.radix.val)
    (fun d hd => hr ▸ (List.mem_append.1 hd).elim (hwa d) (hfa d))
    (fun d hd => (List.mem_append.1 hd).elim (hwb d) (hfb d)) (by simp [hw, hf]) ?_) hw
  rw [Numeral.digitsInt, Numeral.digitsInt, hr] at hint
  exact hint

theorem Numeral.padTo_digits_eq (ha : a.valid = true) (hb : b.valid = true) (hval : a.val = b.val)
    {w f : Nat} (haw : a.whole.length ≤ w) (hbw : b.whole.length ≤ w) (haf : a.fraction.length ≤ f)
    (hbf : b.fraction.length ≤ f) : (a.padTo w f).whole = (b.padTo w f).whole ∧
      (a.padTo w f).fraction = (b.padTo w f).fraction := by
  have hpa := a.padTo_padded w f
  have hpb := b.padTo_padded w f
  refine Numeral.digits_eq_of_val_eq (a := a.padTo w f) (b := b.padTo w f) hk hr hsm (hpa.valid ha)
    (hpb.valid hb) (by rw [hpa.val_eq ha, hpb.val_eq hb, hval]) ?_ ?_
  · simp only [Numeral.padTo_length, max_eq_left haw, max_eq_left hbw]
  · simp only [Numeral.padTo_length, max_eq_left haf, max_eq_left hbf]

/-- Kind, radix, sign and value determine a standardized numeral (rule R94). -/
theorem Numeral.eq_of_standardized (ha : a.standardized = true) (hb : b.standardized = true)
    (hval : a.val = b.val) : a = b := by
  obtain ⟨hva, hsa, ⟨hla, hwa⟩, hfa⟩ := a.standardized_iff.1 ha
  obtain ⟨hvb, hsb, ⟨hlb, hwb⟩, hfb⟩ := b.standardized_iff.1 hb
  obtain ⟨hwp, hfp⟩ := Numeral.pad_digits_congr hk hr hsm hva hvb
  have hsign : a.sign = b.sign := by
    rw [← Numeral.stdSign_of_single hva hsa, ← Numeral.stdSign_of_single hvb hsb,
      Numeral.stdSign_eq hva, Numeral.stdSign_eq hvb, hk, hr, hsm]
  obtain ⟨hwhole, hfraction⟩ := Numeral.padTo_digits_eq hk hr hsm hva hvb hval (le_max_left ..)
    (le_max_right ..) (le_max_left ..) (le_max_right ..)
  have hwhole' : a.whole = b.whole := by
    have h := congrArg (trimLeading b.wp) hwhole
    simp only [Numeral.padTo, Numeral.padWhole, hwp] at h
    rw [trimLeading_replicate_append _ _ (List.ne_nil_of_length_pos hla),
      trimLeading_replicate_append _ _ (List.ne_nil_of_length_pos hlb),
      trimLeading_eq_self (hwp ▸ hwa), trimLeading_eq_self hwb] at h
    exact h
  have hfraction' : a.fraction = b.fraction := by
    have h := congrArg (trimTrailing b.fp) hfraction
    simp only [Numeral.padTo, Numeral.padFraction, hfp, trimTrailing_append_replicate] at h
    rw [trimTrailing_eq_self (hfp ▸ hfa), trimTrailing_eq_self hfb] at h
    exact h
  cases a; cases b
  simp only [Numeral.mk.injEq]
  exact ⟨hsign, hwhole', hfraction', hr, hk⟩

/-- Valid numerals of one kind, radix, sign and value have the same standardized form (rule R95). -/
theorem Numeral.stdForm_eq_of_val_eq (ha : a.valid = true) (hb : b.valid = true) (hval : a.val = b.val) :
    a.stdForm = b.stdForm :=
  Numeral.eq_of_standardized (a := a.stdForm) (b := b.stdForm) hk hr
    (by rw [Numeral.stdForm_sm ha, Numeral.stdForm_sm hb, hsm])
    (Numeral.stdForm_standardized ha) (Numeral.stdForm_standardized hb)
    (by rw [Numeral.stdForm_val ha, Numeral.stdForm_val hb, hval])

end Determined

end Sys2Proof.Machine
end

section
/-! PROOFS. The complement: `COMPL` and `ABSV` (41_representation_converter.md rules R128 to R130). -/

namespace Sys2Proof.Machine

/-! ### Complemented digits -/

section Complement

variable {r : Nat} {ds : List Cell}

theorem complementDigits_append (r : Nat) (as bs : List Cell) :
    complementDigits r (as ++ bs) = complementDigits r as ++ complementDigits r bs := List.map_append

theorem complementDigits_replicate (r k : Nat) (d : Cell) :
    complementDigits r (List.replicate k d) = List.replicate k (cell (r - 1 - d.val)) := List.map_replicate

theorem complementDigits_below (h64 : r ≤ 64) (h : ∀ d ∈ ds, d.val < r) :
    ∀ d ∈ complementDigits r ds, d.val < r := by
  intro d hd
  obtain ⟨e, he, rfl⟩ := List.mem_map.1 hd
  have := h e he
  rw [cell_val (by omega)]; omega

/-- The digitwise complement is its own inverse. -/
theorem complementDigits_complementDigits (h64 : r ≤ 64) (h : ∀ d ∈ ds, d.val < r) :
    complementDigits r (complementDigits r ds) = ds := by
  rw [complementDigits, complementDigits, List.map_map]
  refine (List.map_congr_left fun d hd => Fin.ext ?_).trans (List.map_id ds)
  have := h d hd
  rw [Function.comp_apply, cell_val (v := r - 1 - d.val) (by omega), cell_val (by omega), id]; omega

end Complement

section RadixComplement

variable {r n m x : Nat}

theorem splitDigits_append (r n m y : Nat) :
    (splitDigits r n m y).1 ++ (splitDigits r n m y).2 = toDigits r (n + m) y := List.take_append_drop ..

theorem splitDigits_below (h2 : 2 ≤ r) (h64 : r ≤ 64) (y : Nat) :
    ∀ d ∈ (splitDigits r n m y).1 ++ (splitDigits r n m y).2, d.val < r := by
  rw [splitDigits_append]
  exact toDigits_below (by omega) h64

/-- Splitting the number read from digits below the radix gives the digits back. -/
theorem splitDigits_ofDigits {ws fs : List Cell} (h : ∀ d ∈ ws ++ fs, d.val < r) :
    splitDigits r ws.length fs.length (ofDigits r (ws ++ fs)) = (ws, fs) := by
  rw [splitDigits, ← List.length_append, toDigits_ofDigits h, List.take_left, List.drop_left]

/-- The radix complement adds up with the number to `r^(n+m)` (rules R120, R128). -/
theorem ofDigits_radixComplement (h2 : 2 ≤ r) (h64 : r ≤ 64) (hx : x < r ^ (n + m)) :
    ofDigits r ((radixComplement r n m x).1 ++ (radixComplement r n m x).2) + x = r ^ (n + m) := by
  unfold radixComplement
  split
  · next h0 =>
    have hlt : r ^ (n + m) < r ^ (n + 1 + m) := Nat.pow_lt_pow_right (by omega) (by omega)
    rw [splitDigits_append, ofDigits_toDigits_of_lt (by omega) h64 hlt, h0, Nat.add_zero]
  · rw [splitDigits_append, ofDigits_toDigits_of_lt (by omega) h64 (by omega)]; omega

theorem radixComplement_below (h2 : 2 ≤ r) (h64 : r ≤ 64) :
    ∀ d ∈ (radixComplement r n m x).1 ++ (radixComplement r n m x).2, d.val < r := by
  unfold radixComplement
  split <;> exact splitDigits_below h2 h64 _

@[simp] theorem radixComplement_fst_length :
    (radixComplement r n m x).1.length = if x = 0 then n + 1 else n := by
  unfold radixComplement
  split <;> simp

/-- The radix complement of the radix complement gives nonzero digits back. -/
theorem radixComplement_radixComplement (h2 : 2 ≤ r) (h64 : r ≤ 64) {ws fs : List Cell}
    (hd : ∀ d ∈ ws ++ fs, d.val < r) (h0 : ofDigits r (ws ++ fs) ≠ 0) {cs : List Cell × List Cell}
    (hcs : cs = radixComplement r ws.length fs.length (ofDigits r (ws ++ fs))) :
    radixComplement r cs.1.length cs.2.length (ofDigits r (cs.1 ++ cs.2)) = (ws, fs) := by
  have hlt := ofDigits_lt hd
  rw [List.length_append] at hlt
  have hsum := ofDigits_radixComplement h2 h64 hlt
  rw [← hcs] at hsum
  rw [show cs.1.length = ws.length by simp [hcs, h0], show cs.2.length = fs.length by simp [hcs],
    radixComplement, if_neg (by omega), ← hsum, Nat.add_sub_cancel_left, splitDigits_ofDigits hd]

end RadixComplement

/-! ### The opposite of a numeral -/

/-- The opposite sign. -/
def Cond.opposite (c : Cond) : Cond :=
  match c with
  | .minus => .plus
  | .zero => .zero
  | .plus => .minus

@[simp] theorem Cond.opposite_opposite (c : Cond) : c.opposite.opposite = c := by cases c <;> rfl

theorem Cond.toInt_opposite (c : Cond) : c.opposite.toInt = -c.toInt := by cases c <;> rfl

/-- `x` is `n` with the opposite sign and the same magnitude, of the same kind, radix and fraction length. -/
structure Numeral.Opposite (n x : Numeral) : Prop where
  valid : x.valid = true
  kind : x.kind = n.kind
  radix : x.radix = n.radix
  sm : x.sm = n.sm.opposite
  absInt : x.absInt = n.absInt
  fraction : x.fraction.length = n.fraction.length

theorem Numeral.Opposite.val_eq {n x : Numeral} (h : n.Opposite x) (hv : n.valid = true) :
    x.val = -n.val := by
  rw [Numeral.val_eq_absInt h.valid, Numeral.val_eq_absInt hv, h.radix, h.fraction, h.absInt, h.sm,
    Cond.toInt_opposite]
  push_cast; ring

/-! ### The complement of each kind -/

theorem complementOf_signed {n : Numeral} (hk : n.kind = .signed) :
    complementOf n = { n with sign := flipFirst n.sign } := by
  simp only [complementOf, hk]

theorem complementOf_signMagnitude {n : Numeral} (hk : n.kind = .signMagnitude) :
    complementOf n = { n with sign := complementDigits n.radix.val n.sign } := by
  simp only [complementOf, hk]; rfl

theorem complementOf_onesComplement {n : Numeral} (hk : n.kind = .onesComplement) :
    complementOf n = { n with
      sign := complementDigits n.radix.val n.sign, whole := complementDigits n.radix.val n.whole,
      fraction := complementDigits n.radix.val n.fraction } := by
  simp only [complementOf, hk]; rfl

/-- The zero of TWO'S-COMPLEMENT is its own complement. -/
theorem complementOf_twosComplement_zero {n : Numeral} (hv : n.valid = true)
    (hk : n.kind = .twosComplement) (h : n.absInt = 0) : complementOf n = n := by
  have hsm := Numeral.sm_of_twosComplement_zero hv hk h
  have h0 : n.digitsInt = 0 := (Numeral.absInt_of_digits (.inl hsm)).symm.trans h
  simp [complementOf, hk, hsm, h0]

theorem complementOf_twosComplement {n : Numeral} (hk : n.kind = .twosComplement) (h : n.absInt ≠ 0) :
    complementOf n = { n with
      sign := complementDigits n.radix.val n.sign,
      whole := (radixComplement n.radix.val n.whole.length n.fraction.length n.digitsInt).1,
      fraction := (radixComplement n.radix.val n.whole.length n.fraction.length n.digitsInt).2 } := by
  have hne : ¬(n.sm = .plus ∧ n.digitsInt = 0) := fun ⟨hsm, h0⟩ =>
    h ((Numeral.absInt_of_digits (.inl hsm)).trans h0)
  simp only [complementOf, hk, if_neg hne]; rfl

@[simp] theorem complementOf_kind (n : Numeral) : (complementOf n).kind = n.kind := by
  unfold complementOf
  split
  case h_5 => split <;> simp [*]
  all_goals simp [*]

@[simp] theorem complementOf_radix (n : Numeral) : (complementOf n).radix = n.radix := by
  unfold complementOf
  split
  case h_5 => split <;> rfl
  all_goals rfl

/-! ### The sign of the complement -/

/-- Flipping the first token flips the product of the run (rule R128). -/
theorem sm_flipFirst {n x : Numeral} (hk : n.kind = .signed) (hv : n.valid = true)
    (hxk : x.kind = .signed) (hs : x.sign = flipFirst n.sign) : x.sm = n.sm.opposite := by
  obtain ⟨minus, hm⟩ := Numeral.sign_of_valid_signed hk hv
  rw [Numeral.sm_signed hk hm]
  cases minus with
  | nil => rw [Numeral.sm_signed (minus := [true]) hxk (by rw [hs, hm]; rfl)]; rfl
  | cons m ms =>
    rw [Numeral.sm_signed (minus := (!m) :: ms) hxk (by rw [hs, hm]; cases m <;> rfl)]
    have hparity : (((!m) :: ms).count true + (m :: ms).count true) % 2 = 1 := by
      cases m <;> simp <;> omega
    rcases Nat.mod_two_eq_zero_or_one ((m :: ms).count true) with h | h
    · rw [if_pos h, if_neg (by omega)]; rfl
    · rw [if_pos (by omega), if_neg (by omega)]; rfl

theorem cell_complement_top {r : Cell} (h2 : 2 ≤ r.val) :
    cell (r.val - 1 - (cell (r.val - 1)).val) = 0 := by
  rw [cell_val (by have := r.isLt; omega), Nat.sub_self]; rfl

/-- Complementing every token of a sign run of one repeated digit flips the sign (rule R128). -/
theorem sm_complementDigits {n x : Numeral}
    (hk : n.kind = .signMagnitude ∨ n.kind = .onesComplement ∨ n.kind = .twosComplement)
    (hv : n.valid = true) (hxk : x.kind = n.kind) (hxr : x.radix = n.radix)
    (hs : x.sign = complementDigits n.radix.val n.sign) : x.sm = n.sm.opposite := by
  obtain ⟨⟨h2, -⟩, -⟩ := (Numeral.valid_iff n).1 hv
  obtain ⟨k, t, hsign, hsmr, ht⟩ := Numeral.sign_of_valid_digit hk hv
  rw [hsign, complementDigits_replicate] at hs
  rw [Numeral.sm_of_run (hxk.symm ▸ hk) hs (hxk.symm ▸ hsmr), hxr]
  rcases ht with ⟨hsm, rfl⟩ | ⟨hsm, rfl⟩
  · rw [hsm]; exact tokenSign_top h2
  · rw [hsm, Numeral.topDigit, cell_complement_top h2]; exact tokenSign_zero _

theorem sign_below_of_valid_digit {n : Numeral}
    (hk : n.kind = .signMagnitude ∨ n.kind = .onesComplement ∨ n.kind = .twosComplement)
    (hv : n.valid = true) : ∀ d ∈ n.sign, d.val < n.radix.val := by
  intro d hd
  have h0 := Numeral.radix_pos hv
  obtain ⟨k, t, hsign, -, ht⟩ := Numeral.sign_of_valid_digit hk hv
  rw [hsign] at hd
  rw [(List.mem_replicate.1 hd).2]
  rcases ht with ⟨-, rfl⟩ | ⟨-, rfl⟩
  · exact h0
  · rw [Numeral.topDigit_val]; omega

/-! ### The complement is the opposite -/

/-- Digits below the radix under the opposite sign make a valid numeral. -/
theorem Numeral.valid_of_opposite {n x : Numeral} (hv : n.valid = true) (hr : x.radix = n.radix)
    (hsm : x.sm = n.sm.opposite) (hd : ∀ d ∈ x.whole ++ x.fraction, d.val < n.radix.val) :
    x.valid = true := by
  obtain ⟨hlegal, -⟩ := (Numeral.valid_iff n).1 hv
  refine (Numeral.valid_iff x).2 ⟨hr ▸ hlegal, fun d h => ?_, fun d h => ?_, ?_⟩
  · exact hr ▸ hd d (List.mem_append_left _ h)
  · exact hr ▸ hd d (List.mem_append_right _ h)
  · rw [hsm]
    rcases Numeral.sm_eq_plus_or_minus hv with h | h <;> simp [h, Cond.opposite]

theorem Numeral.digits_below {n : Numeral} (hv : n.valid = true) :
    ∀ d ∈ n.whole ++ n.fraction, d.val < n.radix.val := by
  obtain ⟨-, hw, hf, -⟩ := (Numeral.valid_iff n).1 hv
  exact fun d hd => (List.mem_append.1 hd).elim (hw d) (hf d)

section Opposite

variable {n x : Numeral} (hv : n.valid = true)
include hv

theorem Numeral.opposite_of_digits_below (hk : x.kind = n.kind) (hr : x.radix = n.radix)
    (hsm : x.sm = n.sm.opposite) (hd : ∀ d ∈ x.whole ++ x.fraction, d.val < n.radix.val)
    (hf : x.fraction.length = n.fraction.length)
    (habs : x.valid = true → x.absInt = n.absInt) : n.Opposite x :=
  have hvx := Numeral.valid_of_opposite hv hr hsm hd
  ⟨hvx, hk, hr, hsm, habs hvx, hf⟩

/-- SIGNED and SMR keep the digits (rule R128). -/
theorem Numeral.opposite_of_same_digits (hk : n.kind = .signed ∨ n.kind = .signMagnitude)
    (hxk : x.kind = n.kind) (hr : x.radix = n.radix) (hw : x.whole = n.whole)
    (hf : x.fraction = n.fraction) (hsm : x.sm = n.sm.opposite) : n.Opposite x := by
  refine Numeral.opposite_of_digits_below hv hxk hr hsm ?_ (by rw [hf]) fun _ => ?_
  · rw [hw, hf]; exact Numeral.digits_below hv
  · rw [Numeral.absInt_of_digits (.inr (.inr (hxk ▸ hk))), Numeral.absInt_of_digits (.inr (.inr hk)),
      Numeral.digitsInt, Numeral.digitsInt, hr, hw, hf]

theorem Numeral.absInt_eq_of_onesComplement (hvx : x.valid = true) (hk : n.kind = .onesComplement)
    (hxk : x.kind = .onesComplement) (hsm : x.sm = n.sm.opposite)
    (hsum : x.digitsInt + n.digitsInt + 1 = n.radix.val ^ (n.whole.length + n.fraction.length))
    (hpow : x.radix.val ^ (x.whole.length + x.fraction.length) =
      n.radix.val ^ (n.whole.length + n.fraction.length)) : x.absInt = n.absInt := by
  rcases Numeral.sm_eq_plus_or_minus hv with h | h <;> rw [h] at hsm
  · rw [Numeral.absInt_of_digits (n := n) (.inl h)]
    exact Numeral.absInt_eq_of_onesComplement_sum hvx hxk hsm (hsum.trans hpow.symm)
  · rw [Numeral.absInt_of_digits (n := x) (.inl hsm)]
    exact (Numeral.absInt_eq_of_onesComplement_sum hv hk h (by omega)).symm

theorem Numeral.absInt_eq_of_twosComplement (hvx : x.valid = true) (hk : n.kind = .twosComplement)
    (hxk : x.kind = .twosComplement) (hsm : x.sm = n.sm.opposite)
    (hsum : x.digitsInt + n.digitsInt = n.radix.val ^ (n.whole.length + n.fraction.length))
    (hpow : n.sm = .plus → x.radix.val ^ (x.whole.length + x.fraction.length) =
      n.radix.val ^ (n.whole.length + n.fraction.length)) : x.absInt = n.absInt := by
  rcases Numeral.sm_eq_plus_or_minus hv with h | h <;> rw [h] at hsm
  · rw [Numeral.absInt_of_digits (n := n) (.inl h)]
    exact Numeral.absInt_eq_of_twosComplement_sum hvx hxk hsm (hsum.trans (hpow h).symm)
  · rw [Numeral.absInt_of_digits (n := x) (.inl hsm)]
    exact (Numeral.absInt_eq_of_twosComplement_sum hv hk h (by omega)).symm

/-- The complement of a valid numeral, but for the zero of TWO'S-COMPLEMENT, is its opposite (rule R128). -/
theorem complementOf_opposite (hk : n.kind ≠ .unsigned) (h0 : n.kind = .twosComplement → n.absInt ≠ 0) :
    n.Opposite (complementOf n) := by
  obtain ⟨⟨h2, h35⟩, -⟩ := (Numeral.valid_iff n).1 hv
  have hbelow := Numeral.digits_below hv
  cases hkind : n.kind with
  | unsigned => exact absurd hkind hk
  | signed =>
    rw [complementOf_signed hkind]
    exact Numeral.opposite_of_same_digits hv (.inl hkind) rfl rfl rfl rfl (sm_flipFirst hkind hv hkind rfl)
  | signMagnitude =>
    rw [complementOf_signMagnitude hkind]
    exact Numeral.opposite_of_same_digits hv (.inr hkind) rfl rfl rfl rfl
      (sm_complementDigits (.inl hkind) hv rfl rfl rfl)
  | onesComplement =>
    have hsum := ofDigits_complement (by omega) hbelow
    rw [complementDigits_append, List.length_append] at hsum
    have hsm := sm_complementDigits (x := complementOf n) (.inr (.inl hkind)) hv (complementOf_kind n)
      (complementOf_radix n) (by rw [complementOf_onesComplement hkind])
    rw [complementOf_onesComplement hkind] at hsm ⊢
    refine Numeral.opposite_of_digits_below hv rfl rfl hsm ?_ (complementDigits_length ..) fun hvx =>
      Numeral.absInt_eq_of_onesComplement hv hvx hkind hkind hsm hsum (by simp)
    rw [← complementDigits_append]
    exact complementDigits_below (by omega) hbelow
  | twosComplement =>
    have hsum := ofDigits_radixComplement h2 (by omega) (Numeral.digitsInt_lt hv)
    have hsm := sm_complementDigits (x := complementOf n) (.inr (.inr hkind)) hv (complementOf_kind n)
      (complementOf_radix n) (by rw [complementOf_twosComplement hkind (h0 hkind)])
    rw [complementOf_twosComplement hkind (h0 hkind)] at hsm ⊢
    refine Numeral.opposite_of_digits_below hv rfl rfl hsm (radixComplement_below h2 (by omega))
      (radixComplement_snd_length ..) fun hvx =>
        Numeral.absInt_eq_of_twosComplement hv hvx hkind hkind hsm hsum fun hplus => ?_
    have hne : n.digitsInt ≠ 0 := Numeral.absInt_of_digits (.inl hplus) ▸ h0 hkind
    simp [hne]

theorem complementOf_valid (hk : n.kind ≠ .unsigned) : (complementOf n).valid = true := by
  by_cases h0 : n.kind = .twosComplement ∧ n.absInt = 0
  · rwa [complementOf_twosComplement_zero hv h0.1 h0.2]
  · exact (complementOf_opposite hv hk fun h => not_and.1 h0 h).valid

end Opposite

/-! ### Lengths -/

theorem complementOf_whole_length {n : Numeral} (hv : n.valid = true) :
    (complementOf n).whole.length = n.whole.length +
      if n.kind = .twosComplement ∧ n.sm = .minus ∧ n.digitsInt = 0 then 1 else 0 := by
  cases hk : n.kind with
  | unsigned => simp [complementOf, hk]
  | signed => simp [complementOf_signed hk]
  | signMagnitude => simp [complementOf_signMagnitude hk]
  | onesComplement => simp [complementOf_onesComplement hk]
  | twosComplement =>
    by_cases h0 : n.absInt = 0
    · simp [complementOf_twosComplement_zero hv hk h0, Numeral.sm_of_twosComplement_zero hv hk h0]
    · have hgrow : n.sm = .minus ∧ n.digitsInt = 0 ↔ n.digitsInt = 0 := by
        refine and_iff_right_of_imp fun hd => (Numeral.sm_eq_plus_or_minus hv).resolve_left fun hsm => ?_
        exact h0 ((Numeral.absInt_of_digits (.inl hsm)).trans hd)
      rw [complementOf_twosComplement hk h0, radixComplement_fst_length]
      simp only [true_and, hgrow]
      split <;> rfl

theorem complementOf_whole_length_le {n : Numeral} (hv : n.valid = true) :
    (complementOf n).whole.length ≤ n.whole.length + 1 := by
  rw [complementOf_whole_length hv]
  split <;> omega

theorem flipFirst_length {sign : List Cell} (h : sign ≠ []) : (flipFirst sign).length = sign.length := by
  cases sign with
  | nil => exact absurd rfl h
  | cons t ts => rfl

theorem complementOf_sign_length {n : Numeral} (h : n.sign ≠ []) :
    (complementOf n).sign.length = n.sign.length := by
  unfold complementOf
  split
  case h_2 => exact flipFirst_length h
  case h_5 => split <;> simp
  all_goals simp

/-! ### The double complement -/

theorem flipFirst_flipFirst {sign : List Cell} (h : sign ≠ []) (h2 : ∀ d ∈ sign, d.val < 2) :
    flipFirst (flipFirst sign) = sign := by
  cases sign with
  | nil => exact absurd rfl h
  | cons t ts =>
    have ht := h2 t List.mem_cons_self
    have hcell : cell (1 - (cell (1 - t.val)).val) = t :=
      Fin.ext (by rw [cell_val (v := 1 - t.val) (by omega), cell_val (by omega)]; omega)
    rw [flipFirst, flipFirst, hcell]

/-- The double complement has the kind, radix, sign and value of the numeral, so its standardized form
(rule R130). -/
theorem complementOf_complementOf_std {n : Numeral} (hv : n.valid = true) (hk : n.kind ≠ .unsigned) :
    (complementOf (complementOf n)).std = n.std := by
  by_cases h0 : n.kind = .twosComplement ∧ n.absInt = 0
  · obtain ⟨htc, habs⟩ := h0
    rw [complementOf_twosComplement_zero hv htc habs, complementOf_twosComplement_zero hv htc habs]
  · have h1 := complementOf_opposite hv hk fun h => not_and.1 h0 h
    have h2 := complementOf_opposite h1.valid (h1.kind ▸ hk) (h1.kind ▸ h1.absInt ▸ fun h => not_and.1 h0 h)
    refine (Numeral.std_eq_ok.2 ⟨h2.valid, rfl⟩).trans (Eq.trans (congrArg _ ?_)
      (Numeral.std_eq_ok.2 ⟨hv, rfl⟩).symm)
    refine Numeral.stdForm_eq_of_val_eq (h2.kind.trans h1.kind) (h2.radix.trans h1.radix) ?_ h2.valid hv ?_
    · rw [h2.sm, h1.sm, Cond.opposite_opposite]
    · rw [h2.val_eq h1.valid, h1.val_eq hv, neg_neg]

/-- The complement is an involution, but for the two exceptions (a) and (b) of rule R130. -/
theorem complementOf_complementOf {n : Numeral} (hv : n.valid = true) (hk : n.kind ≠ .unsigned)
    (ha : ¬(n.kind = .signed ∧ n.sign = []))
    (hb : ¬(n.kind = .twosComplement ∧ n.sm = .minus ∧ n.digitsInt = 0)) :
    complementOf (complementOf n) = n := by
  obtain ⟨⟨h2, h35⟩, hw, hf, -⟩ := (Numeral.valid_iff n).1 hv
  have h64 : n.radix.val ≤ 64 := by omega
  cases hkind : n.kind with
  | unsigned => exact absurd hkind hk
  | signed =>
    obtain ⟨minus, hm⟩ := Numeral.sign_of_valid_signed hkind hv
    have hbelow : ∀ d ∈ n.sign, d.val < 2 := by
      intro d hd
      obtain ⟨m, -, rfl⟩ := List.mem_map.1 (hm ▸ hd)
      cases m <;> decide
    rw [complementOf_signed (n := complementOf n) (by simp [hkind]), complementOf_signed hkind]
    simp only [flipFirst_flipFirst (fun h => ha ⟨hkind, h⟩) hbelow]
  | signMagnitude =>
    have hs := sign_below_of_valid_digit (.inl hkind) hv
    rw [complementOf_signMagnitude (n := complementOf n) (by simp [hkind]), complementOf_signMagnitude hkind]
    simp only [complementDigits_complementDigits h64 hs]
  | onesComplement =>
    have hs := sign_below_of_valid_digit (.inr (.inl hkind)) hv
    rw [complementOf_onesComplement (n := complementOf n) (by simp [hkind]), complementOf_onesComplement hkind]
    simp only [complementDigits_complementDigits h64 hs, complementDigits_complementDigits h64 hw,
      complementDigits_complementDigits h64 hf]
  | twosComplement =>
    by_cases h0 : n.absInt = 0
    · rw [complementOf_twosComplement_zero hv hkind h0, complementOf_twosComplement_zero hv hkind h0]
    · have hs := sign_below_of_valid_digit (.inr (.inr hkind)) hv
      have h1 := complementOf_opposite hv hk fun _ => h0
      have hx0 : n.digitsInt ≠ 0 := fun hx => by
        rcases Numeral.sm_eq_plus_or_minus hv with hsm | hsm
        · exact h0 ((Numeral.absInt_of_digits (.inl hsm)).trans hx)
        · exact hb ⟨hkind, hsm, hx⟩
      have hback := radixComplement_radixComplement h2 h64 (Numeral.digits_below hv) hx0 rfl
      rw [complementOf_twosComplement (n := complementOf n) (h1.kind.trans hkind) (h1.absInt ▸ h0),
        complementOf_twosComplement hkind h0]
      simp only [complementDigits_complementDigits h64 hs, Numeral.digitsInt, hback]

/-! ### The commands -/

section Results

variable {caps : Capacities} {n : Numeral}

theorem complementNumeral_of_unsigned (hk : n.kind = .unsigned) :
    complementNumeral caps (some n) = .error .unsupportedForUnsigned := bind_of_error (failIf_pos hk) _

theorem complementNumeral_of_invalid (hk : n.kind ≠ .unsigned) (hv : n.valid = false) :
    complementNumeral caps (some n) = .error .invalidNumeral := by
  rw [complementNumeral, held_some, except_ok_bind, failIf_neg hk, except_ok_bind, failIf_pos hv,
    except_error_bind]

theorem complementNumeral_of_valid (hk : n.kind ≠ .unsigned) (hv : n.valid = true)
    (hcap : exceeds caps.wcap (n.whole.length + 1) = false) :
    complementNumeral caps (some n) = .ok (complementOf n) := by
  rw [complementNumeral, held_some, except_ok_bind, failIf_neg hk, except_ok_bind,
    failIf_neg (by simp [hv]), except_ok_bind]
  exact capWhole_eq_ok.2 ⟨exceeds_mono (complementOf_whole_length_le hv) hcap, rfl⟩

theorem absoluteValue_of_invalid (hv : n.valid = false) :
    absoluteValue caps (some n) = .error .invalidNumeral := bind_of_error (failIf_pos hv) _

theorem absoluteValue_of_valid (hv : n.valid = true) : absoluteValue caps (some n) =
    if n.kind ≠ .unsigned ∧ n.sm = .minus then complementNumeral caps (some n) else .ok n := by
  rw [absoluteValue, held_some, except_ok_bind, failIf_neg (by simp [hv]), except_ok_bind]

end Results

section Exec

variable {s : State} {n : Numeral} {rs1 : Fin 8} (hn : s.readN rs1 = some n) (log : Bool) (rd : Fin 8)
include hn

theorem exec_compl : exec (.compl log rd rs1) s = finishN rd (complementNumeral s.caps (some n)) s := by
  rw [← hn]; rfl

theorem exec_compl_of_valid (hk : n.kind ≠ .unsigned) (hv : n.valid = true)
    (hcap : exceeds s.caps.wcap (n.whole.length + 1) = false) : exec (.compl log rd rs1) s =
      .next (succeed false (s.setN rd (some (complementOf n)))) :=
  (exec_compl hn log rd).trans (finishN_of_ok (complementNumeral_of_valid hk hv hcap) s)

theorem exec_absv : exec (.absv log rd rs1) s = finishN rd (absoluteValue s.caps (some n)) s := by
  rw [← hn]; rfl

end Exec

/-- Settles O30: the complement is the opposite, and the zero of TWO'S-COMPLEMENT its own complement. -/
theorem complNegatesTheValue : Obligations.ComplNegatesTheValue := by
  intro s log rd rs1 n hn
  have fail {c : Failure} (h : complementNumeral s.caps (some n) = .error c) :
      exec (.compl log rd rs1) s = .next (raiseFail (.num rd) c s) :=
    (exec_compl hn log rd).trans (finishN_of_error h s)
  refine ⟨fun hk => fail (complementNumeral_of_unsigned hk),
    fun hk hv => fail (complementNumeral_of_invalid hk hv), fun hk hv hcap =>
      ⟨_, exec_compl_of_valid hn log rd hk hv hcap, ?_⟩⟩
  have hlen := complementOf_whole_length hv
  by_cases h0 : n.kind = .twosComplement ∧ n.absInt = 0
  · obtain ⟨htc, habs⟩ := h0
    have hval := (Numeral.val_eq_zero_iff hv).2 habs
    rw [complementOf_twosComplement_zero hv htc habs]
    exact ⟨hv, by rw [hval, neg_zero], rfl, rfl, rfl, fun _ => rfl, fun _ _ => rfl,
      fun h => absurd htc h, fun _ _ => rfl⟩
  · have h := complementOf_opposite hv hk fun h => not_and.1 h0 h
    refine ⟨h.valid, h.val_eq hv, h.kind, h.radix, h.fraction, complementOf_sign_length,
      fun htc hval => absurd ⟨htc, (Numeral.val_eq_zero_iff hv).1 hval⟩ h0, fun hne => ⟨?_, ?_⟩,
      fun htc hgrow => ?_⟩
    · rw [h.sm]
      rcases Numeral.sm_eq_plus_or_minus hv with hsm | hsm <;> rw [hsm] <;> nofun
    · rw [hlen, if_neg fun hc => hne hc.1, Nat.add_zero]
    · rw [hlen, if_neg fun hc => hgrow hc.2, Nat.add_zero]

/-- Settles O31: the double complement is the numeral itself, and in the two exceptions its standardized
form is that of the numeral. -/
theorem complIsAnInvolution : Obligations.ComplIsAnInvolution := by
  intro s log mid rd rs1 n hn hk hv hcap
  have hlen := complementOf_whole_length_le hv
  refine ⟨_, _, complementOf (complementOf n),
    exec_compl_of_valid hn log mid hk hv (exceeds_mono (by omega) hcap),
    exec_compl_of_valid (by simp) log rd (by simpa using hk)
      (complementOf_valid hv hk) (exceeds_mono (by omega) hcap),
    by simp, by simp, by simp, complementOf_complementOf_std hv hk, complementOf_complementOf hv hk⟩

/-- Settles O32: the complement of a negative numeral is its opposite, a positive one is copied. -/
theorem absvDeliversTheAbsoluteValue : Obligations.AbsvDeliversTheAbsoluteValue := by
  intro s log rd rs1 n hn
  refine ⟨fun hv => (exec_absv hn log rd).trans (finishN_of_error (absoluteValue_of_invalid hv) s),
    fun hv hcap => ?_⟩
  have habs := absoluteValue_of_valid (caps := s.caps) hv
  rcases Numeral.sm_eq_plus_or_minus hv with hsm | hsm
  · rw [if_neg (by simp [hsm])] at habs
    refine ⟨n, (exec_absv hn log rd).trans (finishN_of_ok habs s), hv, ?_, rfl, rfl, hsm, fun _ => rfl⟩
    rw [Numeral.val_of_sm_plus hsm, abs_of_nonneg n.mag_nonneg]
  · have hk : n.kind ≠ .unsigned := fun hk => by simp [Numeral.sm_of_valid_unsigned hk hv] at hsm
    have h := complementOf_opposite hv hk fun htc h0 => by
      simp [Numeral.sm_of_twosComplement_zero hv htc h0] at hsm
    have hplus : (complementOf n).sm = .plus := by rw [h.sm, hsm]; rfl
    rw [if_pos ⟨hk, hsm⟩, complementNumeral_of_valid hk hv hcap] at habs
    refine ⟨complementOf n, (exec_absv hn log rd).trans (finishN_of_ok habs s), h.valid, ?_, h.kind,
      h.radix, hplus, fun hp => by simp [hp] at hsm⟩
    rw [← abs_neg, ← h.val_eq hv, Numeral.val_of_sm_plus hplus,
      abs_of_nonneg (complementOf n).mag_nonneg]

end Sys2Proof.Machine
end

section
/-! PROOFS. Conversion between the kinds: the sign-magnitude intermediate holds the magnitude of its numeral,
and the numeral built from it has that magnitude and the sign its kind can hold
(41_representation_converter.md rules R120 to R126, R130). -/

namespace Sys2Proof.Machine

/-! ### To sign and magnitude -/

/-- The digits of the triple as one integer. -/
def SignMag.digitsInt (p : SignMag) (r : Nat) : Nat := ofDigits r (p.whole ++ p.fraction)

/-- The triple holds the sign and the magnitude of a numeral, with at most one more whole digit (rule
R120). -/
structure SignMag.Holds (p : SignMag) (n : Numeral) : Prop where
  neg : p.neg = decide (n.sm = .minus)
  below : ∀ d ∈ p.whole ++ p.fraction, d.val < n.radix.val
  digitsInt : p.digitsInt n.radix.val = n.absInt
  whole_ge : n.whole.length ≤ p.whole.length
  whole_le : p.whole.length ≤ n.whole.length + 1
  fraction : p.fraction.length = n.fraction.length

section ToSignMag

variable {n : Numeral}

theorem toSignMag_of_digits
    (h : n.sm = .plus ∨ n.kind = .unsigned ∨ n.kind = .signed ∨ n.kind = .signMagnitude) :
    toSignMag n = ⟨decide (n.sm = .minus), n.whole, n.fraction⟩ := by
  rw [toSignMag, if_pos (by tauto)]

theorem toSignMag_onesComplement (hk : n.kind = .onesComplement) (hsm : n.sm = .minus) :
    toSignMag n = ⟨true, complementDigits n.radix.val n.whole,
      complementDigits n.radix.val n.fraction⟩ := by
  rw [toSignMag, if_neg (by simp [hk, hsm]), if_pos hk]

theorem toSignMag_twosComplement (hk : n.kind = .twosComplement) (hsm : n.sm = .minus) :
    toSignMag n = ⟨true, (radixComplement n.radix.val n.whole.length n.fraction.length n.digitsInt).1,
      (radixComplement n.radix.val n.whole.length n.fraction.length n.digitsInt).2⟩ := by
  rw [toSignMag, if_neg (by simp [hk, hsm]), if_neg (by simp [hk])]

theorem toSignMag_holds (hv : n.valid = true) : (toSignMag n).Holds n := by
  obtain ⟨⟨h2, h35⟩, -⟩ := (Numeral.valid_iff n).1 hv
  have hbelow := Numeral.digits_below hv
  rcases Numeral.absInt_cases hv with ⟨h, habs⟩ | ⟨hk, hsm, habs⟩ | ⟨hk, hsm, habs⟩
  · rw [toSignMag_of_digits h]
    exact ⟨rfl, hbelow, habs.symm, le_rfl, by simp, rfl⟩
  · have hsum := ofDigits_radixComplement h2 (by omega) (Numeral.digitsInt_lt hv)
    rw [toSignMag_twosComplement hk hsm]
    refine ⟨by simp [hsm], radixComplement_below h2 (by omega),
      Nat.add_right_cancel (hsum.trans habs.symm), ?_, ?_, by simp⟩
    · rw [radixComplement_fst_length]; split <;> omega
    · rw [radixComplement_fst_length]; split <;> omega
  · have hsum := ofDigits_complement (by omega) hbelow
    rw [complementDigits_append, List.length_append] at hsum
    rw [toSignMag_onesComplement hk hsm]
    refine ⟨by simp [hsm], ?_, Nat.add_right_cancel (Nat.add_right_cancel (hsum.trans habs.symm)),
      by simp, by simp, by simp⟩
    rw [← complementDigits_append]
    exact complementDigits_below (by omega) hbelow

end ToSignMag

/-! ### From sign and magnitude -/

theorem allZero_iff {r : Nat} (hr : 0 < r) (ds : List Cell) : allZero ds = true ↔ ofDigits r ds = 0 := by
  induction ds with
  | nil => simp [allZero]
  | cons d ds ih =>
    have hpow : r ^ ds.length ≠ 0 := (Nat.pow_pos hr).ne'
    have hcons : allZero (d :: ds) = (d == 0 && allZero ds) := rfl
    rw [hcons, ofDigits_cons, Nat.add_eq_zero_iff, ← ih, mul_eq_zero, or_iff_left hpow,
      Bool.and_eq_true, beq_iff_eq, Fin.ext_iff, Fin.val_zero]

/-- The sign that kind `k` keeps of the triple: none in UNSIGNED, and none of a zero in TWO'S-COMPLEMENT
(rule R121). -/
def SignMag.signIn (p : SignMag) (r : Nat) (k : Kind) : Cond :=
  if p.neg = true ∧ k ≠ .unsigned ∧ (k = .twosComplement → p.digitsInt r ≠ 0) then .minus else .plus

/-- `x` is the numeral of kind `k` and radix `r` that the triple describes, with the lengths of the
triple. -/
structure SignMag.Describes (p : SignMag) (r : Cell) (k : Kind) (x : Numeral) : Prop where
  kind : x.kind = k
  radix : x.radix = r
  sm : x.sm = p.signIn r.val k
  below : ∀ d ∈ x.whole ++ x.fraction, d.val < r.val
  whole : x.whole.length = p.whole.length
  fraction : x.fraction.length = p.fraction.length
  absInt : x.valid = true → x.absInt = p.digitsInt r.val

theorem SignMag.signIn_eq_minus {p : SignMag} {r : Nat} {k : Kind} : p.signIn r k = .minus ↔
    p.neg = true ∧ k ≠ .unsigned ∧ (k = .twosComplement → p.digitsInt r ≠ 0) := by
  unfold SignMag.signIn
  split
  · next h => exact iff_of_true rfl h
  · next h => exact iff_of_false nofun h

theorem SignMag.signIn_of_ne_minus {p : SignMag} {r : Nat} {k : Kind} (h : p.signIn r k ≠ .minus) :
    p.signIn r k = .plus :=
  if_neg (mt SignMag.signIn_eq_minus.2 h)

theorem SignMag.signIn_twosComplement {p : SignMag} {r : Nat} (hr : 0 < r) :
    p.signIn r .twosComplement = .minus ↔
      p.neg = true ∧ ¬(allZero p.whole = true ∧ allZero p.fraction = true) := by
  have hzero : p.digitsInt r = 0 ↔ allZero p.whole = true ∧ allZero p.fraction = true := by
    rw [SignMag.digitsInt, ← allZero_iff hr, allZero, List.all_append, Bool.and_eq_true]; rfl
  simp [SignMag.signIn_eq_minus, hzero]

/-- The sign run of one token has the sign that the kind keeps. -/
theorem SignMag.sm_eq_signIn {p : SignMag} {x : Numeral} (h2 : 2 ≤ x.radix.val)
    (hs : x.sign = signRun (decide (p.signIn x.radix.val x.kind = .minus)) x.radix x.kind) :
    x.sm = p.signIn x.radix.val x.kind := by
  rw [Numeral.sm_of_signRun h2 hs]
  by_cases h : p.signIn x.radix.val x.kind = .minus
  · rw [h, if_pos ⟨rfl, (SignMag.signIn_eq_minus.1 h).2.1⟩]
  · rw [if_neg (by simp [h]), SignMag.signIn_of_ne_minus h]

theorem SignMag.Describes.valid {p : SignMag} {r : Cell} {k : Kind} {x : Numeral}
    (h : p.Describes r k x) (hr : 2 ≤ r.val ∧ r.val ≤ 35) : x.valid = true := by
  obtain ⟨-, rfl, hsm, hbelow, -⟩ := h
  refine (Numeral.valid_iff x).2 ⟨hr, fun d hd => hbelow d (List.mem_append_left _ hd),
    fun d hd => hbelow d (List.mem_append_right _ hd), ?_⟩
  rw [hsm, SignMag.signIn]
  split <;> nofun

theorem SignMag.describes_of_sign {p : SignMag} {r : Cell} {k : Kind} {x : Numeral} (h2 : 2 ≤ r.val)
    (hk : x.kind = k) (hr : x.radix = r)
    (hs : x.sign = signRun (decide (p.signIn r.val k = .minus)) r k)
    (hbelow : ∀ d ∈ x.whole ++ x.fraction, d.val < r.val) (hw : x.whole.length = p.whole.length)
    (hf : x.fraction.length = p.fraction.length)
    (habs : x.sm = p.signIn r.val k → x.valid = true → x.absInt = p.digitsInt r.val) :
    p.Describes r k x := by
  subst hk hr
  have hsm := SignMag.sm_eq_signIn h2 hs
  exact ⟨rfl, rfl, hsm, hbelow, hw, hf, habs hsm⟩

section FromSignMag

variable {p : SignMag} {r : Cell} {k : Kind} (hw : p.whole ≠ [])
include hw

/-- Where no complement is due, the numeral has the digits of the triple (rule R121). -/
theorem rawFromSignMag_of_digits (hr : 0 < r.val)
    (h : p.signIn r.val k = .plus ∨ k = .unsigned ∨ k = .signed ∨ k = .signMagnitude) :
    rawFromSignMag p r k =
      ⟨signRun (decide (p.signIn r.val k = .minus)) r k, p.whole, p.fraction, r, k⟩ := by
  cases k with
  | unsigned => simp [rawFromSignMag, signRun, hw]
  | signed | signMagnitude => simp [rawFromSignMag, signRun, SignMag.signIn_eq_minus, hw]
  | onesComplement =>
    have hs : p.signIn r.val .onesComplement = .plus := by simpa using h
    have hneg : ¬ p.neg = true := fun hn => by
      have hminus : p.signIn r.val .onesComplement = .minus :=
        SignMag.signIn_eq_minus.2 ⟨hn, nofun, nofun⟩
      simp [hs] at hminus
    simp [rawFromSignMag, signRun, hw, hneg, hs]
  | twosComplement =>
    have hs : p.signIn r.val .twosComplement = .plus := by simpa using h
    have hneg := mt (SignMag.signIn_twosComplement (p := p) hr).2 (by simp [hs])
    simp only [rawFromSignMag, signRun, if_neg hw, if_neg hneg, hs]
    rfl

theorem rawFromSignMag_onesComplement (hs : p.signIn r.val .onesComplement = .minus) :
    rawFromSignMag p r .onesComplement =
      ⟨signRun (decide (p.signIn r.val .onesComplement = .minus)) r .onesComplement,
        complementDigits r.val p.whole, complementDigits r.val p.fraction, r, .onesComplement⟩ := by
  obtain ⟨hneg, -⟩ := SignMag.signIn_eq_minus.1 hs
  simp [rawFromSignMag, signRun, hw, hneg, hs]

theorem rawFromSignMag_twosComplement (hr : 0 < r.val) (hs : p.signIn r.val .twosComplement = .minus) :
    rawFromSignMag p r .twosComplement =
      ⟨signRun (decide (p.signIn r.val .twosComplement = .minus)) r .twosComplement,
        (radixComplement r.val p.whole.length p.fraction.length (p.digitsInt r.val)).1,
        (radixComplement r.val p.whole.length p.fraction.length (p.digitsInt r.val)).2, r,
        .twosComplement⟩ := by
  obtain ⟨-, -, h0⟩ := SignMag.signIn_eq_minus.1 hs
  simp only [rawFromSignMag, if_neg hw, if_pos ((SignMag.signIn_twosComplement hr).1 hs),
    radixComplement, if_neg (h0 rfl), hs]
  rfl

/-- The numeral built from the triple is the one the triple describes (rule R121). -/
theorem rawFromSignMag_describes (h2 : 2 ≤ r.val) (h35 : r.val ≤ 35)
    (hbelow : ∀ d ∈ p.whole ++ p.fraction, d.val < r.val) :
    p.Describes r k (rawFromSignMag p r k) := by
  by_cases h : p.signIn r.val k = .plus ∨ k = .unsigned ∨ k = .signed ∨ k = .signMagnitude
  · rw [rawFromSignMag_of_digits hw (by omega) h]
    exact SignMag.describes_of_sign h2 rfl rfl rfl hbelow rfl rfl fun hsm _ =>
      Numeral.absInt_of_digits (h.imp_left hsm.trans)
  · obtain ⟨hs, hk⟩ := not_or.1 h
    have hminus : p.signIn r.val k = .minus := by_contra fun h => hs (SignMag.signIn_of_ne_minus h)
    cases k with
    | unsigned | signed | signMagnitude => simp at hk
    | onesComplement =>
      have hsum := ofDigits_complement (by omega) hbelow
      have hbelow' := complementDigits_below (by omega) hbelow
      rw [complementDigits_append, List.length_append] at hsum
      rw [complementDigits_append] at hbelow'
      rw [rawFromSignMag_onesComplement hw hminus]
      refine SignMag.describes_of_sign h2 rfl rfl rfl hbelow' (by simp) (by simp) fun hsm hvx => ?_
      refine Numeral.absInt_eq_of_onesComplement_sum hvx rfl (hsm.trans hminus) (hsum.trans ?_)
      simp
    | twosComplement =>
      have hlt := ofDigits_lt hbelow
      rw [List.length_append] at hlt
      have hsum := ofDigits_radixComplement h2 (by omega) hlt
      have h0 := (SignMag.signIn_eq_minus.1 hminus).2.2 rfl
      rw [rawFromSignMag_twosComplement hw (by omega) hminus]
      refine SignMag.describes_of_sign h2 rfl rfl rfl (radixComplement_below h2 (by omega)) (by simp [h0])
        (by simp) fun hsm hvx => ?_
      refine Numeral.absInt_eq_of_twosComplement_sum hvx rfl (hsm.trans hminus) (hsum.trans ?_)
      simp [h0]

end FromSignMag

/-! ### The converted numeral -/

/-- The numeral converted to kind `k` (rules R122 to R126). -/
def Numeral.convert (n : Numeral) (k : Kind) : Numeral :=
  (rawFromSignMag (toSignMag n.stdForm) n.radix k).stdForm

section Convert

variable {n : Numeral} (hv : n.valid = true) (k : Kind)
include hv

/-- A numeral is its sign times its absolute value. -/
theorem Numeral.val_eq_sm_mul_abs : n.val = (n.sm.toInt : ℚ) * |n.val| := by
  rw [Numeral.abs_val hv]
  exact Numeral.val_eq_absInt hv

theorem Numeral.convert_describes : (toSignMag n.stdForm).Describes n.radix k
    (rawFromSignMag (toSignMag n.stdForm) n.radix k) := by
  obtain ⟨⟨h2, h35⟩, -⟩ := (Numeral.valid_iff n).1 hv
  have h := toSignMag_holds (Numeral.stdForm_valid hv)
  have hwhole : 1 ≤ n.stdForm.whole.length := n.stdWhole_spec.1
  exact rawFromSignMag_describes (List.ne_nil_of_length_pos (hwhole.trans h.whole_ge)) h2 h35 h.below

theorem Numeral.convert_raw_valid : (rawFromSignMag (toSignMag n.stdForm) n.radix k).valid = true := by
  obtain ⟨hr, -⟩ := (Numeral.valid_iff n).1 hv
  exact (Numeral.convert_describes hv k).valid hr

theorem Numeral.convert_standardized : (n.convert k).standardized = true :=
  Numeral.stdForm_standardized (Numeral.convert_raw_valid hv k)

theorem Numeral.convert_valid : (n.convert k).valid = true :=
  Numeral.stdForm_valid (Numeral.convert_raw_valid hv k)

theorem Numeral.convert_kind : (n.convert k).kind = k := (Numeral.convert_describes hv k).kind

theorem Numeral.convert_radix : (n.convert k).radix = n.radix := (Numeral.convert_describes hv k).radix

theorem Numeral.convert_whole_length_le : (n.convert k).whole.length ≤ max n.whole.length 1 + 1 := by
  have h := toSignMag_holds (Numeral.stdForm_valid hv)
  have hraw := (Numeral.convert_describes hv k).whole
  have hle := h.whole_le
  have hstd : n.stdForm.whole.length ≤ max n.whole.length 1 := n.stdWhole_length_le
  have hout : (n.convert k).whole.length ≤
      max (rawFromSignMag (toSignMag n.stdForm) n.radix k).whole.length 1 := Numeral.stdWhole_length_le _
  omega

/-- The sign that the converted numeral keeps (rule R121). -/
theorem Numeral.convert_sm : (n.convert k).sm =
    if n.sm = .minus ∧ k ≠ .unsigned ∧ (k = .twosComplement → n.val ≠ 0) then .minus else .plus := by
  have hvs := Numeral.stdForm_valid hv
  have h := toSignMag_holds hvs
  have hzero : (toSignMag n.stdForm).digitsInt n.radix.val = 0 ↔ n.val = 0 := by
    rw [← Numeral.stdForm_val hv, Numeral.val_eq_zero_iff hvs, ← h.digitsInt]; rfl
  rw [Numeral.convert, Numeral.stdForm_sm (Numeral.convert_raw_valid hv k),
    (Numeral.convert_describes hv k).sm, SignMag.signIn]
  simp only [h.neg, decide_eq_true_eq, Numeral.stdForm_sm hv, Ne, hzero]

theorem Numeral.convert_abs_val : |(n.convert k).val| = |n.val| := by
  have hvs := Numeral.stdForm_valid hv
  have hvr := Numeral.convert_raw_valid hv k
  have h := toSignMag_holds hvs
  have hraw := Numeral.convert_describes hv k
  rw [Numeral.convert, Numeral.stdForm_val hvr, ← Numeral.stdForm_val hv, Numeral.abs_val hvr,
    Numeral.abs_val hvs, hraw.absInt hvr, hraw.radix, hraw.fraction, h.fraction, ← h.digitsInt]
  rfl

/-- Conversion keeps the value, but UNSIGNED the absolute value only (rules R122 to R126). -/
theorem Numeral.convert_val : (n.convert k).val = if k = .unsigned then |n.val| else n.val := by
  have hval := Numeral.val_eq_sm_mul_abs hv
  rw [Numeral.val_eq_sm_mul_abs (Numeral.convert_valid hv k), Numeral.convert_abs_val hv,
    Numeral.convert_sm hv]
  by_cases hk : k = .unsigned
  · rw [if_pos hk, if_neg fun h => h.2.1 hk]
    simp [Cond.toInt]
  · rw [if_neg hk]
    rcases Numeral.sm_eq_plus_or_minus hv with hsm | hsm
    · rw [if_neg (by simp [hsm]), ← hsm, ← hval]
    · by_cases hzero : n.val = 0
      · rw [hzero, abs_zero, mul_zero]
      · rw [if_pos ⟨hsm, hk, fun _ => hzero⟩, ← hsm, ← hval]

/-- A kind that can hold the sign keeps sign and value. -/
theorem Numeral.convert_keeps {k : Kind} (hc : k = .unsigned → n.sm = .plus)
    (hd : k = .twosComplement → n.val = 0 → n.sm = .plus) :
    (n.convert k).sm = n.sm ∧ (n.convert k).val = n.val := by
  rw [Numeral.convert_sm hv, Numeral.convert_val hv]
  rcases Numeral.sm_eq_plus_or_minus hv with hsm | hsm
  · rw [if_neg (by simp [hsm]), Numeral.val_of_sm_plus hsm, abs_of_nonneg n.mag_nonneg, ite_self]
    exact ⟨hsm.symm, rfl⟩
  · have hk : k ≠ .unsigned := fun hk => by simp [hc hk] at hsm
    have hzero : k = .twosComplement → n.val ≠ 0 := fun hk h0 => by simp [hd hk h0] at hsm
    rw [if_pos ⟨hsm, hk, hzero⟩, if_neg hk]
    exact ⟨hsm.symm, rfl⟩

/-- Converting to another kind and back standardizes, but for the exceptions (c) and (d) of rule R130. -/
theorem Numeral.convert_convert {k : Kind} (hc : k = .unsigned → n.sm = .plus)
    (hd : k = .twosComplement → n.val = 0 → n.sm = .plus) :
    (n.convert k).convert n.kind = n.stdForm := by
  have hvc := Numeral.convert_valid hv k
  obtain ⟨hsm, hval⟩ := Numeral.convert_keeps hv hc hd
  obtain ⟨hsm', hval'⟩ := Numeral.convert_keeps hvc (k := n.kind)
    (fun hk => hsm.trans (Numeral.sm_of_valid_unsigned hk hv))
    (fun hk h0 => hsm.trans (Numeral.sm_of_twosComplement_zero hv hk
      ((Numeral.val_eq_zero_iff hv).1 (hval.symm.trans h0))))
  refine Numeral.eq_of_standardized (b := n.stdForm) (Numeral.convert_kind hvc n.kind)
    ((Numeral.convert_radix hvc n.kind).trans (Numeral.convert_radix hv k)) ?_
    (Numeral.convert_standardized hvc n.kind) (Numeral.stdForm_standardized hv) ?_
  · rw [Numeral.stdForm_sm hv, hsm', hsm]
  · rw [Numeral.stdForm_val hv, hval', hval]

end Convert

/-! ### The command -/

section Results

variable {caps : Capacities} {n : Numeral} {k : Kind}

theorem convertKind_of_invalid (hv : n.valid = false) :
    convertKind caps k (some n) = .error .invalidNumeral :=
  bind_of_error (Numeral.std_eq_error.2 ⟨hv, rfl⟩) _

theorem convertKind_of_valid (hv : n.valid = true)
    (hcap : exceeds caps.wcap (max n.whole.length 1 + 1) = false) : convertKind caps k (some n) =
      .ok (n.convert k, decide (k = .unsigned ∧ n.sm = .minus)) := by
  have hstd := Numeral.std_eq_ok.2 ⟨hv, rfl⟩
  have hraw := Numeral.std_eq_ok.2 ⟨Numeral.convert_raw_valid hv k, rfl⟩
  have hneg : (toSignMag n.stdForm).neg = decide (n.sm = .minus) := by
    rw [(toSignMag_holds (Numeral.stdForm_valid hv)).neg, Numeral.stdForm_sm hv]
  have hfrom : fromSignMag (toSignMag n.stdForm) n.stdForm.radix k =
      .ok (n.convert k, decide (k = .unsigned ∧ n.sm = .minus)) := by
    rw [fromSignMag, show n.stdForm.radix = n.radix from rfl, hraw, except_ok_bind, hneg,
      Bool.decide_and]
    rfl
  have hfits : capWhole caps (n.convert k) = .ok (n.convert k) :=
    capWhole_eq_ok.2 ⟨exceeds_mono (Numeral.convert_whole_length_le hv k) hcap, rfl⟩
  rw [convertKind, held_some, except_ok_bind, hstd, except_ok_bind, hfrom, except_ok_bind, hfits,
    except_ok_bind]

end Results

section Exec

variable {s : State} {n : Numeral} {rs1 : Fin 8} (hn : s.readN rs1 = some n) (log : Bool) (k : Kind)
  (rd : Fin 8)
include hn

theorem exec_cvtkOf : exec (cvtkOf k log rd rs1) s = finishNWarn rd (convertKind s.caps k (some n)) s := by
  rw [← hn]; cases k <;> rfl

theorem exec_cvtkOf_of_valid (hv : n.valid = true)
    (hcap : exceeds s.caps.wcap (max n.whole.length 1 + 1) = false) : exec (cvtkOf k log rd rs1) s =
      .next (succeed (decide (k = .unsigned ∧ n.sm = .minus)) (s.setN rd (some (n.convert k)))) := by
  rw [exec_cvtkOf hn, convertKind_of_valid hv hcap]; rfl

end Exec

/-- Settles O28, from the sign and the absolute value of the converted numeral. -/
theorem cvtkKeepsTheValue : Obligations.CvtkKeepsTheValue := by
  intro s log k rd rs1 n hn
  refine ⟨fun hv => (exec_cvtkOf hn log k rd).trans (finishNWarn_of_error (convertKind_of_invalid hv) s),
    fun hv hcap => ⟨n.convert k, exec_cvtkOf_of_valid hn log k rd hv hcap,
      Numeral.convert_standardized hv k, Numeral.convert_kind hv k, Numeral.convert_radix hv k,
      Numeral.convert_val hv k, fun hk => ?_, fun hk hzero => ?_⟩⟩
  · exact (Numeral.convert_keeps hv (by rintro rfl; simp at hk) (by rintro rfl; simp at hk)).1
  · rw [Numeral.convert_sm hv, if_neg fun h => h.2.2 hk hzero]

/-- Settles O29: the way there and back keeps kind, radix, sign and value, which determine the standardized
form. -/
theorem cvtkRoundTripStandardizes : Obligations.CvtkRoundTripStandardizes := by
  intro s log k mid rd rs1 n m hn hm hcap hc hd
  obtain ⟨hv, rfl⟩ := Numeral.std_eq_ok.1 hm
  have hlen := Numeral.convert_whole_length_le hv k
  refine ⟨_, _, exec_cvtkOf_of_valid hn log k mid hv (exceeds_mono (by omega) hcap),
    exec_cvtkOf_of_valid (by simp) log n.kind rd (Numeral.convert_valid hv k)
      (exceeds_mono (by omega) hcap), by simp, by simp, ?_⟩
  rw [succeed_readN, State.readN_setN_same, Numeral.convert_convert hv hc hd]

end Sys2Proof.Machine
end

section
/-! PROOFS. The absolute value of an UNSIGNED or SIGNED numeral as its whole part and its fraction, and the
numeral that `TODEC` and `FROMDEC` build from a whole part and fraction digits (00_scope.md rule R16;
42_base_converter.md rules R140, R143, R144). -/

namespace Sys2Proof.Machine

/-! ### Whole part and fraction -/

theorem fraction_lt_one {r : Nat} {ds : List Cell} (h : ∀ d ∈ ds, d.val < r) (h0 : 0 < r) :
    (ofDigits r ds : ℚ) / (r : ℚ) ^ ds.length < 1 := by
  rw [div_lt_one (by positivity)]
  exact_mod_cast ofDigits_lt h

/-- A scaled number of whole part `w` and fraction `f / d` has the floor of its integer division. -/
theorem floor_scaled (w f d p : Nat) :
    ⌊((w : ℚ) + (f : ℚ) / (d : ℚ)) * (p : ℚ)⌋₊ = w * p + f * p / d := by
  have h : ((w : ℚ) + (f : ℚ) / (d : ℚ)) * (p : ℚ) =
      ((w * p : Nat) : ℚ) + ((f * p : Nat) : ℚ) / (d : ℚ) := by
    push_cast; ring
  rw [h, add_comm, Nat.floor_add_natCast (by positivity), Nat.floor_div_eq_div, add_comm]

section Magnitude

variable {n : Numeral} (hk : n.kind = .unsigned ∨ n.kind = .signed)
include hk

theorem Numeral.wp_of_magnitude : n.wp = 0 := by
  rcases hk with hk | hk <;> simp only [Numeral.wp, hk]

theorem Numeral.fp_of_magnitude : n.fp = 0 :=
  if_neg fun h => by rcases hk with hk | hk <;> simp [hk] at h

theorem Numeral.sm_congr_of_magnitude {m : Numeral} (hkind : m.kind = n.kind) (hs : m.sign = n.sign) :
    m.sm = n.sm := by
  rcases hk with hk | hk <;> simp only [Numeral.sm, hkind, hs, hk]

variable (hv : n.valid = true)
include hv

theorem Numeral.abs_val_of_magnitude : |n.val| = (ofDigits n.radix.val n.whole : ℚ) +
    (ofDigits n.radix.val n.fraction : ℚ) / (n.radix.val : ℚ) ^ n.fraction.length := by
  rw [Numeral.abs_val hv, Numeral.absInt_of_digits (by tauto),
    ← Numeral.mag_eq (Numeral.radix_pos hv).ne']
  rfl

theorem Numeral.floor_abs_val_mul (p : Nat) : ⌊|n.val| * (p : ℚ)⌋₊ =
    ofDigits n.radix.val n.whole * p +
      ofDigits n.radix.val n.fraction * p / n.radix.val ^ n.fraction.length := by
  rw [Numeral.abs_val_of_magnitude hk hv]
  exact_mod_cast floor_scaled _ _ (n.radix.val ^ n.fraction.length) p

/-- The integer part of the absolute value is the whole part. -/
theorem Numeral.floor_abs_val : ⌊|n.val|⌋ = (ofDigits n.radix.val n.whole : Int) := by
  obtain ⟨-, -, hf, -⟩ := (Numeral.valid_iff n).1 hv
  have hlt := fraction_lt_one hf (Numeral.radix_pos hv)
  rw [Int.floor_eq_iff, Numeral.abs_val_of_magnitude hk hv, Int.cast_natCast]
  exact ⟨le_add_of_nonneg_right (by positivity), add_lt_add_right hlt _⟩

end Magnitude

/-! ### A numeral from a whole part and fraction digits -/

theorem exceeds_minDigits {r w x : Nat} {cap : Option Nat} (hr : 2 ≤ r) (h64 : r ≤ 64)
    (hcap : cap = some w) (h : r ^ w ≤ x) : exceeds cap (minDigits r x).length = true := by
  obtain ⟨hx, -, hbelow, -⟩ := minDigits_spec hr h64 x
  have hlt := ofDigits_lt hbelow
  rw [hx] at hlt
  rw [hcap, exceeds_some, decide_eq_true_eq]
  exact (Nat.pow_lt_pow_iff_right hr).1 (h.trans_lt hlt)

/-- Digits without a leading zero are those that `minDigits` writes for their number. -/
theorem minDigits_ofDigits {r : Nat} (hr : 2 ≤ r) {ds : List Cell} (hlen : 1 ≤ ds.length)
    (hhead : ds.length = 1 ∨ ds.head? ≠ some 0) (h : ∀ d ∈ ds, d.val < r) :
    minDigits r (ofDigits r ds) = ds := by
  obtain ⟨h1, hfit, -⟩ := leastLength_spec hr 0 (ofDigits r ds) 1
  have hle : leastLength r 0 (ofDigits r ds) 1 ≤ ds.length := leastLength_le hr hlen (ofDigits_lt h)
  have hge : ds.length ≤ leastLength r 0 (ofDigits r ds) 1 := by
    rcases hhead with hone | hhead
    · omega
    · cases ds with
      | nil => simp at hlen
      | cons d ds =>
        have hd : 1 ≤ d.val := Nat.one_le_iff_ne_zero.2 fun h0 => hhead (by simp [Fin.ext_iff, h0])
        have hpow : r ^ ds.length ≤ ofDigits r (d :: ds) := by
          rw [ofDigits_cons]; nlinarith [Nat.zero_le (r ^ ds.length)]
        exact (Nat.pow_lt_pow_iff_right hr).1 (hpow.trans_lt hfit)
  rw [minDigits, le_antisymm hle hge, toDigits_ofDigits h]

/-- The numeral of radix `r`, whole part `w` and fraction digits `ds` with the sign and kind of `s`: what
`TODEC` and `FROMDEC` deliver (rules R143, R144). -/
def Numeral.rebuild (s : Numeral) (r w : Nat) (ds : List Cell) : Numeral where
  sign := s.sign
  whole := minDigits r w
  fraction := trimTrailing 0 ds
  radix := cell r
  kind := s.kind

section Rebuild

variable {s : Numeral} (hk : s.kind = .unsigned ∨ s.kind = .signed) {r : Nat} (w : Nat) (ds : List Cell)
include hk

theorem Numeral.rebuild_sm : (s.rebuild r w ds).sm = s.sm := Numeral.sm_congr_of_magnitude hk rfl rfl

variable {ds} (hs : s.standardized = true) (h2 : 2 ≤ r) (h35 : r ≤ 35) (hds : ∀ d ∈ ds, d.val < r)
include hs h2 h35 hds

theorem Numeral.rebuild_standardized : (s.rebuild r w ds).standardized = true := by
  obtain ⟨hv, hsign, -⟩ := s.standardized_iff.1 hs
  obtain ⟨-, -, -, hsm⟩ := (Numeral.valid_iff s).1 hv
  obtain ⟨-, hlen, hbelow, hhead⟩ := minDigits_spec h2 (by omega) w
  obtain ⟨⟨j, hj⟩, hlast⟩ := trimTrailing_spec 0 ds
  have hr : (s.rebuild r w ds).radix.val = r := cell_val (by omega)
  have hwp := Numeral.wp_of_magnitude (n := s.rebuild r w ds) hk
  have hfp := Numeral.fp_of_magnitude (n := s.rebuild r w ds) hk
  refine (s.rebuild r w ds).standardized_iff.2 ⟨(Numeral.valid_iff _).2 ⟨?_, ?_, ?_, ?_⟩, hsign,
    hwp ▸ ⟨hlen, hhead⟩, hfp ▸ hlast⟩
  · omega
  · rw [hr]; exact hbelow
  · rw [hr]; exact fun d hd => hds d (hj ▸ List.mem_append_left _ hd)
  · rwa [Numeral.rebuild_sm hk]

theorem Numeral.rebuild_valid : (s.rebuild r w ds).valid = true :=
  ((s.rebuild r w ds).standardized_iff.1 (Numeral.rebuild_standardized hk w hs h2 h35 hds)).1

theorem Numeral.rebuild_abs_val :
    |(s.rebuild r w ds).val| = (w : ℚ) + (ofDigits r ds : ℚ) / (r : ℚ) ^ ds.length := by
  obtain ⟨j, hj⟩ := (trimTrailing_spec 0 ds).1
  have hr : (s.rebuild r w ds).radix.val = r := cell_val (by omega)
  have hfrac := fraction_pad_zero (r := r) (by omega) j (trimTrailing 0 ds)
  have hv := Numeral.rebuild_valid hk w hs h2 h35 hds
  rw [← hj] at hfrac
  rw [Numeral.abs_val_of_magnitude (n := s.rebuild r w ds) hk hv, hr, hfrac]
  simp only [Numeral.rebuild, (minDigits_spec h2 (by omega) w).1]

theorem Numeral.rebuild_floor : ⌊|(s.rebuild r w ds).val|⌋ = (w : Int) := by
  rw [Numeral.floor_abs_val (n := s.rebuild r w ds) hk (Numeral.rebuild_valid hk w hs h2 h35 hds),
    show (s.rebuild r w ds).radix.val = r from cell_val (by omega)]
  exact_mod_cast (minDigits_spec h2 (by omega) w).1

end Rebuild

end Sys2Proof.Machine
end

section
/-! PROOFS. The two fractions of the base converter: the accumulator of `TODEC`, digit by digit below the
exact fraction, and the digits of `FROMDEC`, which truncate it (42_base_converter.md rules R142, R144). -/

namespace Sys2Proof.Machine

/-! ### The accumulator of `TODEC` -/

section Accumulator

variable {r : Nat} (k : Nat)

theorem fractionAcc_eq_sum (ds : List Cell) : fractionAcc r k ds =
    ∑ i ∈ Finset.range ds.length, (ds.getD i 0).val * precisionNumber / r ^ (k + i + 1) := by
  induction ds generalizing k with
  | nil => rfl
  | cons d ds ih =>
    rw [fractionAcc, ih, List.length_cons, Finset.sum_range_succ', Nat.add_comm]
    simp only [List.getD_cons_succ, List.getD_cons_zero, Nat.add_zero]
    congr 1
    exact Finset.sum_congr rfl fun i _ => by rw [show k + 1 + i + 1 = k + (i + 1) + 1 by omega]

theorem fractionAcc_cons_mul (d : Cell) (ds : List Cell) :
    fractionAcc r k (d :: ds) * r ^ (k + (d :: ds).length) =
      d.val * precisionNumber / r ^ (k + 1) * r ^ (k + 1) * r ^ ds.length +
        fractionAcc r (k + 1) ds * r ^ (k + 1 + ds.length) := by
  rw [fractionAcc, List.length_cons, show k + (ds.length + 1) = k + 1 + ds.length by omega,
    pow_add r (k + 1)]
  ring

/-- Every term is from below (rule R142). -/
theorem fractionAcc_mul_le (ds : List Cell) :
    fractionAcc r k ds * r ^ (k + ds.length) ≤ ofDigits r ds * precisionNumber := by
  induction ds generalizing k with
  | nil => simp [fractionAcc]
  | cons d ds ih =>
    have hd := Nat.div_mul_le_self (d.val * precisionNumber) (r ^ (k + 1))
    calc fractionAcc r k (d :: ds) * r ^ (k + (d :: ds).length)
        ≤ d.val * precisionNumber * r ^ ds.length + ofDigits r ds * precisionNumber := by
          rw [fractionAcc_cons_mul]
          exact Nat.add_le_add (Nat.mul_le_mul_right _ hd) (ih (k + 1))
      _ = ofDigits r (d :: ds) * precisionNumber := by rw [ofDigits_cons]; ring

/-- Every term loses less than a unit, and so the accumulator less than a unit for each digit (rule
R142). -/
theorem ofDigits_mul_add_le (h0 : 0 < r) {N : Nat} {ds : List Cell} (h : ds.length ≤ N) :
    ofDigits r ds * precisionNumber + N ≤ (fractionAcc r k ds + N) * r ^ (k + ds.length) := by
  induction ds generalizing k N with
  | nil => simpa [fractionAcc] using Nat.le_mul_of_pos_right N (Nat.pow_pos (n := k) h0)
  | cons d ds ih =>
    obtain ⟨M, rfl⟩ : ∃ M, N = M + 1 := ⟨N - 1, by rw [List.length_cons] at h; omega⟩
    have hd : d.val * precisionNumber + 1 ≤
        (d.val * precisionNumber / r ^ (k + 1) + 1) * r ^ (k + 1) :=
      Nat.lt_mul_of_div_lt (Nat.lt_succ_self _) (Nat.pow_pos h0)
    have hpow : r ^ (k + (d :: ds).length) = r ^ (k + 1) * r ^ ds.length := by
      rw [← pow_add, List.length_cons]; congr 1; omega
    calc ofDigits r (d :: ds) * precisionNumber + (M + 1)
        ≤ (d.val * precisionNumber + 1) * r ^ ds.length + (ofDigits r ds * precisionNumber + M) := by
          rw [ofDigits_cons]
          linarith [Nat.pow_pos (n := ds.length) h0]
      _ ≤ (d.val * precisionNumber / r ^ (k + 1) + 1) * r ^ (k + 1) * r ^ ds.length +
          (fractionAcc r (k + 1) ds + M) * r ^ (k + 1 + ds.length) :=
        Nat.add_le_add (Nat.mul_le_mul_right _ hd) (ih (k + 1) (by simpa using h))
      _ = (fractionAcc r k (d :: ds) + (M + 1)) * r ^ (k + (d :: ds).length) := by
          rw [Nat.add_mul (fractionAcc r k (d :: ds)), fractionAcc_cons_mul, hpow, pow_add r (k + 1)]
          ring

theorem fractionAcc_lt {ds : List Cell} (h : ∀ d ∈ ds, d.val < r) :
    fractionAcc r 0 ds < precisionNumber := by
  have hle := fractionAcc_mul_le (r := r) 0 ds
  rw [Nat.zero_add] at hle
  refine Nat.lt_of_mul_lt_mul_right (a := r ^ ds.length) (hle.trans_lt ?_)
  rw [Nat.mul_comm]
  exact Nat.mul_lt_mul_of_pos_left (ofDigits_lt h) (by decide)

/-- With exact terms the accumulator is exact (rule R146). -/
theorem fractionAcc_mul_eq {ds : List Cell}
    (h : ∀ i, i < ds.length → r ^ (k + i + 1) ∣ (ds.getD i 0).val * precisionNumber) :
    fractionAcc r k ds * r ^ (k + ds.length) = ofDigits r ds * precisionNumber := by
  induction ds generalizing k with
  | nil => simp [fractionAcc]
  | cons d ds ih =>
    have hd : d.val * precisionNumber / r ^ (k + 1) * r ^ (k + 1) = d.val * precisionNumber :=
      Nat.div_mul_cancel (h 0 (by simp))
    have htail := ih (k + 1) fun i hi => by
      rw [show k + 1 + i + 1 = k + (i + 1) + 1 by omega]
      exact h (i + 1) (by simpa using hi)
    rw [fractionAcc_cons_mul, hd, htail, ofDigits_cons]
    ring

end Accumulator

/-! ### The digits of `FROMDEC` -/

section Truncation

variable {r den : Nat} (h0 : 0 < r) (h64 : r ≤ 64) {num : Nat} (hnum : num < den)
include h0 h64 hnum

theorem fractionDigits_below (fuel : Nat) : ∀ d ∈ fractionDigits r den fuel num, d.val < r := by
  induction fuel generalizing num with
  | zero => simp [fractionDigits]
  | succ fuel ih =>
    have hlt : num * r / den < r := Nat.div_lt_of_lt_mul (Nat.mul_lt_mul_of_pos_right hnum h0)
    unfold fractionDigits
    split
    · simp
    · refine List.forall_mem_cons.2 ⟨?_, ih (Nat.mod_lt _ (by omega))⟩
      rwa [cell_val (by omega)]

/-- The digits are those of the fraction truncated to `fuel` digits, without trailing zeros (rule R144). -/
theorem ofDigits_fractionDigits (fuel : Nat) : ofDigits r (fractionDigits r den fuel num) *
    r ^ (fuel - (fractionDigits r den fuel num).length) = num * r ^ fuel / den := by
  induction fuel generalizing num with
  | zero => simp [fractionDigits, Nat.div_eq_of_lt hnum]
  | succ fuel ih =>
    by_cases hzero : num = 0
    · simp [fractionDigits, hzero]
    · have hlt : num * r / den < r := Nat.div_lt_of_lt_mul (Nat.mul_lt_mul_of_pos_right hnum h0)
      have hlen := fractionDigits_length_le r den fuel (num * r % den)
      have hpow : r ^ fuel = r ^ (fractionDigits r den fuel (num * r % den)).length *
          r ^ (fuel - (fractionDigits r den fuel (num * r % den)).length) := by
        rw [← pow_add]; congr 1; omega
      have hsplit : num * r ^ (fuel + 1) = num * r % den * r ^ fuel + num * r / den * r ^ fuel * den :=
        calc num * r ^ (fuel + 1) = (num * r % den + den * (num * r / den)) * r ^ fuel := by
              rw [Nat.mod_add_div]; ring
          _ = num * r % den * r ^ fuel + num * r / den * r ^ fuel * den := by ring
      rw [fractionDigits, if_neg hzero, ofDigits_cons, cell_val (by omega), List.length_cons,
        Nat.succ_sub_succ, Nat.add_mul, ih (Nat.mod_lt _ (by omega)), Nat.mul_assoc, ← hpow, hsplit,
        Nat.add_mul_div_right _ _ (by omega), Nat.add_comm]

theorem fractionDigits_value (fuel : Nat) : (ofDigits r (fractionDigits r den fuel num) : ℚ) /
    (r : ℚ) ^ (fractionDigits r den fuel num).length =
      ((num * r ^ fuel / den : Nat) : ℚ) / (r : ℚ) ^ fuel := by
  have hr : (r : ℚ) ≠ 0 := by exact_mod_cast h0.ne'
  have hlen := fractionDigits_length_le r den fuel num
  rw [← ofDigits_fractionDigits h0 h64 hnum fuel, ← mul_div_mul_right _ _
    (pow_ne_zero (fuel - (fractionDigits r den fuel num).length) hr), ← pow_add,
    Nat.add_sub_cancel' hlen]
  push_cast; rfl

end Truncation

/-! ### The numeral of `TODEC` -/

section ToDecimal

theorem decimalOf_eq (s : Numeral) : decimalOf s = s.rebuild 10 (ofDigits s.radix.val s.whole)
    (toDigits 10 8 (fractionAcc s.radix.val 0 s.fraction)) := rfl

variable {s : Numeral} (hk : s.kind = .unsigned ∨ s.kind = .signed) (hs : s.standardized = true)
include hk hs

theorem decimalOf_standardized : (decimalOf s).standardized = true :=
  Numeral.rebuild_standardized hk _ hs (by omega) (by omega) (toDigits_below (by omega) (by omega))

theorem decimalOf_floor : ⌊|(decimalOf s).val|⌋ = ⌊|s.val|⌋ := by
  rw [decimalOf_eq, Numeral.rebuild_floor hk _ hs (by omega) (by omega)
    (toDigits_below (by omega) (by omega)), Numeral.floor_abs_val hk (s.standardized_iff.1 hs).1]

/-- `TODEC` keeps the integer part, and its fraction is the accumulator (rules R141, R142). -/
theorem decimalOf_abs_val : |(decimalOf s).val| =
    (ofDigits s.radix.val s.whole : ℚ) + (fractionAcc s.radix.val 0 s.fraction : ℚ) / 100000000 := by
  have hv := (s.standardized_iff.1 hs).1
  obtain ⟨-, -, hf, -⟩ := (Numeral.valid_iff s).1 hv
  have hacc : ofDigits 10 (toDigits 10 8 (fractionAcc s.radix.val 0 s.fraction)) =
      fractionAcc s.radix.val 0 s.fraction :=
    ofDigits_toDigits_of_lt (by omega) (by omega) (fractionAcc_lt hf)
  rw [decimalOf_eq, Numeral.rebuild_abs_val hk _ hs (by omega) (by omega)
    (toDigits_below (by omega) (by omega)), hacc, toDigits_length]
  norm_num

theorem decimalOf_abs_val_le : |(decimalOf s).val| ≤ |s.val| := by
  have hv := (s.standardized_iff.1 hs).1
  have hle := fractionAcc_mul_le (r := s.radix.val) 0 s.fraction
  rw [Nat.zero_add] at hle
  rw [decimalOf_abs_val hk hs, Numeral.abs_val_of_magnitude hk hv]
  refine add_le_add_right ?_ _
  rw [div_le_div_iff₀ (by norm_num) (Numeral.radix_pow_pos hv _)]
  exact_mod_cast hle

/-- `TODEC` loses less than a unit of `10^-8` for each fraction digit. -/
theorem abs_val_mul_add_le {N : Nat} (hN : s.fraction.length ≤ N) :
    |s.val| * 100000000 + N / (s.radix.val : ℚ) ^ s.fraction.length ≤
      |(decimalOf s).val| * 100000000 + N := by
  have hv := (s.standardized_iff.1 hs).1
  have hpos := Numeral.radix_pow_pos hv s.fraction.length
  have hle := ofDigits_mul_add_le 0 (Numeral.radix_pos hv) hN
  rw [Nat.zero_add] at hle
  have hfrac : (ofDigits s.radix.val s.fraction * 100000000 + N : ℚ) /
      (s.radix.val : ℚ) ^ s.fraction.length ≤ fractionAcc s.radix.val 0 s.fraction + N := by
    rw [div_le_iff₀ hpos]
    exact_mod_cast hle
  rw [add_div, mul_div_right_comm] at hfrac
  rw [decimalOf_abs_val hk hs, Numeral.abs_val_of_magnitude hk hv]
  linarith

theorem abs_val_le_decimalOf :
    |s.val| ≤ |(decimalOf s).val| + s.fraction.length / 100000000 := by
  have hle := abs_val_mul_add_le hk hs le_rfl
  have hpos : 0 ≤ (s.fraction.length : ℚ) / (s.radix.val : ℚ) ^ s.fraction.length := by positivity
  linarith

theorem decimalOf_abs_val_of_exact (h : ∀ i, i < s.fraction.length →
    s.radix.val ^ (i + 1) ∣ (s.fraction.getD i 0).val * 100000000) : |(decimalOf s).val| = |s.val| := by
  have hv := (s.standardized_iff.1 hs).1
  have heq := fractionAcc_mul_eq 0 (ds := s.fraction) fun i hi => by
    rw [Nat.zero_add]; exact h i hi
  rw [Nat.zero_add] at heq
  rw [decimalOf_abs_val hk hs, Numeral.abs_val_of_magnitude hk hv, add_right_inj,
    div_eq_div_iff (by norm_num) (Numeral.radix_pow_pos hv _).ne']
  exact_mod_cast heq

end ToDecimal

theorem decimalOf_whole_length_le {s : Numeral} (hv : s.valid = true) (hlen : 1 ≤ s.whole.length) :
    (decimalOf s).whole.length ≤ 2 * s.whole.length := by
  obtain ⟨⟨-, h35⟩, hw, -⟩ := (Numeral.valid_iff s).1 hv
  refine minDigits_length_le (by omega) (by omega) ((ofDigits_lt hw).trans_le ?_)
  rw [Nat.pow_mul]
  exact Nat.pow_le_pow_left (by omega) _

/-! ### The numeral of `FROMDEC` -/

section FromDecimal

theorem radixOf_eq (r : Nat) (s : Numeral) : radixOf r s = s.rebuild r (ofDigits 10 s.whole)
    (fractionDigits r (10 ^ s.fraction.length) 8 (ofDigits 10 s.fraction)) := rfl

variable {s : Numeral} {r : Nat} (h2 : 2 ≤ r) (hradix : s.radix.val = 10)
include h2 hradix

theorem radixOf_whole_length_le (hv : s.valid = true) (hlen : 1 ≤ s.whole.length) :
    (radixOf r s).whole.length ≤ 4 * s.whole.length := by
  obtain ⟨-, hw, -⟩ := (Numeral.valid_iff s).1 hv
  rw [hradix] at hw
  refine minDigits_length_le h2 (by omega) ((ofDigits_lt hw).trans_le ?_)
  rw [Nat.pow_mul]
  exact Nat.pow_le_pow_left ((show 10 ≤ 2 ^ 4 by decide).trans (Nat.pow_le_pow_left h2 4)) _

variable (h35 : r ≤ 35)
include h35

theorem radixOf_digits_below (hv : s.valid = true) :
    ∀ d ∈ fractionDigits r (10 ^ s.fraction.length) 8 (ofDigits 10 s.fraction), d.val < r := by
  obtain ⟨-, -, hf, -⟩ := (Numeral.valid_iff s).1 hv
  rw [hradix] at hf
  exact fractionDigits_below (by omega) (by omega) (ofDigits_lt hf) 8

variable (hk : s.kind = .unsigned ∨ s.kind = .signed) (hs : s.standardized = true)
include hk hs

theorem radixOf_standardized : (radixOf r s).standardized = true :=
  Numeral.rebuild_standardized hk _ hs h2 h35
    (radixOf_digits_below h2 hradix h35 (s.standardized_iff.1 hs).1)

theorem radixOf_floor : ⌊|(radixOf r s).val|⌋ = ⌊|s.val|⌋ := by
  have hv := (s.standardized_iff.1 hs).1
  rw [radixOf_eq, Numeral.rebuild_floor hk _ hs h2 h35 (radixOf_digits_below h2 hradix h35 hv),
    Numeral.floor_abs_val hk hv, hradix]

/-- `FROMDEC` truncates the magnitude to eight fraction digits (rule R144). -/
theorem radixOf_abs_val :
    |(radixOf r s).val| = (⌊|s.val| * (r : ℚ) ^ 8⌋ : ℚ) / (r : ℚ) ^ 8 := by
  have hv := (s.standardized_iff.1 hs).1
  obtain ⟨-, -, hf, -⟩ := (Numeral.valid_iff s).1 hv
  have hfloor := Numeral.floor_abs_val_mul hk hv (r ^ 8)
  rw [hradix] at hf hfloor
  have hr : ((r ^ 8 : Nat) : ℚ) ≠ 0 := by positivity
  rw [radixOf_eq, Numeral.rebuild_abs_val hk _ hs h2 h35 (radixOf_digits_below h2 hradix h35 hv),
    fractionDigits_value (by omega) (by omega) (ofDigits_lt hf), ← Nat.cast_pow,
    ← natCast_floor_eq_intCast_floor (by positivity), hfloor, Nat.cast_add, add_div, Nat.cast_mul,
    mul_div_cancel_right₀ _ hr]

theorem radixOf_abs_val_le : |(radixOf r s).val| ≤ |s.val| := by
  rw [radixOf_abs_val h2 hradix h35 hk hs, div_le_iff₀ (by positivity)]
  exact Int.floor_le _

theorem abs_val_lt_radixOf : |s.val| < |(radixOf r s).val| + 1 / (r : ℚ) ^ 8 := by
  rw [radixOf_abs_val h2 hradix h35 hk hs, ← add_div, lt_div_iff₀ (by positivity)]
  exact Int.lt_floor_add_one _

end FromDecimal

end Sys2Proof.Machine
end

section
/-! PROOFS. `TODEC`, `FROMDEC` and `CVTB` (42_base_converter.md rules R140 to R146): the checks in their
order, then the numeral delivered. -/

namespace Sys2Proof.Machine

/-! ### The checks -/

section Checks

variable {caps : Capacities} {std : Bool} {r : Nat} {n : Numeral}

theorem checkMagnitudeKind_of_other (hu : n.kind ≠ .unsigned) (hs : n.kind ≠ .signed) :
    checkMagnitudeKind n = .error .invalidOperand := failIf_pos ⟨hu, hs⟩

theorem checkMagnitudeKind_of_magnitude (hk : n.kind = .unsigned ∨ n.kind = .signed) :
    checkMagnitudeKind n = .ok () := failIf_neg (by tauto)

theorem standardizeBy_of_invalid (hv : n.valid = false) :
    standardizeBy std n = .error .invalidNumeral := bind_of_error (Numeral.std_eq_error.2 ⟨hv, rfl⟩) _

theorem standardizeBy_of_not_standardized (hv : n.valid = true) (hstd : std = true)
    (hn : n.standardized = false) : standardizeBy std n = .error .invalidNumeral := by
  have hne : n.stdForm ≠ n := fun h => by
    have := Numeral.stdForm_standardized hv
    rw [h, hn] at this
    exact Bool.false_ne_true this
  rw [standardizeBy, Numeral.std_eq_ok.2 ⟨hv, rfl⟩, except_ok_bind, failIf_pos ⟨hstd, hne⟩,
    except_error_bind]

theorem standardizeBy_of_valid (hv : n.valid = true) (hstd : std = true → n.standardized = true) :
    standardizeBy std n = .ok n.stdForm := by
  rw [standardizeBy, Numeral.std_eq_ok.2 ⟨hv, rfl⟩, except_ok_bind,
    failIf_neg fun h => h.2 (Numeral.stdForm_of_standardized (hstd h.1)), except_ok_bind]

theorem toDecimal_of_other (hu : n.kind ≠ .unsigned) (hs : n.kind ≠ .signed) :
    toDecimal caps std (some n) = .error .invalidOperand :=
  bind_of_error (checkMagnitudeKind_of_other hu hs) _

theorem fromDecimal_of_other (hu : n.kind ≠ .unsigned) (hs : n.kind ≠ .signed) :
    fromDecimal caps std r (some n) = .error .invalidOperand :=
  bind_of_error (checkMagnitudeKind_of_other hu hs) _

variable (hk : n.kind = .unsigned ∨ n.kind = .signed)
include hk

theorem toDecimal_of_magnitude : toDecimal caps std (some n) =
    (standardizeBy std n >>= fun s => capWhole caps (decimalOf s)) := by
  rw [toDecimal, held_some, except_ok_bind, checkMagnitudeKind_of_magnitude hk, except_ok_bind]

theorem fromDecimal_of_invalidBase (h : n.radix ≠ 10 ∨ r < 2 ∨ 35 < r) :
    fromDecimal caps std r (some n) = .error .invalidBase := by
  rw [fromDecimal, held_some, except_ok_bind, checkMagnitudeKind_of_magnitude hk, except_ok_bind]
  by_cases h10 : n.radix = 10
  · rw [failIf_neg (not_not.2 h10), except_ok_bind, failIf_pos (h.resolve_left (not_not.2 h10)),
      except_error_bind]
  · rw [failIf_pos h10, except_error_bind]

theorem fromDecimal_of_magnitude (h10 : n.radix = 10) (h2 : 2 ≤ r) (h35 : r ≤ 35) :
    fromDecimal caps std r (some n) =
      (standardizeBy std n >>= fun s => capWhole caps (radixOf r s)) := by
  rw [fromDecimal, held_some, except_ok_bind, checkMagnitudeKind_of_magnitude hk, except_ok_bind,
    failIf_neg (not_not.2 h10), except_ok_bind, failIf_neg (by omega), except_ok_bind]

end Checks

/-! ### The numeral delivered -/

section Delivered

variable {n : Numeral}

theorem Numeral.one_le_stdForm_whole_length (n : Numeral) : 1 ≤ n.stdForm.whole.length :=
  n.stdWhole_spec.1

theorem Numeral.stdForm_whole_length_le (n : Numeral) :
    n.stdForm.whole.length ≤ max n.whole.length 1 := n.stdWhole_length_le

/-- A numeral of value `b^w` or more has a whole part of that value. -/
theorem pow_le_stdForm_whole (hk : n.kind = .unsigned ∨ n.kind = .signed) (hv : n.valid = true)
    {b w : Nat} (h : (b : ℚ) ^ w ≤ |n.val|) : b ^ w ≤ ofDigits n.radix.val n.stdForm.whole := by
  rw [← Numeral.stdForm_val hv] at h
  have hfloor : ((b ^ w : Nat) : Int) ≤ ⌊|n.stdForm.val|⌋ := Int.le_floor.2 (by exact_mod_cast h)
  rw [Numeral.floor_abs_val (n := n.stdForm) hk (Numeral.stdForm_valid hv)] at hfloor
  exact_mod_cast hfloor

variable {caps : Capacities} {std : Bool} {r w : Nat} (hk : n.kind = .unsigned ∨ n.kind = .signed)
  (hv : n.valid = true) (hstd : std = true → n.standardized = true)
include hk hv hstd

theorem toDecimal_of_large (hcap : caps.wcap = some w) (h : (10 : ℚ) ^ w ≤ |n.val|) :
    toDecimal caps std (some n) = .error .capacityExceeded := by
  rw [toDecimal_of_magnitude hk, standardizeBy_of_valid hv hstd, except_ok_bind]
  refine capWhole_eq_error.2 ⟨exceeds_minDigits (by omega) (by omega) hcap ?_, rfl⟩
  exact pow_le_stdForm_whole hk hv (by exact_mod_cast h)

theorem toDecimal_of_valid (hcap : exceeds caps.wcap (2 * max n.whole.length 1) = false) :
    toDecimal caps std (some n) = .ok (decimalOf n.stdForm) := by
  have hlen := decimalOf_whole_length_le (Numeral.stdForm_valid hv) n.one_le_stdForm_whole_length
  have hle := n.stdForm_whole_length_le
  rw [toDecimal_of_magnitude hk, standardizeBy_of_valid hv hstd, except_ok_bind]
  exact capWhole_eq_ok.2 ⟨exceeds_mono (by omega) hcap, rfl⟩

variable (h10 : n.radix = 10) (h2 : 2 ≤ r) (h35 : r ≤ 35)
include h10 h2 h35

theorem fromDecimal_of_large (hcap : caps.wcap = some w) (h : (r : ℚ) ^ w ≤ |n.val|) :
    fromDecimal caps std r (some n) = .error .capacityExceeded := by
  have hle := pow_le_stdForm_whole hk hv h
  rw [h10] at hle
  rw [fromDecimal_of_magnitude hk h10 h2 h35, standardizeBy_of_valid hv hstd, except_ok_bind]
  exact capWhole_eq_error.2 ⟨exceeds_minDigits h2 (by omega) hcap hle, rfl⟩

theorem fromDecimal_of_valid (hcap : exceeds caps.wcap (4 * max n.whole.length 1) = false) :
    fromDecimal caps std r (some n) = .ok (radixOf r n.stdForm) := by
  have hradix : n.stdForm.radix.val = 10 := congrArg Fin.val h10
  have hlen := radixOf_whole_length_le h2 hradix (Numeral.stdForm_valid hv)
    n.one_le_stdForm_whole_length
  have hle := n.stdForm_whole_length_le
  rw [fromDecimal_of_magnitude hk h10 h2 h35, standardizeBy_of_valid hv hstd, except_ok_bind]
  exact capWhole_eq_ok.2 ⟨exceeds_mono (by omega) hcap, rfl⟩

end Delivered

/-! ### The commands -/

section Exec

variable {s : State} {n : Numeral} {rs1 : Fin 8} (hn : s.readN rs1 = some n) (log std : Bool)
  (rd : Fin 8) (radix : BitVec 12)
include hn

theorem exec_todec :
    exec (.todec log std rd rs1) s = finishN rd (toDecimal s.caps std (some n)) s := by
  rw [← hn]; rfl

theorem exec_fromdec : exec (.fromdec log std rd rs1 radix) s =
    finishN rd (fromDecimal s.caps std radix.toNat (some n)) s := by
  rw [← hn]; rfl

theorem exec_cvtb :
    exec (.cvtb log rd rs1 radix) s = finishN rd (convertBases s.caps radix.toNat (some n)) s := by
  rw [← hn]; rfl

end Exec

/-- Settles O33: the checks in their order, then the numeral of the accumulator. -/
theorem todecAccumulatesEightDigits : Obligations.TodecAccumulatesEightDigits := by
  intro s log std rd rs1 n hn fails
  have fail {c : Failure} (h : toDecimal s.caps std (some n) = .error c) : fails c :=
    (exec_todec hn log std rd).trans (finishN_of_error h s)
  refine ⟨fun hu hs => fail (toDecimal_of_other hu hs), fun hk =>
    ⟨fun hv => ?_, fun hv hstd hns => ?_, fun hv hstd w hcap h =>
      fail (toDecimal_of_large hk hv hstd hcap h), fun m hm hstd hcap => ?_⟩⟩
  · exact fail ((toDecimal_of_magnitude hk).trans (bind_of_error (standardizeBy_of_invalid hv) _))
  · exact fail ((toDecimal_of_magnitude hk).trans
      (bind_of_error (standardizeBy_of_not_standardized hv hstd hns) _))
  · obtain ⟨hv, rfl⟩ := Numeral.std_eq_ok.1 hm
    have hs := Numeral.stdForm_standardized hv
    have habs := decimalOf_abs_val (s := n.stdForm) hk hs
    have hle := decimalOf_abs_val_le (s := n.stdForm) hk hs
    have hge := abs_val_le_decimalOf (s := n.stdForm) hk hs
    rw [Numeral.stdForm_val hv] at hle hge
    refine ⟨decimalOf n.stdForm, (exec_todec hn log std rd).trans
      (finishN_of_ok (toDecimal_of_valid hk hv hstd hcap) s), decimalOf_standardized hk hs, rfl, rfl,
      ?_, decimalOf_fraction_length_le _, ?_, hle, ?_⟩
    · exact (Numeral.rebuild_sm (s := n.stdForm) hk _ _).trans (Numeral.stdForm_sm hv)
    · rw [habs, ← Numeral.stdForm_val hv, Numeral.floor_abs_val (n := n.stdForm) hk
        (Numeral.stdForm_valid hv), fractionAcc_eq_sum]
      simp only [Nat.zero_add, Int.cast_natCast]
      rfl
    · linarith

/-- Settles O34: the checks in their order, then the numeral of the truncated fraction. -/
theorem fromdecTruncatesToEightDigits : Obligations.FromdecTruncatesToEightDigits := by
  intro s log std rd rs1 radix n hn fails
  have fail {c : Failure} (h : fromDecimal s.caps std radix.toNat (some n) = .error c) : fails c :=
    (exec_fromdec hn log std rd radix).trans (finishN_of_error h s)
  refine ⟨fun hu hs => fail (fromDecimal_of_other hu hs), fun hk =>
    ⟨fun hb => fail (fromDecimal_of_invalidBase hk hb), fun h10 h2 h35 => ⟨fun hv => ?_,
      fun hv hstd hns => ?_, fun hv hstd => ⟨fun w hcap h =>
        fail (fromDecimal_of_large hk hv hstd h10 h2 h35 hcap h), fun hcap => ?_⟩⟩⟩⟩
  · exact fail ((fromDecimal_of_magnitude hk h10 h2 h35).trans
      (bind_of_error (standardizeBy_of_invalid hv) _))
  · exact fail ((fromDecimal_of_magnitude hk h10 h2 h35).trans
      (bind_of_error (standardizeBy_of_not_standardized hv hstd hns) _))
  · have hs := Numeral.stdForm_standardized hv
    have hradix : n.stdForm.radix.val = 10 := congrArg Fin.val h10
    refine ⟨radixOf radix.toNat n.stdForm, (exec_fromdec hn log std rd radix).trans
      (finishN_of_ok (fromDecimal_of_valid hk hv hstd h10 h2 h35 hcap) s),
      radixOf_standardized h2 hradix h35 hk hs, rfl, rfl, ?_, radixOf_fraction_length_le _ _, ?_⟩
    · exact (Numeral.rebuild_sm (s := n.stdForm) hk _ _).trans (Numeral.stdForm_sm hv)
    · rw [radixOf_abs_val h2 hradix h35 hk hs, Numeral.stdForm_val hv]

/-! ### `CVTB` -/

section ConvertBases

variable {caps : Capacities} {r : Nat} {n : Numeral}

theorem convertBases_of_invalidBase (h : r < 2 ∨ 35 < r) :
    convertBases caps r (some n) = .error .invalidBase := by
  rw [convertBases, held_some, except_ok_bind, failIf_pos h, except_error_bind]

variable (h2 : 2 ≤ r) (h35 : r ≤ 35)
include h2 h35

theorem convertBases_of_same (h : n.radix.val = r) : convertBases caps r (some n) = .ok n := by
  rw [convertBases, held_some, except_ok_bind, failIf_neg (by omega), except_ok_bind, if_pos h.symm]

theorem convertBases_of_other (h : n.radix.val ≠ r) : convertBases caps r (some n) =
    (toDecimal caps false (some n) >>= fun t => fromDecimal caps false r (some t)) := by
  rw [convertBases, held_some, except_ok_bind, failIf_neg (by omega), except_ok_bind,
    if_neg (Ne.symm h)]

end ConvertBases

/-- Writing a numeral register in a command that succeeds leaves nothing that a second command writing the
same register would show. -/
theorem finishN_after_success (rd : Fin 8) (r : Except Failure Numeral) (y : Numeral) (s : State) :
    finishN rd r (succeed false (s.setN rd (some y))) = finishN rd r s := by
  have hset (v : Option Numeral) : (succeed false (s.setN rd (some y))).setN rd v =
      succeed false (s.setN rd v) := by
    rw [← s.setN_setN_same rd (some y) v]; rfl
  cases r with
  | ok x =>
    rw [finishN_of_ok rfl, finishN_of_ok rfl, hset]
    rfl
  | error c =>
    rw [finishN_of_error rfl, finishN_of_error rfl, raiseFail, clearDest, hset]
    rfl

/-- Settles O35: by what `TODEC` makes of the source. -/
theorem cvtbIsTodecThenFromdec : Obligations.CvtbIsTodecThenFromdec := by
  intro s log rd rs1 radix
  refine ⟨fun hnone => finishN_of_error (held_bind_of_none (by simp [hnone]) _) s, fun n hn =>
    ⟨fun hr => ?_, fun h2 h35 => ⟨fun hsame => ?_, fun hother => ?_⟩⟩⟩
  · exact (exec_cvtb hn log rd radix).trans (finishN_of_error (convertBases_of_invalidBase hr) s)
  · exact (exec_cvtb hn log rd radix).trans (finishN_of_ok (convertBases_of_same h2 h35 hsame) s)
  · rw [exec_todec hn, exec_cvtb hn, convertBases_of_other h2 h35 hother]
    cases h : toDecimal s.caps false (some n) with
    | error c =>
      refine ⟨_, finishN_of_error rfl s, fun _ => finishN_of_error rfl s, fun hcode => ?_⟩
      rw [raiseFail_status, statusCode_completed] at hcode
      exact absurd hcode (failure_code_ne_zero c)
    | ok y =>
      refine ⟨_, finishN_of_ok rfl s, fun hcode => absurd (statusCode_completed 0 false) hcode,
        fun _ => ?_⟩
      rw [exec_fromdec (n := y) (by simp), finishN_after_success, except_ok_bind]
      rfl

/-! ### The way through radix 10 -/

section ThroughDecimal

variable {s : Numeral} {r : Nat} (hk : s.kind = .unsigned ∨ s.kind = .signed)
include hk

theorem radixOf_decimalOf_sm : (radixOf r (decimalOf s)).sm = s.sm :=
  (Numeral.rebuild_sm (s := decimalOf s) hk _ _).trans (Numeral.rebuild_sm hk _ _)

variable (hs : s.standardized = true) (h2 : 2 ≤ r) (h35 : r ≤ 35)
include hs h2 h35

theorem radixOf_decimalOf_standardized : (radixOf r (decimalOf s)).standardized = true :=
  radixOf_standardized (s := decimalOf s) h2 rfl h35 hk (decimalOf_standardized hk hs)

/-- A whole part grows at most twofold on the way there and fourfold on the way back. -/
theorem fromDecimal_decimalOf {caps : Capacities} {std : Bool}
    (hcap : exceeds caps.wcap (8 * s.whole.length) = false) :
    fromDecimal caps std r (some (decimalOf s)) = .ok (radixOf r (decimalOf s)) := by
  obtain ⟨hv, -, ⟨hlen, -⟩, -⟩ := s.standardized_iff.1 hs
  have hle := decimalOf_whole_length_le hv hlen
  have hy := decimalOf_standardized hk hs
  have h := fromDecimal_of_valid (n := decimalOf s) (std := std) hk
    ((decimalOf s).standardized_iff.1 hy).1 (fun _ => hy) rfl h2 h35 (exceeds_mono (by omega) hcap)
  rwa [Numeral.stdForm_of_standardized hy] at h

theorem radixOf_decimalOf_floor : ⌊|(radixOf r (decimalOf s)).val|⌋ = ⌊|s.val|⌋ :=
  (radixOf_floor (s := decimalOf s) h2 rfl h35 hk (decimalOf_standardized hk hs)).trans
    (decimalOf_floor hk hs)

theorem radixOf_decimalOf_abs_val_le : |(radixOf r (decimalOf s)).val| ≤ |s.val| :=
  (radixOf_abs_val_le (s := decimalOf s) h2 rfl h35 hk (decimalOf_standardized hk hs)).trans
    (decimalOf_abs_val_le hk hs)

theorem abs_val_lt_radixOf_decimalOf : |s.val| < |(radixOf r (decimalOf s)).val| +
    s.fraction.length / 100000000 + 1 / (r : ℚ) ^ 8 := by
  have hto := abs_val_le_decimalOf hk hs
  have hfrom := abs_val_lt_radixOf (s := decimalOf s) h2 rfl h35 hk (decimalOf_standardized hk hs)
  linarith

end ThroughDecimal

/-- Settles O36: both steps complete, and each truncates. -/
theorem cvtbTruncatesTwice : Obligations.CvtbTruncatesTwice := by
  intro s log rd rs1 radix n m hn hk hm h2 h35 hother hcap
  obtain ⟨hv, rfl⟩ := Numeral.std_eq_ok.1 hm
  have hs := Numeral.stdForm_standardized hv
  have hlen := n.stdForm_whole_length_le
  have hto := toDecimal_of_valid (std := false) hk hv nofun (exceeds_mono (by omega) hcap)
  have hfrom := fromDecimal_decimalOf (s := n.stdForm) (std := false) hk hs h2 h35
    (exceeds_mono (by omega) hcap)
  rw [← Numeral.stdForm_val hv]
  refine ⟨radixOf radix.toNat (decimalOf n.stdForm),
    (exec_cvtb hn log rd radix).trans (finishN_of_ok ?_ s),
    radixOf_decimalOf_standardized hk hs h2 h35, rfl, rfl, ?_, radixOf_decimalOf_floor hk hs h2 h35,
    radixOf_decimalOf_abs_val_le hk hs h2 h35, abs_val_lt_radixOf_decimalOf hk hs h2 h35⟩
  · rw [convertBases_of_other h2 h35 hother, hto, except_ok_bind, hfrom]
  · exact (radixOf_decimalOf_sm (s := n.stdForm) hk).trans (Numeral.stdForm_sm hv)

/-! ### The round trip -/

section RoundTrip

variable {n : Numeral} (hk : n.kind = .unsigned ∨ n.kind = .signed) (hn : n.standardized = true)
include hk hn

/-- There and back keeps the whole digits (rule R146). -/
theorem radixOf_decimalOf_whole : (radixOf n.radix.val (decimalOf n)).whole = n.whole := by
  obtain ⟨hv, -, ⟨hlen, hhead⟩, -⟩ := n.standardized_iff.1 hn
  obtain ⟨⟨h2, -⟩, hw, -⟩ := (Numeral.valid_iff n).1 hv
  have hdec : ofDigits 10 (decimalOf n).whole = ofDigits n.radix.val n.whole :=
    (minDigits_spec (by omega) (by omega) _).1
  rw [Numeral.wp_of_magnitude hk] at hhead
  rw [radixOf, hdec, minDigits_ofDigits h2 hlen hhead hw]

/-- There and back is the identity when the terms of the accumulator are exact (rule R146). -/
theorem radixOf_decimalOf_of_exact (hlen : n.fraction.length ≤ 8)
    (h : ∀ k, k < n.fraction.length →
      n.radix.val ^ (k + 1) ∣ (n.fraction.getD k 0).val * 100000000) :
    radixOf n.radix.val (decimalOf n) = n := by
  obtain ⟨hv, -⟩ := n.standardized_iff.1 hn
  obtain ⟨⟨h2, h35⟩, -⟩ := (Numeral.valid_iff n).1 hv
  have hx := radixOf_decimalOf_standardized hk hn h2 h35
  have hsm := radixOf_decimalOf_sm (r := n.radix.val) hk
  refine Numeral.eq_of_standardized rfl (Fin.ext (cell_val n.radix.isLt)) hsm hx hn ?_
  have hscaled : |n.val| * (n.radix.val : ℚ) ^ 8 =
      ((n.absInt * n.radix.val ^ (8 - n.fraction.length) : Nat) : ℚ) := by
    rw [Numeral.abs_val hv, ← Nat.add_sub_cancel' hlen, pow_add, ← mul_assoc,
      div_mul_cancel₀ _ (Numeral.radix_pow_pos hv _).ne', Nat.add_sub_cancel' hlen]
    push_cast; rfl
  have habs : |(radixOf n.radix.val (decimalOf n)).val| = |n.val| := by
    rw [radixOf_abs_val (s := decimalOf n) h2 rfl h35 hk (decimalOf_standardized hk hn),
      decimalOf_abs_val_of_exact hk hn h, hscaled, Int.floor_natCast, Int.cast_natCast, ← hscaled,
      mul_div_cancel_right₀ _ (Numeral.radix_pow_pos hv 8).ne']
  rw [Numeral.val_eq_sm_mul_abs ((Numeral.standardized_iff _).1 hx).1, habs, hsm,
    ← Numeral.val_eq_sm_mul_abs hv]

end RoundTrip

/-- Settles O37: both steps complete, the whole digits come back, and the fraction does when it is exact. -/
theorem decimalRoundTripIsBounded : Obligations.DecimalRoundTripIsBounded := by
  intro s log mid rd rs1 radix n hread hk hn hfrac hradix hcap
  obtain ⟨hv, -, ⟨hlen, -⟩, -⟩ := n.standardized_iff.1 hn
  obtain ⟨⟨h2, h35⟩, -⟩ := (Numeral.valid_iff n).1 hv
  have hto := toDecimal_of_valid (caps := s.caps) (std := true) hk hv (fun _ => hn)
    (exceeds_mono (by omega) hcap)
  have hfrom := fromDecimal_decimalOf (caps := s.caps) (std := true) hk hn h2 h35 hcap
  rw [Numeral.stdForm_of_standardized hn] at hto
  refine ⟨_, _, radixOf n.radix.val (decimalOf n),
    (exec_todec hread log true mid).trans (finishN_of_ok hto s),
    (exec_fromdec (n := decimalOf n) (by simp) log true rd radix).trans
      (finishN_of_ok (hradix ▸ hfrom) _), by simp, by simp, by simp [hradix], rfl, rfl,
    Fin.ext (cell_val n.radix.isLt), radixOf_decimalOf_whole hk hn,
    radixOf_decimalOf_abs_val_le hk hn h2 h35,
    fun _ => abs_val_lt_radixOf_decimalOf hk hn h2 h35, radixOf_decimalOf_of_exact hk hn hfrac⟩

end Sys2Proof.Machine
end

section
/-! PROOFS. What `DEC.f` makes of a binary or hexadecimal number: the reconstructed significand as a numeral
of the format's radix, and its decimal numeral (45_ieee_decode.md rules R233 to R235, R238, R239;
42_base_converter.md rule R142). -/

namespace Sys2Proof.Machine

/-! ### The digits of a fraction as floors of the value -/

theorem digit_of_fraction {r : Nat} {ds : List Cell} (h : ∀ d ∈ ds, d.val < r) (k : Nat) :
    ofDigits r ds * r ^ (k + 1) / r ^ ds.length % r = (ds.getD k 0).val := by
  induction ds generalizing k with
  | nil => simp
  | cons d ds ih =>
    have hd := h d (by simp)
    have h0 : 0 < r := Nat.zero_lt_of_lt hd
    have htail : ∀ e ∈ ds, e.val < r := fun e he => h e (by simp [he])
    have hscale : ofDigits r (d :: ds) * r ^ (k + 1) / r ^ (d :: ds).length =
        d.val * r ^ k + ofDigits r ds * r ^ k / r ^ ds.length := by
      rw [ofDigits_cons, List.length_cons, pow_succ, pow_succ, ← Nat.mul_assoc,
        Nat.mul_div_mul_right _ _ h0, Nat.add_mul, Nat.mul_right_comm, Nat.add_comm,
        Nat.add_mul_div_right _ _ (Nat.pow_pos h0), Nat.add_comm]
    rw [hscale]
    cases k with
    | zero =>
      rw [pow_zero, Nat.mul_one, Nat.mul_one, Nat.div_eq_of_lt (ofDigits_lt htail), Nat.add_zero,
        Nat.mod_eq_of_lt hd, List.getD_cons_zero]
    | succ k =>
      rw [List.getD_cons_succ, ← ih htail k, pow_succ, ← Nat.mul_assoc, Nat.mul_comm _ r,
        Nat.mul_add_mod]

section Floors

variable {n : Numeral} (hk : n.kind = .unsigned ∨ n.kind = .signed) (hv : n.valid = true)
include hk hv

theorem Numeral.floor_digit (k : Nat) :
    ⌊|n.val| * (n.radix.val : ℚ) ^ (k + 1)⌋₊ % n.radix.val = (n.fraction.getD k 0).val := by
  obtain ⟨-, -, hf, -⟩ := (Numeral.valid_iff n).1 hv
  have h := Numeral.floor_abs_val_mul hk hv (n.radix.val ^ (k + 1))
  rw [Nat.cast_pow] at h
  rw [h, ← digit_of_fraction hf k, pow_succ, ← Nat.mul_assoc (ofDigits _ n.whole),
    Nat.mul_comm _ n.radix.val, Nat.mul_add_mod]

/-- The accumulator over the digits of the value, when the terms from `terms` on vanish (rule R142). -/
theorem fractionAcc_eq_sum_floors {terms : Nat}
    (h : n.fraction.length ≤ terms ∨ (n.radix.val - 1) * precisionNumber < n.radix.val ^ (terms + 1)) :
    fractionAcc n.radix.val 0 n.fraction = ∑ k ∈ Finset.range terms,
      (⌊|n.val| * (n.radix.val : ℚ) ^ (k + 1)⌋₊ % n.radix.val) * precisionNumber /
        n.radix.val ^ (k + 1) := by
  have h0 := Numeral.radix_pos hv
  have hbeyond (k : Nat) (hlen : n.fraction.length ≤ k) :
      (n.fraction.getD k 0).val * precisionNumber / n.radix.val ^ (k + 1) = 0 := by
    rw [List.getD_eq_default _ _ hlen]; simp
  have hvanish (k : Nat) (hterms : k ≥ terms) :
      (n.fraction.getD k 0).val * precisionNumber / n.radix.val ^ (k + 1) = 0 := by
    rcases h with hlen | hsmall
    · exact hbeyond k (hlen.trans hterms)
    · have hd : (n.fraction.getD k 0).val < n.radix.val := by
        rw [← Numeral.floor_digit hk hv]; exact Nat.mod_lt _ h0
      refine Nat.div_eq_of_lt (lt_of_le_of_lt ?_ (hsmall.trans_le (Nat.pow_le_pow_right h0 ?_)))
      · exact Nat.mul_le_mul_right _ (by omega)
      · omega
  rw [fractionAcc_eq_sum]
  simp only [Nat.zero_add, Numeral.floor_digit hk hv]
  rw [← Finset.eventually_constant_sum hbeyond (le_max_left _ terms),
    ← Finset.eventually_constant_sum hvanish (le_max_right n.fraction.length _)]

end Floors

/-! ### The numeral of a reconstructed significand -/

/-- The magnitude that a reconstructed significand of radix `r` stands for. -/
def Reconstructed.magnitude (c : Reconstructed) (r : Nat) : ℚ :=
  (ofDigits r (c.whole ++ c.fraction) : ℚ) / (r : ℚ) ^ c.fraction.length * (r : ℚ) ^ c.exponent

/-- The numeral that `DEC.f` converts to radix 10 (45_ieee_decode.md rule R239). -/
def decodedNumeral (fmt : Format) (sgn : Bool) (c : Reconstructed) : Numeral where
  sign := decodedSign sgn
  whole := (rescale fmt c).whole
  fraction := (rescale fmt c).fraction
  radix := cell fmt.radix
  kind := .signed

theorem Format.radix_range (f : Format) : 2 ≤ f.radix ∧ f.radix ≤ 35 := by cases f <;> decide

theorem rescale_exponent (fmt : Format) (c : Reconstructed) : (rescale fmt c).exponent =
    if 0 ≤ c.exponent ∧ c.exponent < 10 then 0 else c.exponent := by
  simp only [rescale, decShift]
  split <;> omega

theorem rescale_digits (fmt : Format) (c : Reconstructed) :
    (rescale fmt c).whole ++ (rescale fmt c).fraction = c.whole ++ c.fraction ++
      List.replicate (decShift fmt c.exponent - c.fraction.length) 0 := by
  simp only [rescale, List.append_assoc, List.take_append_drop]

theorem rescale_fraction_length (fmt : Format) (c : Reconstructed) :
    (rescale fmt c).fraction.length = c.fraction.length - decShift fmt c.exponent := by
  simp only [rescale, List.length_drop, List.length_append, List.length_replicate]
  omega

theorem rescale_whole_length_le (fmt : Format) (c : Reconstructed) :
    (rescale fmt c).whole.length ≤ c.whole.length + 9 := by
  have hshift : decShift fmt c.exponent ≤ 9 := by unfold decShift; split <;> omega
  have htake := List.length_take_le (decShift fmt c.exponent)
    (c.fraction ++ List.replicate (decShift fmt c.exponent - c.fraction.length) 0)
  simp only [rescale, List.length_append] at *
  omega

section Decoded

variable (fmt : Format) (sgn : Bool) (c : Reconstructed)

theorem decodedNumeral_sm : (decodedNumeral fmt sgn c).sm = if sgn then .minus else .plus := by
  rw [Numeral.sm_signed (n := decodedNumeral fmt sgn c) (minus := [sgn]) rfl (by cases sgn <;> rfl)]
  cases sgn <;> rfl

theorem decodedNumeral_radix : (decodedNumeral fmt sgn c).radix.val = fmt.radix := by
  have := fmt.radix_range
  exact cell_val (by omega)

variable {c} (hbelow : ∀ d ∈ c.whole ++ c.fraction, d.val < fmt.radix)
include hbelow

theorem decodedNumeral_valid : (decodedNumeral fmt sgn c).valid = true := by
  have hr := decodedNumeral_radix fmt sgn c
  have hd : ∀ d ∈ (rescale fmt c).whole ++ (rescale fmt c).fraction, d.val < fmt.radix := by
    rw [rescale_digits]
    intro d hd
    rcases List.mem_append.1 hd with hd | hd
    · exact hbelow d hd
    · have := fmt.radix_range
      rw [(List.mem_replicate.1 hd).2, Fin.val_zero]; omega
  refine (Numeral.valid_iff _).2 ⟨hr ▸ fmt.radix_range, ?_, ?_, ?_⟩
  · rw [hr]; exact fun d h => hd d (List.mem_append_left _ h)
  · rw [hr]; exact fun d h => hd d (List.mem_append_right _ h)
  · rw [decodedNumeral_sm]; cases sgn <;> nofun

/-- Moving the radix point keeps the magnitude (45_ieee_decode.md rule R238). -/
theorem decodedNumeral_abs_val : |(decodedNumeral fmt sgn c).val| =
    c.magnitude fmt.radix * (fmt.radix : ℚ) ^ (-(rescale fmt c).exponent) := by
  have hr : (fmt.radix : ℚ) ≠ 0 := by
    have := fmt.radix_range
    exact_mod_cast (show fmt.radix ≠ 0 by omega)
  have hint : (decodedNumeral fmt sgn c).digitsInt = ofDigits fmt.radix (c.whole ++ c.fraction) *
      fmt.radix ^ (decShift fmt c.exponent - c.fraction.length) := by
    rw [Numeral.digitsInt, decodedNumeral_radix]
    simp only [decodedNumeral, rescale_digits]
    rw [ofDigits_append, ofDigits_replicate_zero, List.length_replicate, Nat.add_zero]
  have hexp : c.exponent + -(rescale fmt c).exponent = (decShift fmt c.exponent : Int) := by
    simp only [rescale]; omega
  have hlen : (decodedNumeral fmt sgn c).fraction.length =
      c.fraction.length - decShift fmt c.exponent := rescale_fraction_length fmt c
  rw [Numeral.abs_val (decodedNumeral_valid fmt sgn hbelow),
    Numeral.absInt_of_digits (by simp [decodedNumeral]), hint, decodedNumeral_radix, hlen,
    Reconstructed.magnitude, mul_assoc, ← zpow_add₀ hr, hexp, zpow_natCast,
    div_mul_eq_mul_div, div_eq_div_iff (pow_ne_zero _ hr) (pow_ne_zero _ hr)]
  push_cast
  rw [mul_assoc, mul_assoc, ← pow_add, ← pow_add]
  congr 2
  omega

theorem decodedNumber_eq {caps : Capacities} (hc : caps.wf = true) (hw : c.whole.length = 1) :
    decodedNumber caps fmt sgn c = .ok (.number (decimalOf (decodedNumeral fmt sgn c).stdForm)
      (BitVec.ofNat 6 fmt.radix) (rescale fmt c).exponent) := by
  have hlen : (decodedNumeral fmt sgn c).whole.length ≤ c.whole.length + 9 :=
    rescale_whole_length_le fmt c
  have hcap := exceeds_of_le_64 (Capacities.wf_iff.1 hc).1
    (show 2 * max (decodedNumeral fmt sgn c).whole.length 1 ≤ 64 by omega)
  have hto := toDecimal_of_valid (std := false) (.inr rfl) (decodedNumeral_valid fmt sgn hbelow) nofun
    hcap
  rw [decodedNumeral] at hto
  rw [decodedNumber, hto]
  rfl

end Decoded

/-! ### The decimal significand -/

/-- `m` is the decimal numeral of sign `sgn` for the value `v` of radix `r` with at most `width` fraction
digits: the integer part exact, the fraction accumulated over the first `terms` digits
(42_base_converter.md rule R142). -/
structure IsSignificand (m : Numeral) (sgn : Bool) (r width terms : Nat) (v : ℚ) : Prop where
  standardized : m.standardized = true
  kind : m.kind = .signed
  radix : m.radix = 10
  sm : m.sm = if sgn then .minus else .plus
  fraction : m.fraction.length ≤ 8
  floor : ⌊|m.val|⌋ = ⌊v⌋
  le : |m.val| ≤ v
  lt : v * 100000000 < |m.val| * 100000000 + width
  sum : |m.val| = (⌊v⌋ : ℚ) + ((∑ k ∈ Finset.range terms,
    (⌊v * (r : ℚ) ^ (k + 1)⌋₊ % r) * 100000000 / r ^ (k + 1) : Nat) : ℚ) / 100000000

theorem isSignificand_decimalOf {n : Numeral} (hk : n.kind = .signed) (hv : n.valid = true) {sgn : Bool}
    (hsm : n.sm = if sgn then .minus else .plus) {width terms : Nat} (hlen : n.fraction.length ≤ width)
    (hpos : 0 < width)
    (hterms : width ≤ terms ∨ (n.radix.val - 1) * precisionNumber < n.radix.val ^ (terms + 1)) :
    IsSignificand (decimalOf n.stdForm) sgn n.radix.val width terms |n.val| := by
  have hk' : n.stdForm.kind = .unsigned ∨ n.stdForm.kind = .signed := .inr hk
  have hs := Numeral.stdForm_standardized hv
  have hvs := Numeral.stdForm_valid hv
  have hwidth : n.stdForm.fraction.length ≤ width := (trimTrailing_length_le _ _).trans hlen
  have hsum := fractionAcc_eq_sum_floors hk' hvs (hterms.imp_left hwidth.trans)
  rw [← Numeral.stdForm_val hv]
  refine ⟨decimalOf_standardized hk' hs, hk, rfl, ?_, decimalOf_fraction_length_le _,
    decimalOf_floor hk' hs, decimalOf_abs_val_le hk' hs, ?_, ?_⟩
  · rw [← hsm, ← Numeral.stdForm_sm hv]
    exact Numeral.rebuild_sm hk' _ _
  · have hle := abs_val_mul_add_le hk' hs hwidth
    have hw : 0 < (width : ℚ) / (n.stdForm.radix.val : ℚ) ^ n.stdForm.fraction.length :=
      div_pos (by exact_mod_cast hpos) (Numeral.radix_pow_pos hvs _)
    linarith
  · rw [decimalOf_abs_val hk' hs, Numeral.floor_abs_val hk' hvs, Int.cast_natCast, hsum]
    rfl

end Sys2Proof.Machine
end

section
/-! PROOFS. `DEC.B32`, `DEC.B64` and `DEC.H32` of a number: the fields give the reconstructed
significand, and its magnitude is that of the word (45_ieee_decode.md rules R231,
R233 to R235, R238 to R241, R244). -/

namespace Sys2Proof.Machine

/-! ### Fields that are no special value -/

theorem noBit_iff (s : Bits) : noBit s = true ↔ int s = 0 := by
  induction s with
  | nil => exact iff_of_true rfl rfl
  | cons b s ih =>
    have hcons : noBit (b :: s) = (!b && noBit s) := rfl
    have hpow := Nat.two_pow_pos s.length
    rw [hcons, int_cons, Bool.and_eq_true, ih]
    cases b <;> simp

theorem int_of_everyBit {s : Bits} (h : everyBit s = true) : int s + 1 = 2 ^ s.length := by
  induction s with
  | nil => rfl
  | cons b s ih =>
    obtain ⟨rfl, hs⟩ : b = true ∧ everyBit s = true := by simpa [everyBit] using h
    rw [int_cons, Bool.toNat_true, Nat.one_mul, Nat.add_assoc, ih hs, List.length_cons, pow_succ]
    omega

theorem specialBinary_of_number {sgn : Bool} {e m : Bits} (hone : int e + 1 ≠ 2 ^ e.length)
    (hzero : ¬(int e = 0 ∧ int m = 0)) : specialBinary sgn e m = none := by
  rw [specialBinary, if_neg (by rwa [noBit_iff, noBit_iff]), if_neg (mt int_of_everyBit hone)]

theorem decodeOperand_of_format {fmt : Format} {x : Ieee} (h : x.format = fmt) :
    decodeOperand fmt (some x) = .ok x := by
  rw [decodeOperand, held_some, except_ok_bind, failIf_neg (not_not.2 h), except_ok_bind]

/-! ### Binary significands -/

theorem ofDigits_bitDigits (s : Bits) : ofDigits 2 (bitDigits s) = int s := by
  induction s with
  | nil => rfl
  | cons b s ih =>
    have hb : (cell b.toNat).val = b.toNat := by cases b <;> rfl
    have hcons : bitDigits (b :: s) = cell b.toNat :: bitDigits s := rfl
    rw [hcons, ofDigits_cons, ih, int_cons, hb, bitDigits, List.length_map]

theorem bitDigits_below (s : Bits) : ∀ d ∈ bitDigits s, d.val < 2 := by
  intro d hd
  obtain ⟨b, -, rfl⟩ := List.mem_map.1 hd
  cases b <;> decide

/-- What follows the first 1 bit, with that bit in front, is the number of the whole string. -/
theorem int_drop_leadingFalse {s : Bits} (h : ¬ noBit s = true) :
    2 ^ (s.drop ((s.takeWhile (fun b => !b)).length + 1)).length +
      int (s.drop ((s.takeWhile (fun b => !b)).length + 1)) = int s := by
  induction s with
  | nil => exact absurd rfl h
  | cons b s ih =>
    cases b with
    | false => simpa [int_cons] using ih (by simpa [noBit] using h)
    | true => simp [int_cons]

/-- A significand with the whole digit 1. -/
theorem magnitude_of_one (s : Bits) (q : Int) : (⟨[1], bitDigits s, q⟩ : Reconstructed).magnitude 2 =
    ((2 ^ s.length + int s : Nat) : ℚ) * (2 : ℚ) ^ (q - s.length) := by
  have hlen : (bitDigits s).length = s.length := List.length_map _
  simp only [Reconstructed.magnitude, ofDigits_append, ofDigits_bitDigits, hlen, Nat.cast_ofNat]
  rw [zpow_sub₀ two_ne_zero, zpow_natCast, mul_comm_div]
  simp [ofDigits]

/-- The exponent of a significand with the whole digit 1 is that of the leading bit of the magnitude. -/
theorem exponent_of_magnitude_of_one {s : Bits} {q e : Int}
    (hlow : (2 : ℚ) ^ e ≤ (⟨[1], bitDigits s, q⟩ : Reconstructed).magnitude 2)
    (hhigh : (⟨[1], bitDigits s, q⟩ : Reconstructed).magnitude 2 < (2 : ℚ) ^ (e + 1)) : q = e := by
  have hpos : (0 : ℚ) < (2 : ℚ) ^ (q - s.length) := by positivity
  have hone : (2 : ℚ) ^ q = (2 : ℚ) ^ s.length * (2 : ℚ) ^ (q - s.length) := by
    rw [← zpow_natCast, ← zpow_add₀ two_ne_zero]; congr 1; omega
  have htwo : (2 : ℚ) ^ (q + 1) = 2 * (2 : ℚ) ^ s.length * (2 : ℚ) ^ (q - s.length) := by
    rw [zpow_add_one₀ two_ne_zero, hone]; ring
  have hint : (int s : ℚ) < (2 : ℚ) ^ s.length := by exact_mod_cast int_lt s
  rw [magnitude_of_one] at hlow hhigh
  push_cast at hlow hhigh
  have hlt : (2 : ℚ) ^ q < (2 : ℚ) ^ (e + 1) :=
    lt_of_le_of_lt (hone ▸ mul_le_mul_of_nonneg_right (by simp) hpos.le) hhigh
  have hgt : (2 : ℚ) ^ e < (2 : ℚ) ^ (q + 1) :=
    lt_of_le_of_lt hlow (htwo ▸ mul_lt_mul_of_pos_right (by linarith) hpos)
  rw [zpow_lt_zpow_iff_right₀ one_lt_two] at hlt hgt
  omega

/-- The significand of a binary number: the whole digit 1, at most `SW` fraction bits, and the magnitude of
the word (rules R233, R234). -/
theorem reconstructBinary_spec (x : Ieee) (hzero : ¬(x.expInt = 0 ∧ x.sigInt = 0)) :
    ∃ s q, reconstructBinary x.format x.exponent x.significand = ⟨[1], bitDigits s, q⟩ ∧
      s.length ≤ x.format.sigWidth ∧
      (⟨[1], bitDigits s, q⟩ : Reconstructed).magnitude 2 = x.binaryMagnitude := by
  have hlen := significand_length x
  by_cases he : x.expInt = 0
  · have hm : ¬ noBit x.significand = true := fun h => hzero ⟨he, (noBit_iff _).1 h⟩
    have hp := leadingFalse_lt_of_not_noBit hm
    have hdrop := int_drop_leadingFalse hm
    refine ⟨x.significand.drop ((x.significand.takeWhile (fun b => !b)).length + 1), _,
      if_pos ((noBit_iff _).2 he), by simp, ?_⟩
    rw [magnitude_of_one, hdrop, Ieee.binaryMagnitude, if_pos he, List.length_drop, hlen]
    congr 2
    omega
  · refine ⟨x.significand, _, if_neg fun h => he ((noBit_iff _).1 h), hlen.le, ?_⟩
    rw [magnitude_of_one, Ieee.binaryMagnitude, if_neg he, hlen]
    rfl

/-! ### Hexadecimal significands -/

theorem slice_four_lt (s : Bits) (i : Nat) : int (slice s i (i + 3)) < 16 :=
  int_lt_of_length_le (k := 4) ((slice_length_le s i (i + 3)).trans (by omega))

/-- The four bits from position `i` on, taken off the number of the rest. -/
theorem int_drop_four (s : Bits) (i : Nat) : int (s.drop i) =
    int (slice s i (i + 3)) * 2 ^ (s.length - (i + 4)) + int (s.drop (i + 4)) := by
  have hsplit : s.drop i = slice s i (i + 3) ++ s.drop (i + 4) := by
    rw [slice, show i + 3 + 1 - i = 4 by omega, ← List.drop_drop, List.take_append_drop]
  rw [hsplit, int_append, List.length_drop]

theorem reconstructHex_below (e m : Bits) :
    ∀ d ∈ (reconstructHex e m).whole ++ (reconstructHex e m).fraction, d.val < 16 := by
  have h (i : Nat) : (cell (int (slice m i (i + 3)))).val < 16 := by
    have := slice_four_lt m i
    rwa [cell_val (by omega)]
  simp only [reconstructHex, List.cons_append, List.nil_append, List.forall_mem_cons]
  exact ⟨by decide, h 0, h 4, h 8, h 12, h 16, h 20, by simp⟩

theorem reconstructHex_digits (e : Bits) {m : Bits} (hm : m.length = 24) :
    ofDigits 16 ((reconstructHex e m).whole ++ (reconstructHex e m).fraction) = int m := by
  have hdigit (i : Nat) : int (m.drop i) =
      (cell (int (slice m i (i + 3)))).val * 2 ^ (24 - (i + 4)) + int (m.drop (i + 4)) := by
    have := slice_four_lt m i
    rw [cell_val (by omega), ← hm]
    exact int_drop_four m i
  have hend : int (m.drop 24) = 0 := by rw [List.drop_eq_nil_of_le (by omega)]; rfl
  rw [← m.drop_zero, hdigit 0, hdigit 4, hdigit 8, hdigit 12, hdigit 16, hdigit 20, hend]
  simp only [reconstructHex, ofDigits, List.cons_append, List.nil_append, List.foldl_cons,
    List.foldl_nil, Fin.val_zero, List.drop_zero, Nat.reduceAdd]
  omega

/-- The significand of a HEXADECIMAL32 number has the magnitude of the word (rule R235). -/
theorem reconstructHex_magnitude {x : Ieee} (h : x.format = .h32) :
    (reconstructHex x.exponent x.significand).magnitude 16 = x.hexMagnitude := by
  have hlen : x.significand.length = 24 := by rw [significand_length, h]; rfl
  rw [Reconstructed.magnitude, reconstructHex_digits _ hlen, Ieee.hexMagnitude, Ieee.sigInt,
    zpow_sub₀ (by norm_num), ← mul_div_assoc, mul_div_right_comm]
  rfl

/-! ### The commands -/

section Exec

variable {s : State} {f : Format} {fs : Fin 4} {x : Ieee}
  (hread : s.readF fs = some x) (log : Bool) (rd : Fin 8)
include hread

theorem exec_decBinary (hf : f = .b32 ∨ f = .b64) (hx : x.format = f)
    (hone : x.expInt + 1 ≠ 2 ^ f.expWidth) (hzero : ¬(x.expInt = 0 ∧ x.sigInt = 0)) :
    exec (decOf f log rd fs) s = finishDecoded rd (decodedNumber s.caps f x.sign
      (reconstructBinary f x.exponent x.significand)) s := by
  have hnone : specialBinary x.sign x.exponent x.significand = none :=
    specialBinary_of_number (by rwa [exponent_length, hx]) hzero
  have hexec : exec (decOf f log rd fs) s = finishDecoded rd (decodeBinary s.caps f (s.readF fs)) s := by
    rcases hf with rfl | rfl <;> rfl
  rw [hexec, hread, decodeBinary, decodeOperand_of_format hx, except_ok_bind, hnone]

theorem exec_decHex (hx : x.format = .h32) (hone : x.expInt ≠ 127)
    (hzero : ¬(x.expInt = 0 ∧ x.sigInt = 0)) :
    exec (.decH32 log rd fs) s = finishDecoded rd (decodedNumber s.caps .h32 x.sign
      (reconstructHex x.exponent x.significand)) s := by
  have hnone : specialBinary x.sign x.exponent x.significand = none := by
    refine specialBinary_of_number ?_ hzero
    rw [exponent_length, hx]
    exact fun h => hone (Nat.succ_injective h)
  have hexec : exec (.decH32 log rd fs) s = finishDecoded rd (decodeHex s.caps (s.readF fs)) s := rfl
  rw [hexec, hread, decodeHex, decodeOperand_of_format hx, except_ok_bind, hnone]

end Exec

/-- The end of `DEC.f` on a reconstructed significand: its decimal numeral, the radix and the exponent. -/
theorem finishDecoded_decodedNumber {s : State} {fmt : Format} {c : Reconstructed} (rd : Fin 8) (sgn : Bool)
    (hc : s.caps.wf = true) (hbelow : ∀ d ∈ c.whole ++ c.fraction, d.val < fmt.radix)
    (hw : c.whole.length = 1) {width terms : Nat} (hlen : c.fraction.length ≤ width) (hpos : 0 < width)
    (hterms : width ≤ terms ∨ (fmt.radix - 1) * precisionNumber < fmt.radix ^ (terms + 1)) :
    ∃ m, finishDecoded rd (decodedNumber s.caps fmt sgn c) s = .next (succeed false
        ((s.setN rd (some m)).setP (some .numeric) (some (BitVec.ofNat 6 fmt.radix))
          (some (rescale fmt c).exponent))) ∧
      IsSignificand m sgn fmt.radix width terms
        (c.magnitude fmt.radix * (fmt.radix : ℚ) ^ (-(rescale fmt c).exponent)) := by
  have hv := decodedNumeral_valid fmt sgn hbelow
  have hfrac : (decodedNumeral fmt sgn c).fraction.length ≤ width :=
    (rescale_fraction_length fmt c).le.trans ((Nat.sub_le _ _).trans hlen)
  refine ⟨decimalOf (decodedNumeral fmt sgn c).stdForm,
    by rw [decodedNumber_eq fmt sgn hbelow hc hw]; rfl, ?_⟩
  rw [← decodedNumeral_abs_val fmt sgn hbelow, ← decodedNumeral_radix fmt sgn c]
  rw [← decodedNumeral_radix fmt sgn c] at hterms
  exact isSignificand_decimalOf rfl hv (decodedNumeral_sm fmt sgn c) hfrac hpos hterms

/-- Settles O53: the significand has the whole digit 1 and the magnitude of the word, and its exponent is
that of the leading bit. -/
theorem decBinaryDeliversTheValue : Obligations.DecBinaryDeliversTheValue := by
  intro s log f rd fs x e hf hc hread hx hone hlow hhigh ex v
  have hzero : ¬(x.expInt = 0 ∧ x.sigInt = 0) := fun ⟨he, hm⟩ => by
    rw [Ieee.binaryMagnitude, if_pos he, hm, Nat.cast_zero, zero_mul] at hlow
    exact hlow.not_gt (by positivity)
  have hradix : f.radix = 2 := by rcases hf with rfl | rfl <;> rfl
  have hwidth : 0 < f.sigWidth := by rcases hf with rfl | rfl <;> decide
  obtain ⟨bs, q, hrec, hlen, hmag⟩ := reconstructBinary_spec x hzero
  rw [← hmag] at hlow hhigh
  obtain rfl := exponent_of_magnitude_of_one hlow hhigh
  rw [hx] at hrec hlen
  have hbelow : ∀ d ∈ [1] ++ bitDigits bs, d.val < f.radix := by
    rw [hradix]
    exact List.forall_mem_cons.2 ⟨by decide, bitDigits_below bs⟩
  obtain ⟨m, hexec, h⟩ := finishDecoded_decodedNumber (c := ⟨[1], bitDigits bs, q⟩) (terms := 26) rd
    x.sign hc hbelow rfl ((List.length_map _).trans_le hlen) hwidth (.inr (by rw [hradix]; decide))
  rw [hradix, rescale_exponent] at h hexec
  rw [hmag, Nat.cast_ofNat] at h
  have hsum := h.sum
  rw [Nat.cast_ofNat] at hsum
  refine ⟨m, (exec_decBinary hread log rd hf hx hone hzero).trans (hrec ▸ hexec), h.standardized,
    h.kind, h.radix, h.sm, h.fraction, h.floor, h.le, h.lt, hsum⟩

/-- Settles O54: the significand has the six hexadecimal digits of the word, and its magnitude. -/
theorem decHexDeliversTheValue : Obligations.DecHexDeliversTheValue := by
  intro s log rd fs x hc hread hx hone hzero e ex v
  obtain ⟨m, hexec, h⟩ := finishDecoded_decodedNumber (fmt := .h32)
    (c := reconstructHex x.exponent x.significand) (width := 6) (terms := 6) rd x.sign hc
    (reconstructHex_below _ _) rfl le_rfl (by decide) (.inl le_rfl)
  rw [show Format.h32.radix = 16 from rfl, rescale_exponent] at h hexec
  rw [reconstructHex_magnitude hx, Nat.cast_ofNat] at h
  have hsum := h.sum
  rw [Nat.cast_ofNat] at hsum
  exact ⟨m, (exec_decHex hread log rd hx hone hzero).trans hexec, h.standardized, h.kind,
    h.radix, h.sm, h.fraction, h.floor, h.le, h.lt, hsum⟩

end Sys2Proof.Machine
end

section
/-! PROOFS. `CMPM` (43_fixed_point.md rule R160): the checks in their order, then the comparison at the
first digit that differs. -/

namespace Sys2Proof.Machine

/-! ### The comparison of two digit strings -/

theorem compareDigits_append (p us vs : List Cell) :
    compareDigits (p ++ us) (p ++ vs) = compareDigits us vs := by
  induction p with
  | nil => rfl
  | cons d p ih => simp [compareDigits, ih]

theorem compareDigits_self (ds : List Cell) : compareDigits ds ds = .zero := by
  have h := compareDigits_append ds [] []
  rwa [List.append_nil] at h

theorem compareDigits_cons_of_lt {x y : Cell} (h : x.val < y.val) (u v : List Cell) :
    compareDigits (x :: u) (y :: v) = .minus := if_pos h

theorem compareDigits_cons_of_gt {x y : Cell} (h : y.val < x.val) (u v : List Cell) :
    compareDigits (x :: u) (y :: v) = .plus := by
  rw [compareDigits, if_neg (by omega), if_pos h]

/-! ### The command -/

section Results

variable {a b : Numeral}

theorem compareMagnitude_of_radix_ne (hr : a.radix ≠ b.radix) :
    compareMagnitude (some a) (some b) = .error .differentBase := bind_of_error (failIf_pos hr) _

theorem compareMagnitude_of_kind_ne (hr : a.radix = b.radix) (hk : a.kind ≠ b.kind) :
    compareMagnitude (some a) (some b) = .error .differentType := by
  rw [compareMagnitude, held_some, except_ok_bind, held_some, except_ok_bind, failIf_neg (not_not.2 hr),
    except_ok_bind, failIf_pos hk, except_error_bind]

theorem compareMagnitude_of_same_type (hr : a.radix = b.radix) (hk : a.kind = b.kind) :
    compareMagnitude (some a) (some b) =
      if a.valid = true ∧ b.valid = true ∧ a.whole.length = b.whole.length ∧
        a.fraction.length = b.fraction.length
      then .ok (compareDigits (a.whole ++ a.fraction) (b.whole ++ b.fraction))
      else .error .invalidOperand := by
  rw [compareMagnitude, held_some, except_ok_bind, held_some, except_ok_bind, failIf_neg (not_not.2 hr),
    except_ok_bind, failIf_neg (not_not.2 hk), except_ok_bind]
  by_cases hv : a.valid = false ∨ b.valid = false
  · rw [failIf_pos hv, except_error_bind, if_neg fun ⟨ha, hb, _⟩ => by simp [ha, hb] at hv]
  · rw [failIf_neg hv, except_ok_bind]
    simp only [not_or, Bool.not_eq_false] at hv
    by_cases hl : a.whole.length ≠ b.whole.length ∨ a.fraction.length ≠ b.fraction.length
    · rw [failIf_pos hl, except_error_bind, if_neg fun ⟨_, _, hw, hf⟩ => by simp [hw, hf] at hl]
    · rw [failIf_neg hl, except_ok_bind, if_pos ⟨hv.1, hv.2, by tauto⟩]

end Results

theorem exec_cmpm {s : State} {rs1 rs2 : Fin 8} {a b : Numeral} (ha : s.readN rs1 = some a)
    (hb : s.readN rs2 = some b) (log : Bool) :
    exec (.cmpm log rs1 rs2) s = finishCC (compareMagnitude (some a) (some b)) s := by
  rw [← ha, ← hb]; rfl

/-- Settles O38: a common beginning does not count, and the first digits that differ decide. -/
theorem cmpmComparesDigitStrings : Obligations.CmpmComparesDigitStrings := by
  intro s log rs1 rs2 fails delivers
  refine ⟨fun hnone => finishCC_of_error (held_bind_held_of_none ?_ _) s, fun a b ha hb => ?_⟩
  · rcases hnone with h | h <;> simp [h]
  have fail {c : Failure} (h : compareMagnitude (some a) (some b) = .error c) : fails c :=
    (exec_cmpm ha hb log).trans (finishCC_of_error h s)
  refine ⟨fun hr => fail (compareMagnitude_of_radix_ne hr),
    fun hr hk => fail (compareMagnitude_of_kind_ne hr hk), fun hr hk => ⟨fun hbad => ?_,
      fun hva hvb hw hf => ?_⟩⟩
  · exact fail ((compareMagnitude_of_same_type hr hk).trans (if_neg fun ⟨hva, hvb, hw, hf⟩ => by
      simp [hva, hvb, hw, hf] at hbad))
  · have deliver {c : Cond}
        (h : compareDigits (a.whole ++ a.fraction) (b.whole ++ b.fraction) = c) : delivers c :=
      (exec_cmpm ha hb log).trans (finishCC_of_ok (h ▸ (compareMagnitude_of_same_type hr hk).trans
        (if_pos ⟨hva, hvb, hw, hf⟩)) s)
    refine ⟨fun heq => deliver (heq ▸ compareDigits_self _), fun p u v x y hx hy => ?_⟩
    rw [hx, hy, compareDigits_append] at deliver
    exact ⟨fun h => deliver (compareDigits_cons_of_lt h u v),
      fun h => deliver (compareDigits_cons_of_gt h u v)⟩

end Sys2Proof.Machine
end

section
/-! PROOFS. The in-place commands, `EQLEN` and the shifts (40_numeral_primitives.md rule R99;
43_fixed_point.md rules R163 to R166): the registers they write, what those keep, and where the digits of
a shifted view go. -/

namespace Sys2Proof.Machine

/-! ### A run of registers -/

theorem mem_registerRun {first last j : Fin 8} : j ∈ registerRun first last ↔ first ≤ j ∧ j ≤ last := by
  have hall : j ∈ ([0, 1, 2, 3, 4, 5, 6, 7] : List (Fin 8)) := by revert j; decide
  rw [registerRun, List.mem_filter, decide_eq_true_iff, and_iff_right hall]

theorem heldAll_eq_ok {vs : List (Option Numeral)} {regs : List Numeral} :
    heldAll vs = .ok regs ↔ vs = regs.map some := by
  induction vs generalizing regs with
  | nil => cases regs <;> simp [heldAll]
  | cons v vs ih =>
    simp only [heldAll, except_bind_eq_ok, held_eq_ok, ih]
    cases regs with
    | nil => simp
    | cons n ns => simp [and_comm]

/-! ### The view and the registers refilled from it -/

theorem shiftView_eq_flatMap (regs : List Numeral) :
    shiftView regs = regs.flatMap (fun n => n.whole ++ n.fraction) := by
  induction regs with
  | nil => rfl
  | cons n ns ih => rw [shiftView, ih, List.flatMap_cons]

/-- What a shift leaves in each register. -/
def Numeral.shape (n : Numeral) : List Cell × Cell × Kind × Nat × Nat :=
  (n.sign, n.radix, n.kind, n.whole.length, n.fraction.length)

theorem refill_spec {regs : List Numeral} {ds : List Cell} (h : ds.length = (shiftView regs).length) :
    (refill regs ds).map Numeral.shape = regs.map Numeral.shape ∧ shiftView (refill regs ds) = ds := by
  induction regs generalizing ds with
  | nil => exact ⟨rfl, (List.length_eq_zero_iff.1 h).symm⟩
  | cons n ns ih =>
    simp only [shiftView, List.length_append] at h
    obtain ⟨hshape, hview⟩ := ih (ds := ds.drop (n.whole.length + n.fraction.length))
      (by rw [List.length_drop]; omega)
    refine ⟨?_, ?_⟩
    · rw [refill, List.map_cons, List.map_cons, hshape, Numeral.shape, Numeral.shape,
        List.length_take_of_le (by omega), List.length_take_of_le (by rw [List.length_drop]; omega)]
    · rw [refill, shiftView, hview, List.append_assoc, ← List.drop_drop, List.take_append_drop,
        List.take_append_drop]

theorem shiftedView_length (k : ShiftKind) (fill : Cell) {p : Nat} {view : List Cell}
    (h : p ≤ view.length) : (shiftedView k fill p view).length = view.length := by
  cases k <;> simp [shiftedView] <;> omega

section Digits

variable {p j : Nat} {view : List Cell} (hj : j < view.length)
include hj

theorem shiftedView_left (fill : Cell) :
    (shiftedView .left fill (min p view.length) view).getD j 0 =
      if j + p < view.length then view.getD (j + p) 0 else 0 := by
  simp only [shiftedView, List.getD_eq_getElem?_getD]
  split
  · next h =>
    rw [List.getElem?_append_left (by rw [List.length_drop]; omega), List.getElem?_drop,
      min_eq_left (by omega), Nat.add_comm]
  · next h =>
    rw [List.getElem?_append_right (by rw [List.length_drop]; omega), List.length_drop,
      List.getElem?_replicate_of_lt (by omega)]
    rfl

/-- Both right shifts: the digits move, and the fill digit comes in from the left. -/
theorem fill_append_getD (fill : Cell) :
    (List.replicate (min p view.length) fill ++ view.take (view.length - min p view.length)).getD j 0 =
      if p ≤ j then view.getD (j - p) 0 else fill := by
  simp only [List.getD_eq_getElem?_getD]
  split
  · next h =>
    rw [List.getElem?_append_right (by rw [List.length_replicate]; omega), List.length_replicate,
      min_eq_left (by omega), List.getElem?_take_of_lt (by omega)]
  · next h =>
    rw [List.getElem?_append_left (by rw [List.length_replicate]; omega),
      List.getElem?_replicate_of_lt (by omega)]
    rfl

end Digits

theorem shraFill_cons (n : Numeral) (ns : List Numeral) : shraFill (n :: ns) =
    if n.kind = .onesComplement ∨ n.kind = .twosComplement then n.sign.headD 0 else 0 := by
  cases hk : n.kind <;> simp [shraFill, hk]

/-! ### The checks of a shift -/

theorem sameRadix_iff (regs : List Numeral) :
    sameRadix regs = true ↔ ∀ a ∈ regs, ∀ b ∈ regs, a.radix = b.radix := by
  cases regs with
  | nil => simp [sameRadix]
  | cons n ns =>
    simp only [sameRadix, List.all_eq_true, beq_iff_eq]
    refine ⟨fun h => ?_, fun h x hx => h x (List.mem_cons_of_mem _ hx) n List.mem_cons_self⟩
    have heq : ∀ a ∈ n :: ns, a.radix = n.radix := List.forall_mem_cons.2 ⟨rfl, h⟩
    exact fun a ha b hb => (heq a ha).trans (heq b hb).symm

section Results

variable {k : ShiftKind} {p : Nat} {regs : List Numeral}

theorem shiftRegisters_of_radix_ne (h : ∃ a ∈ regs, ∃ b ∈ regs, a.radix ≠ b.radix) :
    shiftRegisters k p (regs.map some) = .error .differentBase := by
  have hr : sameRadix regs = false := by
    rw [← Bool.not_eq_true, sameRadix_iff]
    push Not
    exact h
  rw [shiftRegisters, heldAll_eq_ok.2 rfl, except_ok_bind, failIf_pos hr, except_error_bind]

variable (hr : ∀ a ∈ regs, ∀ b ∈ regs, a.radix = b.radix)
include hr

theorem shiftRegisters_of_signed (h : ∃ n ∈ regs, n.kind = .signed) :
    shiftRegisters k p (regs.map some) = .error .invalidOperand := by
  rw [shiftRegisters, heldAll_eq_ok.2 rfl, except_ok_bind,
    failIf_neg (by simp [(sameRadix_iff regs).2 hr]), except_ok_bind, failIf_pos (by simpa using h),
    except_error_bind]

theorem shiftRegisters_of_positional (hk : ∀ n ∈ regs, n.kind ≠ .signed) :
    shiftRegisters k p (regs.map some) =
      if ∀ n ∈ regs, ∀ d ∈ n.whole ++ n.fraction, d.val < n.radix.val then
        .ok (refill regs (shiftedView k (shraFill regs) (min p (shiftView regs).length) (shiftView regs)))
      else .error .invalidDigit := by
  have hdigits : (regs.any fun n => !(digitsBelow n.radix n.whole && digitsBelow n.radix n.fraction)) =
      true ↔ ¬ ∀ n ∈ regs, ∀ d ∈ n.whole ++ n.fraction, d.val < n.radix.val := by
    simp only [digitsBelow, ← List.all_append, List.any_eq_true, Bool.not_eq_true', ← Bool.not_eq_true,
      List.all_eq_true, decide_eq_true_eq]
    push Not
    rfl
  rw [shiftRegisters, heldAll_eq_ok.2 rfl, except_ok_bind,
    failIf_neg (by simp [(sameRadix_iff regs).2 hr]), except_ok_bind, failIf_neg (by simpa using hk),
    except_ok_bind]
  by_cases h : ∀ n ∈ regs, ∀ d ∈ n.whole ++ n.fraction, d.val < n.radix.val
  · rw [failIf_neg (not_not.2 h ∘ hdigits.1), except_ok_bind, if_pos h]
  · rw [failIf_pos (hdigits.2 h), except_error_bind, if_neg h]

end Results

/-! ### The shift commands -/

/-- The command of a shift kind (rules R163 to R165). -/
def shiftOf (k : ShiftKind) (log : Bool) (first last : Fin 8) (positions : BitVec 12) : Instr :=
  match k with
  | .left => .shl log first last positions
  | .rightLogical => .shrl log first last positions
  | .rightArithmetic => .shra log first last positions

theorem exec_shiftOf (k : ShiftKind) (log : Bool) (first last : Fin 8) (positions : BitVec 12)
    (s : State) : exec (shiftOf k log first last positions) s = shiftCommand k first last positions s := by
  cases k <;> rfl

theorem finishInPlace_of_ok {is : List (Fin 8)} {r : Except Failure (List Numeral)} {xs : List Numeral}
    (h : r = .ok xs) (s : State) : finishInPlace is r s = .next (succeed false (s.setNs is xs)) := by
  rw [h]; rfl

/-- Settles O41: the view is shifted and the registers are refilled from it, in their old shapes. -/
theorem shiftsMoveTheView : Obligations.ShiftsMoveTheView := by
  intro s log first last positions i regs hle hregs hi fails
  obtain ⟨k, rfl⟩ : ∃ k, i = shiftOf k log first last positions := by
    rcases hi with rfl | rfl | rfl
    · exact ⟨.left, rfl⟩
    · exact ⟨.rightLogical, rfl⟩
    · exact ⟨.rightArithmetic, rfl⟩
  have hexec : exec (shiftOf k log first last positions) s =
      finishInPlace (registerRun first last) (shiftRegisters k positions.toNat (regs.map some)) s := by
    rw [exec_shiftOf, shiftCommand, if_pos hle, ← hregs]; rfl
  have fail {c : Failure} (h : shiftRegisters k positions.toNat (regs.map some) = .error c) : fails c :=
    hexec.trans (finishInPlace_of_error h s)
  refine ⟨fun hr => fail (shiftRegisters_of_radix_ne hr), fun hr =>
    ⟨fun hsigned => fail (shiftRegisters_of_signed hr hsigned), fun hk => ⟨fun hbad => ?_, fun hgood => ?_⟩⟩⟩
  · refine fail ((shiftRegisters_of_positional hr hk).trans (if_neg fun hgood => ?_))
    obtain ⟨n, hn, d, hd, hge⟩ := hbad
    exact absurd (hgood n hn d hd) (by omega)
  · obtain ⟨hshape, hview⟩ := refill_spec (shiftedView_length k (shraFill regs)
      (min_le_right positions.toNat (shiftView regs).length))
    refine ⟨_, hexec.trans (finishInPlace_of_ok ((shiftRegisters_of_positional hr hk).trans
      (if_pos hgood)) s), hshape, fun j hj => ?_⟩
    simp only [← shiftView_eq_flatMap] at hj ⊢
    rw [hview]
    cases k with
    | left => exact ⟨fun _ => shiftedView_left hj _, nofun, nofun⟩
    | rightLogical => exact ⟨nofun, fun _ => fill_append_getD hj 0, nofun⟩
    | rightArithmetic =>
      refine ⟨nofun, nofun, fun _ => (fill_append_getD hj _).trans ?_⟩
      cases regs with
      | nil => rfl
      | cons n ns => rw [shraFill_cons]

/-! ### The frame of the in-place commands -/

/-- What an in-place command leaves in each register that it writes. -/
def Numeral.signature (n : Numeral) : List Cell × Cell × Kind := (n.sign, n.radix, n.kind)

/-- The registers an in-place command writes. -/
def inPlaceRegisters (i : Instr) : List (Fin 8) :=
  match i with
  | .eqlen _ a b => [a, b]
  | .shl _ first last _ | .shrl _ first last _ | .shra _ first last _ => registerRun first last
  | _ => []

theorem Ended.inPlace_frame {s t : State} (h : Ended .inPlace s t) :
    t.f = s.f ∧ t.t = s.t ∧ t.ptag = s.ptag ∧ t.pbase = s.pbase ∧ t.pexp = s.pexp ∧ t.cc = s.cc ∧
      t.cmd = s.cmd ∧ t.caps = s.caps ∧ t.inputs = s.inputs ∧ t.answer = s.answer := by
  rcases h with ⟨c, rfl⟩ | ⟨warn, u, ⟨is, xs, rfl⟩, rfl⟩
  · exact ⟨rfl, rfl, rfl, rfl, rfl, rfl, rfl, rfl, rfl, rfl⟩
  · simp

/-- Writing to each register of a run a numeral of the signature that it has keeps all signatures. -/
theorem State.signature_setNs {s : State} {is : List (Fin 8)} {xs : List Numeral}
    (h : is.map (fun i => (s.readN i).map Numeral.signature) = xs.map (fun x => some x.signature))
    (j : Fin 8) : ((s.setNs is xs).readN j).map Numeral.signature = (s.readN j).map Numeral.signature := by
  induction is generalizing s xs with
  | nil => rfl
  | cons i is ih =>
    cases xs with
    | nil => rfl
    | cons x xs =>
      obtain ⟨hx, hxs⟩ := List.cons.inj h
      have hone (j : Fin 8) : ((s.setN i (some x)).readN j).map Numeral.signature =
          (s.readN j).map Numeral.signature := by
        rw [State.readN_setN]
        split
        · next hj => rw [hj]; exact hx.symm
        · rfl
      rw [State.setNs, ih (by simpa only [hone] using hxs), hone]

theorem equalizeLength_signature {s : State} {a b : Fin 8} {xs : List Numeral}
    (h : equalizeLength (s.readN a) (s.readN b) = .ok xs) :
    [a, b].map (fun i => (s.readN i).map Numeral.signature) = xs.map (fun x => some x.signature) := by
  simp only [equalizeLength, except_bind_eq_ok, held_eq_ok] at h
  obtain ⟨m, hm, n, hn, -, -, -, -, h⟩ := h
  injection h with h
  simp only [← h, List.map_cons, List.map_nil, hm, hn]
  rfl

theorem shiftRegisters_signature {s : State} {k : ShiftKind} {p : Nat} {is : List (Fin 8)}
    {xs : List Numeral} (h : shiftRegisters k p (is.map s.readN) = .ok xs) :
    is.map (fun i => (s.readN i).map Numeral.signature) = xs.map (fun x => some x.signature) := by
  simp only [shiftRegisters, except_bind_eq_ok, heldAll_eq_ok] at h
  obtain ⟨regs, hregs, -, -, -, -, -, -, h⟩ := h
  injection h with h
  have hshape := (refill_spec (shiftedView_length k (shraFill regs)
    (min_le_right p (shiftView regs).length))).1
  have hsig := congrArg (List.map fun x => some (x.1, x.2.1, x.2.2.1)) hshape
  rw [List.map_map, List.map_map, h] at hsig
  have hread := congrArg (List.map (Option.map Numeral.signature)) hregs
  rw [List.map_map, List.map_map] at hread
  exact hread.trans hsig.symm

/-- An in-place command on the registers `is` left every register, or it succeeded and wrote only those
registers, with their signatures. -/
def EndedOn (is : List (Fin 8)) (s t : State) : Prop :=
  (∀ j, t.readN j = s.readN j) ∨ statusCode t.status = 0 ∧ (∀ j, j ∉ is → t.readN j = s.readN j) ∧
    ∀ j, (t.readN j).map Numeral.signature = (s.readN j).map Numeral.signature

theorem finishInPlace_endedOn {s t : State} {is : List (Fin 8)} {r : Except Failure (List Numeral)}
    (hr : ∀ {xs}, r = .ok xs →
      is.map (fun i => (s.readN i).map Numeral.signature) = xs.map (fun x => some x.signature))
    (h : finishInPlace is r s = .next t) : EndedOn is s t := by
  rcases finishWith_cases h with ⟨xs, hxs, rfl⟩ | ⟨c, -, rfl⟩
  · exact .inr ⟨statusCode_completed .., fun j hj => State.readN_setNs_of_not_mem s is xs hj,
      State.signature_setNs (hr hxs)⟩
  · exact .inl fun j => rfl

theorem shiftCommand_endedOn {k : ShiftKind} {first last : Fin 8} {p : BitVec 12} {s t : State}
    (h : shiftCommand k first last p s = .next t) : EndedOn (registerRun first last) s t := by
  unfold shiftCommand at h
  split at h
  · exact finishInPlace_endedOn shiftRegisters_signature h
  · injection h with h
    exact .inl fun j => h ▸ rfl

theorem exec_endedOn {i : Instr} {s t : State} (hd : destination i = .inPlace)
    (h : exec i s = .next t) : EndedOn (inPlaceRegisters i) s t := by
  cases i with
  | eqlen => exact finishInPlace_endedOn equalizeLength_signature h
  | shl | shrl | shra => exact shiftCommand_endedOn h
  | _ => cases hd

/-- A register outside what a command writes, as the frame of the in-place commands says it. -/
theorem not_mem_inPlaceRegisters {i : Instr} {j : Fin 8}
    (h : (∃ log a b, i = .eqlen log a b ∧ j ≠ a ∧ j ≠ b) ∨
      ∃ log first last p, (i = .shl log first last p ∨ i = .shrl log first last p ∨
        i = .shra log first last p) ∧ (j < first ∨ last < j)) : j ∉ inPlaceRegisters i := by
  rcases h with ⟨log, a, b, rfl, ha, hb⟩ | ⟨log, first, last, p, hi, hout⟩
  · simp [inPlaceRegisters, ha, hb]
  · have hrun : inPlaceRegisters i = registerRun first last := by
      rcases hi with rfl | rfl | rfl <;> rfl
    rw [hrun, mem_registerRun]
    omega

/-- Settles O17: a failure leaves every register, and a result goes to the command's own registers. -/
theorem frameOfInPlaceCommands : Obligations.FrameOfInPlaceCommands := by
  intro i s t hd h
  refine ⟨fun j hj => ?_, fun j => ?_, (hd ▸ exec_ended h).inPlace_frame⟩
  · rcases exec_endedOn hd h with hsame | ⟨hcode, hout, -⟩
    · exact hsame j
    · refine hout j (not_mem_inPlaceRegisters ?_)
      rcases hj with heqlen | hshift | hfail
      · exact .inl heqlen
      · exact .inr hshift
      · exact absurd hcode hfail
  · rcases exec_endedOn hd h with hsame | ⟨-, -, hsig⟩
    · rw [hsame]
    · exact hsig j

end Sys2Proof.Machine
end

section
/-! PROOFS. The integer commands `MULU` and `DIVS` (43_fixed_point.md rules R168, R169): the checks that they
share, when the value of an operand is an integer, and the numeral of an integer. -/

namespace Sys2Proof.Machine

/-! ### A numeral without a fraction -/

section Integral

variable {n : Numeral} (hk : n.kind = .unsigned ∨ n.kind = .signed)
include hk

/-- The value of a numeral without a fraction is its whole part under its sign. -/
theorem Numeral.val_eq_signedValue (hv : n.valid = true) (hf : n.fraction = []) :
    n.val = (signedValue n : ℚ) := by
  have hr := (Numeral.radix_pos hv).ne'
  rw [Numeral.val_magnitude (by tauto), Numeral.mag_eq hr, hf, ofDigits_nil, Nat.cast_zero, zero_div,
    add_zero, signedValue]
  push_cast; rfl

/-- A fraction without a trailing zero is empty when the value is an integer. -/
theorem Numeral.fraction_eq_nil_of_integer (hs : n.standardized = true) {x : Int} (hx : n.val = x) :
    n.fraction = [] := by
  obtain ⟨hv, -, -, hlast⟩ := n.standardized_iff.1 hs
  have hr := Numeral.radix_pos hv
  have habs : |n.val| = ((x.natAbs : Int) : ℚ) := by rw [hx, Int.natCast_natAbs]; push_cast; rfl
  have hwhole : (ofDigits n.radix.val n.whole : Int) = x.natAbs := by
    rw [← Numeral.floor_abs_val hk hv, habs, Int.floor_intCast]
  have hzero : ofDigits n.radix.val n.fraction = 0 := by
    rw [Numeral.abs_val_of_magnitude hk hv, ← hwhole, Int.cast_natCast, add_eq_left, div_eq_zero_iff,
      or_iff_left (Numeral.radix_pow_pos hv _).ne', Nat.cast_eq_zero] at habs
    exact habs
  have hall : ∀ d ∈ n.fraction, d = 0 := by
    simpa [allZero] using (allZero_iff hr n.fraction).2 hzero
  rw [Numeral.fp_of_magnitude hk] at hlast
  by_contra hne
  refine hlast ?_
  rw [List.getLast?_eq_some_getLast hne, hall _ (List.getLast_mem hne)]

/-- `std` leaves no fraction exactly when the value is an integer. -/
theorem Numeral.stdForm_fraction_eq_nil_iff (hv : n.valid = true) :
    n.stdForm.fraction = [] ↔ ∃ x : Int, n.val = x := by
  refine ⟨fun hf => ⟨signedValue n.stdForm, ?_⟩, fun ⟨x, hx⟩ => ?_⟩
  · rw [← Numeral.stdForm_val hv]
    exact Numeral.val_eq_signedValue (n := n.stdForm) hk (Numeral.stdForm_valid hv) hf
  · exact Numeral.fraction_eq_nil_of_integer (n := n.stdForm) hk (Numeral.stdForm_standardized hv)
      ((Numeral.stdForm_val hv).trans hx)

/-- The integer that the commands compute with is the value. -/
theorem Numeral.signedValue_stdForm (hv : n.valid = true) {x : Int} (hx : n.val = x) :
    signedValue n.stdForm = x := by
  have hf := (Numeral.stdForm_fraction_eq_nil_iff hk hv).2 ⟨x, hx⟩
  have h := Numeral.val_eq_signedValue (n := n.stdForm) hk (Numeral.stdForm_valid hv) hf
  rw [Numeral.stdForm_val hv, hx] at h
  exact_mod_cast h.symm

theorem Numeral.ofDigits_stdForm_whole (hv : n.valid = true) {x : Int} (hx : n.val = x) :
    ofDigits n.radix.val n.stdForm.whole = x.natAbs := by
  have hsm := Numeral.sm_eq_plus_or_minus (n := n.stdForm) (Numeral.stdForm_valid hv)
  rw [← Numeral.signedValue_stdForm hk hv hx, signedValue, Int.natAbs_mul, Int.natAbs_natCast]
  rcases hsm with h | h <;> simp [h, Cond.toInt] <;> rfl

theorem Numeral.natAbs_lt_pow (hv : n.valid = true) {x : Int} (hx : n.val = x) :
    x.natAbs < n.radix.val ^ (n.whole.length + 1) := by
  have hlt := ofDigits_lt (Numeral.stdWhole_below hv)
  have hle := n.stdForm_whole_length_le
  rw [← Numeral.ofDigits_stdForm_whole hk hv hx]
  exact hlt.trans_le (Nat.pow_le_pow_right (Numeral.radix_pos hv) (hle.trans (by omega)))

end Integral

theorem Numeral.natural_of_integer {n : Numeral} (hk : n.kind = .unsigned) (hv : n.valid = true)
    (h : ∃ x : Int, n.val = x) : ∃ k : Nat, n.val = k := by
  obtain ⟨x, hx⟩ := h
  have hnonneg := n.mag_nonneg
  rw [← Numeral.val_of_sm_plus (Numeral.sm_of_valid_unsigned hk hv), hx, Int.cast_nonneg_iff] at hnonneg
  exact ⟨x.toNat, by rw [hx, ← Int.cast_natCast, Int.toNat_of_nonneg hnonneg]⟩

/-! ### The numeral of an integer -/

/-- The standardized numeral of kind UNSIGNED or SIGNED, without a fraction, of magnitude `x` (rules R168,
R169). -/
def integerNumeral (neg : Bool) (r : Cell) (k : Kind) (x : Nat) : Numeral where
  sign := signRun neg r k
  whole := minDigits r.val x
  fraction := []
  radix := r
  kind := k

theorem signedInteger_eq (r : Cell) (v : Int) :
    signedInteger r v = integerNumeral (decide (v < 0)) r .signed v.natAbs := by
  by_cases h : v < 0 <;> simp [signedInteger, integerNumeral, signRun, h]

section IntegerNumeral

variable {r : Cell} {k : Kind} (h2 : 2 ≤ r.val) (h35 : r.val ≤ 35) (hk : k = .unsigned ∨ k = .signed)
  (neg : Bool) (x : Nat)
include h2

theorem integerNumeral_sm :
    (integerNumeral neg r k x).sm = if neg = true ∧ k ≠ .unsigned then .minus else .plus :=
  Numeral.sm_of_signRun h2 rfl

include h35 hk

theorem integerNumeral_standardized : (integerNumeral neg r k x).standardized = true := by
  obtain ⟨-, hlen, hbelow, hhead⟩ := minDigits_spec h2 (by omega) x
  have hwp := Numeral.wp_of_magnitude (n := integerNumeral neg r k x) hk
  have hsm := integerNumeral_sm (k := k) h2 neg x
  refine (Numeral.standardized_iff _).2 ⟨(Numeral.valid_iff _).2 ⟨⟨h2, h35⟩, hbelow, nofun, ?_⟩, ?_,
    hwp ▸ ⟨hlen, hhead⟩, nofun⟩
  · rw [hsm]; split <;> nofun
  · rcases hk with rfl | rfl <;> cases neg <;> rfl

theorem integerNumeral_val : (integerNumeral neg r k x).val =
    ((if neg = true ∧ k ≠ .unsigned then -x else x : Int) : ℚ) := by
  have hv := (Numeral.standardized_iff _).1 (integerNumeral_standardized h2 h35 hk neg x)
  have hx := (minDigits_spec h2 (by omega) x).1
  rw [Numeral.val_eq_signedValue (n := integerNumeral neg r k x) hk hv.1 rfl, signedValue,
    integerNumeral_sm h2]
  simp only [integerNumeral, hx]
  split <;> simp [Cond.toInt]

end IntegerNumeral

section SignedInteger

variable {r : Cell} (h2 : 2 ≤ r.val) (h35 : r.val ≤ 35) (v : Int)
include h2 h35

theorem signedInteger_standardized : (signedInteger r v).standardized = true := by
  rw [signedInteger_eq]; exact integerNumeral_standardized h2 h35 (.inr rfl) _ _

theorem signedInteger_val : (signedInteger r v).val = v := by
  rw [signedInteger_eq, integerNumeral_val h2 h35 (.inr rfl)]
  by_cases h : v < 0
  · rw [if_pos ⟨decide_eq_true h, nofun⟩, Int.ofNat_natAbs_of_nonpos h.le, neg_neg]
  · rw [if_neg (by simp [h]), Int.natAbs_of_nonneg (not_lt.1 h)]

/-- A zero is `+0` (rule R169). -/
theorem signedInteger_sm_of_zero (h : (signedInteger r v).val = 0) : (signedInteger r v).sm = .plus := by
  rw [signedInteger_val h2 h35, Int.cast_eq_zero] at h
  rw [signedInteger_eq, integerNumeral_sm h2, if_neg (by simp [h])]

omit h35 in
theorem capWhole_signedInteger {caps : Capacities} {w : Nat} (h : v.natAbs < r.val ^ (w + 1))
    (hcap : exceeds caps.wcap (w + 1) = false) :
    capWhole caps (signedInteger r v) = .ok (signedInteger r v) :=
  capWhole_eq_ok.2 ⟨exceeds_mono (minDigits_length_le h2 (by omega) h) hcap, rfl⟩

end SignedInteger

/-! ### The shared checks -/

theorem Numeral.std_eq_ite (n : Numeral) :
    n.std = if n.valid = false then .error .invalidNumeral else .ok n.stdForm := by
  cases h : n.valid <;> simp [Numeral.std, h]

/-- The checks that `MULU` and `DIVS` share, in their order (rules R168, R169). -/
theorem integerOperands_of_some (k : Kind) (a b : Numeral) : integerOperands k (some a) (some b) =
    if a.radix ≠ b.radix then .error .differentBase
    else if a.kind ≠ k ∨ b.kind ≠ k then .error .invalidOperand
    else if a.valid = false ∨ b.valid = false then .error .invalidNumeral
    else if a.stdForm.fraction ≠ [] ∨ b.stdForm.fraction ≠ [] then .error .invalidOperand
    else .ok (a.stdForm, b.stdForm) := by
  rw [integerOperands, held_some, except_ok_bind, held_some, except_ok_bind]
  by_cases hr : a.radix ≠ b.radix
  · rw [failIf_pos hr, if_pos hr]; rfl
  rw [failIf_neg hr, if_neg hr, except_ok_bind]
  by_cases hk : a.kind ≠ k ∨ b.kind ≠ k
  · rw [failIf_pos hk, if_pos hk]; rfl
  rw [failIf_neg hk, if_neg hk, except_ok_bind, Numeral.std_eq_ite, Numeral.std_eq_ite]
  by_cases ha : a.valid = false
  · rw [if_pos ha, except_error_bind, if_pos (Or.inl ha)]
  rw [if_neg ha, except_ok_bind]
  by_cases hb : b.valid = false
  · rw [if_pos hb, except_error_bind, if_pos (Or.inr hb)]
  rw [if_neg hb, if_neg (not_or.2 ⟨ha, hb⟩), except_ok_bind]
  by_cases hf : a.stdForm.fraction ≠ [] ∨ b.stdForm.fraction ≠ []
  · rw [failIf_pos hf, if_pos hf]; rfl
  · rw [failIf_neg hf, if_neg hf, except_ok_bind]

section Operands

variable {k : Kind} {a b : Numeral}

theorem integerOperands_of_radix_ne (hr : a.radix ≠ b.radix) :
    integerOperands k (some a) (some b) = .error .differentBase :=
  (integerOperands_of_some k a b).trans (if_pos hr)

variable (hr : a.radix = b.radix)
include hr

theorem integerOperands_of_kind_ne (h : a.kind ≠ k ∨ b.kind ≠ k) :
    integerOperands k (some a) (some b) = .error .invalidOperand := by
  rw [integerOperands_of_some, if_neg (not_not.2 hr), if_pos h]

variable (ha : a.kind = k) (hb : b.kind = k)
include ha hb

theorem integerOperands_of_invalid (h : a.valid = false ∨ b.valid = false) :
    integerOperands k (some a) (some b) = .error .invalidNumeral := by
  rw [integerOperands_of_some, if_neg (not_not.2 hr), if_neg (by simp [ha, hb]), if_pos h]

variable (hva : a.valid = true) (hvb : b.valid = true)
include hva hvb

theorem integerOperands_of_valid : integerOperands k (some a) (some b) =
    if a.stdForm.fraction ≠ [] ∨ b.stdForm.fraction ≠ [] then .error .invalidOperand
    else .ok (a.stdForm, b.stdForm) := by
  rw [integerOperands_of_some, if_neg (not_not.2 hr), if_neg (by simp [ha, hb]),
    if_neg (by simp [hva, hvb])]

variable (hk : k = .unsigned ∨ k = .signed)
include hk

theorem integerOperands_of_fraction (h : ¬((∃ x : Int, a.val = x) ∧ ∃ y : Int, b.val = y)) :
    integerOperands k (some a) (some b) = .error .invalidOperand := by
  rw [← Numeral.stdForm_fraction_eq_nil_iff (ha ▸ hk) hva,
    ← Numeral.stdForm_fraction_eq_nil_iff (hb ▸ hk) hvb] at h
  exact (integerOperands_of_valid hr ha hb hva hvb).trans (if_pos (by tauto))

theorem integerOperands_of_integers {x y : Int} (hx : a.val = x) (hy : b.val = y) :
    integerOperands k (some a) (some b) = .ok (a.stdForm, b.stdForm) := by
  have hfa := (Numeral.stdForm_fraction_eq_nil_iff (ha ▸ hk) hva).2 ⟨x, hx⟩
  have hfb := (Numeral.stdForm_fraction_eq_nil_iff (hb ▸ hk) hvb).2 ⟨y, hy⟩
  exact (integerOperands_of_valid hr ha hb hva hvb).trans (if_neg (by simp [hfa, hfb]))

end Operands

/-! ### `MULU` -/

section Mulu

variable {caps : Capacities} {a b : Numeral} (hr : a.radix = b.radix) (ha : a.kind = .unsigned)
  (hb : b.kind = .unsigned) (hva : a.valid = true) (hvb : b.valid = true) {p q : Nat}
  (hp : a.val = p) (hq : b.val = q)
include hr ha hb hva hvb hp hq

theorem multiplyUnsigned_of_integers : multiplyUnsigned caps (some a) (some b) =
    capWhole caps (integerNumeral false a.radix .unsigned (p * q)) := by
  have hp' : a.val = ((p : Int) : ℚ) := by exact_mod_cast hp
  have hq' : b.val = ((q : Int) : ℚ) := by exact_mod_cast hq
  have hwa := Numeral.ofDigits_stdForm_whole (.inl ha) hva hp'
  have hwb := Numeral.ofDigits_stdForm_whole (.inl hb) hvb hq'
  rw [Int.natAbs_natCast] at hwa hwb
  rw [← hr] at hwb
  rw [multiplyUnsigned, integerOperands_of_integers hr ha hb hva hvb (.inl rfl) hp' hq', except_ok_bind]
  change capWhole caps ⟨[], minDigits a.radix.val (ofDigits a.radix.val a.stdForm.whole *
    ofDigits a.radix.val b.stdForm.whole), [], a.radix, .unsigned⟩ = _
  rw [hwa, hwb]
  rfl

theorem product_lt_pow : p * q < a.radix.val ^ (a.whole.length + b.whole.length + 2) := by
  have hpa := Numeral.natAbs_lt_pow (x := p) (.inl ha) hva (by exact_mod_cast hp)
  have hqb := Numeral.natAbs_lt_pow (x := q) (.inl hb) hvb (by exact_mod_cast hq)
  rw [Int.natAbs_natCast] at hpa hqb
  rw [show a.whole.length + b.whole.length + 2 = a.whole.length + 1 + (b.whole.length + 1) by omega,
    pow_add]
  exact Nat.mul_lt_mul'' hpa (hr ▸ hqb)

end Mulu

theorem exec_mulu {s : State} {rs1 rs2 : Fin 8} {a b : Numeral} (ha : s.readN rs1 = some a)
    (hb : s.readN rs2 = some b) (log : Bool) (rd : Fin 8) :
    exec (.mulu log rd rs1 rs2) s = finishN rd (multiplyUnsigned s.caps (some a) (some b)) s := by
  rw [← ha, ← hb]; rfl

/-- Settles O43: the checks in their order, then the numeral of the product of the two values. -/
theorem muluMultipliesIntegers : Obligations.MuluMultipliesIntegers := by
  intro s log rd rs1 rs2 a b hra hrb fails
  have fail {c : Failure} (h : multiplyUnsigned s.caps (some a) (some b) = .error c) : fails c :=
    (exec_mulu hra hrb log rd).trans (finishN_of_error h s)
  have operandsFail {c : Failure} (h : integerOperands .unsigned (some a) (some b) = .error c) :
      fails c := fail (bind_of_error h _)
  refine ⟨fun hr => operandsFail (integerOperands_of_radix_ne hr),
    fun hr hk => operandsFail (integerOperands_of_kind_ne hr hk), fun hr ha hb =>
      ⟨fun hv => operandsFail (integerOperands_of_invalid hr ha hb hv), fun hva hvb => ⟨fun hnot =>
        operandsFail (integerOperands_of_fraction hr ha hb hva hvb (.inl rfl) fun ⟨hx, hy⟩ =>
          hnot ⟨Numeral.natural_of_integer ha hva hx, Numeral.natural_of_integer hb hvb hy⟩),
        fun p q hp hq => ?_⟩⟩⟩
  obtain ⟨⟨h2, h35⟩, -⟩ := (Numeral.valid_iff a).1 hva
  have hresult := multiplyUnsigned_of_integers (caps := s.caps) hr ha hb hva hvb hp hq
  refine ⟨fun w hcap hw => ?_, fun hcap => ?_⟩
  · exact fail (hresult.trans (capWhole_eq_error.2 ⟨exceeds_minDigits h2 (by omega) hcap hw, rfl⟩))
  · have hlen := minDigits_length_le h2 (by omega) (product_lt_pow hr ha hb hva hvb hp hq)
    refine ⟨_, (exec_mulu hra hrb log rd).trans (finishN_of_ok
      (hresult.trans (capWhole_eq_ok.2 ⟨exceeds_mono hlen hcap, rfl⟩)) s),
      integerNumeral_standardized h2 h35 (.inl rfl) _ _, rfl, rfl, rfl, ?_⟩
    rw [integerNumeral_val h2 h35 (.inl rfl), if_neg (by simp)]
    push_cast; rfl

/-! ### `DIVS` -/

section Divs

variable {caps : Capacities} {a b : Numeral} (hr : a.radix = b.radix) (ha : a.kind = .signed)
  (hb : b.kind = .signed) (hva : a.valid = true) (hvb : b.valid = true) {x y : Int} (hx : a.val = x)
  (hy : b.val = y)
include hr ha hb hva hvb hx hy

theorem divideSigned_of_operands : divideSigned caps (some a) (some b) =
    (failIf (y = 0) .invalidOperand >>= fun _ =>
      capWhole caps (signedInteger a.radix (x.tdiv y)) >>= fun q =>
      capWhole caps (signedInteger a.radix (x.tmod y)) >>= fun rem => .ok (q, rem)) := by
  rw [divideSigned, integerOperands_of_integers hr ha hb hva hvb (.inr rfl) hx hy, except_ok_bind,
    Int.tmod_def, mul_comm y]
  simp only [Numeral.signedValue_stdForm (.inr ha) hva hx, Numeral.signedValue_stdForm (.inr hb) hvb hy]
  rfl

theorem divideSigned_of_zero (h0 : y = 0) :
    divideSigned caps (some a) (some b) = .error .invalidOperand := by
  rw [divideSigned_of_operands hr ha hb hva hvb hx hy, failIf_pos h0, except_error_bind]

theorem divideSigned_of_integers (h0 : y ≠ 0) (hcap : exceeds caps.wcap (a.whole.length + 1) = false) :
    divideSigned caps (some a) (some b) =
      .ok (signedInteger a.radix (x.tdiv y), signedInteger a.radix (x.tmod y)) := by
  obtain ⟨⟨h2, -⟩, -⟩ := (Numeral.valid_iff a).1 hva
  have hlt := Numeral.natAbs_lt_pow (.inr ha) hva hx
  have hq : (x.tdiv y).natAbs < a.radix.val ^ (a.whole.length + 1) := by
    rw [Int.natAbs_tdiv]; exact (Nat.div_le_self _ _).trans_lt hlt
  have hrem : (x.tmod y).natAbs < a.radix.val ^ (a.whole.length + 1) := by
    rw [Int.natAbs_tmod]; exact (Nat.mod_le _ _).trans_lt hlt
  rw [divideSigned_of_operands hr ha hb hva hvb hx hy, failIf_neg h0, except_ok_bind,
    capWhole_signedInteger h2 _ hq hcap, except_ok_bind, capWhole_signedInteger h2 _ hrem hcap,
    except_ok_bind]

end Divs

theorem exec_divs {s : State} {rs1 rs2 : Fin 8} {a b : Numeral} (ha : s.readN rs1 = some a)
    (hb : s.readN rs2 = some b) (log : Bool) (rd : Fin 8) :
    exec (.divs log rd rs1 rs2) s = finishNPair rd (divideSigned s.caps (some a) (some b)) s := by
  rw [← ha, ← hb]; rfl

theorem finishNPair_of_ok {rd : Fin 8} {r : Except Failure (Numeral × Numeral)} {q rem : Numeral}
    (h : r = .ok (q, rem)) (s : State) : finishNPair rd r s =
      .next (succeed false ((s.setN rd (some q)).setN (rd + 1) (some rem))) := by
  rw [h]; rfl

/-- Settles O44: the checks in their order, then the numerals of the truncating quotient and its
remainder. -/
theorem divsTruncatesTowardsZero : Obligations.DivsTruncatesTowardsZero := by
  intro s log rd rs1 rs2 a b hra hrb fails
  have fail {c : Failure} (h : divideSigned s.caps (some a) (some b) = .error c) : fails c :=
    (exec_divs hra hrb log rd).trans (finishNPair_of_error h s)
  have operandsFail {c : Failure} (h : integerOperands .signed (some a) (some b) = .error c) :
      fails c := fail (bind_of_error h _)
  refine ⟨fun hr => operandsFail (integerOperands_of_radix_ne hr),
    fun hr hk => operandsFail (integerOperands_of_kind_ne hr hk), fun hr ha hb =>
      ⟨fun hv => operandsFail (integerOperands_of_invalid hr ha hb hv), fun hva hvb =>
        have hfraction := integerOperands_of_fraction hr ha hb hva hvb (.inr rfl)
        ⟨fun hnot => operandsFail (hfraction hnot), fun hzero => ?_, fun x y hx hy h0 hcap => ?_⟩⟩⟩
  · by_cases hint : ∃ x : Int, a.val = x
    · obtain ⟨x, hx⟩ := hint
      exact fail (divideSigned_of_zero hr ha hb hva hvb hx (y := 0) (by rw [hzero, Int.cast_zero]) rfl)
    · exact operandsFail (hfraction fun h => hint h.1)
  · obtain ⟨⟨h2, h35⟩, -⟩ := (Numeral.valid_iff a).1 hva
    exact ⟨_, _, (exec_divs hra hrb log rd).trans
      (finishNPair_of_ok (divideSigned_of_integers hr ha hb hva hvb hx hy h0 hcap) s),
      signedInteger_standardized h2 h35 _, rfl, rfl, rfl, signedInteger_standardized h2 h35 _, rfl, rfl,
      rfl, signedInteger_val h2 h35 _, signedInteger_val h2 h35 _, signedInteger_sm_of_zero h2 h35 _,
      signedInteger_sm_of_zero h2 h35 _⟩

end Sys2Proof.Machine
end

section
/-! PROOFS. Exchanged operands (43_fixed_point.md rules R168, R170; 46_ieee_arith.md rule R271 (a)): each of
the four results is a symmetric function of the contents of its two sources. -/

namespace Sys2Proof.Machine

/-! ### Sources and checks -/

/-- With two sources the order of reading them does not show, as long as the rest does not tell them
apart. -/
theorem held_held_comm {α β : Type} (v w : Option α) {f g : α → α → Except Failure β}
    (h : ∀ a b, f a b = g b a) :
    (held v >>= fun a => held w >>= f a) = (held w >>= fun b => held v >>= g b) := by
  cases v <;> cases w <;> simp [h]

theorem failIf_congr {p q : Prop} [Decidable p] [Decidable q] (h : p ↔ q) (e : Failure) :
    failIf p e = failIf q e := by
  simp only [failIf, h]

/-- After a check that passes, what follows may use what was checked. -/
theorem failIf_bind_congr {β : Type} {p : Prop} [Decidable p] {e : Failure} {x y : Except Failure β}
    (h : ¬ p → x = y) : (failIf p e >>= fun _ => x) = (failIf p e >>= fun _ => y) := by
  by_cases hp : p
  · rw [failIf_pos hp]; rfl
  · rw [h hp]

/-! ### `ADDN` and `MULU` -/

theorem addNumerals_comm (caps : Capacities) (va vb : Option Numeral) :
    addNumerals caps va vb = addNumerals caps vb va := by
  refine held_held_comm va vb fun a b => ?_
  rw [failIf_congr (ne_comm (a := a.radix)), failIf_congr (ne_comm (a := a.kind)),
    failIf_congr (or_comm (a := a.valid = false))]
  refine failIf_bind_congr fun hr => failIf_bind_congr fun hk => failIf_bind_congr fun _ => ?_
  rw [not_not] at hr hk
  simp only [max_comm a.whole.length, max_comm a.fraction.length, add_comm (a.valScaled _), hr, hk,
    and_comm (a := a.sm = .minus)]

theorem multiplyUnsigned_comm (caps : Capacities) (va vb : Option Numeral) :
    multiplyUnsigned caps va vb = multiplyUnsigned caps vb va := by
  cases va with
  | none => cases vb <;> rfl
  | some a =>
    cases vb with
    | none => rfl
    | some b =>
      rw [multiplyUnsigned, multiplyUnsigned, integerOperands_of_some, integerOperands_of_some]
      simp only [ne_comm (a := a.radix), or_comm (a := a.kind ≠ .unsigned),
        or_comm (a := a.valid = false), or_comm (a := a.stdForm.fraction ≠ [])]
      split_ifs with hr
      case neg =>
        have hradix : b.stdForm.radix = a.stdForm.radix := not_not.1 hr
        simp only [except_ok_bind, hradix, mul_comm (ofDigits _ a.stdForm.whole)]
      all_goals rfl

/-! ### Binary32 -/

/-- A word is its three fields (46_ieee_arith.md rule R261). -/
theorem word_toNat_eq_fields (x : Word) :
    x.toNat = (signOf x).toNat * 2 ^ 31 + expOf x * 2 ^ 23 + sigOf x := by
  have hlt := x.isLt
  have hsign : (signOf x).toNat = x.toNat / 2 ^ 31 := by
    rw [signOf, BitVec.getLsbD, Nat.toNat_testBit]
    omega
  rw [hsign, expOf, sigOf, BitVec.extractLsb'_toNat, BitVec.extractLsb'_toNat,
    Nat.shiftRight_eq_div_pow, Nat.shiftRight_eq_div_pow]
  omega

theorem expOf_of_inf {x : Word} (h : classOf x = .inf) : expOf x = 255 ∧ sigOf x = 0 := by
  unfold classOf at h
  split_ifs at h with he hm
  exact ⟨he, hm⟩

/-- An infinity is determined by its sign. -/
theorem inf_eq_of_sign {a b : Word} (ha : classOf a = .inf) (hb : classOf b = .inf)
    (h : signOf a = signOf b) : a = b := by
  obtain ⟨hea, hma⟩ := expOf_of_inf ha
  obtain ⟨heb, hmb⟩ := expOf_of_inf hb
  refine BitVec.eq_of_toNat_eq ?_
  rw [word_toNat_eq_fields a, word_toNat_eq_fields b, h, hea, heb, hma, hmb]

theorem specialAdd_comm (a b : Word) : specialAdd a b = specialAdd b a := by
  cases ha : classOf a <;> cases hb : classOf b <;> simp only [specialAdd, ha, hb]
  case inf.inf =>
    by_cases h : signOf a = signOf b
    · rw [inf_eq_of_sign ha hb h]
    · rw [if_neg h, if_neg (Ne.symm h)]
  case zero.zero => rw [Bool.and_comm]

theorem specialMul_comm (a b : Word) : specialMul a b = specialMul b a := by
  cases ha : classOf a <;> cases hb : classOf b <;>
    simp only [specialMul, ha, hb, Bool.xor_comm (signOf a)]

theorem addWords_comm (a b : Word) : addWords a b = addWords b a := by
  simp only [addWords, specialAdd_comm a b, addFinite, min_comm (unpack a).2,
    add_comm (signedMag (signOf a) _)]

theorem mulWords_comm (a b : Word) : mulWords a b = mulWords b a := by
  simp only [mulWords, specialMul_comm a b, mulFinite, Bool.xor_comm (signOf a),
    mul_comm (unpack a).1, add_comm (unpack a).2]

theorem floatCommand_comm {op : Word → Word → Word} (h : ∀ a b, op a b = op b a) (rd fa fb : Fin 4)
    (s : State) : floatCommand op rd fa fb s = floatCommand op rd fb fa s := by
  refine congrArg (fun r => finishF rd r s) ?_
  simp only [floatOperands, bind_assoc]
  refine held_held_comm _ _ fun a b => ?_
  rw [failIf_congr (or_comm (a := a.format ≠ .b32))]
  simp only [except_ok_bind, h]

/-- Settles O40: each result is symmetric in its sources. -/
theorem sumsAndProductsCommute : Obligations.SumsAndProductsCommute := fun s _ rd a b fd fa fb =>
  ⟨congrArg (fun r => finishN rd r s) (addNumerals_comm s.caps (s.readN a) (s.readN b)),
    congrArg (fun r => finishN rd r s) (multiplyUnsigned_comm s.caps (s.readN a) (s.readN b)),
    floatCommand_comm addWords_comm fd fa fb s, floatCommand_comm mulWords_comm fd fa fb s⟩

end Sys2Proof.Machine
end

section
/-! PROOFS. `repr` (43_fixed_point.md rule R171): the numeral of an integer in units of the last fraction
digit, its sign and value, and that no shorter whole part holds the value. -/

namespace Sys2Proof.Machine

/-! ### The number that decides the length -/

/-- The number that must fit the digits for `x` to be written in kind `k`: the magnitude, or one less for
a negative number in TWO'S-COMPLEMENT (rule R171). -/
def lengthNat (k : Kind) (x : Int) : Nat := if k = .twosComplement ∧ x < 0 then x.natAbs - 1 else x.natAbs

theorem lengthNat_le (k : Kind) (x : Int) : lengthNat k x ≤ x.natAbs := by
  unfold lengthNat; split <;> omega

theorem lengthNat_add_lt {k : Kind} {x y : Int} {p q : Nat} (hx : lengthNat k x < p)
    (hy : lengthNat k y < q) : lengthNat k (x + y) < p + q := by
  by_cases hk : k = .twosComplement
  · simp only [lengthNat, hk, true_and] at *
    split_ifs at * <;> omega
  · simp only [lengthNat, hk, false_and, if_false] at *
    omega

theorem natAbs_sm_mul {n : Numeral} (hv : n.valid = true) (m : Nat) : (n.sm.toInt * m).natAbs = m := by
  rcases Numeral.sm_eq_plus_or_minus hv with h | h <;> simp [h, Cond.toInt]

/-- The value of a valid numeral in units of `r^-m` fits as many digits as the numeral may be padded to. -/
theorem Numeral.lengthNat_lt {n : Numeral} (hv : n.valid = true) {w m : Nat} (hw : n.whole.length ≤ w)
    (hm : n.fraction.length ≤ m) {x : Int} (hx : (x : ℚ) = n.val * (n.radix.val : ℚ) ^ m) :
    lengthNat n.kind x < n.radix.val ^ (w + m) := by
  have hpad := n.padTo_padded w m
  have hv' := hpad.valid hv
  have hlt := Numeral.digitsInt_lt hv'
  have hcases := Numeral.absInt_cases hv'
  have hlw : (n.padTo w m).whole.length = w := (n.padTo_length w m).1.trans (max_eq_left hw)
  have hlm : (n.padTo w m).fraction.length = m := (n.padTo_length w m).2.trans (max_eq_left hm)
  have hxabs : x = n.sm.toInt * (n.padTo w m).absInt := by
    rw [← hpad.val_eq hv, Numeral.val_eq_absInt hv', hlm, hpad.radix, hpad.sm, mul_assoc,
      div_mul_cancel₀ _ (Numeral.radix_pow_pos hv m).ne'] at hx
    exact_mod_cast hx
  have habs : x.natAbs = (n.padTo w m).absInt := by rw [hxabs, natAbs_sm_mul hv]
  rw [hlw, hlm, hpad.radix] at hlt hcases
  rw [hpad.kind, hpad.sm] at hcases
  have hle := lengthNat_le n.kind x
  rcases hcases with ⟨-, h⟩ | ⟨hk, hsm, h⟩ | ⟨-, -, h⟩
  · omega
  · rw [hsm, Cond.toInt] at hxabs
    rw [lengthNat, if_pos ⟨hk, by omega⟩]
    omega
  · omega

/-! ### The parts of `repr` -/

/-- The result of `repr` is negative below zero, and at zero when a kind that has a negative zero is asked
for it. -/
def reprNegative (k : Kind) (x : Int) (negzero : Bool) : Bool :=
  decide (x < 0 ∨ x = 0 ∧ negzero = true ∧ (k = .signed ∨ k = .signMagnitude))

/-- The integer whose digits `repr` writes, with `p = r^(n+m)`. -/
def reprField (k : Kind) (p : Nat) (x : Int) : Nat :=
  if k = .twosComplement ∧ x < 0 then p - x.natAbs
  else if k = .onesComplement ∧ x < 0 then p - 1 - x.natAbs
  else x.natAbs

theorem reprField_lt {k : Kind} {p : Nat} {x : Int} (h : lengthNat k x < p) : reprField k p x < p := by
  unfold reprField
  split_ifs with htc hoc
  · have hneg := htc.2
    omega
  · have hneg := hoc.2
    omega
  · rwa [lengthNat, if_neg htc] at h

/-- The whole length of the result (rule R171). -/
def reprLength (r : Nat) (k : Kind) (x : Int) (lw m : Nat) : Nat := leastLength r m (lengthNat k x) lw

/-- The whole and fraction digits of the result (rule R171). -/
def reprDigits (r : Nat) (k : Kind) (x : Int) (lw m : Nat) : List Cell × List Cell :=
  splitDigits r (reprLength r k x lw m) m (reprField k (r ^ (reprLength r k x lw m + m)) x)

/-- `repr`, one equation for all kinds. -/
theorem reprNumeral_eq (x : Int) (r : Cell) (k : Kind) (lw m : Nat) (negzero : Bool) :
    reprNumeral x r k lw m negzero = ⟨signRun (reprNegative k x negzero) r k,
      (reprDigits r.val k x lw m).1, (reprDigits r.val k x lw m).2, r, k⟩ := by
  cases k with
  | unsigned => simp [reprNumeral, reprDigits, reprLength, signRun, reprField, lengthNat]
  | signed | signMagnitude =>
    simp [reprNumeral, reprDigits, reprLength, signRun, reprNegative, reprField, lengthNat]
  | onesComplement | twosComplement =>
    by_cases h : x < 0 <;>
      simp [reprNumeral, reprDigits, reprLength, signRun, reprNegative, reprField, lengthNat, h]

section Repr

variable (x : Int) {r : Cell} {k : Kind} (lw m : Nat) (negzero : Bool)

@[simp] theorem reprNumeral_kind : (reprNumeral x r k lw m negzero).kind = k := by
  rw [reprNumeral_eq]

@[simp] theorem reprNumeral_radix : (reprNumeral x r k lw m negzero).radix = r := by
  rw [reprNumeral_eq]

theorem reprNumeral_whole_length :
    (reprNumeral x r k lw m negzero).whole.length = reprLength r.val k x lw m := by
  rw [reprNumeral_eq, reprDigits, splitDigits_fst_length]

theorem signRun_length (neg : Bool) (r : Cell) (k : Kind) :
    (signRun neg r k).length = if k = .unsigned then 0 else 1 := by
  cases k <;> cases neg <;> rfl

theorem reprNumeral_sign_length :
    (reprNumeral x r k lw m negzero).sign.length = if k = .unsigned then 0 else 1 := by
  rw [reprNumeral_eq, signRun_length]

variable (h2 : 2 ≤ r.val) (h35 : r.val ≤ 35)
include h2

theorem reprNumeral_whole_length_ge : lw ≤ (reprNumeral x r k lw m negzero).whole.length := by
  rw [reprNumeral_whole_length]; exact (leastLength_spec h2 ..).1

theorem reprNumeral_whole_length_le {n : Nat} (hn : lw ≤ n) (h : lengthNat k x < r.val ^ (n + m)) :
    (reprNumeral x r k lw m negzero).whole.length ≤ n := by
  rw [reprNumeral_whole_length]; exact leastLength_le h2 hn h

/-- The digits of the result fit. -/
theorem lengthNat_lt_reprNumeral :
    lengthNat k x < r.val ^ ((reprNumeral x r k lw m negzero).whole.length + m) := by
  rw [reprNumeral_whole_length]; exact (leastLength_spec h2 ..).2.1

variable {x} (hu : k = .unsigned → 0 ≤ x)

section Sign

include hu

theorem reprNumeral_sm : (reprNumeral x r k lw m negzero).sm =
    if reprNegative k x negzero = true then .minus else .plus := by
  rw [Numeral.sm_of_signRun (neg := reprNegative k x negzero) (by rwa [reprNumeral_radix])
    (by rw [reprNumeral_eq]), reprNumeral_kind]
  refine if_congr (and_iff_left_of_imp fun hneg hk => ?_) rfl rfl
  have := hu hk
  rcases of_decide_eq_true hneg with h | ⟨-, -, h⟩
  · omega
  · simp [hk] at h

theorem reprNumeral_sm_eq_minus (hk : k = .onesComplement ∨ k = .twosComplement) :
    (reprNumeral x r k lw m negzero).sm = .minus ↔ x < 0 := by
  rw [reprNumeral_sm lw m negzero h2 hu]
  rcases hk with rfl | rfl <;> by_cases h : x < 0 <;> simp [reprNegative, h]

end Sign

include h35

theorem reprNumeral_digits_below : ∀ d ∈ (reprNumeral x r k lw m negzero).whole ++
    (reprNumeral x r k lw m negzero).fraction, d.val < r.val := by
  rw [reprNumeral_eq]
  exact splitDigits_below h2 (by omega) _

theorem reprNumeral_digitsInt : (reprNumeral x r k lw m negzero).digitsInt =
    reprField k (r.val ^ ((reprNumeral x r k lw m negzero).whole.length + m)) x := by
  have hfit := lengthNat_lt_reprNumeral x lw m negzero (k := k) h2
  rw [reprNumeral_whole_length] at hfit ⊢
  rw [reprNumeral_eq, Numeral.digitsInt, reprDigits, splitDigits_append]
  exact ofDigits_toDigits_of_lt (r := r.val) (by omega) (by omega) (reprField_lt hfit)

include hu

theorem reprNumeral_valid : (reprNumeral x r k lw m negzero).valid = true := by
  have hbelow := reprNumeral_digits_below (x := x) (k := k) lw m negzero h2 h35
  refine (Numeral.valid_iff _).2 ⟨by rw [reprNumeral_radix]; exact ⟨h2, h35⟩, fun d hd => ?_,
    fun d hd => ?_, ?_⟩
  · rw [reprNumeral_radix]; exact hbelow d (List.mem_append_left _ hd)
  · rw [reprNumeral_radix]; exact hbelow d (List.mem_append_right _ hd)
  · rw [reprNumeral_sm lw m negzero h2 hu]; split <;> nofun

theorem reprNumeral_absInt : (reprNumeral x r k lw m negzero).absInt = x.natAbs := by
  have hfit := lengthNat_lt_reprNumeral x lw m negzero (k := k) h2
  have hdigits := reprNumeral_digitsInt (x := x) (k := k) lw m negzero h2 h35
  have hsm := reprNumeral_sm_eq_minus lw m negzero h2 hu
  have hoc : k = .onesComplement ∧ (reprNumeral x r k lw m negzero).sm = .minus ↔
      k = .onesComplement ∧ x < 0 := and_congr_right fun h => hsm (.inl h)
  have htc : k = .twosComplement ∧ (reprNumeral x r k lw m negzero).sm = .minus ↔
      k = .twosComplement ∧ x < 0 := and_congr_right fun h => hsm (.inr h)
  rw [Numeral.absInt, hdigits, reprNumeral_kind, reprNumeral_radix, reprNumeral_fraction_length]
  simp only [htc, hoc, reprField]
  split_ifs with htc hoc
  · rw [lengthNat, if_pos htc] at hfit; omega
  · rw [lengthNat, if_neg htc] at hfit; omega
  · rfl

/-- The value of the result is exact (rule R171). -/
theorem reprNumeral_val : (reprNumeral x r k lw m negzero).val = (x : ℚ) / (r.val : ℚ) ^ m := by
  have hsign : (reprNumeral x r k lw m negzero).sm.toInt * x.natAbs = x := by
    rw [reprNumeral_sm lw m negzero h2 hu]
    rcases lt_trichotomy x 0 with h | h | h
    · have hneg : reprNegative k x negzero = true := decide_eq_true (.inl h)
      rw [if_pos hneg, Cond.toInt]; omega
    · simp [h]
    · have hneg : ¬ reprNegative k x negzero = true := fun hc => by
        have hle := of_decide_eq_true hc
        omega
      rw [if_neg hneg, Cond.toInt]; omega
  rw [Numeral.val_eq_absInt (reprNumeral_valid lw m negzero h2 h35 hu),
    reprNumeral_absInt lw m negzero h2 h35 hu, reprNumeral_radix, reprNumeral_fraction_length,
    ← mul_div_assoc, ← Int.cast_natCast, ← Int.cast_mul, hsign]

/-- Zero has the sign asked for. -/
theorem reprNumeral_sm_of_zero (h : (reprNumeral x r k lw m negzero).val = 0) :
    (reprNumeral x r k lw m negzero).sm =
      if negzero = true ∧ (k = .signed ∨ k = .signMagnitude) then .minus else .plus := by
  have hr : (r.val : ℚ) ^ m ≠ 0 := pow_ne_zero _ (by norm_cast; omega)
  rw [reprNumeral_val lw m negzero h2 h35 hu, div_eq_zero_iff, or_iff_left hr, Int.cast_eq_zero] at h
  rw [reprNumeral_sm lw m negzero h2 hu]
  simp [reprNegative, h]

/-- No numeral of the same value and fraction length has a shorter whole part of `lw` digits or more (rule
R171). -/
theorem reprNumeral_whole_length_least {y : Numeral} (hv : y.valid = true) (hk : y.kind = k)
    (hr : y.radix = r) (hval : y.val = (reprNumeral x r k lw m negzero).val)
    (hm : y.fraction.length = m) (hw : lw ≤ y.whole.length) :
    (reprNumeral x r k lw m negzero).whole.length ≤ y.whole.length := by
  have hpow : (r.val : ℚ) ^ m ≠ 0 := pow_ne_zero _ (by norm_cast; omega)
  have hlt := Numeral.lengthNat_lt hv le_rfl hm.le (x := x) (by
    rw [hval, reprNumeral_val lw m negzero h2 h35 hu, hr, div_mul_cancel₀ _ hpow])
  rw [hk, hr] at hlt
  exact reprNumeral_whole_length_le x lw m negzero h2 hw hlt

end Repr

end Sys2Proof.Machine
end

section
/-! PROOFS. `ADDN` (43_fixed_point.md rule R161): the checks in their order, then `repr` of the exact sum. -/

namespace Sys2Proof.Machine

/-- What `ADDN` computes of two valid operands of one radix and kind, before the capacity check (rule
R161). -/
def sumNumeral (a b : Numeral) : Numeral :=
  reprNumeral (a.valScaled (max a.fraction.length b.fraction.length) +
      b.valScaled (max a.fraction.length b.fraction.length)) a.radix a.kind
    (max (max a.whole.length b.whole.length) 1) (max a.fraction.length b.fraction.length)
    (decide ((a.kind = .signed ∨ a.kind = .signMagnitude) ∧ a.sm = .minus ∧ b.sm = .minus))

section Checks

variable {caps : Capacities} {a b : Numeral}

theorem addNumerals_of_radix_ne (hr : a.radix ≠ b.radix) :
    addNumerals caps (some a) (some b) = .error .differentBase := bind_of_error (failIf_pos hr) _

variable (hr : a.radix = b.radix)
include hr

theorem addNumerals_of_kind_ne (hk : a.kind ≠ b.kind) :
    addNumerals caps (some a) (some b) = .error .differentType := by
  rw [addNumerals, held_some, except_ok_bind, held_some, except_ok_bind, failIf_neg (not_not.2 hr),
    except_ok_bind, failIf_pos hk, except_error_bind]

variable (hk : a.kind = b.kind)
include hk

theorem addNumerals_of_invalid (hv : a.valid = false ∨ b.valid = false) :
    addNumerals caps (some a) (some b) = .error .invalidOperand := by
  rw [addNumerals, held_some, except_ok_bind, held_some, except_ok_bind, failIf_neg (not_not.2 hr),
    except_ok_bind, failIf_neg (not_not.2 hk), except_ok_bind, failIf_pos hv, except_error_bind]

theorem addNumerals_of_valid (ha : a.valid = true) (hb : b.valid = true) :
    addNumerals caps (some a) (some b) = capWhole caps (sumNumeral a b) := by
  rw [addNumerals, held_some, except_ok_bind, held_some, except_ok_bind, failIf_neg (not_not.2 hr),
    except_ok_bind, failIf_neg (not_not.2 hk), except_ok_bind, failIf_neg (by simp [ha, hb])]
  rfl

end Checks

section Sum

variable {a b : Numeral} (hr : a.radix = b.radix) (hk : a.kind = b.kind) (ha : a.valid = true)
  (hb : b.valid = true)

theorem Numeral.valScaled_nonneg_of_unsigned {n : Numeral} (hv : n.valid = true)
    (hu : n.kind = .unsigned) {m : Nat} (hm : n.fraction.length ≤ m) : 0 ≤ n.valScaled m := by
  have hval := n.valScaled_eq m (Numeral.radix_pos hv).ne' hm
  have hmag := n.mag_nonneg
  rw [Numeral.val_of_sm_plus (Numeral.sm_of_valid_unsigned hu hv)] at hval
  exact_mod_cast hval ▸ mul_nonneg hmag (Numeral.radix_pow_pos hv m).le

include hk ha hb

theorem sumNumeral_nonneg_of_unsigned (hu : a.kind = .unsigned) :
    0 ≤ a.valScaled (max a.fraction.length b.fraction.length) +
      b.valScaled (max a.fraction.length b.fraction.length) :=
  add_nonneg (Numeral.valScaled_nonneg_of_unsigned ha hu (le_max_left ..))
    (Numeral.valScaled_nonneg_of_unsigned hb (hk ▸ hu) (le_max_right ..))

theorem sumNumeral_valid : (sumNumeral a b).valid = true := by
  obtain ⟨⟨h2, h35⟩, -⟩ := (Numeral.valid_iff a).1 ha
  exact reprNumeral_valid _ _ _ h2 h35 (sumNumeral_nonneg_of_unsigned hk ha hb)

include hr

theorem sumNumeral_val : (sumNumeral a b).val = a.val + b.val := by
  obtain ⟨⟨h2, h35⟩, -⟩ := (Numeral.valid_iff a).1 ha
  have hpos := Numeral.radix_pow_pos ha (max a.fraction.length b.fraction.length)
  rw [sumNumeral, reprNumeral_val _ _ _ h2 h35 (sumNumeral_nonneg_of_unsigned hk ha hb),
    div_eq_iff hpos.ne', Int.cast_add, a.valScaled_eq _ (by omega) (le_max_left ..),
    b.valScaled_eq _ (hr ▸ by omega) (le_max_right ..), ← hr, add_mul]

/-- The sum needs at most one more whole digit than the longer operand. -/
theorem sumNumeral_whole_length_le :
    (sumNumeral a b).whole.length ≤ max (max a.whole.length b.whole.length) 1 + 1 := by
  obtain ⟨⟨h2, -⟩, -⟩ := (Numeral.valid_iff a).1 ha
  have hla := Numeral.lengthNat_lt ha (w := max (max a.whole.length b.whole.length) 1) (by omega)
    (le_max_left ..) (a.valScaled_eq _ (Numeral.radix_pos ha).ne' (le_max_left _ b.fraction.length))
  have hlb := Numeral.lengthNat_lt hb (w := max (max a.whole.length b.whole.length) 1) (by omega)
    (le_max_right ..) (b.valScaled_eq _ (Numeral.radix_pos hb).ne' (le_max_right a.fraction.length _))
  rw [← hk, ← hr] at hlb
  refine reprNumeral_whole_length_le _ _ _ _ h2 (Nat.le_succ _) ((lengthNat_add_lt hla hlb).trans_le ?_)
  rw [← two_mul, Nat.add_right_comm, pow_succ, mul_comm]
  exact Nat.mul_le_mul_left _ h2

end Sum

theorem exec_addn {s : State} {rs1 rs2 : Fin 8} {a b : Numeral} (ha : s.readN rs1 = some a)
    (hb : s.readN rs2 = some b) (log : Bool) (rd : Fin 8) :
    exec (.addn log rd rs1 rs2) s = finishN rd (addNumerals s.caps (some a) (some b)) s := by
  rw [← ha, ← hb]; rfl

/-- Settles O39: the checks in their order, then the shortest numeral of the sum. -/
theorem addnIsValueExact : Obligations.AddnIsValueExact := by
  intro s log rd rs1 rs2 a b hra hrb fails lw isSum
  have fail {c : Failure} (h : addNumerals s.caps (some a) (some b) = .error c) : fails c :=
    (exec_addn hra hrb log rd).trans (finishN_of_error h s)
  refine ⟨fun hr => fail (addNumerals_of_radix_ne hr), fun hr hk => fail (addNumerals_of_kind_ne hr hk),
    fun hr hk hv => fail (addNumerals_of_invalid hr hk hv), fun hr hk ha hb => ?_⟩
  obtain ⟨⟨h2, h35⟩, -⟩ := (Numeral.valid_iff a).1 ha
  have hresult := addNumerals_of_valid (caps := s.caps) hr hk ha hb
  have hval := sumNumeral_val hr hk ha hb
  have hu := sumNumeral_nonneg_of_unsigned hk ha hb
  have hsum : isSum (sumNumeral a b) := ⟨sumNumeral_valid hk ha hb, hval, reprNumeral_radix ..,
    reprNumeral_kind .., reprNumeral_fraction_length .., reprNumeral_whole_length_ge _ _ _ _ h2⟩
  refine ⟨fun w hcap hw => ?_, fun hcap => ⟨sumNumeral a b, ?_, hsum, reprNumeral_sign_length ..,
    fun hzero => ?_, fun y hy => ?_⟩⟩
  · refine fail (hresult.trans (capWhole_eq_error.2 ⟨?_, rfl⟩))
    rw [hcap, exceeds_some]
    exact decide_eq_true (hw _ hsum)
  · exact (exec_addn hra hrb log rd).trans (finishN_of_ok (hresult.trans (capWhole_eq_ok.2
      ⟨exceeds_mono (sumNumeral_whole_length_le hr hk ha hb) hcap, rfl⟩)) s)
  · rw [sumNumeral, reprNumeral_sm_of_zero _ _ _ h2 h35 hu hzero]
    simp only [decide_eq_true_iff]
    exact if_congr (and_iff_left_of_imp And.left) rfl rfl
  · obtain ⟨hyv, hyval, hyr, hyk, hym, hyw⟩ := hy
    exact reprNumeral_whole_length_least _ _ _ h2 h35 hu hyv hyk hyr (hyval.trans hval.symm) hym hyw

end Sys2Proof.Machine
end

section
/-! PROOFS. `ADDLP` (43_fixed_point.md rule R167): the magnitude of UNSIGNED, SIGNED and SMR, the value of
OC and TC, moved by units of the last fraction digit. -/

namespace Sys2Proof.Machine

/-- The numeral `a` with the magnitude `x` in units of its last digit, in the least whole length (rule
R167). -/
def Numeral.withMagnitude (a : Numeral) (x : Nat) : Numeral :=
  let n := leastLength a.radix.val a.fraction.length x (max a.whole.length 1)
  { a with whole := (splitDigits a.radix.val n a.fraction.length x).1,
           fraction := (splitDigits a.radix.val n a.fraction.length x).2 }

/-- What `ADDLP` computes for a complement kind, before the capacity check (rule R167). -/
def Numeral.withDelta (a : Numeral) (delta : Int) : Numeral :=
  reprNumeral (a.valScaled a.fraction.length + delta) a.radix a.kind (max a.whole.length 1)
    a.fraction.length false

/-- Twelve more digits are room enough for the largest `delta`. -/
theorem add_delta_lt_pow {r : Nat} (h2 : 2 ≤ r) {w m x : Nat} (h : x < r ^ (w + m) + 2049) :
    x < r ^ (w + 12 + m) := by
  have hpow : 2 ^ 12 ≤ r ^ 12 := Nat.pow_le_pow_left h2 12
  have hone : 1 ≤ r ^ (w + m) := Nat.one_le_pow _ _ (by omega)
  rw [Nat.add_right_comm, pow_add]
  nlinarith

section Magnitude

variable {a : Numeral} (hv : a.valid = true) (x : Nat)
include hv

theorem Numeral.withMagnitude_digitsInt : (a.withMagnitude x).digitsInt = x := by
  obtain ⟨⟨h2, h35⟩, -⟩ := (Numeral.valid_iff a).1 hv
  rw [Numeral.digitsInt, Numeral.withMagnitude, splitDigits_append]
  exact ofDigits_toDigits_of_lt (r := a.radix.val) (by omega) (by omega) (leastLength_spec h2 ..).2.1

theorem Numeral.withMagnitude_valid : (a.withMagnitude x).valid = true := by
  obtain ⟨⟨h2, h35⟩, -, -, hsm⟩ := (Numeral.valid_iff a).1 hv
  have hbelow := splitDigits_below (r := a.radix.val)
    (n := leastLength a.radix.val a.fraction.length x (max a.whole.length 1)) (m := a.fraction.length)
    h2 (by omega) x
  exact (Numeral.valid_iff _).2 ⟨⟨h2, h35⟩, fun d hd => hbelow d (List.mem_append_left _ hd),
    fun d hd => hbelow d (List.mem_append_right _ hd), hsm⟩

theorem Numeral.withMagnitude_whole_length_ge :
    max a.whole.length 1 ≤ (a.withMagnitude x).whole.length := by
  obtain ⟨⟨h2, -⟩, -⟩ := (Numeral.valid_iff a).1 hv
  rw [Numeral.withMagnitude, splitDigits_fst_length]
  exact (leastLength_spec h2 ..).1

theorem Numeral.withMagnitude_whole_length_le {n : Nat} (hn : max a.whole.length 1 ≤ n)
    (h : x < a.radix.val ^ (n + a.fraction.length)) : (a.withMagnitude x).whole.length ≤ n := by
  obtain ⟨⟨h2, -⟩, -⟩ := (Numeral.valid_iff a).1 hv
  rw [Numeral.withMagnitude, splitDigits_fst_length]
  exact leastLength_le h2 hn h

/-- No numeral of the same value and fraction length has a shorter whole part of as many digits as `a` or
more. -/
theorem Numeral.withMagnitude_whole_length_least
    (hk : a.kind = .unsigned ∨ a.kind = .signed ∨ a.kind = .signMagnitude) {y : Numeral}
    (hyv : y.valid = true) (hyk : y.kind = a.kind) (hyr : y.radix = a.radix)
    (hval : y.val = (a.withMagnitude x).val) (hm : y.fraction.length = a.fraction.length)
    (hw : max a.whole.length 1 ≤ y.whole.length) :
    (a.withMagnitude x).whole.length ≤ y.whole.length := by
  have hxv := Numeral.withMagnitude_valid hv x
  have hxm : (a.withMagnitude x).fraction.length = a.fraction.length := splitDigits_snd_length ..
  have habs : y.absInt = x := by
    have h := congrArg abs hval
    rw [Numeral.abs_val hyv, Numeral.abs_val hxv, hyr, hm, hxm,
      Numeral.absInt_of_digits (n := a.withMagnitude x) (.inr hk), Numeral.withMagnitude_digitsInt hv] at h
    exact_mod_cast (div_left_inj' (Numeral.radix_pow_pos hv _).ne').1 h
  have hlt := Numeral.digitsInt_lt hyv
  rw [← Numeral.absInt_of_digits (.inr (hyk ▸ hk)), habs, hyr, hm] at hlt
  exact Numeral.withMagnitude_whole_length_le hv x hw hlt

/-- A magnitude that `ADDLP` can reach needs at most twelve more whole digits. -/
theorem Numeral.withMagnitude_whole_length_le_add (hx : x ≤ a.digitsInt + 2048) :
    (a.withMagnitude x).whole.length ≤ max a.whole.length 1 + 12 := by
  obtain ⟨⟨h2, -⟩, -⟩ := (Numeral.valid_iff a).1 hv
  have hdigits := Numeral.digitsInt_lt hv
  have hpow : a.radix.val ^ (a.whole.length + a.fraction.length) ≤
      a.radix.val ^ (max a.whole.length 1 + a.fraction.length) :=
    Nat.pow_le_pow_right (by omega) (by omega)
  exact Numeral.withMagnitude_whole_length_le hv x (by omega) (add_delta_lt_pow h2 (by omega))

end Magnitude

section Delta

variable {a : Numeral} (hv : a.valid = true) (hk : a.kind = .onesComplement ∨ a.kind = .twosComplement)
  (delta : Int)
include hv

theorem Numeral.withDelta_whole_length_le_add (hd : delta.natAbs ≤ 2048) :
    (a.withDelta delta).whole.length ≤ max a.whole.length 1 + 12 := by
  obtain ⟨⟨h2, -⟩, -⟩ := (Numeral.valid_iff a).1 hv
  have hfit := lengthNat_add_lt (y := delta) (q := 2049)
    (Numeral.lengthNat_lt hv (le_max_left _ 1) le_rfl (a.valScaled_eq _ (by omega) le_rfl))
    ((lengthNat_le a.kind delta).trans_lt (by omega))
  exact reprNumeral_whole_length_le _ _ _ _ h2 (by omega) (add_delta_lt_pow h2 hfit)

include hk

theorem Numeral.withDelta_val : (a.withDelta delta).val =
    a.val + delta / (a.radix.val : ℚ) ^ a.fraction.length := by
  obtain ⟨⟨h2, h35⟩, -⟩ := (Numeral.valid_iff a).1 hv
  rw [Numeral.withDelta, reprNumeral_val _ _ _ h2 h35 (by rcases hk with hk | hk <;> simp [hk]),
    Int.cast_add, a.valScaled_eq _ (by omega) le_rfl, add_div,
    mul_div_cancel_right₀ _ (Numeral.radix_pow_pos hv a.fraction.length).ne']

end Delta

/-! ### The command -/

section Results

variable {caps : Capacities} {a : Numeral} {delta : Int}

theorem addToLowestPoint_of_invalid (hv : a.valid = false) :
    addToLowestPoint caps delta (some a) = .error .invalidOperand := bind_of_error (failIf_pos hv) _

variable (hv : a.valid = true)
include hv

theorem addToLowestPoint_of_magnitude
    (hk : a.kind = .unsigned ∨ a.kind = .signed ∨ a.kind = .signMagnitude) :
    addToLowestPoint caps delta (some a) =
      if (a.digitsInt : Int) + delta < 0 then .error .underflow
      else capWhole caps (a.withMagnitude ((a.digitsInt : Int) + delta).toNat) := by
  have hadd : addToLowestPoint caps delta (some a) = (addToMagnitude a delta >>= capWhole caps) := by
    rw [addToLowestPoint, held_some, except_ok_bind, failIf_neg (by simp [hv]), except_ok_bind]
    rcases hk with hk | hk | hk <;> simp only [hk]
  rw [hadd, addToMagnitude]
  by_cases h : (a.digitsInt : Int) + delta < 0
  · rw [if_pos h, failIf_pos h]; rfl
  · rw [if_neg h, failIf_neg h]; rfl

theorem addToLowestPoint_of_complement (hk : a.kind = .onesComplement ∨ a.kind = .twosComplement) :
    addToLowestPoint caps delta (some a) = capWhole caps (a.withDelta delta) := by
  rw [addToLowestPoint, held_some, except_ok_bind, failIf_neg (by simp [hv]), except_ok_bind,
    Numeral.withDelta]
  rcases hk with hk | hk <;> simp only [hk, except_ok_bind]

end Results

theorem exec_addlp {s : State} {rs1 : Fin 8} {a : Numeral} (ha : s.readN rs1 = some a) (log : Bool)
    (rd : Fin 8) (delta : BitVec 12) : exec (.addlp log rd rs1 delta) s =
      finishN rd (addToLowestPoint s.caps delta.toInt (some a)) s := by
  rw [← ha]; rfl

theorem Kind.magnitude_or_complement (k : Kind) : (k = .unsigned ∨ k = .signed ∨ k = .signMagnitude) ∨
    k = .onesComplement ∨ k = .twosComplement := by
  cases k <;> simp

theorem Kind.not_complement_of_magnitude {k : Kind}
    (h : k = .unsigned ∨ k = .signed ∨ k = .signMagnitude) :
    ¬(k = .onesComplement ∨ k = .twosComplement) := by
  cases k <;> simp at h ⊢

/-- Settles O42: for UNSIGNED, SIGNED and SMR the numeral of the new magnitude, for OC and TC that of the new
value. -/
theorem addlpAddsAtTheLowestPoint : Obligations.AddlpAddsAtTheLowestPoint := by
  intro s log rd rs1 delta a hra
  have hexec := exec_addlp hra log rd delta
  have hge := BitVec.le_toInt delta
  have hlt := BitVec.toInt_lt (x := delta)
  refine ⟨fun hv => hexec.trans (finishN_of_error (addToLowestPoint_of_invalid hv) s), fun hv hk hneg =>
    hexec.trans (finishN_of_error ((addToLowestPoint_of_magnitude hv hk).trans (if_pos hneg)) s),
    fun hv hcap hnonneg => ?_⟩
  obtain ⟨⟨h2, h35⟩, -⟩ := (Numeral.valid_iff a).1 hv
  have deliver {x : Numeral} (h : addToLowestPoint s.caps delta.toInt (some a) = capWhole s.caps x)
      (hlen : x.whole.length ≤ max a.whole.length 1 + 12) :
      exec (.addlp log rd rs1 delta) s = .next (succeed false (s.setN rd (some x))) :=
    hexec.trans (finishN_of_ok (h.trans (capWhole_eq_ok.2 ⟨exceeds_mono hlen hcap, rfl⟩)) s)
  rcases a.kind.magnitude_or_complement with hk | hk
  · obtain ⟨x, hx⟩ := Int.eq_ofNat_of_zero_le (hnonneg hk)
    have hresult := addToLowestPoint_of_magnitude (caps := s.caps) (delta := delta.toInt) hv hk
    rw [if_neg (by have := hnonneg hk; omega), hx, Int.toNat_natCast] at hresult
    refine ⟨a.withMagnitude x, deliver hresult
      (Numeral.withMagnitude_whole_length_le_add hv x (by omega)), Numeral.withMagnitude_valid hv x, rfl,
      rfl, splitDigits_snd_length .., Numeral.withMagnitude_whole_length_ge hv x, fun _ => ⟨rfl, ?_⟩,
      fun hc => absurd hc (Kind.not_complement_of_magnitude hk), fun y hyv hyk hyr hval hm hw =>
        Numeral.withMagnitude_whole_length_least hv x hk hyv hyk hyr hval
          (hm.trans (splitDigits_snd_length ..)) hw⟩
    rw [Numeral.withMagnitude_digitsInt hv, hx]
  · have hu : a.kind = .unsigned → 0 ≤ a.valScaled a.fraction.length + delta.toInt := by
      rcases hk with hk | hk <;> simp [hk]
    refine ⟨a.withDelta delta.toInt, deliver (addToLowestPoint_of_complement hv hk)
      (Numeral.withDelta_whole_length_le_add hv _ (by omega)), reprNumeral_valid _ _ _ h2 h35 hu,
      reprNumeral_radix .., reprNumeral_kind .., reprNumeral_fraction_length ..,
      reprNumeral_whole_length_ge _ _ _ _ h2,
      fun hm => absurd hk (Kind.not_complement_of_magnitude hm),
      fun _ => ⟨Numeral.withDelta_val hv hk _, fun hzero => ?_⟩, fun y hyv hyk hyr hval hm hw => ?_⟩
    · rw [Numeral.withDelta, reprNumeral_sm_of_zero _ _ _ h2 h35 hu hzero, if_neg nofun]
    · exact reprNumeral_whole_length_least _ _ _ h2 h35 hu hyv (hyk.trans (reprNumeral_kind ..))
        (hyr.trans (reprNumeral_radix ..)) hval (hm.trans (reprNumeral_fraction_length ..)) hw

end Sys2Proof.Machine
end

section
/-! PROOFS. Bit strings by the numbers they stand for: the slices of a number's bits, the fields of a packed
word, and the bits that `FPARSE.f` reads (00_scope.md rules R12, R13; 20_memory.md rule R55;
44_ieee_encode.md rule R210). -/

namespace Sys2Proof.Machine

/-! ### Bits and slices -/

/-- Bit `k` of the number of a bit string, counted from the right. -/
theorem testBit_int (s : Bits) (k : Nat) :
    (int s).testBit k = (decide (k < s.length) && s.getD (s.length - 1 - k) false) := by
  induction s using List.reverseRecOn generalizing k with
  | nil => simp [int]
  | append_singleton s b ih =>
    have hb : int [b] = b.toNat := by cases b <;> rfl
    rw [int_append, hb, List.length_append, List.length_singleton, pow_one]
    cases k with
    | zero => cases b <;> simp
    | succ k =>
      have hhalf : (int s * 2 + b.toNat) / 2 = int s := by cases b <;> simp; omega
      rw [Nat.testBit_succ, hhalf, ih]
      by_cases hk : k < s.length
      · rw [List.getD_append _ _ _ _ (by omega), Nat.add_sub_cancel, Nat.sub_sub, Nat.add_comm 1 k]
        simp [hk]
      · simp [hk]

/-- The bits of a number are the bits of a quotient followed by the last ones. -/
theorem bits_add (v i w : Nat) : bits v (i + w) = bits (v / 2 ^ w) i ++ bits v w := by
  induction w generalizing v with
  | zero => simp [bits]
  | succ w ih =>
    rw [← Nat.add_assoc, bits, ih, bits, List.append_assoc, Nat.div_div_eq_div_mul, pow_succ,
      Nat.mul_comm 2]

/-- A slice of the bits of a number is the bits of a quotient. -/
theorem slice_bits (v : Nat) {w i j : Nat} (hij : i ≤ j) (hj : j < w) :
    slice (bits v w) i j = bits (v / 2 ^ (w - 1 - j)) (j + 1 - i) := by
  have hw : w = i + (j + 1 - i + (w - 1 - j)) := by omega
  rw [slice]
  conv_lhs => rw [hw]
  rw [bits_add, List.drop_left' (bits_length ..), bits_add, List.take_left' (bits_length ..)]

theorem int_slice_bits (v : Nat) {w i j : Nat} (hij : i ≤ j) (hj : j < w) :
    int (slice (bits v w) i j) = v / 2 ^ (w - 1 - j) % 2 ^ (j + 1 - i) := by
  rw [slice_bits v hij hj, int_bits]

theorem slice_bits_length (v : Nat) {w i j : Nat} (hij : i ≤ j) (hj : j < w) :
    (slice (bits v w) i j).length = j + 1 - i := by
  rw [slice_bits v hij hj, bits_length]

/-! ### The fields of a packed word -/

theorem Format.width_sub_one (f : Format) : f.width - 1 = f.expWidth + f.sigWidth := by
  unfold Format.width; omega

section Fields

variable {f : Format} {s : Bool} {e m : Bits} (he : e.length = f.expWidth) (hm : m.length = f.sigWidth)
include he hm

theorem fields_length : (s :: (e ++ m)).length = f.width := by
  rw [List.length_cons, List.length_append, he, hm, Format.width]
  omega

/-- The packed word is the number of its fields one after the other (20_memory.md rule R55). -/
theorem Ieee.ofFields_word : (Ieee.ofFields f s e m).word.toNat = int (s :: (e ++ m)) := by
  rw [Ieee.ofFields_toNat he hm, int_cons, int_append, List.length_append, he, hm, pow_add]
  ring

theorem Ieee.ofFields_getLsbD (k : Nat) : (Ieee.ofFields f s e m).word.getLsbD k =
    (decide (k < f.width) && (s :: (e ++ m)).getD (f.width - 1 - k) false) := by
  rw [BitVec.getLsbD, Ieee.ofFields_word he hm, testBit_int, fields_length he hm]

/-- The fields of a packed word are those it was packed from. -/
theorem Ieee.ofFields_spec : (Ieee.ofFields f s e m).format = f ∧
    (Ieee.ofFields f s e m).word.toNat < 2 ^ f.width ∧ (Ieee.ofFields f s e m).sign = s ∧
    (Ieee.ofFields f s e m).exponent = e ∧ (Ieee.ofFields f s e m).significand = m := by
  have hpos : f.width - 1 < f.width := by rw [Format.width]; omega
  have hsign : (Ieee.ofFields f s e m).sign = (Ieee.ofFields f s e m).word.getLsbD (f.width - 1) := rfl
  refine ⟨rfl, Ieee.ofWord_lt f _, ?_, Ieee.ofFields_fields he hm⟩
  rw [hsign, Ieee.ofFields_getLsbD he hm, decide_eq_true hpos, Nat.sub_self]
  rfl

end Fields

/-! ### `FPARSE.f` -/

theorem stripSpaces_eq (text : Text) : stripSpaces text = text.filter (fun c => c ≠ 0x20#8) := rfl

theorem isBitChar_eq_false_iff (c : Byte) : isBitChar c = false ↔ c ≠ 0x30#8 ∧ c ≠ 0x31#8 := by
  simp [isBitChar]

theorem isBitChar_bitChar (b : Bool) : isBitChar (bitChar b) = true := by cases b <;> rfl

theorem bitChar_beq (b : Bool) : (bitChar b == 0x31#8) = b := by cases b <;> rfl

section ParseBits

variable {f : Format} {text : Text}

theorem parseBits_of_invalid (h : (stripSpaces text).length ≠ f.width ∨
    ∃ c ∈ stripSpaces text, c ≠ 0x30#8 ∧ c ≠ 0x31#8) :
    parseBits f (some text) = .error .invalidEncoding := by
  refine bind_of_error (failIf_pos (h.imp_right fun ⟨c, hc, hne⟩ => List.all_eq_false.2 ⟨c, hc, ?_⟩)) _
  rw [(isBitChar_eq_false_iff c).2 hne]
  nofun

/-- A text of bits is cut into the three fields by position (rule R210). -/
theorem parseBits_of_fields {b : Bool} {e m : Bits} (he : e.length = f.expWidth)
    (hm : m.length = f.sigWidth) (h : stripSpaces text = (b :: (e ++ m)).map bitChar) :
    parseBits f (some text) = .ok (Ieee.ofFields f b e m) := by
  have hbits : (stripSpaces text).map (fun c => c == 0x31#8) = b :: (e ++ m) := by
    rw [h, List.map_map]
    exact (List.map_congr_left fun b _ => bitChar_beq b).trans (List.map_id _)
  have hvalid : ¬((stripSpaces text).length ≠ f.width ∨ (stripSpaces text).all isBitChar = false) := by
    rw [h, List.length_map, fields_length he hm, List.all_map]
    simp [isBitChar_bitChar]
  have hexp : slice (b :: (e ++ m)) 1 f.expWidth = e := by
    rw [slice, Nat.add_sub_cancel, List.drop_one, List.tail_cons, List.take_left' he]
  have hsig : slice (b :: (e ++ m)) (f.expWidth + 1) (f.width - 1) = m := by
    rw [slice, List.drop_succ_cons, List.drop_left' he, List.take_of_length_le]
    rw [hm, Format.width_sub_one]
    omega
  rw [parseBits, held_some, except_ok_bind]
  dsimp only
  rw [failIf_neg hvalid, except_ok_bind, hbits, hexp, hsig, List.headD_cons]

end ParseBits

/-- A bit string of the format's width is a sign, an exponent and a significand field. -/
theorem exists_fields {f : Format} {bs : Bits} (h : bs.length = f.width) :
    ∃ b e m, bs = b :: (e ++ m) ∧ e.length = f.expWidth ∧ m.length = f.sigWidth := by
  cases bs with
  | nil => exact absurd h (by cases f <;> decide)
  | cons b bs =>
    rw [List.length_cons, Format.width] at h
    refine ⟨b, bs.take f.expWidth, bs.drop f.expWidth, by rw [List.take_append_drop], ?_, ?_⟩
    · rw [List.length_take]; omega
    · rw [List.length_drop]; omega

theorem exec_fparseOf (f : Format) (log : Bool) (rd : Fin 4) (ts : Fin 2) (s : State) :
    exec (fparseOf f log rd ts) s = finishF rd (parseBits f (s.readT ts)) s := by
  cases f <;> rfl

theorem finishF_of_ok {rd : Fin 4} {r : Except Failure Ieee} {x : Ieee} (h : r = .ok x) (s : State) :
    finishF rd r s = .next (succeed false (s.setF rd (some x))) := by
  rw [h]; rfl

/-- Settles O50: the word packed from the three fields of a text of bits has the bits of the text. -/
theorem fparseReadsTheBits : Obligations.FparseReadsTheBits := by
  intro s log f rd ts
  have hexec := exec_fparseOf f log rd ts s
  refine ⟨fun hnone => ?_, fun text t ht hstrip => ?_⟩
  · rw [hnone] at hexec
    exact hexec.trans (finishF_of_error rfl s)
  · rw [ht] at hexec
    rw [← stripSpaces_eq] at hstrip
    refine ⟨fun h => hexec.trans (finishF_of_error (parseBits_of_invalid (hstrip ▸ h)) s),
      fun bs hbs hlen => ?_⟩
    obtain ⟨b, e, m, rfl, he, hm⟩ := exists_fields hlen
    exact ⟨Ieee.ofFields f b e m,
      hexec.trans (finishF_of_ok (parseBits_of_fields he hm (hstrip ▸ hbs)) s), rfl,
      Ieee.ofFields_getLsbD he hm⟩

end Sys2Proof.Machine
end

section
/-! PROOFS. The exponent text of `ENC.f` and its steps 1 to 4: the checks, the converted significand, the ±∞ of
a whole part beyond the format's capacity (44_ieee_encode.md rules R190 to R194, R209). -/

namespace Sys2Proof.Machine

/-! ### The exponent text -/

theorem digitChar_toNat {d : Cell} (h : d.val < 10) : (digitChar d).toNat = 0x30 + d.val := by
  obtain ⟨c, hc, hval, -⟩ := valueDigit_of_le (v := d.val) (by omega)
  rw [digitChar, hc, hval, if_pos (by omega)]

theorem isDecimalChar_digitChar {d : Cell} (h : d.val < 10) : isDecimalChar (digitChar d) = true := by
  rw [isDecimalChar, digitChar_toNat h, decide_eq_true_eq]
  omega

/-- A decimal digit character is the character of its digit. -/
theorem exists_digitChar {c : Byte} (h : isDecimalChar c = true) : ∃ d : Cell, d.val < 10 ∧ c = digitChar d := by
  obtain ⟨hlow, hhigh⟩ := of_decide_eq_true h
  have hd : (cell (c.toNat - 0x30)).val = c.toNat - 0x30 := cell_val (by omega)
  refine ⟨cell (c.toNat - 0x30), by omega, BitVec.eq_of_toNat_eq ?_⟩
  rw [digitChar_toNat (by omega), hd]
  omega

theorem exists_digitChars {t : Text} (h : t.all isDecimalChar = true) :
    ∃ ds : List Cell, (∀ d ∈ ds, d.val < 10) ∧ t = ds.map digitChar := by
  induction t with
  | nil => exact ⟨[], nofun, rfl⟩
  | cons c t ih =>
    obtain ⟨hc, ht⟩ : isDecimalChar c = true ∧ t.all isDecimalChar = true := by simpa using h
    obtain ⟨d, hd, rfl⟩ := exists_digitChar hc
    obtain ⟨ds, hds, rfl⟩ := ih ht
    exact ⟨d :: ds, List.forall_mem_cons.2 ⟨hd, hds⟩, rfl⟩

theorem decimalChars_of_digits {ds : List Cell} (hne : ds ≠ []) (h : ∀ d ∈ ds, d.val < 10) :
    decimalChars (ds.map digitChar) = .ok (ofDigits 10 ds) := by
  have hall : (ds.map digitChar).all isDecimalChar = true := by
    rw [List.all_map, List.all_eq_true]
    exact fun d hd => isDecimalChar_digitChar (h d hd)
  have hfold : ∀ acc, (ds.map digitChar).foldl (fun acc c => acc * 10 + (c.toNat - 0x30)) acc =
      ds.foldl (fun acc d => acc * 10 + d.val) acc := by
    intro acc
    rw [List.foldl_map]
    refine List.foldl_ext _ _ _ fun acc d hd => ?_
    rw [digitChar_toNat (h d hd), Nat.add_sub_cancel_left]
  rw [decimalChars, if_neg (by simp [hne, hall]), hfold, ofDigits]

/-- Digit characters alone have a value (rule R194). -/
theorem decimalChars_cases (t : Text) : decimalChars t = .error .invalidExponent ∨
    ∃ ds : List Cell, ds ≠ [] ∧ (∀ d ∈ ds, d.val < 10) ∧ t = ds.map digitChar := by
  by_cases h : t = [] ∨ t.all isDecimalChar = false
  · exact .inl (if_pos h)
  · rw [not_or, Bool.not_eq_false] at h
    obtain ⟨ds, hds, rfl⟩ := exists_digitChars h.2
    exact .inr ⟨ds, by simpa using h.1, hds, rfl⟩

theorem signChar_ne_digitChar {d : Cell} (h : d.val < 10) (m : Bool) : digitChar d ≠ signChar m := by
  intro hc
  have hsign : isDecimalChar (signChar m) = false := by cases m <;> rfl
  rw [← hc, isDecimalChar_digitChar h] at hsign
  exact Bool.true_eq_false_eq_False hsign

/-- An exponent text denotes its value (rule R194). -/
theorem parseExponent_exponentText (sign : Option Bool) {ds : List Cell} (hne : ds ≠ [])
    (h : ∀ d ∈ ds, d.val < 10) :
    parseExponent (exponentText sign ds) = .ok (exponentValue sign ds) := by
  have hchars := decimalChars_of_digits hne h
  cases sign with
  | some minus =>
    cases minus with
    | false => exact congrArg (· >>= fun v : Nat => .ok (v : Int)) hchars
    | true => exact congrArg (· >>= fun v : Nat => .ok (-(v : Int))) hchars
  | none =>
    cases ds with
    | nil => exact absurd rfl hne
    | cons d ds =>
      have hd := h d (by simp)
      have hplus : digitChar d ≠ 0x2B#8 := signChar_ne_digitChar hd false
      have hminus : digitChar d ≠ 0x2D#8 := signChar_ne_digitChar hd true
      rw [List.map_cons] at hchars
      rw [exponentText, exponentSign, List.nil_append, List.map_cons, parseExponent, if_neg hplus,
        if_neg hminus, hchars]
      rfl

theorem parseExponent_of_other {t : Text} (h : ¬ isExponentText t) :
    parseExponent t = .error .invalidExponent := by
  have hfail (sign : Option Bool) {cs : Text} (ht : t = exponentSign sign ++ cs)
      (f : Nat → Except Failure Int) : (decimalChars cs >>= f) = .error .invalidExponent :=
    bind_of_error ((decimalChars_cases cs).resolve_right fun ⟨ds, hne, hds, hcs⟩ =>
      h ⟨sign, ds, hne, hds, by rw [ht, hcs, exponentText]⟩) f
  cases t with
  | nil => rfl
  | cons c cs =>
    by_cases hplus : c = 0x2B#8
    · exact (if_pos hplus).trans (hfail (some false) (by rw [hplus]; rfl) _)
    · by_cases hminus : c = 0x2D#8
      · exact (if_neg hplus).trans ((if_pos hminus).trans (hfail (some true) (by rw [hminus]; rfl) _))
      · exact (if_neg hplus).trans ((if_neg hminus).trans (hfail none rfl _))

/-! ### The converted significand -/

/-- The significand of `ENC.f` in the radix of the format (rule R191). -/
def encodedNumeral (f : Format) (n : Numeral) : Numeral :=
  match f with
  | .b32 | .b64 | .h32 => radixOf f.radix n.stdForm
  | .d32dpd | .d32bid => n.stdForm

/-- Steps 4 to 8 of the format (rules R195 to R208). -/
def packOf (f : Format) : Bool → Numeral → Text → Except Failure Ieee :=
  match f with
  | .b32 | .b64 => packBinary f
  | .d32dpd => packDpd
  | .d32bid => packBid
  | .h32 => packHex

theorem exec_encOf (f : Format) (log : Bool) (rd : Fin 4) (rs1 : Fin 8) (tx : Fin 2) (s : State) :
    exec (encOf f log rd rs1 tx) s =
      finishF rd (encodeValue s.caps f (packOf f) (s.readN rs1) (s.readT tx)) s := by
  cases f <;> rfl

/-- The exponent text is looked at before anything else of steps 4 to 8. -/
theorem packOf_of_invalidExponent (f : Format) {t : Text} (h : parseExponent t = .error .invalidExponent)
    (sign : Bool) (c : Numeral) : packOf f sign c t = .error .invalidExponent := by
  cases f <;> exact bind_of_error h _

theorem infPattern_eq (f : Format) (sign : Bool) :
    infPattern f sign = ⟨f, withSign f sign (infinityWord f)⟩ := by
  cases f <;> cases sign <;> decide

theorem encodeOperands_of_other {n : Numeral} (h : n.kind ≠ .signed ∨ n.radix ≠ 10) (t : Text) :
    encodeOperands (some n) (some t) = .error .invalidOperand := bind_of_error (failIf_pos h) _

theorem signBit_stdForm {n : Numeral} (hk : n.kind = .signed) (hv : n.valid = true) :
    signBit n.stdForm = decide (n.sm = .minus) := by
  have hsign : n.stdForm.sign = if n.sm = .plus then [0] else [1] := by
    simp only [Numeral.stdForm, Numeral.stdSign, hk]
  rw [signBit, hsign]
  rcases Numeral.sm_eq_plus_or_minus hv with h | h <;> rw [h] <;> rfl

section Encode

variable {n : Numeral} (hk : n.kind = .signed) (h10 : n.radix = 10)
include hk h10

theorem encodeOperands_of_decimal (t : Text) :
    encodeOperands (some n) (some t) = (n.std >>= fun s => .ok (s, t)) := by
  rw [encodeOperands, held_some, except_ok_bind, held_some, except_ok_bind,
    failIf_neg (by simp [hk, h10]), except_ok_bind]

variable (hv : n.valid = true)
include hv

/-- The whole digits of the converted significand are those of the integer part (rules R141, R144, R191). -/
theorem encodedNumeral_whole (f : Format) :
    (encodedNumeral f n).whole = minDigits f.radix (ofDigits 10 n.stdForm.whole) := by
  have hdecimal : n.stdForm.whole = minDigits 10 (ofDigits 10 n.stdForm.whole) := by
    obtain ⟨-, hbelow, -⟩ := (Numeral.valid_iff _).1 (Numeral.stdForm_valid hv)
    obtain ⟨hlen, hhead⟩ := n.stdWhole_spec
    rw [show n.stdForm.radix.val = 10 from congrArg Fin.val h10] at hbelow
    rw [Numeral.wp_of_magnitude (.inr hk)] at hhead
    exact (minDigits_ofDigits (by omega) hlen hhead hbelow).symm
  cases f with
  | b32 | b64 | h32 => rfl
  | d32dpd | d32bid => exact hdecimal

/-- The whole part exceeds the format's capacity exactly when the value does (rule R193). -/
theorem digits_lt_encodedNumeral_whole (f : Format) :
    f.digits < (encodedNumeral f n).whole.length ↔ (f.radix : ℚ) ^ f.digits ≤ |n.val| := by
  obtain ⟨h2, h35⟩ := f.radix_range
  have hfloor := Numeral.floor_abs_val (n := n.stdForm) (.inr hk) (Numeral.stdForm_valid hv)
  rw [Numeral.stdForm_val hv, show n.stdForm.radix.val = 10 from congrArg Fin.val h10] at hfloor
  have hle : (f.radix : ℚ) ^ f.digits ≤ |n.val| ↔
      f.radix ^ f.digits ≤ ofDigits 10 n.stdForm.whole := by
    rw [← Nat.cast_pow, ← Int.cast_natCast, ← Int.le_floor, hfloor, Int.ofNat_le]
  rw [encodedNumeral_whole hk h10 hv, hle]
  refine ⟨fun h => not_lt.1 fun hlt => ?_, fun h => ?_⟩
  · have hpos : 1 ≤ f.digits := by cases f <;> decide
    have := minDigits_length_le h2 hpos hlt
    omega
  · simpa [exceeds_some] using exceeds_minDigits h2 (by omega) (cap := some f.digits) rfl h

theorem encodeRadix_of_fits {caps : Capacities} (f : Format)
    (hcap : exceeds caps.wcap (encodedNumeral f n).whole.length = false) :
    encodeRadix caps f n.stdForm = .ok (encodedNumeral f n) := by
  obtain ⟨h2, h35⟩ := f.radix_range
  have hs := Numeral.stdForm_standardized hv
  have hfrom : encodedNumeral f n = radixOf f.radix n.stdForm →
      fromDecimal caps true f.radix (some n.stdForm) = .ok (encodedNumeral f n) := fun heq => by
    rw [fromDecimal_of_magnitude (n := n.stdForm) (.inr hk) h10 h2 h35,
      standardizeBy_of_valid (Numeral.stdForm_valid hv) fun _ => hs, Numeral.stdForm_of_standardized hs,
      except_ok_bind]
    exact capWhole_eq_ok.2 ⟨heq ▸ hcap, heq⟩
  cases f with
  | b32 | b64 | h32 => exact hfrom rfl
  | d32dpd | d32bid => rfl

variable {caps : Capacities} {f : Format} {pack : Bool → Numeral → Text → Except Failure Ieee} (t : Text)

/-- Steps 1 to 3 on a valid significand that converts (rules R190 to R193). -/
theorem encodeValue_of_valid (hconv : encodeRadix caps f n.stdForm = .ok (encodedNumeral f n)) :
    encodeValue caps f pack (some n) (some t) =
      if (f.radix : ℚ) ^ f.digits ≤ |n.val| then .ok (infPattern f (decide (n.sm = .minus)))
      else pack (decide (n.sm = .minus)) (encodedNumeral f n) t := by
  rw [encodeValue, encodeOperands_of_decimal hk h10, Numeral.std_eq_ok.2 ⟨hv, rfl⟩, except_ok_bind,
    except_ok_bind]
  dsimp only
  rw [hconv, except_ok_bind, signBit_stdForm hk hv]
  simp only [digits_lt_encodedNumeral_whole hk h10 hv f]

/-- A value within the format's capacity fits every register (10_state.md rule R27). -/
theorem encodeValue_of_small (hc : caps.wf = true) (hlt : |n.val| < (f.radix : ℚ) ^ f.digits) :
    encodeValue caps f pack (some n) (some t) = pack (decide (n.sm = .minus)) (encodedNumeral f n) t := by
  have hlen := mt (digits_lt_encodedNumeral_whole hk h10 hv f).1 hlt.not_ge
  have hdigits : f.digits ≤ 64 := by cases f <;> decide
  have hfits := exceeds_of_le_64 (Capacities.wf_iff.1 hc).1 (not_lt.1 hlen |>.trans hdigits)
  rw [encodeValue_of_valid hk h10 hv t (encodeRadix_of_fits hk h10 hv f hfits), if_neg hlt.not_ge]

end Encode

theorem encodedNumeral_whole_length_le {n : Numeral} (h10 : n.radix = 10) (hv : n.valid = true) (f : Format) :
    (encodedNumeral f n).whole.length ≤ 4 * max n.whole.length 1 := by
  have hlen := n.one_le_stdForm_whole_length
  have hle := n.stdForm_whole_length_le
  have hradix := radixOf_whole_length_le (s := n.stdForm) f.radix_range.1 (congrArg Fin.val h10)
    (Numeral.stdForm_valid hv) hlen
  cases f with
  | b32 | b64 | h32 => exact hradix.trans (by omega)
  | d32dpd | d32bid => exact hle.trans (by omega)

/-! ### The commands -/

section Exec

variable {s : State} {n : Numeral} {t : Text} {rs1 : Fin 8} {tx : Fin 2} (hn : s.readN rs1 = some n)
  (ht : s.readT tx = some t) (f : Format) (log : Bool) (rd : Fin 4)
include hn ht

theorem exec_encOf_of_held : exec (encOf f log rd rs1 tx) s =
    finishF rd (encodeValue s.caps f (packOf f) (some n) (some t)) s := by
  rw [exec_encOf, hn, ht]

/-- On a valid decimal significand within the capacity `ENC.f` ends by steps 4 to 8. -/
theorem exec_encOf_of_small (hk : n.kind = .signed) (h10 : n.radix = 10) (hv : n.valid = true)
    (hc : s.caps.wf = true) (hlt : |n.val| < (f.radix : ℚ) ^ f.digits) :
    exec (encOf f log rd rs1 tx) s =
      finishF rd (packOf f (decide (n.sm = .minus)) (encodedNumeral f n) t) s := by
  rw [exec_encOf_of_held hn ht, encodeValue_of_small hk h10 hv t hc hlt]

end Exec

/-- Settles O45: the whole part has more digits than the capacity exactly when the value is that large. -/
theorem encOverflowsToInfinity : Obligations.EncOverflowsToInfinity := by
  intro s log f rd rs1 tx n t hn ht hk h10 hv hcap hge
  have hfits := exceeds_mono (encodedNumeral_whole_length_le h10 hv f) hcap
  have hresult := encodeValue_of_valid hk h10 hv t (pack := packOf f) (encodeRadix_of_fits hk h10 hv f hfits)
  rw [if_pos hge, infPattern_eq] at hresult
  exact (exec_encOf_of_held hn ht f log rd).trans (finishF_of_ok hresult s)

/-- Settles O46, check by check. -/
theorem encChecksOperandsAndExponentText : Obligations.EncChecksOperandsAndExponentText := by
  intro s log f rd rs1 tx n t hn ht fails
  have fail {c : Failure} (h : encodeValue s.caps f (packOf f) (some n) (some t) = .error c) : fails c :=
    (exec_encOf_of_held hn ht f log rd).trans (finishF_of_error h s)
  refine ⟨fun h => fail (bind_of_error (encodeOperands_of_other h t) _), fun hk h10 hv => fail ?_,
    fun hk h10 hv hc hlt ht => fail ?_⟩
  · refine bind_of_error ((encodeOperands_of_decimal hk h10 t).trans ?_) _
    exact bind_of_error (Numeral.std_eq_error.2 ⟨hv, rfl⟩) _
  · rw [encodeValue_of_small hk h10 hv t hc hlt]
    exact packOf_of_invalidExponent f (parseExponent_of_other ht) _ _

end Sys2Proof.Machine
end

section
/-! PROOFS. The first significant digits of a number, and the truncation of a value to them: steps 5 to 7 of
`ENC.f` for the binary formats and HEXADECIMAL32 (44_ieee_encode.md rules R195 to R199, R207, R208). -/

namespace Sys2Proof.Machine

/-! ### The first digits of a number -/

/-- The first `k` significant digits of `x` in radix `r`, with zeros from the right for a short number. -/
def firstDigits (r k x : Nat) : List Cell := (minDigits r x ++ List.replicate k 0).take k

@[simp] theorem firstDigits_length (r k x : Nat) : (firstDigits r k x).length = k := by
  rw [firstDigits, List.length_take, List.length_append, List.length_replicate]
  omega

theorem ofDigits_take {r : Nat} {ds : List Cell} (h : ∀ d ∈ ds, d.val < r) {k : Nat} (hk : k ≤ ds.length) :
    ofDigits r (ds.take k) = ofDigits r ds / r ^ (ds.length - k) := by
  have hrest : ofDigits r (ds.drop k) < r ^ (ds.length - k) := by
    rw [← List.length_drop]
    exact ofDigits_lt fun d hd => h d (List.mem_of_mem_drop hd)
  conv_rhs => rw [← List.take_append_drop k ds]
  rw [ofDigits_append, List.length_append, List.length_drop, List.length_take, Nat.min_eq_left hk,
    Nat.add_sub_cancel_left, Nat.mul_comm, Nat.mul_add_div (Nat.zero_lt_of_lt hrest),
    Nat.div_eq_of_lt hrest, Nat.add_zero]

section FirstDigits

variable {r : Nat} (h2 : 2 ≤ r) (h64 : r ≤ 64) (k x : Nat)
include h2 h64

theorem firstDigits_below : ∀ d ∈ firstDigits r k x, d.val < r := by
  obtain ⟨-, -, hbelow, -⟩ := minDigits_spec h2 h64 x
  intro d hd
  rcases List.mem_append.1 (List.mem_of_mem_take hd) with hd | hd
  · exact hbelow d hd
  · rw [(List.mem_replicate.1 hd).2, Fin.val_zero]
    omega

/-- The first `k` digits are the number scaled to `k` digits and truncated. -/
theorem ofDigits_firstDigits :
    ofDigits r (firstDigits r k x) = x * r ^ k / r ^ (minDigits r x).length := by
  obtain ⟨hx, -, hbelow, -⟩ := minDigits_spec h2 h64 x
  have hpad : ∀ d ∈ minDigits r x ++ List.replicate k 0, d.val < r := fun d hd => by
    rcases List.mem_append.1 hd with hd | hd
    · exact hbelow d hd
    · rw [(List.mem_replicate.1 hd).2, Fin.val_zero]
      omega
  have hlen : (minDigits r x ++ List.replicate k (0 : Cell)).length = (minDigits r x).length + k := by
    rw [List.length_append, List.length_replicate]
  rw [firstDigits, ofDigits_take hpad (by omega), hlen, Nat.add_sub_cancel, ofDigits_append, hx,
    ofDigits_replicate_zero, List.length_replicate, Nat.add_zero]

end FirstDigits

/-- The number of digits of a positive number. -/
theorem minDigits_length_bounds {r x : Nat} (h2 : 2 ≤ r) (h64 : r ≤ 64) (hx : 0 < x) :
    ∃ l, (minDigits r x).length = l + 1 ∧ r ^ l ≤ x ∧ x < r ^ (l + 1) := by
  obtain ⟨hval, hlen, hbelow, -⟩ := minDigits_spec h2 h64 x
  obtain ⟨l, hl⟩ : ∃ l, (minDigits r x).length = l + 1 := ⟨(minDigits r x).length - 1, by omega⟩
  have hlt := ofDigits_lt hbelow
  rw [hval, hl] at hlt
  refine ⟨l, hl, not_lt.1 fun hsmall => ?_, hlt⟩
  have hle := minDigits_length_le h2 (k := max l 1) (le_max_right _ _)
    (hsmall.trans_le (Nat.pow_le_pow_right (by omega) (le_max_left _ _)))
  cases l with
  | zero => rw [pow_zero] at hsmall; omega
  | succ l => omega

/-- The leading binary digit of a positive number is 1. -/
theorem minDigits_two_cons {x : Nat} (hx : 0 < x) : ∃ ds, minDigits 2 x = 1 :: ds := by
  obtain ⟨hval, hlen, hbelow, hhead⟩ := minDigits_spec (r := 2) le_rfl (by omega) x
  cases hds : minDigits 2 x with
  | nil => rw [hds] at hlen; exact absurd hlen (by simp)
  | cons d ds =>
    rw [hds] at hval hbelow hhead
    have hd : d.val < 2 := hbelow d (by simp)
    have hne : d ≠ 0 := by
      rintro rfl
      rcases hhead with hone | hhead
      · obtain rfl : ds = [] := by simpa using hone
        rw [ofDigits_cons] at hval
        simp at hval
        omega
      · exact hhead rfl
    have hone : d = 1 := Fin.ext (by have := Fin.val_ne_of_ne hne; simp at this ⊢; omega)
    exact ⟨ds, by rw [hone]⟩

/-- A value between two neighbouring powers determines the exponent. -/
theorem exponent_unique {b : ℚ} (hb : 1 < b) {x : ℚ} {p q : Int} (hp : b ^ p ≤ x) (hp' : x < b ^ (p + 1))
    (hq : b ^ q ≤ x) (hq' : x < b ^ (q + 1)) : p = q := by
  have h1 := (zpow_lt_zpow_iff_right₀ hb).1 (hp.trans_lt hq')
  have h2 := (zpow_lt_zpow_iff_right₀ hb).1 (hq.trans_lt hp')
  omega

/-- The exponent of a value given as an integer of `l + 1` digits. -/
theorem exponent_of_scaled {r x l : Nat} (h2 : 2 ≤ r) (hlow : r ^ l ≤ x) (hhigh : x < r ^ (l + 1)) (q : Int) :
    (r : ℚ) ^ (q + l) ≤ (x : ℚ) * (r : ℚ) ^ q ∧ (x : ℚ) * (r : ℚ) ^ q < (r : ℚ) ^ (q + l + 1) := by
  have hr : (0 : ℚ) < r := by exact_mod_cast (show 0 < r by omega)
  have hpos : (0 : ℚ) < (r : ℚ) ^ q := zpow_pos hr q
  rw [add_assoc, ← Nat.cast_succ, zpow_add₀ hr.ne', zpow_add₀ hr.ne', zpow_natCast, zpow_natCast,
    mul_comm ((r : ℚ) ^ q), mul_comm ((r : ℚ) ^ q)]
  exact ⟨mul_le_mul_of_nonneg_right (by exact_mod_cast hlow) hpos.le,
    mul_lt_mul_of_pos_right (by exact_mod_cast hhigh) hpos⟩

/-- A number scaled to `k` digits and truncated is below its value by less than a unit of the last digit. -/
theorem truncation_bounds {r : Nat} (h0 : 0 < r) (x k l : Nat) (q : Int) :
    ((x * r ^ k / r ^ l : Nat) : ℚ) * (r : ℚ) ^ (q + l - k) ≤ (x : ℚ) * (r : ℚ) ^ q ∧
      (x : ℚ) * (r : ℚ) ^ q <
        ((x * r ^ k / r ^ l : Nat) : ℚ) * (r : ℚ) ^ (q + l - k) + (r : ℚ) ^ (q + l - k) := by
  have hr : (0 : ℚ) < r := by exact_mod_cast h0
  have hpos : (0 : ℚ) < (r : ℚ) ^ (q + l - k) := zpow_pos hr _
  have hx : (x : ℚ) * (r : ℚ) ^ q = ((x * r ^ k : Nat) : ℚ) / ((r ^ l : Nat) : ℚ) * (r : ℚ) ^ (q + l - k) := by
    rw [zpow_sub₀ hr.ne', zpow_add₀ hr.ne', zpow_natCast, zpow_natCast]
    push_cast
    field_simp
  have hdiv : ((x * r ^ k / r ^ l : Nat) : ℚ) ≤ ((x * r ^ k : Nat) : ℚ) / ((r ^ l : Nat) : ℚ) := Nat.cast_div_le
  have hlt : ((x * r ^ k : Nat) : ℚ) / ((r ^ l : Nat) : ℚ) < ((x * r ^ k / r ^ l : Nat) : ℚ) + 1 := by
    rw [div_lt_iff₀ (by positivity)]
    exact_mod_cast Nat.lt_mul_of_div_lt (Nat.lt_succ_self _) (Nat.pow_pos h0)
  rw [hx, ← add_one_mul]
  exact ⟨mul_le_mul_of_nonneg_right hdiv hpos.le, mul_lt_mul_of_pos_right hlt hpos⟩

/-- A value between `r^E` and `r^(E+1)`, given as `x` units of `r^q`: its leading digit has the exponent `E`,
and its first `k` digits are below it by less than a unit of the last. -/
theorem firstDigits_of_value {r : Nat} (h2 : 2 ≤ r) (h64 : r ≤ 64) {b : ℚ} (hb : (r : ℚ) = b) {x : Nat}
    {q E : Int} {v : ℚ} (hv : v = x * b ^ q) (hlow : b ^ E ≤ v) (hhigh : v < b ^ (E + 1)) :
    0 < x ∧ q + (minDigits r x).length = E + 1 ∧ ∀ k : Nat,
      (ofDigits r (firstDigits r k x) : ℚ) * b ^ (E + 1 - k) ≤ v ∧
        v < (ofDigits r (firstDigits r k x) : ℚ) * b ^ (E + 1 - k) + b ^ (E + 1 - k) := by
  subst hb
  have hr : (1 : ℚ) < r := by exact_mod_cast (show 1 < r by omega)
  have hpos : 0 < x := Nat.pos_of_ne_zero fun h0 => by
    rw [hv, h0, Nat.cast_zero, zero_mul] at hlow
    exact hlow.not_gt (zpow_pos (by linarith) E)
  obtain ⟨l, hlen, hxlow, hxhigh⟩ := minDigits_length_bounds h2 h64 hpos
  have hscaled := exponent_of_scaled h2 hxlow hxhigh q
  rw [← hv] at hscaled
  have hE := exponent_unique hr hlow hhigh hscaled.1 hscaled.2
  refine ⟨hpos, by omega, fun k => ?_⟩
  have hbounds := truncation_bounds (r := r) (by omega) x k (l + 1) q
  rw [← hv, show q + (l + 1 : Nat) = E + 1 by omega, ← hlen] at hbounds
  rwa [ofDigits_firstDigits h2 h64]

/-! ### The significant digits of a standardized numeral -/

theorem ofDigits_eq_zero_iff {r : Nat} (h0 : 0 < r) (ds : List Cell) : ofDigits r ds = 0 ↔ allZero ds = true := by
  induction ds with
  | nil => exact iff_of_true rfl rfl
  | cons d ds ih =>
    have hpow := (Nat.pow_pos (n := ds.length) h0).ne'
    have hcons : allZero (d :: ds) = (d == 0 && allZero ds) := rfl
    rw [ofDigits_cons, Nat.add_eq_zero_iff, Nat.mul_eq_zero, or_iff_left hpow, ih, hcons, Bool.and_eq_true,
      beq_iff_eq, Fin.val_eq_zero_iff]

theorem allZero_digits_iff {c : Numeral} (hv : c.valid = true) :
    allZero c.whole = true ∧ allZero c.fraction = true ↔ c.digitsInt = 0 := by
  rw [Numeral.digitsInt, ofDigits_eq_zero_iff (Numeral.radix_pos hv), allZero, allZero, allZero,
    List.all_append, Bool.and_eq_true]

/-- The leading zeros of a digit sequence are split off. -/
theorem leadingZeros_spec (ds : List Cell) :
    ds = List.replicate (leadingZeros ds) 0 ++ ds.drop (leadingZeros ds) ∧
      (ds.drop (leadingZeros ds)).head? ≠ some 0 := by
  induction ds with
  | nil => exact ⟨rfl, nofun⟩
  | cons d ds ih =>
    by_cases h : d = 0
    · have hz : leadingZeros (d :: ds) = leadingZeros ds + 1 := by simp [leadingZeros, h]
      rw [hz, List.replicate_succ, List.cons_append, List.drop_succ_cons, ← ih.1, h]
      exact ⟨rfl, ih.2⟩
    · have hz : leadingZeros (d :: ds) = 0 := by simp [leadingZeros, h]
      rw [hz]
      exact ⟨rfl, by simpa using h⟩

section Significant

variable {c : Numeral} (hk : c.kind = .signed) (hs : c.standardized = true)
include hk hs

theorem Numeral.digits_of_whole (hw : c.whole ≠ [0]) :
    minDigits c.radix.val c.digitsInt = c.whole ++ c.fraction := by
  obtain ⟨hv, -, ⟨hlen, hhead⟩, -⟩ := c.standardized_iff.1 hs
  obtain ⟨⟨h2, -⟩, hbelow, hfrac, -⟩ := (Numeral.valid_iff c).1 hv
  rw [Numeral.wp_of_magnitude (.inr hk)] at hhead
  have hne : c.whole ≠ [] := List.length_pos_iff.1 hlen
  have hhead' : c.whole.head? ≠ some 0 := fun h0 => by
    obtain ⟨d, hd⟩ := List.length_eq_one_iff.1 (hhead.resolve_right (not_not.2 h0))
    rw [hd, List.head?_cons, Option.some.injEq] at h0
    exact hw (h0 ▸ hd)
  refine minDigits_ofDigits h2 (by rw [List.length_append]; omega) (.inr ?_) fun d hd =>
    (List.mem_append.1 hd).elim (hbelow d) (hfrac d)
  rwa [List.head?_append_of_ne_nil _ hne]

end Significant

theorem Numeral.digits_of_fraction {c : Numeral} (hs : c.standardized = true) (hw : c.whole = [0])
    (hpos : 0 < c.digitsInt) :
    minDigits c.radix.val c.digitsInt = c.fraction.drop (leadingZeros c.fraction) ∧
      leadingZeros c.fraction < c.fraction.length := by
  obtain ⟨hv, -⟩ := c.standardized_iff.1 hs
  obtain ⟨⟨h2, -⟩, -, hfrac, -⟩ := (Numeral.valid_iff c).1 hv
  obtain ⟨hsplit, hhead⟩ := leadingZeros_spec c.fraction
  have hint : c.digitsInt = ofDigits c.radix.val (c.fraction.drop (leadingZeros c.fraction)) := by
    rw [Numeral.digitsInt, hw, List.singleton_append, ofDigits_cons, Fin.val_zero, Nat.zero_mul,
      Nat.zero_add]
    conv_lhs => rw [hsplit]
    exact ofDigits_pad_zero ..
  have hlt : leadingZeros c.fraction < c.fraction.length := by
    by_contra hge
    rw [List.drop_eq_nil_of_le (not_lt.1 hge), ofDigits_nil] at hint
    omega
  refine ⟨hint ▸ minDigits_ofDigits h2 ?_ (.inr hhead) fun d hd => hfrac d (List.mem_of_mem_drop hd),
    hlt⟩
  rw [List.length_drop]; omega

end Sys2Proof.Machine
end

section
/-! PROOFS. `ENC.B32`, `ENC.B64` and `ENC.H32`: the normalized significand is the first digits of the
converted one, so the word is the value truncated to the format (44_ieee_encode.md rules R191, R195 to R199,
R207, R208). -/

namespace Sys2Proof.Machine

/-! ### Normalization -/

/-- More padding than is taken changes nothing. -/
theorem take_append_replicate (ds : List Cell) {k m : Nat} (h : k ≤ m) :
    (ds ++ List.replicate m (0 : Cell)).take k = (ds ++ List.replicate k 0).take k := by
  rw [List.take_append, List.take_append, List.take_replicate, List.take_replicate]
  congr 2
  omega

/-- The `sw` bits of a positive number after its leading 1, with zeros from the right (rule R199). -/
def fractionBits (sw x : Nat) : Bits := ((firstDigits 2 (sw + 1) x).drop 1).map (fun d => decide (d.val = 1))

@[simp] theorem fractionBits_length (sw x : Nat) : (fractionBits sw x).length = sw := by
  simp [fractionBits]

section Normalize

variable {c : Numeral} (hk : c.kind = .signed) (hs : c.standardized = true) (hpos : 0 < c.digitsInt)
  (e : Int)
include hk hs hpos

/-- Step 5 of HEXADECIMAL32 on the significant digits (rule R207). -/
theorem normalizeHex_eq (hr : c.radix.val = 16) : normalizeHex c e =
    (e + (minDigits 16 c.digitsInt).length - c.fraction.length, firstDigits 16 6 c.digitsInt) := by
  rw [firstDigits, ← hr]
  unfold normalizeHex
  by_cases hw : c.whole = [0]
  · obtain ⟨hdigits, hlt⟩ := Numeral.digits_of_fraction hs hw hpos
    rw [if_neg (not_not.2 hw), hdigits, List.length_drop]
    dsimp only
    congr 1
    omega
  · rw [if_pos hw, Numeral.digits_of_whole hk hs hw, List.length_append]
    dsimp only
    congr 1
    omega

/-- Step 5 of the binary formats on the significant digits, the first of which is dropped (rule R199). -/
theorem normalizeBinary_eq (hr : c.radix.val = 2) (sw : Nat) : normalizeBinary c e sw =
    (e + (minDigits 2 c.digitsInt).length - 1 - c.fraction.length,
      fractionBits sw c.digitsInt) := by
  have htail (d : Cell) (ds : List Cell) : ((d :: ds ++ List.replicate (sw + 1) 0).take (sw + 1)).drop 1 =
      (ds ++ List.replicate sw 0).take sw := take_append_replicate ds (by omega)
  obtain ⟨ds, hds⟩ := minDigits_two_cons hpos
  unfold normalizeBinary
  by_cases hw : c.whole = [0]
  · obtain ⟨hdigits, hlt⟩ := Numeral.digits_of_fraction hs hw hpos
    rw [hr, hds] at hdigits
    have hdrop : c.fraction.drop (leadingZeros c.fraction + 1) = ds := by
      rw [← List.drop_drop, ← hdigits, List.drop_one, List.tail_cons]
    have hlen := congrArg List.length hdigits
    rw [List.length_drop, List.length_cons] at hlen
    rw [if_neg (not_not.2 hw), fractionBits, firstDigits, hds, htail, List.length_cons]
    dsimp only
    rw [hdrop]
    congr 1
    omega
  · have hdigits := Numeral.digits_of_whole hk hs hw
    obtain ⟨-, -, ⟨hone, -⟩, -⟩ := c.standardized_iff.1 hs
    obtain ⟨d, ws, hwhole⟩ := List.exists_cons_of_length_pos hone
    rw [hr, hds, hwhole, List.cons_append] at hdigits
    obtain ⟨-, hds'⟩ := List.cons.inj hdigits
    rw [if_pos hw, fractionBits, firstDigits, hds, htail, hwhole, hds']
    dsimp only [List.drop_one, List.tail_cons]
    simp only [List.length_cons, List.length_append]
    congr 1
    omega

end Normalize

/-! ### The fields -/

theorem bitDigits_map {ds : List Cell} (h : ∀ d ∈ ds, d.val < 2) :
    bitDigits (ds.map fun d => decide (d.val = 1)) = ds := by
  rw [bitDigits, List.map_map]
  refine (List.map_congr_left fun d hd => Fin.ext ?_).trans (List.map_id ds)
  have := h d hd
  rcases (show d.val = 0 ∨ d.val = 1 by omega) with h | h <;> simp [h]

@[simp] theorem digitCodes_length (ds : List Cell) : (digitCodes ds).length = 4 * ds.length := by
  induction ds with
  | nil => rfl
  | cons d ds ih =>
    have hcons : digitCodes (d :: ds) = bits d.val 4 ++ digitCodes ds := rfl
    rw [hcons, List.length_append, ih, bits_length, List.length_cons]
    omega

/-- The 4-bit codes of hexadecimal digits are the number of the digits. -/
theorem int_digitCodes {ds : List Cell} (h : ∀ d ∈ ds, d.val < 16) : int (digitCodes ds) = ofDigits 16 ds := by
  induction ds with
  | nil => rfl
  | cons d ds ih =>
    have hcons : digitCodes (d :: ds) = bits d.val 4 ++ digitCodes ds := rfl
    have hd : d.val < 2 ^ 4 := h d (by simp)
    rw [hcons, int_append, int_bits, digitCodes_length, Nat.pow_mul, ofDigits_cons,
      ih fun e he => h e (by simp [he]), Nat.mod_eq_of_lt hd]

/-- With its leading 1 put back the significand field is the first `SW + 1` bits (rule R199). -/
theorem int_fractionBits {x : Nat} (hx : 0 < x) (sw : Nat) :
    2 ^ sw + int (fractionBits sw x) =
      ofDigits 2 (firstDigits 2 (sw + 1) x) := by
  have hbelow := firstDigits_below (r := 2) le_rfl (by omega) (sw + 1) x
  have hlen := firstDigits_length 2 (sw + 1) x
  rw [← ofDigits_bitDigits, fractionBits,
    bitDigits_map fun d hd => hbelow d (List.mem_of_mem_drop hd)]
  obtain ⟨ds, hds⟩ := minDigits_two_cons hx
  have hfirst : firstDigits 2 (sw + 1) x = 1 :: (firstDigits 2 (sw + 1) x).drop 1 := by
    rw [firstDigits, hds]; rfl
  conv_rhs => rw [hfirst, ofDigits_cons, List.length_drop, hlen]
  simp

theorem biasedExponent_of_range {f : Format} {x : Int} (h : f.emin ≤ x ∧ x ≤ f.emax) :
    biasedExponent f x = .ok (x + f.bias).toNat := by
  rw [biasedExponent, failIf_neg (by omega), except_ok_bind]

theorem biasedExponent_of_outside {f : Format} {x : Int} (h : x < f.emin ∨ f.emax < x) :
    biasedExponent f x = .error .exponentOutOfBounds := bind_of_error (failIf_pos h) _

/-- An exponent in range fits its field once biased (rule R196). -/
theorem biased_range {f : Format} {x : Int} (h : f.emin ≤ x ∧ x ≤ f.emax) :
    ((x + f.bias).toNat : Int) = x + f.bias ∧ (x + f.bias).toNat < 2 ^ f.expWidth := by
  cases f <;> simp only [Format.emin, Format.emax, Format.bias, Format.expWidth] at h ⊢ <;> omega

/-- Steps 6 to 8 of the formats whose exponent field is the biased exponent (rules R196, R199, R208). -/
theorem packed_of_range {f : Format} {x : Int} (h : f.emin ≤ x ∧ x ≤ f.emax) (sign : Bool) {m : Bits}
    (hm : m.length = f.sigWidth) : ∃ y : Ieee, (biasedExponent f x >>= fun biased =>
        .ok (Ieee.ofFields f sign (bits biased f.expWidth) m)) = .ok y ∧
      y.format = f ∧ y.word.toNat < 2 ^ f.width ∧ y.sign = sign ∧ (y.expInt : Int) = x + f.bias ∧
      y.sigInt = int m := by
  obtain ⟨hcast, hlt⟩ := biased_range h
  obtain ⟨hformat, hwidth, hsign, hexp, hsig⟩ := Ieee.ofFields_spec (s := sign)
    (bits_length (x + f.bias).toNat f.expWidth) hm
  refine ⟨_, by rw [biasedExponent_of_range h, except_ok_bind], hformat, hwidth, hsign, ?_,
    congrArg int hsig⟩
  rw [Ieee.expInt, hexp, int_bits, Nat.mod_eq_of_lt hlt, hcast]

theorem zeroPattern_eq {f : Format} (hf : f = .b32 ∨ f = .b64 ∨ f = .h32) (sign : Bool) :
    zeroPattern f sign = ⟨f, withSign f sign 0#64⟩ := by
  rcases hf with rfl | rfl | rfl <;> cases sign <;> decide

/-! ### Packing -/

section Pack

variable {f : Format} {c : Numeral} (sign : Bool) {t : Text} {e : Int} (ht : parseExponent t = .ok e)
  (hk : c.kind = .signed) (hs : c.standardized = true)
include ht hk hs

theorem packBinary_of_pos (hpos : 0 < c.digitsInt) (hr : c.radix.val = 2) : packBinary f sign c t =
    (biasedExponent f (e + (minDigits 2 c.digitsInt).length - 1 - c.fraction.length) >>= fun biased =>
      .ok (Ieee.ofFields f sign (bits biased f.expWidth) (fractionBits f.sigWidth c.digitsInt))) := by
  have hzero := mt (allZero_digits_iff (c.standardized_iff.1 hs).1).1 hpos.ne'
  rw [packBinary, ht, except_ok_bind, if_neg hzero, normalizeBinary_eq hk hs hpos e hr]

theorem packHex_of_pos (hpos : 0 < c.digitsInt) (hr : c.radix.val = 16) : packHex sign c t =
    (biasedExponent .h32 (e + (minDigits 16 c.digitsInt).length - c.fraction.length) >>= fun biased =>
      .ok (Ieee.ofFields .h32 sign (bits biased Format.h32.expWidth)
        (digitCodes (firstDigits 16 6 c.digitsInt)))) := by
  have hzero := mt (allZero_digits_iff (c.standardized_iff.1 hs).1).1 hpos.ne'
  rw [packHex, ht, except_ok_bind, if_neg hzero, normalizeHex_eq hk hs hpos e hr]

variable {v : ℚ}

/-- Steps 4 to 8 of a binary format on the value `v`: the leading bit of `v` gives the exponent, and the word
is `v` truncated (rules R195, R196, R199). -/
theorem packBinary_truncates (hf : f = .b32 ∨ f = .b64) (hr : c.radix.val = 2)
    (hv : v = c.digitsInt * (2 : ℚ) ^ (e - c.fraction.length)) :
    (v = 0 → packBinary f sign c t = .ok (zeroPattern f sign)) ∧
    ∀ E : Int, (2 : ℚ) ^ E ≤ v → v < (2 : ℚ) ^ (E + 1) →
      (E < f.emin ∨ f.emax < E → packBinary f sign c t = .error .exponentOutOfBounds) ∧
      (f.emin ≤ E → E ≤ f.emax → ∃ x : Ieee, packBinary f sign c t = .ok x ∧ x.format = f ∧
        x.word.toNat < 2 ^ f.width ∧ x.sign = sign ∧ (x.expInt : Int) = E + f.bias ∧
        x.binaryMagnitude ≤ v ∧ v < x.binaryMagnitude + (2 : ℚ) ^ (E - f.sigWidth)) := by
  refine ⟨fun hzero => ?_, fun E hlow hhigh => ?_⟩
  · have h0 : c.digitsInt = 0 := by simpa [hzero, zpow_ne_zero] using hv
    rw [packBinary, ht, except_ok_bind, if_pos ((allZero_digits_iff (c.standardized_iff.1 hs).1).2 h0)]
  obtain ⟨hpos, hlen, hbounds⟩ := firstDigits_of_value (r := 2) le_rfl (by omega) Nat.cast_ofNat hv hlow hhigh
  have hpack := packBinary_of_pos (f := f) sign ht hk hs hpos hr
  rw [show e + (minDigits 2 c.digitsInt).length - 1 - c.fraction.length = E by omega] at hpack
  refine ⟨fun h => hpack.trans (bind_of_error (biasedExponent_of_outside h) _), fun hmin hmax => ?_⟩
  obtain ⟨x, hx, hformat, hwidth, hsign, hexp, hsig⟩ := packed_of_range ⟨hmin, hmax⟩ sign
    (fractionBits_length f.sigWidth c.digitsInt)
  have hnormal : x.expInt ≠ 0 := by
    rcases hf with rfl | rfl <;> simp only [Format.emin, Format.bias] at hmin hexp <;> omega
  refine ⟨x, hpack.trans hx, hformat, hwidth, hsign, hexp, ?_⟩
  rw [Ieee.binaryMagnitude, if_neg hnormal, hformat, hexp, hsig, int_fractionBits hpos,
    add_sub_cancel_right, show E - f.sigWidth = E + 1 - (f.sigWidth + 1 : Nat) by omega]
  exact hbounds (f.sigWidth + 1)

/-- Steps 4 to 8 of HEXADECIMAL32 on the value `v`: the word has the first six digits of `v`, the point before
the first (rules R195, R196, R207). -/
theorem packHex_truncates (hr : c.radix.val = 16)
    (hv : v = c.digitsInt * (16 : ℚ) ^ (e - c.fraction.length)) :
    (v = 0 → packHex sign c t = .ok (zeroPattern .h32 sign)) ∧
    ∀ E : Int, (16 : ℚ) ^ (E - 1) ≤ v → v < (16 : ℚ) ^ E →
      (E < -64 ∨ 62 < E → packHex sign c t = .error .exponentOutOfBounds) ∧
      (-64 ≤ E → E ≤ 62 → ∃ x : Ieee, packHex sign c t = .ok x ∧ x.format = .h32 ∧
        x.word.toNat < 2 ^ 32 ∧ x.sign = sign ∧ (x.expInt : Int) = E + 64 ∧
        x.hexMagnitude ≤ v ∧ v < x.hexMagnitude + (16 : ℚ) ^ (E - 6)) := by
  refine ⟨fun hzero => ?_, fun E hlow hhigh => ?_⟩
  · have h0 : c.digitsInt = 0 := by simpa [hzero, zpow_ne_zero] using hv
    rw [packHex, ht, except_ok_bind, if_pos ((allZero_digits_iff (c.standardized_iff.1 hs).1).2 h0)]
  obtain ⟨hpos, hlen, hbounds⟩ := firstDigits_of_value (r := 16) (by omega) (by omega) Nat.cast_ofNat hv hlow
    (by rwa [sub_add_cancel])
  have hpack := packHex_of_pos sign ht hk hs hpos hr
  rw [show e + (minDigits 16 c.digitsInt).length - c.fraction.length = E by omega] at hpack
  refine ⟨fun h => hpack.trans (bind_of_error (biasedExponent_of_outside h) _), fun hmin hmax => ?_⟩
  obtain ⟨x, hx, hformat, hwidth, hsign, hexp, hsig⟩ := packed_of_range (f := .h32) ⟨hmin, hmax⟩ sign
    (show (digitCodes (firstDigits 16 6 c.digitsInt)).length = 24 by simp)
  have hexp' : (x.expInt : Int) = E + 64 := hexp
  refine ⟨x, hpack.trans hx, hformat, hwidth, hsign, hexp, ?_⟩
  rw [Ieee.hexMagnitude, hexp', hsig, int_digitCodes (firstDigits_below (by omega) (by omega) 6 _),
    add_sub_cancel_right, show E - 6 = E - 1 + 1 - (6 : Nat) by omega]
  exact hbounds 6

end Pack

/-! ### The commands -/

/-- The converted significand of a binary format or HEXADECIMAL32 is standardized, of the format's radix, and
the value truncated to eight fraction digits (rule R191). -/
theorem encodedNumeral_spec {n : Numeral} (hk : n.kind = .signed) (h10 : n.radix = 10) (hv : n.valid = true)
    {f : Format} (hf : f = .b32 ∨ f = .b64 ∨ f = .h32) :
    (encodedNumeral f n).standardized = true ∧ (encodedNumeral f n).kind = .signed ∧
      (encodedNumeral f n).radix.val = f.radix ∧
      ∀ e : Int, (⌊|n.val| * (f.radix : ℚ) ^ 8⌋ : ℚ) / (f.radix : ℚ) ^ 8 * (f.radix : ℚ) ^ e =
        (encodedNumeral f n).digitsInt * (f.radix : ℚ) ^ (e - (encodedNumeral f n).fraction.length) := by
  obtain ⟨h2, h35⟩ := f.radix_range
  have hs := Numeral.stdForm_standardized hv
  have hradix : n.stdForm.radix.val = 10 := congrArg Fin.val h10
  have heq : encodedNumeral f n = radixOf f.radix n.stdForm := by rcases hf with rfl | rfl | rfl <;> rfl
  have hstd : (encodedNumeral f n).standardized = true :=
    heq ▸ radixOf_standardized h2 hradix h35 (.inr hk) hs
  have hkind : (encodedNumeral f n).kind = .signed := by rw [heq]; exact hk
  have hr : (encodedNumeral f n).radix.val = f.radix := by rw [heq]; exact cell_val (by omega)
  refine ⟨hstd, hkind, hr, fun e => ?_⟩
  have habs := Numeral.abs_val ((encodedNumeral f n).standardized_iff.1 hstd).1
  have hcut := radixOf_abs_val h2 hradix h35 (.inr hk) hs
  rw [Numeral.absInt_of_digits (.inr (.inr (.inl hkind))), hr] at habs
  rw [← heq, Numeral.stdForm_val hv, habs] at hcut
  rw [← hcut, zpow_sub₀ (by exact_mod_cast (show f.radix ≠ 0 by omega)), zpow_natCast]
  ring

/-- Settles O47: the converted significand is the truncated value, and its first bits are those of the word. -/
theorem encBinaryTruncates : Obligations.EncBinaryTruncates := by
  intro s log f rd rs1 tx n sign ds hf hn ht hne hds hk h10 hv hc hlt v
  have hradix : f.radix = 2 := by rcases hf with rfl | rfl <;> rfl
  have hpack : packOf f = packBinary f := by rcases hf with rfl | rfl <;> rfl
  have hf' : f = .b32 ∨ f = .b64 ∨ f = .h32 := hf.imp_right .inl
  have hexec := exec_encOf_of_small hn ht f log rd hk h10 hv hc (by rw [hradix]; exact_mod_cast hlt)
  obtain ⟨hs, hkind, hr, hval⟩ := encodedNumeral_spec hk h10 hv hf'
  rw [hradix, Nat.cast_ofNat] at hval
  obtain ⟨hzero, htrunc⟩ := packBinary_truncates (decide (n.sm = .minus))
    (parseExponent_exponentText sign hne hds) hkind hs hf (hr.trans hradix) (hval (exponentValue sign ds))
  rw [hpack] at hexec
  rw [zeroPattern_eq hf'] at hzero
  refine ⟨fun h0 => hexec.trans (finishF_of_ok (hzero h0) s), fun e hlow hhigh => ?_⟩
  obtain ⟨hfail, hok⟩ := htrunc e hlow hhigh
  refine ⟨fun h => hexec.trans (finishF_of_error (hfail h) s), fun hmin hmax => ?_⟩
  obtain ⟨x, hx, hspec⟩ := hok hmin hmax
  exact ⟨x, hexec.trans (finishF_of_ok hx s), hspec⟩

/-- Settles O48: the converted significand is the truncated value, and its first six digits are those of the
word. -/
theorem encHexTruncates : Obligations.EncHexTruncates := by
  intro s log rd rs1 tx n sign ds hn ht hne hds hk h10 hv hc hlt v
  have hf : Format.h32 = .b32 ∨ Format.h32 = .b64 ∨ Format.h32 = .h32 := .inr (.inr rfl)
  have hexec := exec_encOf_of_small hn ht .h32 log rd hk h10 hv hc (by exact_mod_cast hlt)
  obtain ⟨hs, hkind, hr, hval⟩ := encodedNumeral_spec hk h10 hv hf
  obtain ⟨hzero, htrunc⟩ := packHex_truncates (decide (n.sm = .minus))
    (parseExponent_exponentText sign hne hds) hkind hs hr (hval (exponentValue sign ds))
  rw [zeroPattern_eq hf] at hzero
  refine ⟨fun h0 => hexec.trans (finishF_of_ok (hzero h0) s), fun e hlow hhigh => ?_⟩
  obtain ⟨hfail, hok⟩ := htrunc e hlow hhigh
  refine ⟨fun h => hexec.trans (finishF_of_error (hfail h) s), fun hmin hmax => ?_⟩
  obtain ⟨x, hx, hspec⟩ := hok hmin hmax
  exact ⟨x, hexec.trans (finishF_of_ok hx s), hspec⟩

end Sys2Proof.Machine
end

section
/-! PROOFS. The densely packed decimal code: a group of three digits and its declet, both ways, against the
tables as Safety.lean writes them out (44_ieee_encode.md rules R203 to R205). -/

namespace Sys2Proof.Machine

/-! ### The codes of digits -/

theorem digitCodes_cons (d : Cell) (ds : List Cell) : digitCodes (d :: ds) = bits d.val 4 ++ digitCodes ds := rfl

/-- The four-bit code of a decimal digit: three free bits for a digit below 8, one for 8 and 9. -/
theorem digit_code {d : Nat} (h : d < 10) :
    (decide (8 ≤ d) = false ∧ ∃ b c y : Bool, bits d 4 = [false, b, c, y] ∧
      b.toNat = d / 4 ∧ c.toNat = d / 2 % 2 ∧ y.toNat = d % 2) ∨
    decide (8 ≤ d) = true ∧ ∃ y : Bool, bits d 4 = [true, false, false, y] ∧ y.toNat = d % 2 := by
  revert d; decide

/-- The digit `d` has the four-bit code `code`. -/
def HasCode (d : Cell) (code : Bits) : Prop := bits d.val 4 = code ∧ d.val < 10

theorem hasCode_low (a b c : Bool) :
    HasCode (cell (4 * a.toNat + 2 * b.toNat + c.toNat)) [false, a, b, c] := by
  cases a <;> cases b <;> cases c <;> exact ⟨rfl, by decide⟩

theorem hasCode_high (c : Bool) : HasCode (cell (8 + c.toNat)) [true, false, false, c] := by
  cases c <;> exact ⟨rfl, by decide⟩

/-- Three digits and their codes one after the other. -/
theorem digitCodes_three {d1 d2 d3 : Cell} {c1 c2 c3 codes : Bits} (h1 : HasCode d1 c1) (h2 : HasCode d2 c2)
    (h3 : HasCode d3 c3) (hcodes : codes = c1 ++ (c2 ++ (c3 ++ []))) :
    codes = digitCodes [d1, d2, d3] ∧ [d1, d2, d3].length = 3 ∧ ∀ d ∈ [d1, d2, d3], d.val < 10 := by
  refine ⟨?_, rfl, by simp [h1.2, h2.2, h3.2]⟩
  rw [hcodes, ← h1.1, ← h2.1, ← h3.1]
  rfl

/-! ### From digits to a declet and back -/

/-- The declet of three decimal digits is that of the table, and reads back as the digits, row by row (rules
R203, R204). -/
theorem declet_spec {d1 d2 d3 : Cell} (h1 : d1.val < 10) (h2 : d2.val < 10) (h3 : d3.val < 10) :
    (decimalToDPD (digitCodes [d1, d2, d3])).length = 10 ∧
      int (decimalToDPD (digitCodes [d1, d2, d3])) = digitsToDeclet d1.val d2.val d3.val ∧
      dpdToDecimal (decimalToDPD (digitCodes [d1, d2, d3])) = digitCodes [d1, d2, d3] := by
  have hcodes : digitCodes [d1, d2, d3] = bits d1.val 4 ++ (bits d2.val 4 ++ (bits d3.val 4 ++ [])) := rfl
  rw [hcodes]
  -- The eight rows of the table: each digit is below 8 or not, and its free bits stand where the row puts them.
  rcases digit_code h1 with ⟨ha, b, c, d, hb1, hb, hc, hd⟩ | ⟨ha, d, hb1, hd⟩ <;>
  rcases digit_code h2 with ⟨he, f, g, h, hb2, hf, hg, hh⟩ | ⟨he, h, hb2, hh⟩ <;>
  rcases digit_code h3 with ⟨hi, j, k, m, hb3, hj, hk, hm⟩ | ⟨hi, m, hb3, hm⟩ <;>
  · rw [hb1, hb2, hb3]
    refine ⟨rfl, ?_, rfl⟩
    simp only [digitsToDeclet, ha, he, hi, List.cons_append, List.nil_append, decimalToDPD, dpdGroup, int,
      List.foldl_cons, List.foldl_nil, Bool.toNat_true, Bool.toNat_false]
    omega

theorem decimalToDPD_append (d1 d2 d3 : Cell) (ds : List Cell) :
    decimalToDPD (digitCodes (d1 :: d2 :: d3 :: ds)) =
      decimalToDPD (digitCodes [d1, d2, d3]) ++ decimalToDPD (digitCodes ds) := by
  simp only [digitCodes_cons, bits, List.nil_append, List.cons_append, decimalToDPD]
  exact congrArg (· ++ _) (List.append_nil _).symm

/-- The digits of a declet are those of the table, row by row (rule R204). -/
theorem decletDigits_eq (p q r s t u v w x y : Bool) :
    decletDigits p q r s t u v w x y = digitCodes (decletToDigits (int [p, q, r, s, t, u, v, w, x, y])) ∧
      (decletToDigits (int [p, q, r, s, t, u, v, w, x, y])).length = 3 ∧
      ∀ d ∈ decletToDigits (int [p, q, r, s, t, u, v, w, x, y]), d.val < 10 := by
  have hp := p.toNat_le
  have hq := q.toNat_le
  have hr := r.toNat_le
  have hs := s.toNat_le
  have ht := t.toNat_le
  have hu := u.toNat_le
  have hv := v.toNat_le
  have hw := w.toNat_le
  have hx := x.toNat_le
  have hy := y.toNat_le
  have hint : int [p, q, r, s, t, u, v, w, x, y] = (4 * p.toNat + 2 * q.toNat + r.toNat) * 128 +
      (4 * s.toNat + 2 * t.toNat + u.toNat) * 16 + v.toNat * 8 + (4 * w.toNat + 2 * x.toNat + y.toNat) := by
    simp only [int, List.foldl_cons, List.foldl_nil]
    omega
  generalize int [p, q, r, s, t, u, v, w, x, y] = z at hint
  have hpqr : z / 128 = 4 * p.toNat + 2 * q.toNat + r.toNat := by omega
  have hstu : z / 16 % 8 = 4 * s.toNat + 2 * t.toNat + u.toNat := by omega
  have hv' : z / 8 % 2 = v.toNat := by omega
  have hwxy : z % 8 = 4 * w.toNat + 2 * x.toNat + y.toNat := by omega
  have hlast : z % 2 = y.toNat := by omega
  have hpq : (4 * p.toNat + 2 * q.toNat + r.toNat) / 2 = 2 * p.toNat + q.toNat := by omega
  have hr' : (4 * p.toNat + 2 * q.toNat + r.toNat) % 2 = r.toNat := by omega
  have hst : (4 * s.toNat + 2 * t.toNat + u.toNat) / 2 = 2 * s.toNat + t.toNat := by omega
  have hu' : (4 * s.toNat + 2 * t.toNat + u.toNat) % 2 = u.toNat := by omega
  have hwx : (4 * w.toNat + 2 * x.toNat + y.toNat) / 2 = 2 * w.toNat + x.toNat := by omega
  have hcode (a b c : Bool) : 2 * (2 * a.toNat + b.toNat) + c.toNat = 4 * a.toNat + 2 * b.toNat + c.toNat := by
    omega
  unfold decletToDigits
  simp only [hpqr, hstu, hv', hwxy, hlast, hpq, hr', hst, hu', hwx]
  clear * - hcode
  cases v with
  | false => exact digitCodes_three (hasCode_low p q r) (hasCode_low s t u) (hasCode_low w x y) rfl
  | true =>
    cases w <;> cases x <;> simp only [Bool.toNat_true, Bool.toNat_false, one_ne_zero, if_false, hcode]
    · exact digitCodes_three (hasCode_low p q r) (hasCode_low s t u) (hasCode_high y) rfl
    · exact digitCodes_three (hasCode_low p q r) (hasCode_high u) (hasCode_low s t y) rfl
    · exact digitCodes_three (hasCode_high r) (hasCode_low s t u) (hasCode_low p q y) rfl
    · cases s <;> cases t <;> simp only [Bool.toNat_true, Bool.toNat_false]
      · exact digitCodes_three (hasCode_high r) (hasCode_high u) (hasCode_low p q y) rfl
      · exact digitCodes_three (hasCode_high r) (hasCode_low p q u) (hasCode_high y) rfl
      · exact digitCodes_three (hasCode_low p q r) (hasCode_high u) (hasCode_high y) rfl
      · exact digitCodes_three (hasCode_high r) (hasCode_high u) (hasCode_high y) rfl

/-- The last ten bits of a number, read as a declet. -/
theorem dpdToDecimal_bits (x : Nat) :
    dpdToDecimal (bits x 10) = digitCodes (decletToDigits (x % 1024)) ∧
      (decletToDigits (x % 1024)).length = 3 ∧ ∀ d ∈ decletToDigits (x % 1024), d.val < 10 := by
  have hint : int (bits x 10) = x % 1024 := int_bits x 10
  rw [← hint]
  generalize hs : bits x 10 = s
  obtain ⟨p, q, r, s0, t, u, v, w, x, y, rfl⟩ : ∃ p q r s0 t u v w x y, s = [p, q, r, s0, t, u, v, w, x, y] := by
    subst hs; exact ⟨_, _, _, _, _, _, _, _, _, _, rfl⟩
  obtain ⟨hcodes, hdigits⟩ := decletDigits_eq p q r s0 t u v w x y
  exact ⟨(List.append_nil _).trans hcodes, hdigits⟩

/-- The first ten of twenty bits, read as a declet. -/
theorem dpdToDecimal_high {x : Nat} (hx : x < 2 ^ 20) :
    dpdToDecimal (bits (x / 1024) 10) = digitCodes (decletToDigits (x / 1024)) ∧
      (decletToDigits (x / 1024)).length = 3 ∧ ∀ d ∈ decletToDigits (x / 1024), d.val < 10 := by
  have h := dpdToDecimal_bits (x / 1024)
  rwa [Nat.mod_eq_of_lt (by omega)] at h

end Sys2Proof.Machine
end

section
/-! PROOFS. The two layouts of Decimal32: coefficient and exponent as numbers of the exponent field and the
significand field, and `DEC.D32DPD` and `DEC.D32BID` (44_ieee_encode.md rules R202, R206; 45_ieee_decode.md
rules R232, R236, R237, R239, R242, R243). -/

namespace Sys2Proof.Machine

/-! ### The fields as numbers -/

theorem exponent_eq_bits {x : Ieee} (h : x.format.expWidth = 11) : x.exponent = bits x.expInt 11 := by
  rw [← h, ← exponent_length, Ieee.expInt, bits_int]

theorem significand_eq_bits {x : Ieee} (h : x.format.sigWidth = 20) : x.significand = bits x.sigInt 20 := by
  rw [← h, ← significand_length, Ieee.sigInt, bits_int]

theorem slice_ne_of_int {s t : Bits} {i j : Nat} (h : int (slice s i j) ≠ int t) : slice s i j ≠ t :=
  mt (congrArg int) h

/-- The first two bits of the exponent field tell the two forms of a layout apart. -/
theorem slice_eq_ones_iff {E : Nat} (hE : E < 2048) :
    slice (bits E 11) 0 1 = [true, true] ↔ 1536 ≤ E := by
  rw [slice_bits E (by omega) (by omega)]
  simp [bits]
  omega

theorem slice_digitCodes (ds : List Cell) {i : Nat} (h : i < ds.length) :
    slice (digitCodes ds) (4 * i) (4 * i + 3) = bits (ds.getD i 0).val 4 := by
  induction ds generalizing i with
  | nil => exact absurd h (Nat.not_lt_zero i)
  | cons d ds ih =>
    rw [digitCodes_cons]
    cases i with
    | zero => exact List.take_left' (bits_length ..)
    | succ i =>
      rw [List.getD_cons_succ, ← ih (by simpa using h)]
      simp only [slice]
      rw [show 4 * (i + 1) = 4 + 4 * i by omega, ← List.drop_drop, List.drop_left' (bits_length ..)]
      congr 1
      omega

theorem cell_of_val (d : Cell) : cell d.val = d := Fin.ext (cell_val d.isLt)

theorem cell_int_code {d : Cell} (h : d.val < 10) : cell (int (bits d.val 4)) = d := by
  have hlt : d.val < 2 ^ 4 := by omega
  rw [int_bits, Nat.mod_eq_of_lt hlt, cell_of_val]

/-! ### DPD -/

/-- The leading digit in the exponent field `E` of the DPD layout (45_ieee_decode.md rule R236). -/
def dpdLead (E : Nat) : Nat := if E < 1536 then E / 64 % 8 else 8 + E / 64 % 2

/-- The biased exponent in the exponent field `E` of the DPD layout (45_ieee_decode.md rule R236). -/
def dpdBiased (E : Nat) : Nat :=
  if E < 1536 then E / 512 * 64 + E % 64 else E / 128 % 4 * 64 + E % 64

/-- Coefficient and exponent of DPD fields from the digits of the two declets (rule R236). -/
theorem reconstructDpd_eq {E : Nat} (hE : E < 2048) {m : Bits} {d1 d2 d3 d4 d5 d6 : Cell}
    (hhi : dpdToDecimal (slice m 0 9) = digitCodes [d1, d2, d3])
    (hlo : dpdToDecimal (slice m 10 19) = digitCodes [d4, d5, d6])
    (hd : ∀ d ∈ [d1, d2, d3, d4, d5, d6], d.val < 10) :
    reconstructDpd (bits E 11) m =
      (ofDigits 10 [cell (dpdLead E), d1, d2, d3, d4, d5, d6], (dpdBiased E : Int) - 101) := by
  have hbcd : dpdToDecimal (slice m 0 9) ++ dpdToDecimal (slice m 10 19) =
      digitCodes [d1, d2, d3, d4, d5, d6] := by
    rw [hhi, hlo, digitCodes, digitCodes, digitCodes, ← List.flatMap_append]; rfl
  have hdigit (i : Nat) (hi : i < 6) : cell (int (slice (digitCodes [d1, d2, d3, d4, d5, d6]) (4 * i) (4 * i + 3))) =
      [d1, d2, d3, d4, d5, d6].getD i 0 := by
    rw [slice_digitCodes _ hi]
    refine cell_int_code (hd _ ?_)
    rw [List.getD_eq_getElem _ _ hi]
    exact List.getElem_mem _
  have hd1 : cell (int (slice (digitCodes [d1, d2, d3, d4, d5, d6]) 0 3)) = d1 := hdigit 0 (by omega)
  have hd2 : cell (int (slice (digitCodes [d1, d2, d3, d4, d5, d6]) 4 7)) = d2 := hdigit 1 (by omega)
  have hd3 : cell (int (slice (digitCodes [d1, d2, d3, d4, d5, d6]) 8 11)) = d3 := hdigit 2 (by omega)
  have hd4 : cell (int (slice (digitCodes [d1, d2, d3, d4, d5, d6]) 12 15)) = d4 := hdigit 3 (by omega)
  have hd5 : cell (int (slice (digitCodes [d1, d2, d3, d4, d5, d6]) 16 19)) = d5 := hdigit 4 (by omega)
  have hd6 : cell (int (slice (digitCodes [d1, d2, d3, d4, d5, d6]) 20 23)) = d6 := hdigit 5 (by omega)
  unfold reconstructDpd
  simp only [hbcd, hd1, hd2, hd3, hd4, hd5, hd6]
  split
  · next h =>
    rw [ne_eq, slice_eq_ones_iff hE, not_le] at h
    rw [int_append, slice_bits_length E (by omega) (by omega), int_slice_bits E (by omega) (by omega),
      int_slice_bits E (by omega) (by omega), int_slice_bits E (by omega) (by omega), dpdLead, dpdBiased,
      if_pos h, if_pos h]
    simp [Format.bias]
    omega
  · next h =>
    rw [ne_eq, not_not, slice_eq_ones_iff hE] at h
    rw [int_append, slice_bits_length E (by omega) (by omega), int_slice_bits E (by omega) (by omega),
      int_slice_bits E (by omega) (by omega), int_slice_bits E (by omega) (by omega), dpdLead, dpdBiased,
      if_neg (by omega), if_neg (by omega)]
    simp [Format.bias]

/-! ### BID -/

/-- Coefficient and exponent of BID fields (45_ieee_decode.md rule R237). -/
theorem reconstructBid_eq {E M : Nat} (hE : E < 2048) (hM : M < 2 ^ 20) :
    reconstructBid (bits E 11) (bits M 20) =
      if E < 1536 then (E % 8 * 2 ^ 20 + M, ((E / 8 : Nat) : Int) - 101)
      else (2 ^ 23 + E % 2 * 2 ^ 20 + M, ((E / 2 % 256 : Nat) : Int) - 101) := by
  unfold reconstructBid
  by_cases h : E < 1536
  · rw [if_pos (by rwa [ne_eq, slice_eq_ones_iff hE, not_le]), if_pos h, int_append,
      int_slice_bits E (by omega) (by omega), int_slice_bits E (by omega) (by omega), int_bits, bits_length]
    simp [Format.bias]
    omega
  · rw [if_neg (by rwa [ne_eq, not_not, slice_eq_ones_iff hE, ← not_lt]), if_neg h, int_append, int_append,
      slice_bits_length E (by omega) (by omega),
      int_slice_bits E (by omega) (by omega), int_slice_bits E (by omega) (by omega), int_bits, bits_length]
    simp [Format.bias, int]
    omega

/-! ### `DEC.D32DPD` and `DEC.D32BID` -/

/-- No special value has an exponent field that begins with fewer than four ones (rule R232). -/
theorem specialDecimal_of_number {sgn : Bool} {E : Nat} {m : Bits} (hE : E < 1920)
    (hzero : ¬(E = 0 ∧ int m = 0)) : specialDecimal sgn (bits E 11) m = .ok none := by
  have hint : int (bits E 11) = E := (int_bits E 11).trans (Nat.mod_eq_of_lt (by omega))
  have hinf : slice (bits E 11) 0 4 ≠ [true, true, true, true, false] := slice_ne_of_int (by
    rw [int_slice_bits E (by omega) (by omega)]; simp [int]; omega)
  have hsnan : slice (bits E 11) 0 6 ≠ [true, true, true, true, true, false, false] := slice_ne_of_int (by
    rw [int_slice_bits E (by omega) (by omega)]; simp [int]; omega)
  have hqnan : slice (bits E 11) 0 6 ≠ [true, true, true, true, true, false, true] := slice_ne_of_int (by
    rw [int_slice_bits E (by omega) (by omega)]; simp [int]; omega)
  have hrefused : slice (bits E 11) 0 5 ≠ [true, true, true, true, true, true] := slice_ne_of_int (by
    rw [int_slice_bits E (by omega) (by omega)]; simp [int]; omega)
  rw [specialDecimal, if_neg (by rwa [noBit_iff, noBit_iff, hint]), if_neg hinf, if_neg hsnan, if_neg hqnan,
    if_neg hrefused]

theorem decodedDecimal_eq (sgn : Bool) (c : Nat) (q : Int) :
    decodedDecimal sgn c q = .number (integerNumeral sgn 10 .signed c) 10 q := by
  cases sgn <;> rfl

/-- A number of a decimal format decodes to the coefficient and the exponent of its fields. -/
theorem decodeDecimal_of_number {f : Format} {reconstruct : Bits → Bits → Nat × Int} {x : Ieee}
    (hx : x.format = f) (hwidth : f.expWidth = 11) (hE : x.expInt < 1920)
    (hzero : ¬(x.expInt = 0 ∧ x.sigInt = 0)) : decodeDecimal f reconstruct (some x) =
      .ok (.number (integerNumeral x.sign 10 .signed (reconstruct x.exponent x.significand).1) 10
        (reconstruct x.exponent x.significand).2) := by
  have hnone : specialDecimal x.sign x.exponent x.significand = .ok none := by
    rw [exponent_eq_bits (hx ▸ hwidth)]
    exact specialDecimal_of_number hE hzero
  rw [decodeDecimal, decodeOperand_of_format hx, except_ok_bind, hnone, except_ok_bind]
  exact congrArg Except.ok (decodedDecimal_eq ..)

theorem exec_decDecimal {s : State} {f : Format} {fs : Fin 4} {x : Ieee} (hf : f = .d32dpd ∨ f = .d32bid)
    (hread : s.readF fs = some x) (hx : x.format = f) (hE : x.expInt < 1920)
    (hzero : ¬(x.expInt = 0 ∧ x.sigInt = 0)) (log : Bool) (rd : Fin 8) :
    exec (decOf f log rd fs) s = .next (succeed false
      ((s.setN rd (some (integerNumeral x.sign 10 .signed x.decimalParts.1))).setP (some .numeric) (some 10)
        (some x.decimalParts.2))) := by
  rcases hf with rfl | rfl
  · have hexec : exec (decOf .d32dpd log rd fs) s =
        finishDecoded rd (decodeDecimal .d32dpd reconstructDpd (s.readF fs)) s := rfl
    rw [hexec, hread, decodeDecimal_of_number hx rfl hE hzero, Ieee.decimalParts, hx]
    rfl
  · have hexec : exec (decOf .d32bid log rd fs) s =
        finishDecoded rd (decodeDecimal .d32bid reconstructBid (s.readF fs)) s := rfl
    rw [hexec, hread, decodeDecimal_of_number hx rfl hE hzero, Ieee.decimalParts, hx]
    rfl

section Parts

variable {x : Ieee}

theorem expInt_lt (h : x.format.expWidth = 11) : x.expInt < 2048 := by
  have := int_lt x.exponent
  rwa [exponent_length, h] at this

theorem sigInt_lt (h : x.format.sigWidth = 20) : x.sigInt < 2 ^ 20 := by
  have := int_lt x.significand
  rwa [significand_length, h] at this

theorem decimalParts_bid (hx : x.format = .d32bid) : x.decimalParts =
    if x.expInt < 1536 then (x.expInt % 8 * 2 ^ 20 + x.sigInt, ((x.expInt / 8 : Nat) : Int) - 101)
    else (2 ^ 23 + x.expInt % 2 * 2 ^ 20 + x.sigInt, ((x.expInt / 2 % 256 : Nat) : Int) - 101) := by
  have he : x.format.expWidth = 11 := by rw [hx]; rfl
  have hm : x.format.sigWidth = 20 := by rw [hx]; rfl
  rw [Ieee.decimalParts, hx]
  dsimp only
  rw [exponent_eq_bits he, significand_eq_bits hm, reconstructBid_eq (expInt_lt he) (sigInt_lt hm)]

theorem decimalParts_dpd (hx : x.format = .d32dpd) : x.decimalParts =
    (ofDigits 10 (cell (dpdLead x.expInt) :: decletToDigits (x.sigInt / 1024) ++
      decletToDigits (x.sigInt % 1024)), (dpdBiased x.expInt : Int) - 101) := by
  have he : x.format.expWidth = 11 := by rw [hx]; rfl
  have hm : x.format.sigWidth = 20 := by rw [hx]; rfl
  obtain ⟨hhi, hhi3, hhi10⟩ := dpdToDecimal_high (sigInt_lt hm)
  obtain ⟨hlo, hlo3, hlo10⟩ := dpdToDecimal_bits x.sigInt
  obtain ⟨a, b, c, habc⟩ := List.length_eq_three.1 hhi3
  obtain ⟨d, e, f, hdef⟩ := List.length_eq_three.1 hlo3
  rw [habc] at hhi hhi10 ⊢
  rw [hdef] at hlo hlo10 ⊢
  rw [Ieee.decimalParts, hx]
  dsimp only
  rw [exponent_eq_bits he, significand_eq_bits hm]
  refine reconstructDpd_eq (expInt_lt he) ?_ ?_ fun d hd => (List.mem_append.1 hd).elim (hhi10 d) (hlo10 d)
  · rw [slice_bits _ (by omega) (by omega)]
    exact hhi
  · rw [slice_bits _ (by omega) (by omega), show 2 ^ (20 - 1 - 19) = 1 from rfl, Nat.div_one]
    exact hlo

end Parts

/-- Settles O55: the special values are excluded, and the two layouts hold coefficient and exponent as numbers
of the fields. -/
theorem decDecimalIsExact : Obligations.DecDecimalIsExact := by
  intro s log f rd fs x hf hread hx hE hzero
  have hsm := integerNumeral_sm (r := 10) (k := .signed) (by decide) x.sign x.decimalParts.1
  have hval := integerNumeral_val (r := 10) (k := .signed) (by decide) (by decide) (.inr rfl) x.sign
    x.decimalParts.1
  refine ⟨integerNumeral x.sign 10 .signed x.decimalParts.1, x.decimalParts.1, x.decimalParts.2,
    exec_decDecimal hf hread hx hE hzero log rd,
    integerNumeral_standardized (by decide) (by decide) (.inr rfl) _ _, rfl, rfl, rfl, ?_, ?_, ?_⟩
  · rw [hsm]; cases x.sign <;> rfl
  · rw [hval]; split <;> simp
  rcases hf with rfl | rfl
  · have hparts := decimalParts_dpd hx
    obtain ⟨hhi, hhi3, hhi10⟩ := dpdToDecimal_high (sigInt_lt (x := x) (by rw [hx]; rfl))
    obtain ⟨hlo, hlo3, hlo10⟩ := dpdToDecimal_bits x.sigInt
    rw [hparts, dpdLead, dpdBiased]
    refine ⟨?_, ?_, nofun, nofun, fun _ => ⟨hhi, hhi3, hlo, hlo3,
      fun d hd => (List.mem_append.1 hd).elim (hhi10 d) (hlo10 d), fun h => ?_, fun h => ?_⟩⟩
    · split <;> dsimp only <;> omega
    · split <;> dsimp only <;> omega
    · rw [if_pos h, if_pos h]; exact ⟨rfl, rfl⟩
    · rw [if_neg (by omega), if_neg (by omega)]; exact ⟨rfl, rfl⟩
  · rw [decimalParts_bid hx]
    refine ⟨?_, ?_, fun _ h => ?_, fun _ h => ?_, nofun⟩
    · split <;> dsimp only <;> omega
    · split <;> dsimp only <;> omega
    · rw [if_pos h]; exact ⟨rfl, rfl⟩
    · rw [if_neg (by omega)]; exact ⟨rfl, rfl⟩

end Sys2Proof.Machine
end

section
/-! PROOFS. `ENC.D32DPD` and `ENC.D32BID`: the coefficient rounded to seven digits on the guard digit, and the
fields of the two layouts (44_ieee_encode.md rules R196, R200 to R203, R206, R211). -/

namespace Sys2Proof.Machine

/-! ### The coefficient -/

/-- Without its leading zeros a digit sequence is the digits of its number. -/
theorem trimLeading_eq_minDigits {r : Nat} (h2 : 2 ≤ r) {ds : List Cell} (hne : ds ≠ [])
    (h : ∀ d ∈ ds, d.val < r) : trimLeading 0 ds = minDigits r (ofDigits r ds) := by
  obtain ⟨⟨k, hk⟩, htrim, hhead⟩ := trimLeading_spec 0 ds
  have hlen := List.length_pos_iff.2 (htrim hne)
  have hint : ofDigits r ds = ofDigits r (trimLeading 0 ds) := by
    conv_lhs => rw [hk]
    exact ofDigits_pad_zero ..
  rw [hint]
  refine (minDigits_ofDigits h2 hlen (hhead.imp_left fun h1 => by omega) fun d hd => h d ?_).symm
  rw [hk]
  exact List.mem_append_right _ hd

/-- Digits padded on the left with zeros to `k` are the `k` digits of their number. -/
theorem pad_eq_toDigits {r k : Nat} (h0 : 0 < r) {ds : List Cell} (hlen : ds.length ≤ k)
    (h : ∀ d ∈ ds, d.val < r) : List.replicate (k - ds.length) 0 ++ ds = toDigits r k (ofDigits r ds) := by
  have hk : (List.replicate (k - ds.length) (0 : Cell) ++ ds).length = k := by
    rw [List.length_append, List.length_replicate]; omega
  have hbelow : ∀ d ∈ List.replicate (k - ds.length) (0 : Cell) ++ ds, d.val < r := fun d hd =>
    (List.mem_append.1 hd).elim (fun hd => by rwa [(List.mem_replicate.1 hd).2]) (h d)
  have hdigits := toDigits_ofDigits hbelow
  rw [hk, ofDigits_pad_zero] at hdigits
  exact hdigits.symm

theorem ofDigits_getLastD_mod_two (ds : List Cell) : (ds.getLastD 0).val % 2 = ofDigits 10 ds % 2 := by
  induction ds using List.reverseRecOn with
  | nil => rfl
  | append_singleton ds d ih =>
    rw [ofDigits_concat, List.getLastD_concat]
    omega

section Round

variable {D k : Nat} (hlow : 10 ^ (k + 7) ≤ D) (hhigh : D < 10 ^ (k + 8))
include hlow hhigh

theorem minDigits_length_of_bounds : (minDigits 10 D).length = k + 8 := by
  obtain ⟨l, hlen, hl, hl'⟩ := minDigits_length_bounds (r := 10) (by omega) (by omega)
    ((Nat.pow_pos (by omega)).trans_le hlow)
  have h1 := (Nat.pow_lt_pow_iff_right (by omega)).1 (hlow.trans_lt hl')
  have h2 := (Nat.pow_lt_pow_iff_right (by omega)).1 (hl.trans_lt hhigh)
  omega

/-- The kept digits and the guard digit as numbers (rule R200). -/
theorem kept_and_guard : ofDigits 10 ((minDigits 10 D).take 7) = D / 10 ^ (k + 1) ∧
    (((minDigits 10 D).drop 7).headD 0).val = D / 10 ^ k % 10 := by
  have hlen := minDigits_length_of_bounds hlow hhigh
  obtain ⟨hD, -, hbelow, -⟩ := minDigits_spec (r := 10) (by omega) (by omega) D
  refine ⟨?_, ?_⟩
  · rw [ofDigits_take hbelow (by omega), hD, hlen]
    rfl
  · have hdigit := digit_of_fraction hbelow 7
    rw [hD, hlen, pow_add 10 k 8, Nat.mul_div_mul_right _ _ (by norm_num)] at hdigit
    rw [hdigit, List.headD_eq_head?_getD, List.head?_drop, List.getD_eq_getElem?_getD]

/-- The coefficient cut to seven digits, and one more on the guard digit; 10000000 becomes 1000000 (rule
R200). -/
theorem roundCoefficient_spec {kept guard up : Nat} (hkept : kept = D / 10 ^ (k + 1))
    (hguard : guard = D / 10 ^ k % 10)
    (hup : up = if 5 < guard ∨ (guard = 5 ∧ kept % 2 = 1) then 1 else 0) :
    ∃ ds j, roundCoefficient (minDigits 10 D) = (ds, j) ∧ ds.length ≤ 7 ∧ (∀ d ∈ ds, d.val < 10) ∧
      if kept + up = 10 ^ 7 then ofDigits 10 ds = 10 ^ 6 ∧ j = 1
      else ofDigits 10 ds = kept + up ∧ j = 0 := by
  obtain ⟨htake, hdrop⟩ := kept_and_guard hlow hhigh
  obtain ⟨-, -, hbelow, -⟩ := minDigits_spec (r := 10) (by omega) (by omega) D
  have hlt : kept < 10 ^ 7 := by
    rw [hkept, Nat.div_lt_iff_lt_mul (Nat.pow_pos (by omega)), ← pow_add]
    exact hhigh.trans_eq (by congr 1; omega)
  have heven := ofDigits_getLastD_mod_two ((minDigits 10 D).take 7)
  rw [← hkept] at htake
  rw [← hguard] at hdrop
  rw [htake] at heven
  unfold roundCoefficient
  simp only [htake, hdrop, heven]
  by_cases hround : 5 < guard ∨ (guard = 5 ∧ kept % 2 = 1)
  · rw [if_pos hround] at hup ⊢
    obtain ⟨hval, -, hdigits, -⟩ := minDigits_spec (r := 10) (by omega) (by omega) (kept + 1)
    by_cases hcarry : kept + 1 = 10 ^ 7
    · have hlen : (minDigits 10 (kept + 1)).length = 8 :=
        minDigits_length_of_bounds (k := 0) (by omega) (by omega)
      refine ⟨_, _, if_pos hlen, List.length_take_le _ _, fun d hd => hdigits d (List.mem_of_mem_take hd), ?_⟩
      rw [hup, if_pos hcarry, ofDigits_take hdigits (by omega), hval, hlen, hcarry]
      exact ⟨rfl, rfl⟩
    · have hlen : (minDigits 10 (kept + 1)).length ≤ 7 :=
        minDigits_length_le (by omega) (by omega) (by omega)
      refine ⟨_, _, if_neg (by omega), hlen, hdigits, ?_⟩
      rw [hup, if_neg hcarry]
      exact ⟨hval, rfl⟩
  · rw [if_neg hround] at hup ⊢
    refine ⟨_, _, rfl, List.length_take_le _ _, fun d hd => hbelow d (List.mem_of_mem_take hd), ?_⟩
    rw [hup, if_neg (by omega)]
    exact ⟨htake, rfl⟩

end Round

/-- Step 5 of the decimal formats: the seven digits of the rounded coefficient, and its exponent (rule
R200). -/
theorem normalizeDecimal_spec {c : Numeral} (hv : c.valid = true) (h10 : c.radix = 10) (hw : c.whole ≠ [])
    {e : Int} {C : Nat} {q : Int} (h : roundsToSeven c.digitsInt (e - c.fraction.length) C q) :
    C < 10 ^ 7 ∧ normalizeDecimal c e = (toDigits 10 7 C, q) := by
  have hradix : c.radix.val = 10 := congrArg Fin.val h10
  obtain ⟨-, hwhole, hfrac, -⟩ := (Numeral.valid_iff c).1 hv
  have hdigits : trimLeading 0 (c.whole ++ c.fraction) = minDigits 10 c.digitsInt := by
    rw [Numeral.digitsInt, hradix]
    refine trimLeading_eq_minDigits (by omega) (by simp [hw]) fun d hd => ?_
    rw [← hradix]
    exact (List.mem_append.1 hd).elim (hwhole d) (hfrac d)
  have hpad {ds : List Cell} (hlen : ds.length ≤ 7) (hbelow : ∀ d ∈ ds, d.val < 10) (hC : ofDigits 10 ds = C) :
      C < 10 ^ 7 ∧ List.replicate (7 - ds.length) 0 ++ ds = toDigits 10 7 C := by
    subst hC
    exact ⟨(ofDigits_lt hbelow).trans_le (Nat.pow_le_pow_right (by omega) hlen),
      pad_eq_toDigits (by omega) hlen hbelow⟩
  unfold normalizeDecimal
  simp only [hdigits]
  rcases h with ⟨hlt, rfl, rfl⟩ | ⟨k, kept, guard, up, hlow, hhigh, hkept, hguard, hup, hC⟩
  · obtain ⟨hval, -, hbelow, -⟩ := minDigits_spec (r := 10) (by omega) (by omega) c.digitsInt
    have hlen := minDigits_length_le (r := 10) (k := 7) (by omega) (by omega) hlt
    rw [if_neg (by omega)]
    exact ⟨hlt, Prod.ext (hpad hlen hbelow hval).2 rfl⟩
  · obtain ⟨ds, j, hround, hlen, hbelow, hds⟩ := roundCoefficient_spec hlow hhigh hkept hguard hup
    have hD := minDigits_length_of_bounds hlow hhigh
    rw [if_pos (by omega), hround, hD]
    dsimp only
    obtain ⟨hval, hq⟩ : ofDigits 10 ds = C ∧ q = e - c.fraction.length + k + 1 + j := by
      split at hC <;> rename_i hcarry
      · rw [if_pos hcarry] at hds
        omega
      · rw [if_neg hcarry] at hds
        omega
    obtain ⟨hClt, hdigits⟩ := hpad hlen hbelow hval
    exact ⟨hClt, Prod.ext hdigits (by dsimp only; omega)⟩

/-! ### The fields -/

theorem toDigits_seven (C : Nat) : toDigits 10 7 C = [cell (C / 1000000 % 10), cell (C / 100000 % 10),
    cell (C / 10000 % 10), cell (C / 1000 % 10), cell (C / 100 % 10), cell (C / 10 % 10), cell (C % 10)] := by
  simp only [toDigits, List.nil_append, List.cons_append, Nat.div_div_eq_div_mul]

theorem int_rep_two : int (rep true 2) = 3 := rfl

@[simp] theorem rep_length (b : Bool) (len : Nat) : (rep b len).length = len := List.length_replicate

/-- The exponent field of the DPD layout, as a number (rule R202). -/
theorem combineDpd_spec {b : Nat} (hb : b < 192) {d : Cell} (hd : d.val < 10) :
    (combineDpd b d).length = 11 ∧ int (combineDpd b d) =
      if d.val < 8 then b / 64 * 512 + d.val * 64 + b % 64
      else 1536 + b / 64 * 128 + (d.val - 8) * 64 + b % 64 := by
  unfold combineDpd
  dsimp only
  rw [slice_bits b (by omega) (by omega), slice_bits b (by omega) (by omega),
    slice_bits d.val (by omega) (by omega), slice_bits d.val (by omega) (by omega)]
  by_cases h : d.val ≤ 7
  · rw [if_pos h, if_pos (by omega)]
    simp [int_append, int_bits]
    omega
  · rw [if_neg h, if_neg (by omega)]
    simp [int_append, int_bits, int_rep_two]
    omega

/-- The exponent field gives the leading digit and the biased exponent back (rules R202, R236). -/
theorem dpd_of_field {b d E : Nat} (hb : b < 192) (hd : d < 10) (hE : E =
    if d < 8 then b / 64 * 512 + d * 64 + b % 64 else 1536 + b / 64 * 128 + (d - 8) * 64 + b % 64) :
    dpdLead E = d ∧ dpdBiased E = b := by
  unfold dpdLead dpdBiased
  by_cases h : d < 8
  · rw [if_pos h] at hE
    rw [if_pos (by omega), if_pos (by omega)]
    omega
  · rw [if_neg h] at hE
    rw [if_neg (by omega), if_neg (by omega)]
    omega

/-- The fields of the BID layout, as numbers (rule R206). -/
theorem combineBid_spec {b C : Nat} (hb : b < 192) (hC : C < 10 ^ 7) :
    (combineBid b C).1.length = 11 ∧ (combineBid b C).2.length = 20 ∧
      int (combineBid b C).2 = C % 2 ^ 20 ∧ int (combineBid b C).1 =
        if C < 2 ^ 23 then b * 8 + C / 2 ^ 20 else 1536 + b * 2 + C / 2 ^ 20 % 2 := by
  unfold combineBid
  dsimp only
  rw [slice_bits C (by omega) (by omega), slice_bits C (by omega) (by omega),
    slice_bits C (by omega) (by omega)]
  by_cases h : C < 2 ^ 23
  · rw [if_pos h, if_pos h]
    simp [int_append, int_bits]
    omega
  · rw [if_neg h, if_neg h]
    simp [int_append, int_bits, int_rep_two]
    omega

/-- The word of seven digits in the DPD layout: its fields, and that they decode to the digits (rules R202, R203,
R236). -/
theorem ofFields_dpd (sign : Bool) {b : Nat} (hb : b < 192) {d0 d1 d2 d3 d4 d5 d6 : Cell}
    (hd : ∀ d ∈ [d0, d1, d2, d3, d4, d5, d6], d.val < 10) {x : Ieee} (hx : x = Ieee.ofFields .d32dpd sign
      (combineDpd b d0) (decimalToDPD (digitCodes [d1, d2, d3, d4, d5, d6]))) :
    x.format = .d32dpd ∧ x.word.toNat < 2 ^ 32 ∧ x.sign = sign ∧
      x.decimalParts = (ofDigits 10 [d0, d1, d2, d3, d4, d5, d6], (b : Int) - 101) ∧
      x.sigInt = digitsToDeclet d1.val d2.val d3.val * 1024 + digitsToDeclet d4.val d5.val d6.val ∧
      x.expInt = if d0.val < 8 then b / 64 * 512 + d0.val * 64 + b % 64
        else 1536 + b / 64 * 128 + (d0.val - 8) * 64 + b % 64 := by
  subst hx
  obtain ⟨hd0, hdigits⟩ := List.forall_mem_cons.1 hd
  obtain ⟨hd1, hd2, hd3, hd4, hd5, hd6, -⟩ := by simpa only [List.forall_mem_cons] using hdigits
  obtain ⟨hexplen, hexpint⟩ := combineDpd_spec hb hd0
  obtain ⟨hhilen, hhiint, hhi⟩ := declet_spec hd1 hd2 hd3
  obtain ⟨hlolen, hloint, hlo⟩ := declet_spec hd4 hd5 hd6
  rw [decimalToDPD_append]
  generalize decimalToDPD (digitCodes [d1, d2, d3]) = hi at hhilen hhiint hhi
  generalize decimalToDPD (digitCodes [d4, d5, d6]) = lo at hlolen hloint hlo
  obtain ⟨hformat, hwidth, hsign, hexp, hsig⟩ := Ieee.ofFields_spec (f := .d32dpd) (s := sign)
    (m := hi ++ lo) hexplen (by rw [List.length_append, hhilen, hlolen]; rfl)
  refine ⟨hformat, hwidth, hsign, ?_, ?_, (congrArg int hexp).trans hexpint⟩
  · obtain ⟨hlead, hbiased⟩ := dpd_of_field hb hd0 hexpint
    have hE := int_lt (combineDpd b d0)
    have hbits := bits_int (combineDpd b d0)
    have hslicehi : slice (hi ++ lo) 0 9 = hi := List.take_left' hhilen
    have hslicelo : slice (hi ++ lo) 10 19 = lo := by
      rw [slice, List.drop_left' hhilen, List.take_of_length_le (by omega)]
    rw [hexplen] at hE hbits
    rw [Ieee.decimalParts, hformat]
    dsimp only
    rw [hexp, hsig, ← hbits, reconstructDpd_eq hE (hslicehi.symm ▸ hhi) (hslicelo.symm ▸ hlo) hdigits, hlead,
      hbiased, cell_of_val]
  · rw [Ieee.sigInt, hsig, int_append, hhiint, hloint, hlolen]
    rfl

/-- The word of a coefficient in the BID layout: its fields, and that they decode to the coefficient (rules R206,
R237). -/
theorem ofFields_bid (sign : Bool) {b C : Nat} (hb : b < 192) (hC : C < 10 ^ 7) {x : Ieee}
    (hx : x = Ieee.ofFields .d32bid sign (combineBid b C).1 (combineBid b C).2) :
    x.format = .d32bid ∧ x.word.toNat < 2 ^ 32 ∧ x.sign = sign ∧ x.decimalParts = (C, (b : Int) - 101) ∧
      x.sigInt = C % 2 ^ 20 ∧
      x.expInt = if C < 2 ^ 23 then b * 8 + C / 2 ^ 20 else 1536 + b * 2 + C / 2 ^ 20 % 2 := by
  subst hx
  obtain ⟨hexplen, hsiglen, hsigint, hexpint⟩ := combineBid_spec hb hC
  obtain ⟨hformat, hwidth, hsign, hexp, hsig⟩ := Ieee.ofFields_spec (f := .d32bid) (s := sign) hexplen hsiglen
  have hE := (congrArg int hexp).trans hexpint
  have hM := (congrArg int hsig).trans hsigint
  refine ⟨hformat, hwidth, hsign, ?_, hM, hE⟩
  rw [decimalParts_bid hformat, show Ieee.expInt _ = _ from hE, show Ieee.sigInt _ = _ from hM]
  by_cases h : C < 2 ^ 23
  · rw [if_pos h, if_pos (by omega)]
    exact Prod.ext (by dsimp only; omega) (by dsimp only; omega)
  · rw [if_neg h, if_neg (by omega)]
    exact Prod.ext (by dsimp only; omega) (by dsimp only; omega)

/-! ### Packing -/

theorem biasedExponent_of_decimal {f : Format} (hf : f = .d32dpd ∨ f = .d32bid) {q : Int} {b : Nat}
    (hb : (b : Int) = q + 101) (hlt : b < 192) : biasedExponent f q = .ok b := by
  have hrange : f.emin ≤ q ∧ q ≤ f.emax := by
    rcases hf with rfl | rfl <;> simp only [Format.emin, Format.emax] <;> omega
  have hbias : q + f.bias = b := by rcases hf with rfl | rfl <;> exact hb.symm
  rw [biasedExponent_of_range hrange, hbias, Int.toNat_natCast]

section Pack

variable {c : Numeral} (sign : Bool) {t : Text} {e : Int} (ht : parseExponent t = .ok e) {C : Nat} {q : Int}
  (hC : C < 10 ^ 7) (hnorm : normalizeDecimal c e = (toDigits 10 7 C, q))
include ht hnorm

theorem packOf_of_outside {f : Format} (hf : f = .d32dpd ∨ f = .d32bid) (hq : q < -101 ∨ 90 < q) :
    packOf f sign c t = .error .exponentOutOfBounds := by
  have hbiased : biasedExponent f q = .error .exponentOutOfBounds :=
    biasedExponent_of_outside (by rcases hf with rfl | rfl <;> exact hq)
  rcases hf with rfl | rfl
  · rw [packOf, packDpd, ht, except_ok_bind, hnorm]
    exact bind_of_error hbiased _
  · rw [packOf, packBid, ht, except_ok_bind, hnorm]
    exact bind_of_error hbiased _

variable {b : Nat} (hb : (b : Int) = q + 101) (hlt : b < 192)
include hb hlt

theorem packDpd_eq : packDpd sign c t = .ok (Ieee.ofFields .d32dpd sign
    (combineDpd b ((toDigits 10 7 C).headD 0)) (decimalToDPD (digitCodes ((toDigits 10 7 C).drop 1)))) := by
  rw [packDpd, ht, except_ok_bind, hnorm]
  exact congrArg (· >>= _) (biasedExponent_of_decimal (.inl rfl) hb hlt)

include hC

theorem packBid_eq : packBid sign c t =
    .ok (Ieee.ofFields .d32bid sign (combineBid b C).1 (combineBid b C).2) := by
  have hint := ofDigits_toDigits_of_lt (r := 10) (by omega) (by omega) hC
  have hbiased := biasedExponent_of_decimal (.inr rfl) hb hlt
  rw [packBid, ht, except_ok_bind, hnorm]
  dsimp only
  rw [hbiased, except_ok_bind, hint]

/-- Steps 4 to 8 of Decimal32 DPD (rules R196, R202, R203). -/
theorem packDpd_fields : ∃ x : Ieee, packDpd sign c t = .ok x ∧ x.format = .d32dpd ∧ x.word.toNat < 2 ^ 32 ∧
    x.sign = sign ∧ x.decimalParts = (C, q) ∧
    x.sigInt = digitsToDeclet (C / 100000 % 10) (C / 10000 % 10) (C / 1000 % 10) * 1024 +
      digitsToDeclet (C / 100 % 10) (C / 10 % 10) (C % 10) ∧
    x.expInt = if C / 1000000 < 8 then b / 64 * 512 + C / 1000000 * 64 + b % 64
      else 1536 + b / 64 * 128 + (C / 1000000 - 8) * 64 + b % 64 := by
  have hdigit (y : Nat) : (cell (y % 10)).val = y % 10 := cell_val (by omega)
  have hlead : (cell (C / 1000000 % 10)).val = C / 1000000 := by rw [hdigit]; omega
  have hbelow := toDigits_below (r := 10) (by omega) (by omega) (k := 7) (y := C)
  have hint := ofDigits_toDigits_of_lt (r := 10) (by omega) (by omega) hC
  have hpack := packDpd_eq sign ht hnorm hb hlt
  rw [toDigits_seven] at hbelow hint hpack
  obtain ⟨hformat, hwidth, hsign, hparts, hsig, hexp⟩ := ofFields_dpd sign hlt hbelow rfl
  rw [hint, show (b : Int) - 101 = q by omega] at hparts
  simp only [hdigit] at hsig
  rw [hlead] at hexp
  exact ⟨_, hpack, hformat, hwidth, hsign, hparts, hsig, hexp⟩

/-- Steps 4 to 8 of Decimal32 BID (rules R196, R206). -/
theorem packBid_fields : ∃ x : Ieee, packBid sign c t = .ok x ∧ x.format = .d32bid ∧ x.word.toNat < 2 ^ 32 ∧
    x.sign = sign ∧ x.decimalParts = (C, q) ∧ x.sigInt = C % 2 ^ 20 ∧
    x.expInt = if C < 2 ^ 23 then b * 8 + C / 2 ^ 20 else 1536 + b * 2 + C / 2 ^ 20 % 2 := by
  obtain ⟨hformat, hwidth, hsign, hparts, hsig, hexp⟩ := ofFields_bid sign hlt hC rfl
  rw [show (b : Int) - 101 = q by omega] at hparts
  exact ⟨_, packBid_eq sign ht hC hnorm hb hlt, hformat, hwidth, hsign, hparts, hsig, hexp⟩

end Pack

/-- Settles O49: the rounded coefficient in the fields of the two layouts, which decode to it. -/
theorem encDecimalRoundsToSevenDigits : Obligations.EncDecimalRoundsToSevenDigits := by
  intro s log f rd rs1 tx n m sign ds C q hf hn ht hne hds hk h10 hm hlt hround
  obtain ⟨hv, rfl⟩ := Numeral.std_eq_ok.1 hm
  have hsmall : |n.val| < (f.radix : ℚ) ^ f.digits := by rcases hf with rfl | rfl <;> exact hlt
  have hencoded : encodedNumeral f n = n.stdForm := by rcases hf with rfl | rfl <;> rfl
  have hconv : encodeRadix s.caps f n.stdForm = .ok (encodedNumeral f n) := by
    rcases hf with rfl | rfl <;> rfl
  have hvalue := encodeValue_of_valid hk h10 hv (exponentText sign ds) (pack := packOf f) hconv
  rw [if_neg hsmall.not_ge, hencoded] at hvalue
  have hparse := parseExponent_exponentText sign hne hds
  obtain ⟨hC, hnorm⟩ := normalizeDecimal_spec (Numeral.stdForm_valid hv) h10
    (List.length_pos_iff.1 n.one_le_stdForm_whole_length) hround
  have hexec := exec_encOf_of_held hn ht f log rd
  rw [hvalue] at hexec
  refine ⟨fun hq => hexec.trans (finishF_of_error (packOf_of_outside _ hparse hnorm hf hq) s),
    fun hmin hmax => ?_⟩
  obtain ⟨b, hb⟩ := Int.eq_ofNat_of_zero_le (show 0 ≤ q + 101 by omega)
  have hlt : b < 192 := by omega
  rcases hf with rfl | rfl
  · obtain ⟨x, hx, hformat, hwidth, hsign, hparts, hsig, hexp⟩ :=
      packDpd_fields (decide (n.sm = .minus)) hparse hC hnorm hb.symm hlt
    refine ⟨x, hexec.trans (finishF_of_ok hx s), hformat, hwidth, hsign, ?_, hparts, b, hb.symm, nofun,
      fun _ => ⟨hsig, hexp⟩⟩
    split at hexp <;> omega
  · obtain ⟨x, hx, hformat, hwidth, hsign, hparts, hsig, hexp⟩ :=
      packBid_fields (decide (n.sm = .minus)) hparse hC hnorm hb.symm hlt
    refine ⟨x, hexec.trans (finishF_of_ok hx s), hformat, hwidth, hsign, ?_, hparts, b, hb.symm,
      fun _ => ⟨hsig, hexp⟩, nofun⟩
    split at hexp <;> omega

end Sys2Proof.Machine
end

section
/-! PROOFS. The special values that `DEC.f` tells apart, by the numbers of the exponent and significand
fields, and the format check of `DEC.f` and of Binary32 arithmetic (45_ieee_decode.md rules R230 to R232,
R239; 46_ieee_arith.md rule R260). -/

namespace Sys2Proof.Machine

/-! ### The format of an operand -/

theorem decodeOperand_of_other_format {f : Format} {x : Ieee} (h : x.format ≠ f) :
    decodeOperand f (some x) = .error .invalidEncoding := bind_of_error (failIf_pos h) _

theorem floatOperands_of_other_format {xa xb : Ieee} (h : xa.format ≠ .b32 ∨ xb.format ≠ .b32) :
    floatOperands (some xa) (some xb) = .error .invalidOperand := bind_of_error (failIf_pos h) _

/-- `DEC.f` begins with the check of its operand (rule R230). -/
theorem exec_decOf_checks_operand (f : Format) (log : Bool) (rd : Fin 8) (fs : Fin 4) (s : State) :
    ∃ k, exec (decOf f log rd fs) s = finishDecoded rd (decodeOperand f (s.readF fs) >>= k) s := by
  cases f <;> exact ⟨_, rfl⟩

theorem floatCommand_of_other_format {s : State} {fa fb : Fin 4} {xa xb : Ieee} (ha : s.readF fa = some xa)
    (hb : s.readF fb = some xb) (h : xa.format ≠ .b32 ∨ xb.format ≠ .b32) (op : Word → Word → Word)
    (rd : Fin 4) : floatCommand op rd fa fb s = .next (raiseFail (.ieee rd) .invalidOperand s) := by
  rw [floatCommand, ha, hb]
  exact finishF_of_error (bind_of_error (floatOperands_of_other_format h) _) s

/-- Settles O56: the format check of each command comes right after its operands are found to hold values. -/
theorem anotherIeeeFormatFails : Obligations.AnotherIeeeFormatFails := by
  refine ⟨fun s log f rd fs x hread hx => ?_, fun s log rd fa fb xa xb i ha hb h hi => ?_⟩
  · obtain ⟨k, hexec⟩ := exec_decOf_checks_operand f log rd fs s
    rw [hexec, hread]
    exact finishDecoded_of_error (bind_of_error (decodeOperand_of_other_format hx) k) s
  · rcases hi with rfl | rfl | rfl | rfl
    · exact floatCommand_of_other_format ha hb h addWords rd
    · exact floatCommand_of_other_format ha hb h subWords rd
    · exact floatCommand_of_other_format ha hb h mulWords rd
    · exact floatCommand_of_other_format ha hb h divWords rd

/-! ### The bits of a field by its number -/

theorem everyBit_iff (s : Bits) : everyBit s = true ↔ int s + 1 = 2 ^ s.length :=
  ⟨int_of_everyBit, fun h => not_not.1 fun hne => (int_succ_lt_of_not_everyBit hne).ne h⟩

theorem headD_iff (s : Bits) : s.headD false = true ↔ 2 ^ (s.length - 1) ≤ int s := by
  cases s with
  | nil => decide
  | cons b s =>
    have hlt := int_lt s
    rw [int_cons, List.headD_cons, List.length_cons, Nat.add_sub_cancel]
    cases b <;> simp [hlt]

/-- A first slice of the bits of a number is a given string when the quotient is its number. -/
theorem slice_zero_eq_iff {v w j : Nat} (hv : v < 2 ^ w) (hj : j < w) {t : Bits} (ht : t.length = j + 1) :
    slice (bits v w) 0 j = t ↔ v / 2 ^ (w - 1 - j) = int t := by
  have hlt : v / 2 ^ (w - 1 - j) < 2 ^ (j + 1) := by
    rw [Nat.div_lt_iff_lt_mul (Nat.two_pow_pos _), ← pow_add]
    rwa [show j + 1 + (w - 1 - j) = w by omega]
  have hint : int (slice (bits v w) 0 j) = v / 2 ^ (w - 1 - j) := by
    rw [int_slice_bits v (Nat.zero_le j) hj, Nat.sub_zero, Nat.mod_eq_of_lt hlt]
  refine ⟨fun h => hint ▸ congrArg int h, fun h => ?_⟩
  rw [slice_bits v (Nat.zero_le j) hj, h, Nat.sub_zero, ← ht, bits_int]

/-! ### The special values by the numbers of the fields -/

section Special

variable (x : Ieee)

theorem Ieee.specialBinary_eq : specialBinary x.sign x.exponent x.significand =
    if x.expInt = 0 ∧ x.sigInt = 0 then some (if x.sign then .negZero else .posZero)
    else if x.expInt + 1 = 2 ^ x.format.expWidth then
      if x.sigInt = 0 then some (if x.sign then .negInf else .posInf)
      else if 2 ^ (x.format.sigWidth - 1) ≤ x.sigInt then some .qnan else some .snan
    else none := by
  have hone : everyBit x.exponent = true ↔ x.expInt + 1 = 2 ^ x.format.expWidth :=
    exponent_length x ▸ everyBit_iff x.exponent
  have hquiet : x.significand.headD false = true ↔ 2 ^ (x.format.sigWidth - 1) ≤ x.sigInt :=
    significand_length x ▸ headD_iff x.significand
  exact if_congr (and_congr (noBit_iff _) (noBit_iff _)) rfl
    (if_congr hone (if_congr (noBit_iff _) rfl (if_congr hquiet rfl rfl)) rfl)

theorem Ieee.specialDecimal_eq (hwidth : x.format.expWidth = 11) :
    specialDecimal x.sign x.exponent x.significand =
      if x.expInt = 0 ∧ x.sigInt = 0 then .ok (some (if x.sign then .negZero else .posZero))
      else if x.expInt / 2 ^ 6 = 0b11110 then .ok (some (if x.sign then .negInf else .posInf))
      else if x.expInt / 2 ^ 4 = 0b1111100 then .ok (some .snan)
      else if x.expInt / 2 ^ 4 = 0b1111101 then .ok (some .qnan)
      else if x.expInt / 2 ^ 5 = 0b111111 then .error .refused
      else .ok none := by
  have hbits := exponent_eq_bits hwidth
  have hlt := expInt_lt hwidth
  have hinf : slice x.exponent 0 4 = [true, true, true, true, false] ↔ x.expInt / 2 ^ 6 = 0b11110 :=
    hbits ▸ slice_zero_eq_iff hlt (by omega) rfl
  have hsnan : slice x.exponent 0 6 = [true, true, true, true, true, false, false] ↔
      x.expInt / 2 ^ 4 = 0b1111100 := hbits ▸ slice_zero_eq_iff hlt (by omega) rfl
  have hqnan : slice x.exponent 0 6 = [true, true, true, true, true, false, true] ↔
      x.expInt / 2 ^ 4 = 0b1111101 := hbits ▸ slice_zero_eq_iff hlt (by omega) rfl
  have hrefused : slice x.exponent 0 5 = [true, true, true, true, true, true] ↔
      x.expInt / 2 ^ 5 = 0b111111 := hbits ▸ slice_zero_eq_iff hlt (by omega) rfl
  exact if_congr (and_congr (noBit_iff _) (noBit_iff _)) rfl (if_congr hinf rfl (if_congr hsnan rfl
    (if_congr hqnan rfl (if_congr hrefused rfl rfl))))

end Special

/-! ### `DEC.f` of a special value -/

theorem finishDecoded_of_special {rd : Fin 8} {r : Except Failure Decoded} {tag : DecTag}
    (h : r = .ok (.special tag)) (s : State) : finishDecoded rd r s =
      .next (succeed false ((s.setN rd none).setP (some tag) none none)) := by
  rw [h]; rfl

section Exec

variable {s : State} {f : Format} {fs : Fin 4} {x : Ieee} (hread : s.readF fs = some x) (hx : x.format = f)
include hread hx

theorem exec_decOf_of_specialBinary (hf : f = .b32 ∨ f = .b64 ∨ f = .h32) {tag : DecTag}
    (htag : specialBinary x.sign x.exponent x.significand = some tag) (log : Bool) (rd : Fin 8) :
    exec (decOf f log rd fs) s = .next (succeed false ((s.setN rd none).setP (some tag) none none)) := by
  have hbinary : decodeBinary s.caps f (s.readF fs) = .ok (.special tag) := by
    rw [hread, decodeBinary, decodeOperand_of_format hx, except_ok_bind, htag]
  rcases hf with rfl | rfl | rfl
  · exact finishDecoded_of_special hbinary s
  · exact finishDecoded_of_special hbinary s
  · refine finishDecoded_of_special ?_ s
    rw [hread, decodeHex, decodeOperand_of_format hx, except_ok_bind, htag]

theorem exec_decOf_of_specialDecimal (hf : f = .d32dpd ∨ f = .d32bid) {tag : DecTag}
    (htag : specialDecimal x.sign x.exponent x.significand = .ok (some tag)) (log : Bool) (rd : Fin 8) :
    exec (decOf f log rd fs) s = .next (succeed false ((s.setN rd none).setP (some tag) none none)) := by
  have hdecode (reconstruct) : decodeDecimal f reconstruct (s.readF fs) = .ok (.special tag) := by
    rw [hread, decodeDecimal, decodeOperand_of_format hx, except_ok_bind, htag, except_ok_bind]
  rcases hf with rfl | rfl
  · exact finishDecoded_of_special (hdecode reconstructDpd) s
  · exact finishDecoded_of_special (hdecode reconstructBid) s

theorem exec_decOf_of_refused (hf : f = .d32dpd ∨ f = .d32bid)
    (h : specialDecimal x.sign x.exponent x.significand = .error .refused) (log : Bool) (rd : Fin 8) :
    exec (decOf f log rd fs) s = .next (raiseFail (.decoded rd) .refused s) := by
  have hdecode (reconstruct) : decodeDecimal f reconstruct (s.readF fs) = .error .refused := by
    rw [hread, decodeDecimal, decodeOperand_of_format hx, except_ok_bind]
    exact bind_of_error h _
  rcases hf with rfl | rfl
  · exact finishDecoded_of_error (hdecode reconstructDpd) s
  · exact finishDecoded_of_error (hdecode reconstructBid) s

end Exec

/-- Settles O51: with an all-one exponent field, which is not zero, the significand alone decides. -/
theorem decClassifiesBinaryAndHexSpecials : Obligations.DecClassifiesBinaryAndHexSpecials := by
  intro s log f rd fs x hf hread hx delivers
  have hdelivers {tag : DecTag} (h : specialBinary x.sign x.exponent x.significand = some tag) :
      delivers tag := exec_decOf_of_specialBinary hread hx hf h log rd
  have hspecial := x.specialBinary_eq
  rw [hx] at hspecial
  refine ⟨fun he hm => hdelivers (hspecial.trans (if_pos ⟨he, hm⟩)), fun hone => ?_⟩
  have hwidth : 1 < 2 ^ f.expWidth := by cases f <;> decide
  have he : x.expInt ≠ 0 := by omega
  rw [if_neg fun h => he h.1, if_pos hone] at hspecial
  refine ⟨fun hm => hdelivers (hspecial.trans (if_pos hm)), fun hpos hlt => hdelivers ?_,
    fun hge => hdelivers ?_⟩
  · rw [hspecial, if_neg hpos.ne', if_neg hlt.not_ge]
  · have hpos : 0 < x.sigInt := (Nat.two_pow_pos _).trans_le hge
    rw [hspecial, if_neg hpos.ne', if_pos hge]

/-- Settles O52: the prefixes exclude each other, and none of them begins a zero exponent field. -/
theorem decClassifiesDecimalSpecials : Obligations.DecClassifiesDecimalSpecials := by
  intro s log f rd fs x hf hread hx delivers
  have hdelivers {tag : DecTag} (h : specialDecimal x.sign x.exponent x.significand = .ok (some tag)) :
      delivers tag := exec_decOf_of_specialDecimal hread hx hf h log rd
  have hspecial := x.specialDecimal_eq (by rw [hx]; rcases hf with rfl | rfl <;> rfl)
  refine ⟨fun he hm => hdelivers (hspecial.trans (if_pos ⟨he, hm⟩)), fun hinf => hdelivers ?_,
    fun hsnan => hdelivers ?_, fun hqnan => hdelivers ?_,
    fun hrefused => exec_decOf_of_refused hread hx hf ?_ log rd⟩
  · rw [hspecial, if_neg (by omega), if_pos hinf]
  · rw [hspecial, if_neg (by omega), if_neg (by omega), if_pos hsnan]
  · rw [hspecial, if_neg (by omega), if_neg (by omega), if_neg (by omega), if_pos hqnan]
  · rw [hspecial, if_neg (by omega), if_neg (by omega), if_neg (by omega), if_neg (by omega), if_pos hrefused]

end Sys2Proof.Machine
end

section
/-! PROOFS. The words of Binary32 arithmetic and the special-value table (46_ieee_arith.md rules R260, R261,
R263, R266, R269). -/

namespace Sys2Proof.Machine

/-! ### The command -/

theorem Ieee.ofWord32_eq (w : Word) : Ieee.ofWord32 w = ⟨.b32, w.zeroExtend 64⟩ := by
  have hword : BitVec.ofNat 64 ((w.zeroExtend 64).toNat % 2 ^ 32) = w.zeroExtend 64 := by
    refine BitVec.eq_of_toNat_eq ?_
    have hlt := w.isLt
    simp only [BitVec.truncate_eq_setWidth, BitVec.toNat_ofNat, BitVec.toNat_setWidth]
    omega
  exact congrArg (Ieee.mk .b32) hword

/-- With two BINARY32 sources a command delivers the word of its operation (rule R260). -/
theorem floatCommand_of_b32 {s : State} {fa fb : Fin 4} {xa xb : Ieee} {a b : Word}
    (ha : s.readF fa = some xa) (hb : s.readF fb = some xb) (hxa : xa.format = .b32) (hxb : xb.format = .b32)
    (hwa : a = xa.word.extractLsb' 0 32) (hwb : b = xb.word.extractLsb' 0 32) (op : Word → Word → Word)
    (rd : Fin 4) : floatCommand op rd fa fb s =
      .next (succeed false (s.setF rd (some ⟨.b32, (op a b).zeroExtend 64⟩))) := by
  have hoperands : floatOperands (s.readF fa) (s.readF fb) = .ok (a, b) := by
    rw [ha, hb, floatOperands, held_some, except_ok_bind, held_some, except_ok_bind,
      failIf_neg (by simp [hxa, hxb]), hwa, hwb]
    rfl
  refine finishF_of_ok ?_ s
  rw [hoperands, except_ok_bind, Ieee.ofWord32_eq]

/-! ### Words by their fields -/

theorem signedWord_inf (s : Bool) : signedWord s 0x7F800000#31 = infinity s := by cases s <;> rfl

theorem signedWord_zero (s : Bool) : signedWord s 0#31 = signedZero s := by cases s <;> rfl

theorem classOf_infinity (s : Bool) : classOf (infinity s) = .inf := by cases s <;> decide

theorem classOf_signedZero (s : Bool) : classOf (signedZero s) = .zero := by cases s <;> decide

theorem classOf_eq_nan_iff (x : Word) : classOf x = .nan ↔ expOf x = 255 ∧ sigOf x ≠ 0 := by
  unfold classOf
  split_ifs <;> simp [*]

theorem expOf_eq_255_iff (x : Word) : expOf x = 255 ↔ classOf x = .nan ∨ classOf x = .inf := by
  unfold classOf
  split_ifs <;> simp [*]

/-! ### The inverted sign (rule R266) -/

@[simp] theorem signOf_negateWord (x : Word) : signOf (negateWord x) = !signOf x := by
  simp [signOf, negateWord]

@[simp] theorem expOf_negateWord (x : Word) : expOf (negateWord x) = expOf x := by
  rw [expOf, negateWord, BitVec.extractLsb'_xor, show (0x80000000#32).extractLsb' 23 8 = 0#8 by rfl,
    BitVec.xor_zero, expOf]

@[simp] theorem sigOf_negateWord (x : Word) : sigOf (negateWord x) = sigOf x := by
  rw [sigOf, negateWord, BitVec.extractLsb'_xor, show (0x80000000#32).extractLsb' 0 23 = 0#23 by rfl,
    BitVec.xor_zero, sigOf]

@[simp] theorem classOf_negateWord (x : Word) : classOf (negateWord x) = classOf x := by
  simp only [classOf, expOf_negateWord, sigOf_negateWord]

@[simp] theorem unpack_negateWord (x : Word) : unpack (negateWord x) = unpack x := by
  simp only [unpack, expOf_negateWord, sigOf_negateWord]

/-- A word is its sign and its low 31 bits. -/
theorem signedWord_signOf (x : Word) : signedWord (signOf x) (x.extractLsb' 0 31) = x := by
  refine BitVec.eq_of_getLsbD_eq fun i hi => ?_
  rw [signedWord, BitVec.getLsbD_append, BitVec.getLsbD_extractLsb']
  split
  · next h => simp [h]
  · next h => obtain rfl : i = 31 := by omega
              simp [signOf]

theorem signedWord_not_signOf (x : Word) : signedWord (!signOf x) (x.extractLsb' 0 31) = negateWord x := by
  have hlow : (negateWord x).extractLsb' 0 31 = x.extractLsb' 0 31 := by
    rw [negateWord, BitVec.extractLsb'_xor, show (0x80000000#32).extractLsb' 0 31 = 0#31 by rfl,
      BitVec.xor_zero]
  rw [← signOf_negateWord, ← hlow, signedWord_signOf]

/-! ### The special-value table (rule R269) -/

section Table

variable {a b w : Word}

theorem addWords_of_special (h : specialAdd a b = some w) : addWords a b = w := by
  rw [addWords, h, Option.getD_some]

theorem mulWords_of_special (h : specialMul a b = some w) : mulWords a b = w := by
  rw [mulWords, h, Option.getD_some]

theorem divWords_of_special (h : specialDiv a b = some w) : divWords a b = w := by
  rw [divWords, h, Option.getD_some]

theorem addWords_of_nan (h : classOf a = .nan ∨ classOf b = .nan) : addWords a b = qnan32 := by
  refine addWords_of_special ?_
  rcases h with h | h
  · simp only [specialAdd, h]
  · cases ha : classOf a <;> simp only [specialAdd, ha, h]

theorem mulWords_of_nan (h : classOf a = .nan ∨ classOf b = .nan) : mulWords a b = qnan32 := by
  refine mulWords_of_special ?_
  rcases h with h | h
  · simp only [specialMul, h]
  · cases ha : classOf a <;> simp only [specialMul, ha, h]

theorem divWords_of_nan (h : classOf a = .nan ∨ classOf b = .nan) : divWords a b = qnan32 := by
  refine divWords_of_special ?_
  rcases h with h | h
  · simp only [specialDiv, h]
  · cases ha : classOf a <;> simp only [specialDiv, ha, h]

theorem addWords_of_fin (ha : classOf a = .fin) (hb : classOf b = .fin) : addWords a b = addFinite a b := by
  have hrow : specialAdd a b = none := by simp only [specialAdd, ha, hb]
  rw [addWords, hrow, Option.getD_none]

theorem mulWords_of_fin (ha : classOf a = .fin) (hb : classOf b = .fin) : mulWords a b = mulFinite a b := by
  have hrow : specialMul a b = none := by simp only [specialMul, ha, hb]
  rw [mulWords, hrow, Option.getD_none]

theorem divWords_of_fin (ha : classOf a = .fin) (hb : classOf b = .fin) : divWords a b = divFinite a b := by
  have hrow : specialDiv a b = none := by simp only [specialDiv, ha, hb]
  rw [divWords, hrow, Option.getD_none]

end Table

end Sys2Proof.Machine
end

section
/-! PROOFS. `finish` (46_ieee_arith.md rule R264): the word of a magnitude brought to the BINARY32 grid, by
truncation or half up on the guard bit. -/

namespace Sys2Proof.Machine

/-! ### Rounding to an integer -/

/-- The integer that `finish` keeps of a magnitude in units of the grid: half up when it rounds. -/
def gridRound : Bool → ℚ → Int
  | false, x => ⌊x⌋
  | true, x => ⌊x + 1 / 2⌋

theorem le_gridRound (round : Bool) {n : Int} {x : ℚ} (h : n ≤ x) : n ≤ gridRound round x := by
  cases round
  · exact Int.le_floor.2 h
  · exact Int.le_floor.2 (by linarith)

theorem gridRound_le (round : Bool) {n : Int} {x : ℚ} (h : x < n) : gridRound round x ≤ n := by
  cases round
  · exact (Int.floor_lt.2 h).le
  · exact Int.lt_add_one_iff.1 (Int.floor_lt.2 (by push_cast; linarith))

@[simp] theorem gridRound_natCast (round : Bool) (n : Nat) : gridRound round n = n := by
  cases round
  · exact Int.floor_natCast n
  · refine Int.floor_eq_iff.2 ⟨?_, ?_⟩ <;> push_cast <;> linarith

section Units

variable (round : Bool) {v : ℚ} {e g : Int} {k : Nat}

/-- A value from `2^e` on has at least `2^(e-g)` units of `2^g`. -/
theorem le_gridRound_of_pow_le (hk : g + k ≤ e) (hv : (2 : ℚ) ^ e ≤ v) :
    2 ^ k ≤ gridRound round (v / 2 ^ g) := by
  refine le_gridRound round ?_
  rw [le_div_iff₀ (zpow_pos two_pos g), Int.cast_pow, Int.cast_ofNat, ← zpow_natCast,
    ← zpow_add₀ two_ne_zero]
  exact (zpow_le_zpow_right₀ one_le_two (by omega)).trans hv

theorem gridRound_le_of_lt_pow (hk : e < g + k) (hv : v < (2 : ℚ) ^ (e + 1)) :
    gridRound round (v / 2 ^ g) ≤ 2 ^ k := by
  refine gridRound_le round ?_
  rw [div_lt_iff₀ (zpow_pos two_pos g), Int.cast_pow, Int.cast_ofNat, ← zpow_natCast,
    ← zpow_add₀ two_ne_zero]
  exact hv.trans_le (zpow_le_zpow_right₀ one_le_two (by omega))

end Units

theorem pow_128_le_of_overflow {e n : Int} (he : 127 < e) (hn : 2 ^ 23 ≤ n) :
    (2 : ℚ) ^ (128 : Int) ≤ n * 2 ^ (e - 23) := by
  calc (2 : ℚ) ^ (128 : Int) ≤ 2 ^ (23 + (e - 23)) := zpow_le_zpow_right₀ one_le_two (by omega)
    _ = 2 ^ (23 : Int) * 2 ^ (e - 23) := zpow_add₀ two_ne_zero _ _
    _ ≤ n * 2 ^ (e - 23) := mul_le_mul_of_nonneg_right (by exact_mod_cast hn) (zpow_pos two_pos _).le

/-! ### The kept bits and the guard bit -/

/-- The magnitude `mv` without its last `sh` bits, one more when the guard bit rounds it up (rule R264). -/
def cutMag (round : Bool) (mv : Nat) (sh : Int) : Nat :=
  roundUp round (if sh ≤ 0 then false else bitAt mv (sh.toNat - 1))
    (if sh ≤ 0 then mv * 2 ^ (-sh).toNat else mv / 2 ^ sh.toNat)

theorem cutMag_neg (round : Bool) (mv k : Nat) : cutMag round mv (-k) = mv * 2 ^ k := by
  rw [cutMag, if_pos (by omega), if_pos (by omega), neg_neg, Int.toNat_natCast, roundUp, Bool.and_false,
    if_neg Bool.false_ne_true]

theorem cutMag_false_succ (mv k : Nat) : cutMag false mv (k + 1 : Nat) = mv / 2 ^ (k + 1) := by
  rw [cutMag, if_neg (by omega), if_neg (by omega), Int.toNat_natCast, roundUp, Bool.false_and,
    if_neg Bool.false_ne_true]

/-- Rounding up on the guard bit is adding half a unit. -/
theorem cutMag_true_succ (mv k : Nat) : cutMag true mv (k + 1 : Nat) = (mv / 2 ^ k + 1) / 2 := by
  rw [cutMag, if_neg (by omega), if_neg (by omega), Int.toNat_natCast, roundUp, Bool.true_and,
    Nat.add_sub_cancel, bitAt, pow_succ, ← Nat.div_div_eq_div_mul]
  simp only [decide_eq_true_eq]
  split_ifs <;> omega

/-- Dropping bits of the integer part rounds the value itself: no bit below the guard bit counts. -/
theorem cutMag_succ_eq_gridRound (round : Bool) {y : ℚ} (h0 : 0 ≤ y) (k : Nat) :
    (cutMag round ⌊y⌋₊ (k + 1 : Nat) : Int) = gridRound round (y / 2 ^ (k + 1)) := by
  have hfloor (j : Nat) : ⌊y / 2 ^ j⌋₊ = ⌊y⌋₊ / 2 ^ j := by
    have h := Nat.floor_div_natCast y (2 ^ j)
    rwa [Nat.cast_pow, Nat.cast_ofNat] at h
  cases round with
  | false =>
    rw [cutMag_false_succ, gridRound, ← hfloor, Int.natCast_floor_eq_floor (by positivity)]
  | true =>
    have hhalf : y / 2 ^ (k + 1) + 1 / 2 = (y / 2 ^ k + 1) / (2 : Nat) := by
      rw [pow_succ]; push_cast; field_simp
    rw [cutMag_true_succ, gridRound, hhalf, ← Int.natCast_floor_eq_floor (by positivity),
      Nat.floor_div_natCast, Nat.floor_add_one (by positivity), hfloor]

/-- `y` may exceed its integer part only where a bit is dropped. -/
theorem cutMag_eq_gridRound (round : Bool) {y : ℚ} {mv : Nat} (h0 : 0 ≤ y) (hy : ⌊y⌋₊ = mv) {sh : Int}
    (hexact : y = mv ∨ 0 < sh) : (cutMag round mv sh : Int) = gridRound round (y / 2 ^ sh) := by
  rcases le_or_gt sh 0 with hsh | hsh
  · obtain ⟨k, rfl⟩ : ∃ k : Nat, sh = -k := ⟨(-sh).toNat, by omega⟩
    have hval : y / 2 ^ (-k : Int) = (mv * 2 ^ k : Nat) := by
      rw [hexact.resolve_right hsh.not_gt, zpow_neg, div_inv_eq_mul, zpow_natCast]
      push_cast
      rfl
    rw [cutMag_neg, hval, gridRound_natCast]
  · obtain ⟨k, rfl⟩ : ∃ k : Nat, sh = (k + 1 : Nat) := ⟨sh.toNat - 1, by omega⟩
    rw [← hy, cutMag_succ_eq_gridRound round h0, zpow_natCast]

/-! ### The two results of `finish` -/

theorem finishNormal_eq (s : Bool) (mv : Nat) (e : Int) (round : Bool) : finishNormal s mv e round =
    if cutMag round mv (mv.log2 - 23) = 2 ^ 24 then
      if 127 < e + 1 then wordOf s 255 0 else wordOf s (e + 1 + 127).toNat 0
    else wordOf s (e + 127).toNat (cutMag round mv (mv.log2 - 23) - 2 ^ 23) := by
  have hcut : cutMag round mv (mv.log2 - 23) =
      roundUp round (if mv.log2 + 1 ≤ 24 then false else bitAt mv (mv.log2 + 1 - 25))
        (if mv.log2 + 1 ≤ 24 then mv * 2 ^ (24 - (mv.log2 + 1)) else mv / 2 ^ (mv.log2 + 1 - 24)) := by
    by_cases hlen : mv.log2 + 1 ≤ 24
    · rw [cutMag, if_pos (by omega), if_pos (by omega), if_pos hlen, if_pos hlen,
        show (-((mv.log2 : Int) - 23)).toNat = 24 - (mv.log2 + 1) by omega]
    · rw [cutMag, if_neg (by omega), if_neg (by omega), if_neg hlen, if_neg hlen,
        show ((mv.log2 : Int) - 23).toNat = mv.log2 + 1 - 24 by omega, Nat.sub_sub]
  rw [hcut]
  rfl

theorem finishSubnormal_eq (s : Bool) (mv : Nat) (xv : Int) (round : Bool) :
    finishSubnormal s mv xv round = if cutMag round mv (-149 - xv) = 2 ^ 23 then wordOf s 1 0
      else wordOf s 0 (cutMag round mv (-149 - xv)) := by
  rw [show -149 - xv = -(xv + 149) by omega]
  rfl

/-! ### The magnitude of a word -/

theorem abs_signedMag (s : Bool) (m : Nat) : |signedMag s m| = m := by
  cases s <;> simp [signedMag]

theorem abs_wordValue (x : Word) : |wordValue x| = (unpack x).1 * (2 : ℚ) ^ (unpack x).2 := by
  rw [wordValue, abs_mul, ← Int.cast_abs, abs_signedMag, Int.cast_natCast,
    abs_of_pos (zpow_pos two_pos (unpack x).2)]

/-- The word of sign `s` holds the grid magnitude `m`, an infinity from `2^128` on. -/
def HoldsMagnitude (s : Bool) (m : ℚ) (w : Word) : Prop :=
  if (2 : ℚ) ^ (128 : Int) ≤ m then w = signedWord s 0x7F800000#31
  else signOf w = s ∧ expOf w < 255 ∧ |wordValue w| = m

section Holds

variable (s : Bool) {m : Nat}

theorem holdsMagnitude_infinity {x : ℚ} (h : (2 : ℚ) ^ (128 : Int) ≤ x) :
    HoldsMagnitude s x (wordOf s 255 0) := by
  rw [HoldsMagnitude, if_pos h, signedWord_inf, infinity]

/-- Below the all-one exponent field a word holds the magnitude that its fields stand for. -/
theorem holdsMagnitude_wordOf {E : Nat} (hE : E < 255) (hm : m < 2 ^ 23) {x : ℚ} (hx : x < (2 : ℚ) ^ (128 : Int))
    (hval : (if 1 ≤ E then ((2 ^ 23 + m : Nat) : ℚ) * 2 ^ ((E : Int) - 150) else (m : ℚ) * 2 ^ (-149 : Int)) = x) :
    HoldsMagnitude s x (wordOf s E m) := by
  have hexp : expOf (wordOf s E m) = E := expOf_wordOf (by omega) hm
  rw [HoldsMagnitude, if_neg hx.not_ge]
  refine ⟨signOf_wordOf (by omega) hm, hexp.trans_lt hE, ?_⟩
  rw [abs_wordValue, ← hval, unpack, hexp, sigOf_wordOf (by omega) hm]
  split_ifs <;> rfl

theorem grid_lt_of_le {n : Nat} {g : Int} (hn : n < 2 ^ 24) (hg : g ≤ 104) :
    (n : ℚ) * 2 ^ g < (2 : ℚ) ^ (128 : Int) := by
  calc (n : ℚ) * 2 ^ g < (2 ^ 24 : Nat) * 2 ^ g :=
        mul_lt_mul_of_pos_right (by exact_mod_cast hn) (zpow_pos two_pos g)
    _ ≤ (2 ^ 24 : Nat) * 2 ^ (104 : Int) :=
        mul_le_mul_of_nonneg_left (zpow_le_zpow_right₀ one_le_two hg) (Nat.cast_nonneg _)
    _ = (2 : ℚ) ^ (128 : Int) := by norm_num

theorem holdsMagnitude_normal {E : Int} (hlow : -126 ≤ E) (hhigh : E ≤ 127) (hm : m < 2 ^ 23) :
    HoldsMagnitude s ((2 ^ 23 + m : Nat) * (2 : ℚ) ^ (E - 23)) (wordOf s (E + 127).toNat m) := by
  refine holdsMagnitude_wordOf s (by omega) hm (grid_lt_of_le (by omega) (by omega)) ?_
  rw [if_pos (by omega), show (((E + 127).toNat : Nat) : Int) - 150 = E - 23 by omega]

theorem holdsMagnitude_subnormal (hm : m < 2 ^ 23) :
    HoldsMagnitude s (m * (2 : ℚ) ^ (-149 : Int)) (wordOf s 0 m) :=
  holdsMagnitude_wordOf s (by omega) hm (grid_lt_of_le (by omega) (by omega)) (if_neg (by omega))

end Holds

/-- The leading bit of the integer part gives the exponent of the value. -/
theorem exponent_of_magnitude {mv : Nat} {y v : ℚ} {xv e : Int} (hpos : 0 < mv) (h0 : 0 ≤ y) (hy : ⌊y⌋₊ = mv)
    (hv : v = y * 2 ^ xv) (hlow : (2 : ℚ) ^ e ≤ v) (hhigh : v < (2 : ℚ) ^ (e + 1)) : xv + mv.log2 = e := by
  have hle : ((2 ^ mv.log2 : Nat) : ℚ) ≤ y := (Nat.le_floor_iff h0).1 (hy.symm ▸ Nat.log2_self_le hpos.ne')
  have hlt : y < ((2 ^ (mv.log2 + 1) : Nat) : ℚ) := (Nat.floor_lt h0).1 (hy.symm ▸ Nat.lt_log2_self)
  push_cast at hle hlt
  have hscale : (0 : ℚ) < 2 ^ xv := zpow_pos two_pos xv
  refine exponent_unique one_lt_two (x := v) ?_ ?_ hlow hhigh
  · rw [hv, add_comm, zpow_add₀ two_ne_zero, zpow_natCast]
    exact mul_le_mul_of_nonneg_right hle hscale.le
  · rw [hv, add_assoc, add_comm, zpow_add₀ two_ne_zero, ← Nat.cast_succ, zpow_natCast]
    exact mul_lt_mul_of_pos_right hlt hscale

section Finish

variable (s round : Bool) {mv : Nat}

theorem finishNormal_holdsMagnitude {e : Int} (hlow : -126 ≤ e) (hhigh : e ≤ 127)
    (hsig : 2 ^ 23 ≤ cutMag round mv (mv.log2 - 23)) (hsig' : cutMag round mv (mv.log2 - 23) ≤ 2 ^ 24) :
    HoldsMagnitude s (cutMag round mv (mv.log2 - 23) * (2 : ℚ) ^ (e - 23)) (finishNormal s mv e round) := by
  rw [finishNormal_eq]
  generalize cutMag round mv (mv.log2 - 23) = sig at hsig hsig' ⊢
  by_cases hcarry : sig = 2 ^ 24
  · have hdouble : (sig : ℚ) * 2 ^ (e - 23) = (2 ^ 23 + 0 : Nat) * 2 ^ (e + 1 - 23) := by
      rw [hcarry, show e + 1 - 23 = e - 23 + 1 by omega, zpow_add_one₀ two_ne_zero]
      push_cast
      ring
    rw [if_pos hcarry, hdouble]
    split_ifs with hover
    · obtain rfl : e = 127 := by omega
      exact holdsMagnitude_infinity s (by norm_num)
    · exact holdsMagnitude_normal s (by omega) (by omega) (by omega)
  · rw [if_neg hcarry]
    have h := holdsMagnitude_normal s hlow hhigh (m := sig - 2 ^ 23) (by omega)
    rwa [Nat.add_sub_cancel' hsig] at h

theorem finishSubnormal_holdsMagnitude {xv : Int} (hsig : cutMag round mv (-149 - xv) ≤ 2 ^ 23) :
    HoldsMagnitude s (cutMag round mv (-149 - xv) * (2 : ℚ) ^ (-149 : Int))
      (finishSubnormal s mv xv round) := by
  rw [finishSubnormal_eq]
  split_ifs with hcarry
  · rw [hcarry]
    refine holdsMagnitude_wordOf s (by omega) (by omega) (grid_lt_of_le (by omega) (by omega)) ?_
    norm_num
  · exact holdsMagnitude_subnormal s (by omega)

/-- `finish` delivers `v = y * 2^xv` on the grid, where `mv` is the integer part of `y` and is `y` itself
unless bits of `mv` are dropped. -/
theorem finish_holdsMagnitude {y v : ℚ} {xv e : Int} (hpos : 0 < mv) (h0 : 0 ≤ y) (hy : ⌊y⌋₊ = mv)
    (hexact : y = mv ∨ 24 ≤ mv.log2) (hv : v = y * 2 ^ xv) (hlow : (2 : ℚ) ^ e ≤ v)
    (hhigh : v < (2 : ℚ) ^ (e + 1)) :
    HoldsMagnitude s (gridRound round (v / 2 ^ gridExponent e) * 2 ^ gridExponent e)
      (finish s mv xv round) := by
  have he := exponent_of_magnitude hpos h0 hy hv hlow hhigh
  have hcut (g : Int) (hg : e - 23 ≤ g) : gridRound round (v / 2 ^ g) = cutMag round mv (g - xv) := by
    have hshift : v / 2 ^ g = y / 2 ^ (g - xv) := by
      rw [hv, zpow_sub₀ two_ne_zero]
      field_simp
    rw [hshift, cutMag_eq_gridRound round h0 hy (hexact.imp_right fun h => by omega)]
  have hleast : 2 ^ 23 ≤ gridRound round (v / 2 ^ (e - 23)) := le_gridRound_of_pow_le round (by omega) hlow
  unfold finish
  rw [if_neg hpos.ne', he]
  dsimp only
  split_ifs with hover hrange
  case pos =>
    rw [gridExponent, max_eq_left (by omega)]
    exact holdsMagnitude_infinity s (pow_128_le_of_overflow hover hleast)
  case pos =>
    have hmost : gridRound round (v / 2 ^ (e - 23)) ≤ 2 ^ 24 := gridRound_le_of_lt_pow round (by omega) hhigh
    have hnormal := hcut (e - 23) le_rfl
    rw [show e - 23 - xv = mv.log2 - 23 by omega] at hnormal
    rw [gridExponent, max_eq_left (by omega), hnormal, Int.cast_natCast]
    rw [hnormal] at hleast hmost
    exact finishNormal_holdsMagnitude s round hrange (by omega) (by exact_mod_cast hleast)
      (by exact_mod_cast hmost)
  case neg =>
    have hmost : gridRound round (v / 2 ^ (-149 : Int)) ≤ 2 ^ 23 :=
      gridRound_le_of_lt_pow round (by omega) hhigh
    have hsubnormal := hcut (-149) (by omega)
    rw [gridExponent, max_eq_right (by omega), hsubnormal, Int.cast_natCast]
    rw [hsubnormal] at hmost
    exact finishSubnormal_holdsMagnitude s round (by exact_mod_cast hmost)

/-- `finish` with the sign of a value rounds it as the statements on the commands have it. -/
theorem roundsTo_finish {y v : ℚ} {xv : Int} (hs : s = decide (v < 0)) (hpos : 0 < mv) (h0 : 0 ≤ y)
    (hy : ⌊y⌋₊ = mv) (hexact : y = mv ∨ 24 ≤ mv.log2) (hv : |v| = y * 2 ^ xv) :
    roundsTo (gridRound round) v (finish s mv xv round) := fun _ hlow hhigh =>
  hs ▸ finish_holdsMagnitude s round hpos h0 hy hexact hv hlow hhigh

end Finish

end Sys2Proof.Machine
end

section
/-! PROOFS. The four Binary32 commands on finite nonzero words (46_ieee_arith.md rules R262, R265 to R268). -/

namespace Sys2Proof.Machine

/-! ### The value of a word -/

theorem cast_signedMag (s : Bool) (m : Nat) : (signedMag s m : ℚ) = if s then -(m : ℚ) else m := by
  cases s
  · exact Int.cast_natCast m
  · rw [signedMag, if_pos rfl, if_pos rfl, Int.cast_neg, Int.cast_natCast]

theorem wordValue_negateWord (x : Word) : wordValue (negateWord x) = -wordValue x := by
  rw [wordValue, wordValue, signOf_negateWord, unpack_negateWord, ← neg_mul, cast_signedMag, cast_signedMag]
  cases signOf x <;> simp

theorem wordValue_ne_zero {x : Word} (h : classOf x = .fin) : wordValue x ≠ 0 := by
  have hmag : (0 : ℚ) < (unpack x).1 := by exact_mod_cast (unpack_of_fin h).1
  rw [← abs_pos, abs_wordValue]
  exact mul_pos hmag (zpow_pos two_pos _)

/-- The sign bit of a finite nonzero word is the sign of its value. -/
theorem decide_wordValue_neg {x : Word} (h : classOf x = .fin) : decide (wordValue x < 0) = signOf x := by
  have hmag : (0 : ℚ) < (unpack x).1 := by exact_mod_cast (unpack_of_fin h).1
  have hpow : (0 : ℚ) < 2 ^ (unpack x).2 := zpow_pos two_pos _
  rw [wordValue, cast_signedMag]
  cases signOf x
  · exact decide_eq_false (mul_pos hmag hpow).not_gt
  · exact decide_eq_true (mul_neg_of_neg_of_pos (neg_neg_of_pos hmag) hpow)

theorem decide_neg_xor {x y : ℚ} (hx : x ≠ 0) (hy : y ≠ 0) :
    (decide (x < 0) ^^ decide (y < 0)) = decide (x * y < 0) := by
  rcases hx.lt_or_gt with hx | hx <;> rcases hy.lt_or_gt with hy | hy
  · rw [decide_eq_true hx, decide_eq_true hy, decide_eq_false (mul_pos_of_neg_of_neg hx hy).not_gt]; rfl
  · rw [decide_eq_true hx, decide_eq_false hy.not_gt, decide_eq_true (mul_neg_of_neg_of_pos hx hy)]; rfl
  · rw [decide_eq_false hx.not_gt, decide_eq_true hy, decide_eq_true (mul_neg_of_pos_of_neg hx hy)]; rfl
  · rw [decide_eq_false hx.not_gt, decide_eq_false hy.not_gt, decide_eq_false (mul_pos hx hy).not_gt]; rfl

/-- The sign of a product of finite nonzero words (rules R267, R268). -/
theorem signOf_xor_eq {a b : Word} (ha : classOf a = .fin) (hb : classOf b = .fin) :
    (signOf a ^^ signOf b) = decide (wordValue a * wordValue b < 0) := by
  rw [← decide_wordValue_neg ha, ← decide_wordValue_neg hb]
  exact decide_neg_xor (wordValue_ne_zero ha) (wordValue_ne_zero hb)

/-- A value as `finish` of an exact magnitude, truncated. -/
theorem truncatesTo_finish {s : Bool} {mv : Nat} {xv : Int} {v : ℚ} (hs : s = decide (v < 0)) (hpos : 0 < mv)
    (hv : |v| = mv * 2 ^ xv) : truncatesTo v (finish s mv xv false) := by
  refine ⟨fun h0 => ?_, roundsTo_finish s false hs hpos (Nat.cast_nonneg mv) (Nat.floor_natCast mv) (.inl rfl) hv⟩
  rw [h0, abs_zero] at hv
  exact absurd hv (mul_pos (Nat.cast_pos.2 hpos) (zpow_pos two_pos xv)).ne

/-! ### Sums (rules R265, R266) -/

/-- The exact sum of two words in units of the lower exponent. -/
def sumUnits (a b : Word) : Int :=
  signedMag (signOf a) ((unpack a).1 * 2 ^ ((unpack a).2 - min (unpack a).2 (unpack b).2).toNat) +
    signedMag (signOf b) ((unpack b).1 * 2 ^ ((unpack b).2 - min (unpack a).2 (unpack b).2).toNat)

theorem addFinite_eq (a b : Word) : addFinite a b = if sumUnits a b = 0 then 0 else
    finish (decide (sumUnits a b < 0)) (sumUnits a b).natAbs (min (unpack a).2 (unpack b).2) false := rfl

theorem wordValue_eq_units (x : Word) {g : Int} (hg : g ≤ (unpack x).2) :
    wordValue x = signedMag (signOf x) ((unpack x).1 * 2 ^ ((unpack x).2 - g).toNat) * (2 : ℚ) ^ g := by
  have hpow : (2 : ℚ) ^ (unpack x).2 = 2 ^ ((unpack x).2 - g).toNat * 2 ^ g := by
    rw [← zpow_natCast, ← zpow_add₀ two_ne_zero]
    congr 1
    omega
  rw [wordValue, hpow, cast_signedMag, cast_signedMag]
  push_cast
  split_ifs <;> ring

theorem wordValue_add_eq (a b : Word) :
    wordValue a + wordValue b = sumUnits a b * (2 : ℚ) ^ min (unpack a).2 (unpack b).2 := by
  rw [wordValue_eq_units a (min_le_left _ _), wordValue_eq_units b (min_le_right _ _), ← add_mul, sumUnits,
    Int.cast_add]

theorem addFinite_truncatesTo (a b : Word) : truncatesTo (wordValue a + wordValue b) (addFinite a b) := by
  have hpow : (0 : ℚ) < 2 ^ min (unpack a).2 (unpack b).2 := zpow_pos two_pos _
  rw [addFinite_eq, wordValue_add_eq]
  split_ifs with hzero
  · rw [hzero, Int.cast_zero, zero_mul]
    refine ⟨fun _ => rfl, fun e hlow _ => ?_⟩
    rw [abs_zero] at hlow
    exact absurd hlow (zpow_pos two_pos e).not_ge
  · refine truncatesTo_finish (decide_eq_decide.2 ?_) (Int.natAbs_pos.2 hzero) ?_
    · rw [← zero_mul (2 ^ min (unpack a).2 (unpack b).2 : ℚ), mul_lt_mul_iff_left₀ hpow, Int.cast_lt_zero]
    · rw [abs_mul, abs_of_pos hpow, ← Int.cast_abs, Int.abs_eq_natAbs, Int.cast_natCast]

/-! ### Products (rule R267) -/

theorem mulFinite_truncatesTo {a b : Word} (ha : classOf a = .fin) (hb : classOf b = .fin) :
    truncatesTo (wordValue a * wordValue b) (mulFinite a b) := by
  refine truncatesTo_finish (signOf_xor_eq ha hb) (Nat.mul_pos (unpack_of_fin ha).1 (unpack_of_fin hb).1) ?_
  rw [abs_mul, abs_wordValue, abs_wordValue, zpow_add₀ two_ne_zero]
  push_cast
  ring

/-! ### Quotients (rule R268) -/

/-- Normalizing keeps the value, and brings a magnitude that the fuel suffices for into `[2^23, 2^24)`. -/
theorem normalizeMag_spec (fuel : Nat) {m : Nat × Int} (hlow : 2 ^ 23 ≤ m.1 * 2 ^ fuel) (hhigh : m.1 < 2 ^ 24) :
    2 ^ 23 ≤ (normalizeMag fuel m).1 ∧ (normalizeMag fuel m).1 < 2 ^ 24 ∧
      ((normalizeMag fuel m).1 : ℚ) * 2 ^ (normalizeMag fuel m).2 = m.1 * 2 ^ m.2 := by
  induction fuel generalizing m with
  | zero => exact ⟨by rwa [pow_zero, mul_one] at hlow, hhigh, rfl⟩
  | succ fuel ih =>
    rw [normalizeMag]
    split_ifs with hsmall
    · rw [pow_succ' 2 fuel, ← Nat.mul_assoc, Nat.mul_comm m.1] at hlow
      obtain ⟨h1, h2, h3⟩ := ih (m := (2 * m.1, m.2 - 1)) hlow (by dsimp only; omega)
      refine ⟨h1, h2, h3.trans ?_⟩
      dsimp only
      rw [zpow_sub_one₀ two_ne_zero]
      push_cast
      ring
    · exact ⟨not_lt.1 hsmall, hhigh, rfl⟩

/-- The magnitude of a finite nonzero word, normalized. -/
theorem normalizeMag_unpack {x : Word} (h : classOf x = .fin) :
    2 ^ 23 ≤ (normalizeMag 23 (unpack x)).1 ∧ (normalizeMag 23 (unpack x)).1 < 2 ^ 24 ∧
      ((normalizeMag 23 (unpack x)).1 : ℚ) * 2 ^ (normalizeMag 23 (unpack x)).2 = |wordValue x| := by
  obtain ⟨hpos, hlt⟩ := unpack_of_fin h
  rw [abs_wordValue]
  exact normalizeMag_spec 23 (by omega) hlt

/-- The dividend of rule R268, not below the divisor. -/
def alignMag (m : Nat × Int) (n : Nat) : Nat × Int := if m.1 < n then (2 * m.1, m.2 - 1) else m

theorem divFinite_eq (a b : Word) : divFinite a b =
    let n := normalizeMag 23 (unpack b)
    let m := alignMag (normalizeMag 23 (unpack a)) n.1
    finish (signOf a ^^ signOf b) (m.1 * 2 ^ 24 / n.1) (m.2 - n.2 - 24) true := rfl

theorem alignMag_spec {m : Nat × Int} {n : Nat} (hm : 2 ^ 23 ≤ m.1) (hm' : m.1 < 2 ^ 24) (hn : 2 ^ 23 ≤ n)
    (hn' : n < 2 ^ 24) : n ≤ (alignMag m n).1 ∧ (alignMag m n).1 < 2 * n ∧
      ((alignMag m n).1 : ℚ) * 2 ^ (alignMag m n).2 = m.1 * 2 ^ m.2 := by
  unfold alignMag
  split_ifs with h
  · refine ⟨by dsimp only; omega, by dsimp only; omega, ?_⟩
    dsimp only
    rw [zpow_sub_one₀ two_ne_zero]
    push_cast
    ring
  · exact ⟨not_lt.1 h, by omega, rfl⟩

/-- The quotient has 25 bits (rule R268). -/
theorem quotient_bits {m n : Nat} (hn : 0 < n) (hle : n ≤ m) (hlt : m < 2 * n) :
    0 < m * 2 ^ 24 / n ∧ (m * 2 ^ 24 / n).log2 = 24 := by
  have hlow : 2 ^ 24 ≤ m * 2 ^ 24 / n := (Nat.le_div_iff_mul_le hn).2 (by omega)
  have hhigh : m * 2 ^ 24 / n < 2 ^ (24 + 1) := (Nat.div_lt_iff_lt_mul hn).2 (by omega)
  have hpos : 0 < m * 2 ^ 24 / n := by omega
  exact ⟨hpos, (Nat.log2_eq_iff hpos.ne').2 ⟨hlow, hhigh⟩⟩

theorem divFinite_roundsHalfUpTo {a b : Word} (ha : classOf a = .fin) (hb : classOf b = .fin) :
    roundsHalfUpTo (wordValue a / wordValue b) (divFinite a b) := by
  obtain ⟨hm, hm', hma⟩ := normalizeMag_unpack ha
  obtain ⟨hn, hn', hnb⟩ := normalizeMag_unpack hb
  obtain ⟨hle, hlt, hval⟩ := alignMag_spec hm hm' hn hn'
  rw [divFinite_eq]
  dsimp only
  generalize normalizeMag 23 (unpack b) = n at hn hnb hle hlt hval ⊢
  generalize alignMag (normalizeMag 23 (unpack a)) n.1 = m at hle hlt hval ⊢
  obtain ⟨hpos, hlog⟩ := quotient_bits (by omega) hle hlt
  have hfloor : ⌊((m.1 * 2 ^ 24 : Nat) : ℚ) / n.1⌋₊ = m.1 * 2 ^ 24 / n.1 := Nat.floor_div_eq_div _ _
  refine roundsTo_finish _ true ?_ hpos (by positivity) hfloor (.inr hlog.ge) ?_
  · rw [signOf_xor_eq ha hb]
    exact decide_eq_decide.2 (by rw [mul_neg_iff, div_neg_iff])
  · rw [abs_div, ← hma, ← hnb, ← hval, zpow_sub₀ two_ne_zero, zpow_sub₀ two_ne_zero]
    have hn0 : (n.1 : ℚ) ≠ 0 := Nat.cast_ne_zero.2 (by omega)
    push_cast
    field_simp

end Sys2Proof.Machine
end

section
/-! PROOFS. What the four commands deliver (46_ieee_arith.md rules R260 to R271). -/

namespace Sys2Proof.Machine

/-- Settles O57: each word is `finish` of the exact sum, difference or product. -/
theorem sumsAndProductsAreTruncated : Obligations.SumsAndProductsAreTruncated := by
  intro s log rd fa fb xa xb a b ha hb hxa hxb hwa hwb hca hcb
  have hexec := floatCommand_of_b32 ha hb hxa hxb hwa hwb
  refine ⟨⟨_, hexec addWords rd, ?_⟩, ⟨_, hexec subWords rd, ?_⟩, ⟨_, hexec mulWords rd, ?_⟩⟩
  · rw [addWords_of_fin hca hcb]
    exact addFinite_truncatesTo a b
  · rw [subWords, addWords_of_fin hca ((classOf_negateWord b).trans hcb), sub_eq_add_neg,
      ← wordValue_negateWord]
    exact addFinite_truncatesTo a (negateWord b)
  · rw [mulWords_of_fin hca hcb]
    exact mulFinite_truncatesTo hca hcb

/-- Settles O58: the 25 quotient bits hold the guard bit of every result, so the discarded remainder does not
count. -/
theorem fdivRoundsHalfUp : Obligations.FdivRoundsHalfUp := by
  intro s log rd fa fb xa xb a b ha hb hxa hxb hwa hwb hca hcb
  refine ⟨_, floatCommand_of_b32 ha hb hxa hxb hwa hwb divWords rd, ?_⟩
  rw [divWords_of_fin hca hcb]
  exact divFinite_roundsHalfUpTo hca hcb

/-- `FADD` and `FSUB` add to `a` a word `c`: `b`, for `FSUB` with its sign inverted (rule R266). -/
theorem exec_fadd_or_fsub {s : State} {log : Bool} {rd fa fb : Fin 4} {xa xb : Ieee} {a b : Word} {i : Instr}
    (ha : s.readF fa = some xa) (hb : s.readF fb = some xb) (hxa : xa.format = .b32) (hxb : xb.format = .b32)
    (hwa : a = xa.word.extractLsb' 0 32) (hwb : b = xb.word.extractLsb' 0 32)
    (hi : i = .fadd log rd fa fb ∨ i = .fsub log rd fa fb) : ∃ c : Word,
      classOf c = classOf b ∧
      signOf c = (if i = .fsub log rd fa fb then !signOf b else signOf b) ∧
      signedWord (if i = .fsub log rd fa fb then !signOf b else signOf b) (b.extractLsb' 0 31) = c ∧
      exec i s = .next (succeed false (s.setF rd (some ⟨.b32, (addWords a c).zeroExtend 64⟩))) := by
  have hexec := floatCommand_of_b32 ha hb hxa hxb hwa hwb
  rcases hi with rfl | rfl
  · have hne : Instr.fadd log rd fa fb ≠ .fsub log rd fa fb := nofun
    rw [if_neg hne]
    exact ⟨b, rfl, rfl, signedWord_signOf b, hexec addWords rd⟩
  · rw [if_pos rfl]
    exact ⟨negateWord b, classOf_negateWord b, signOf_negateWord b, signedWord_not_signOf b, hexec subWords rd⟩

/-- Settles O59: the rows of the three tables of the model, `FSUB` with the second addend negated. -/
theorem floatSpecialValueTable : Obligations.FloatSpecialValueTable := by
  intro s log rd fa fb xa xb a b i ha hb hxa hxb hwa hwb ca cb sb b' signXor delivers inf zero qnan
  have hexec := floatCommand_of_b32 ha hb hxa hxb hwa hwb
  have hinf (minus : Bool) : inf minus = infinity minus := signedWord_inf minus
  have hzero (minus : Bool) : zero minus = signedZero minus := signedWord_zero minus
  have hqnan : qnan = qnan32 := rfl
  refine ⟨fun hi => ?_, ?_, ?_⟩
  · obtain ⟨c, hcb, hsign, hword, hc⟩ := exec_fadd_or_fsub ha hb hxa hxb hwa hwb hi
    have hdelivers {w : Word} (h : addWords a c = w) : delivers w := by rw [← h]; exact hc
    have hrow {w : Word} (h : specialAdd a c = some w) : delivers w := hdelivers (addWords_of_special h)
    have hca : classOf a = ca := rfl
    change classOf c = cb at hcb
    change signOf c = sb at hsign
    change b' = c at hword
    clear_value ca cb sb b'
    subst hsign hword
    refine ⟨fun h => hdelivers (addWords_of_nan (by rwa [hca, hcb])), ?_, ?_, ?_, ?_, ?_, ?_⟩
    · rintro rfl rfl; exact hrow (by rw [specialAdd, hca, hcb, hqnan])
    · rintro rfl (rfl | rfl) <;> exact hrow (by rw [specialAdd, hca, hcb])
    · rintro (rfl | rfl) rfl <;> exact hrow (by rw [specialAdd, hca, hcb])
    · rintro rfl rfl; exact hrow (by rw [specialAdd, hca, hcb, hzero])
    · rintro rfl rfl; exact hrow (by rw [specialAdd, hca, hcb])
    · rintro rfl rfl; exact hrow (by rw [specialAdd, hca, hcb])
  · rintro rfl
    have hdelivers {w : Word} (h : mulWords a b = w) : delivers w := by rw [← h]; exact hexec mulWords rd
    have hrow {w : Word} (h : specialMul a b = some w) : delivers w := hdelivers (mulWords_of_special h)
    have hca : classOf a = ca := rfl
    have hcb : classOf b = cb := rfl
    clear_value ca cb
    refine ⟨fun h => hdelivers (mulWords_of_nan (by rwa [hca, hcb])), ?_, ?_, ?_, ?_, ?_, ?_⟩
    · rintro rfl rfl; exact hrow (by rw [specialMul, hca, hcb, hqnan])
    · rintro rfl rfl; exact hrow (by rw [specialMul, hca, hcb, hqnan])
    · rintro rfl (rfl | rfl) <;> exact hrow (by rw [specialMul, hca, hcb, hinf])
    · rintro rfl rfl; exact hrow (by rw [specialMul, hca, hcb, hinf])
    · rintro rfl (rfl | rfl) <;> exact hrow (by rw [specialMul, hca, hcb, hzero])
    · rintro rfl rfl; exact hrow (by rw [specialMul, hca, hcb, hzero])
  · rintro rfl
    have hdelivers {w : Word} (h : divWords a b = w) : delivers w := by rw [← h]; exact hexec divWords rd
    have hrow {w : Word} (h : specialDiv a b = some w) : delivers w := hdelivers (divWords_of_special h)
    have hca : classOf a = ca := rfl
    have hcb : classOf b = cb := rfl
    clear_value ca cb
    refine ⟨fun h => hdelivers (divWords_of_nan (by rwa [hca, hcb])), ?_, ?_, ?_, ?_, ?_, ?_⟩
    · rintro rfl rfl; exact hrow (by rw [specialDiv, hca, hcb, hqnan])
    · rintro rfl rfl; exact hrow (by rw [specialDiv, hca, hcb, hqnan])
    · rintro (rfl | rfl) rfl <;> exact hrow (by rw [specialDiv, hca, hcb, hinf])
    · rintro (rfl | rfl) rfl <;> exact hrow (by rw [specialDiv, hca, hcb, hzero])
    · rintro rfl rfl; exact hrow (by rw [specialDiv, hca, hcb, hinf])
    · rintro rfl rfl; exact hrow (by rw [specialDiv, hca, hcb, hzero])

/-! ### The canonical NaN (rules R263, R271) -/

/-- A NaN only as the one word of rule R263. -/
def CanonicalNan (w : Word) : Prop := classOf w = .nan → w = qnan32

theorem canonicalNan_qnan32 : CanonicalNan qnan32 := fun _ => rfl

theorem canonicalNan_of_ne {w : Word} (h : classOf w ≠ .nan) : CanonicalNan w := fun hw => absurd hw h

theorem canonicalNan_infinity (s : Bool) : CanonicalNan (infinity s) :=
  canonicalNan_of_ne (by rw [classOf_infinity]; nofun)

theorem canonicalNan_signedZero (s : Bool) : CanonicalNan (signedZero s) :=
  canonicalNan_of_ne (by rw [classOf_signedZero]; nofun)

/-- Rounding a nonzero value gives no NaN. -/
theorem canonicalNan_of_roundsTo {toGrid : ℚ → Int} {v : ℚ} {w : Word} (h : roundsTo toGrid v w)
    (hv : v ≠ 0) : CanonicalNan w := by
  have hlow := Int.zpow_log_le_self (b := 2) one_lt_two (abs_pos.2 hv)
  have hhigh := Int.lt_zpow_succ_log_self (b := 2) one_lt_two |v|
  rw [Nat.cast_ofNat] at hlow hhigh
  have hw := h _ hlow hhigh
  dsimp only at hw
  split_ifs at hw with hover
  · rw [hw, signedWord_inf]
    exact canonicalNan_infinity _
  · obtain ⟨-, hexp, -⟩ := hw
    exact canonicalNan_of_ne fun hnan => hexp.ne ((classOf_eq_nan_iff w).1 hnan).1

theorem canonicalNan_of_truncatesTo {v : ℚ} {w : Word} (h : truncatesTo v w) : CanonicalNan w := by
  by_cases hv : v = 0
  · rw [h.1 hv]
    exact canonicalNan_signedZero false
  · exact canonicalNan_of_roundsTo h.2 hv

theorem canonicalNan_addWords (a b : Word) : CanonicalNan (addWords a b) := by
  unfold addWords specialAdd
  split <;> simp only [Option.getD_some, Option.getD_none]
  case h_3 ha _ =>
    split_ifs
    · exact canonicalNan_of_ne (by rw [ha]; nofun)
    · exact canonicalNan_qnan32
  case h_11 => exact canonicalNan_of_truncatesTo (addFinite_truncatesTo a b)
  all_goals simp [CanonicalNan, classOf_signedZero, *]

theorem canonicalNan_mulWords (a b : Word) : CanonicalNan (mulWords a b) := by
  unfold mulWords specialMul
  split
  case h_11 ha hb =>
    rw [Option.getD_none]
    exact canonicalNan_of_truncatesTo (mulFinite_truncatesTo ha hb)
  all_goals
    rw [Option.getD_some]
    simp only [canonicalNan_qnan32, canonicalNan_infinity, canonicalNan_signedZero]

theorem canonicalNan_divWords (a b : Word) : CanonicalNan (divWords a b) := by
  unfold divWords specialDiv
  split
  case h_11 ha hb =>
    have hv := div_ne_zero (wordValue_ne_zero ha) (wordValue_ne_zero hb)
    rw [Option.getD_none]
    exact canonicalNan_of_roundsTo (divFinite_roundsHalfUpTo ha hb) hv
  all_goals
    rw [Option.getD_some]
    simp only [canonicalNan_qnan32, canonicalNan_infinity, canonicalNan_signedZero]

/-- `a - a` is the NaN or `+0` (rule R271 (b)). -/
theorem subWords_self (a : Word) : subWords a a = if expOf a = 255 then qnan32 else 0 := by
  have hmax := expOf_eq_255_iff a
  have hneg := classOf_negateWord a
  rw [subWords]
  cases ha : classOf a <;> rw [ha] at hneg
  case nan =>
    rw [if_pos (hmax.2 (.inl ha))]
    exact addWords_of_nan (.inl ha)
  case inf =>
    have hsign : signOf a ≠ signOf (negateWord a) := by simp
    rw [if_pos (hmax.2 (.inr ha))]
    exact addWords_of_special (by rw [specialAdd, ha, hneg, if_neg hsign])
  case zero =>
    rw [if_neg (by simp [hmax, ha])]
    refine addWords_of_special ?_
    rw [specialAdd, ha, hneg, signOf_negateWord, Bool.and_not_self]
    rfl
  case fin =>
    rw [if_neg (by simp [hmax, ha]), addWords_of_fin ha hneg]
    exact (addFinite_truncatesTo a (negateWord a)).1 (by rw [wordValue_negateWord, add_neg_cancel])

/-- Settles O60: every row of the tables gives the one NaN word or no NaN. -/
theorem floatNanIsCanonical : Obligations.FloatNanIsCanonical := by
  intro s log rd fa fb xa xb ha hb hxa hxb
  refine ⟨fun i hi => ?_, ?_⟩
  · have hexec := floatCommand_of_b32 ha hb hxa hxb rfl rfl
    rcases hi with rfl | rfl | rfl | rfl
    · exact ⟨_, hexec addWords rd, canonicalNan_addWords _ _⟩
    · exact ⟨_, hexec subWords rd, canonicalNan_addWords _ _⟩
    · exact ⟨_, hexec mulWords rd, canonicalNan_mulWords _ _⟩
    · exact ⟨_, hexec divWords rd, canonicalNan_divWords _ _⟩
  · refine (floatCommand_of_b32 ha ha hxa hxa rfl rfl subWords rd).trans ?_
    rw [subWords_self, apply_ite (BitVec.zeroExtend 64)]
    rfl

end Sys2Proof.Machine
end

section
/-! PROOFS. An illegal word, and the frames of the commands that write `N[rd]` or `F[rd]`
(60_exceptions.md rules R293, R301; 10_state.md rule R35; 46_ieee_arith.md rule R271 (e)). -/

namespace Sys2Proof.Machine

/-- Settles O3: the issue of an illegal word is `illegalCommand` with the word in `CMD`, written out. -/
theorem illegalWordChangesOnlyStatus : Obligations.IllegalWordChangesOnlyStatus := by
  intro s w rest e hin hd
  exact (step_of_inputs_cons hin).trans (issue_of_error hd (s.setInputs rest))

section Frames

variable {s t : State}

/-- Both ends of a command with destination `N[rd]` write that register, `STATUS` and `ESTICKY`. -/
theorem Ended.num_eq {rd : Fin 8} (h : Ended (.num rd) s t) : ∃ v status esticky,
    t = ((s.setN rd v).setStatus status).setESticky esticky := by
  rcases h with ⟨c, rfl⟩ | ⟨warn, u, ⟨x, rfl⟩, rfl⟩
  · exact ⟨_, _, _, rfl⟩
  · exact ⟨_, _, _, rfl⟩

/-- Both ends of `DIVS` write its two registers, `STATUS` and `ESTICKY`. -/
theorem Ended.numPair_eq {rd : Fin 8} (h : Ended (.numPair rd) s t) : ∃ v w status esticky,
    t = (((s.setN rd v).setN (rd + 1) w).setStatus status).setESticky esticky := by
  rcases h with ⟨c, rfl⟩ | ⟨warn, u, ⟨x, y, rfl⟩, rfl⟩
  · exact ⟨_, _, _, _, rfl⟩
  · exact ⟨_, _, _, _, rfl⟩

/-- Both ends of a command with destination `F[rd]` write that register, `STATUS` and `ESTICKY`. -/
theorem Ended.ieee_eq {rd : Fin 4} (h : Ended (.ieee rd) s t) : ∃ v status esticky,
    t = ((s.setF rd v).setStatus status).setESticky esticky := by
  rcases h with ⟨c, rfl⟩ | ⟨warn, u, ⟨x, rfl⟩, rfl⟩
  · exact ⟨_, _, _, rfl⟩
  · exact ⟨_, _, _, rfl⟩

end Frames

/-- Settles O14: what the two ends of a command write, for one destination register and for the pair. -/
theorem frameOfNumeralCommands : Obligations.FrameOfNumeralCommands := by
  intro i s t rd hd h
  have he := exec_ended h
  rcases hd with hd | hd
  · obtain ⟨v, status, esticky, rfl⟩ := (hd ▸ he).num_eq
    exact ⟨fun j hj _ => s.readN_setN_ne rd j v hj, rfl, rfl, rfl, rfl, rfl, rfl, rfl, rfl, rfl, rfl⟩
  · obtain ⟨v, w, status, esticky, rfl⟩ := (hd ▸ he).numPair_eq
    exact ⟨fun j hj hnext => ((s.setN rd v).readN_setN_ne (rd + 1) j w (hnext hd)).trans
      (s.readN_setN_ne rd j v hj), rfl, rfl, rfl, rfl, rfl, rfl, rfl, rfl, rfl, rfl⟩

/-- Settles O15: what the two ends of a command write. -/
theorem frameOfIeeeCommands : Obligations.FrameOfIeeeCommands := by
  intro i s t rd hd h
  obtain ⟨v, status, esticky, rfl⟩ := (hd ▸ exec_ended h).ieee_eq
  exact ⟨fun j hj => s.readF_setF_ne rd j v hj, rfl, rfl, rfl, rfl, rfl, rfl, rfl, rfl, rfl, rfl⟩

end Sys2Proof.Machine
end

section
/-! PROOFS. The warning (60_exceptions.md rule R294; 41_representation_converter.md rule R122): only
`CVTK` delivers a warning bit, and the conversion sets it for UNSIGNED and a negative source. -/

namespace Sys2Proof.Machine

/-- The warning bit of a conversion that succeeds. -/
theorem convertKind_warn {caps : Capacities} {k : Kind} {v : Option Numeral} {xw : Numeral × Bool}
    (h : convertKind caps k v = .ok xw) :
    ∃ n, v = some n ∧ xw.2 = decide (k = .unsigned ∧ n.sm = .minus) := by
  simp only [convertKind, fromSignMag, except_bind_eq_ok, held_eq_ok, Numeral.std_eq_ok] at h
  obtain ⟨n, hn, m, ⟨hv, rfl⟩, yw, ⟨y, -, hyw⟩, -, -, hxw⟩ := h
  injection hyw with hyw
  injection hxw with hxw
  have hneg : (toSignMag n.stdForm).neg = decide (n.sm = .minus) := by
    rw [(toSignMag_holds (Numeral.stdForm_valid hv)).neg, Numeral.stdForm_sm hv]
  refine ⟨n, hn, ?_⟩
  rw [← hxw, ← hyw, hneg, Bool.decide_and]

section Ends

variable {s t : State} {rd : Fin 8} {fd : Fin 4} {is : List (Fin 8)}

theorem raiseFail_noWarn (d : Dest) (c : Failure) (s : State) :
    statusWarn (raiseFail d c s).status = false := by
  rw [raiseFail_status, statusWarn_completed]

/-- A command whose results carry no warning does not set it. -/
theorem finishWith_noWarn {α : Type} {d : Dest} {put : α → State → State} {r : Except Failure α}
    (h : finishWith d (fun _ => false) put r s = .next t) : statusWarn t.status = false := by
  rcases finishWith_cases h with ⟨a, -, rfl⟩ | ⟨c, -, rfl⟩
  · rw [succeed_status, statusWarn_completed]
  · exact raiseFail_noWarn d c s

theorem finishN_noWarn {r} (h : finishN rd r s = .next t) : statusWarn t.status = false :=
  finishWith_noWarn h

theorem finishNPair_noWarn {r} (h : finishNPair rd r s = .next t) : statusWarn t.status = false :=
  finishWith_noWarn h

theorem finishF_noWarn {r} (h : finishF fd r s = .next t) : statusWarn t.status = false :=
  finishWith_noWarn h

theorem finishCC_noWarn {r} (h : finishCC r s = .next t) : statusWarn t.status = false :=
  finishWith_noWarn h

theorem finishDecoded_noWarn {r} (h : finishDecoded rd r s = .next t) : statusWarn t.status = false :=
  finishWith_noWarn h

theorem finishInPlace_noWarn {r} (h : finishInPlace is r s = .next t) : statusWarn t.status = false :=
  finishWith_noWarn h

theorem shiftCommand_noWarn {k : ShiftKind} {first last : Fin 8} {p : BitVec 12}
    (h : shiftCommand k first last p s = .next t) : statusWarn t.status = false := by
  unfold shiftCommand at h
  split at h
  · exact finishInPlace_noWarn h
  · injection h with h
    exact h ▸ raiseFail_noWarn .inPlace .illegalCommand s

/-- The warning of `CVTK.k`: a success, the kind UNSIGNED, and a source of negative sign. -/
theorem cvtkCommand_warn {k : Kind} {rs1 : Fin 8} (h : cvtkCommand k rd rs1 s = .next t) :
    statusWarn t.status = true ↔ statusCode t.status = 0 ∧ k = .unsigned ∧
      ∃ n, s.readN rs1 = some n ∧ n.sm = .minus := by
  unfold cvtkCommand finishNWarn at h
  rcases finishWith_cases h with ⟨xw, hxw, rfl⟩ | ⟨c, -, rfl⟩
  · obtain ⟨n, hn, hw⟩ := convertKind_warn hxw
    rw [succeed_status, statusWarn_completed, statusCode_completed, hw, hn]
    simp
  · rw [raiseFail_noWarn, raiseFail_status, statusCode_completed]
    exact iff_of_false nofun fun hc => failure_code_ne_zero c hc.1

theorem cvtkCommand_noWarn {k : Kind} {rs1 : Fin 8} (hk : k ≠ .unsigned)
    (h : cvtkCommand k rd rs1 s = .next t) : statusWarn t.status = false :=
  Bool.eq_false_iff.2 fun hw => hk ((cvtkCommand_warn h).1 hw).2.1

theorem exec_noWarn {i : Instr} (hi : ∀ log rd rs1, i ≠ .cvtkUns log rd rs1)
    (h : exec i s = .next t) : statusWarn t.status = false := by
  cases i with
  | cvtkUns => exact absurd rfl (hi _ _ _)
  | cvtkSgn => exact cvtkCommand_noWarn (k := .signed) nofun h
  | cvtkSmr => exact cvtkCommand_noWarn (k := .signMagnitude) nofun h
  | cvtkOc => exact cvtkCommand_noWarn (k := .onesComplement) nofun h
  | cvtkTc => exact cvtkCommand_noWarn (k := .twosComplement) nofun h
  | parseUns | parseSgn | parseSmr | parseOc | parseTc | stdz | padw | padf | compl | absv | todec
  | fromdec | cvtb | addn | addlp | mulu => exact finishN_noWarn h
  | divs => exact finishNPair_noWarn h
  | signm | cmpm => exact finishCC_noWarn h
  | eqlen => exact finishInPlace_noWarn h
  | shl | shrl | shra => exact shiftCommand_noWarn h
  | decB32 | decB64 | decD32dpd | decD32bid | decH32 => exact finishDecoded_noWarn h
  | encB32 | encB64 | encD32dpd | encD32bid | encH32 | fparseB32 | fparseB64 | fparseD32dpd
  | fparseD32bid | fparseH32 | fadd | fsub | fmul | fdiv => exact finishF_noWarn h

end Ends

/-- Settles O13: `CVTK.UNS` ends with the warning bit of its conversion, and no other command has one. -/
theorem onlyCvtkUnsWarns : Obligations.OnlyCvtkUnsWarns := by
  intro i s t h
  by_cases hi : ∃ log rd rs1, i = .cvtkUns log rd rs1
  · obtain ⟨log, rd, rs1, rfl⟩ := hi
    rw [cvtkCommand_warn (k := .unsigned) h]
    simp
  · rw [exec_noWarn (fun log rd rs1 hc => hi ⟨log, rd, rs1, hc⟩) h]
    exact iff_of_false nofun fun ⟨_, log, rd, rs1, _, hc, _⟩ => hi ⟨log, rd, rs1, hc⟩

end Sys2Proof.Machine
end

section
/-! PROOFS. The failures of each command's result, cut down to those that 60_exceptions.md rule R292 lists
for it: checks that an operand has already passed cannot fail again, and the results that need no
capacity check pass it (10_state.md rule R27). -/

namespace Sys2Proof.Machine

section Rules

variable {α β : Type} {L : List Failure} {c : Failure} {x : Except Failure α} {p : Prop} [Decidable p]

/-- As `FailsIn.bind`, for a rest whose failures depend on what the first check delivers. -/
theorem FailsIn.bind_of_ok {f : α → Except Failure β} (hx : FailsIn L x)
    (hf : ∀ a, x = .ok a → FailsIn L (f a)) : FailsIn L (x >>= f) := by
  intro e he
  rcases except_bind_eq_error.1 he with he | ⟨a, ha, he⟩
  · exact hx e he
  · exact hf a ha e he

theorem FailsIn.of_eq_ok {a : α} (h : x = .ok a) : FailsIn L x := h ▸ .ok a

theorem FailsIn.failIf_of_not (hp : ¬ p) : FailsIn L (Machine.failIf p c) := .of_eq_ok (failIf_neg hp)

end Rules

section Results

variable {caps : Capacities} {n : Numeral} {v va vb : Option Numeral}

/-! ### `ABSV` -/

theorem complementNumeral_failsIn_of_kind (hk : n.kind ≠ .unsigned) :
    FailsIn [.invalidNumeral, .capacityExceeded] (complementNumeral caps (some n)) := by
  rw [complementNumeral, held_some, except_ok_bind]
  exact .bind (.failIf_of_not hk) fun _ => .bind (.failIf rfl) fun _ => (capWhole_failsIn _).mono rfl

theorem absoluteValue_failsIn_listed :
    FailsIn [.invalidInput, .invalidNumeral, .capacityExceeded] (absoluteValue caps v) := by
  refine .bind (.held rfl) fun n => .bind (.failIf rfl) fun _ => ?_
  split
  · next h => exact (complementNumeral_failsIn_of_kind h.1).mono rfl
  · exact .ok _

/-! ### `DIVS` -/

theorem natAbs_signedValue_lt (hv : n.valid = true) :
    (signedValue n).natAbs < n.radix.val ^ n.whole.length := by
  obtain ⟨-, hbelow, -⟩ := (Numeral.valid_iff n).1 hv
  have hsm : n.sm.toInt.natAbs ≤ 1 := by cases n.sm <;> decide
  rw [signedValue, Int.natAbs_mul, Int.natAbs_natCast]
  exact (mul_le_of_le_one_left (Nat.zero_le _) hsm).trans_lt (ofDigits_lt hbelow)

/-- The first operand that `MULU` and `DIVS` compute with is valid, and its digits fit. -/
theorem integerOperands_delivers (hc : caps.wf = true) (hva : HeldFits caps va) (k : Kind) :
    Delivers (fun ab => ab.1.valid = true ∧ 1 ≤ ab.1.whole.length ∧
      exceeds caps.wcap ab.1.whole.length = false) (integerOperands k va vb) := by
  intro ab h
  simp only [integerOperands, except_bind_eq_ok, held_eq_ok, Numeral.std_eq_ok] at h
  obtain ⟨a, rfl, b, -, -, -, -, -, m, ⟨hv, rfl⟩, w, -, -, -, h⟩ := h
  injection h with h
  subst h
  exact ⟨Numeral.stdForm_valid hv, a.one_le_stdForm_whole_length, (fits_iff.1 (stdForm_fits hc hva)).1⟩

theorem capWhole_signedInteger_of_le {a : Numeral} {y : Int} (hv : a.valid = true)
    (hlen : 1 ≤ a.whole.length) (hcap : exceeds caps.wcap a.whole.length = false)
    (hy : y.natAbs ≤ (signedValue a).natAbs) :
    capWhole caps (signedInteger a.radix y) = .ok (signedInteger a.radix y) := by
  obtain ⟨⟨h2, -⟩, -⟩ := (Numeral.valid_iff a).1 hv
  refine capWhole_signedInteger (w := a.whole.length - 1) h2 _ ?_ ?_
  · rw [Nat.sub_add_cancel hlen]
    exact hy.trans_lt (natAbs_signedValue_lt hv)
  · rwa [Nat.sub_add_cancel hlen]

/-- Quotient and remainder are at most as large as the dividend, so they fit as it does. -/
theorem divideSigned_failsIn_listed (hc : caps.wf = true) (hva : HeldFits caps va) :
    FailsIn [.invalidInput, .differentBase, .invalidOperand, .invalidNumeral]
      (divideSigned caps va vb) := by
  refine .bind_of_ok ((integerOperands_failsIn _).mono rfl) fun ab hab => .bind (.failIf rfl) fun _ => ?_
  obtain ⟨hv, hlen, hcap⟩ := integerOperands_delivers hc hva _ ab hab
  refine .bind (.of_eq_ok (capWhole_signedInteger_of_le hv hlen hcap ?_)) fun _ =>
    .bind (.of_eq_ok (capWhole_signedInteger_of_le hv hlen hcap ?_)) fun _ => .ok _
  · rw [Int.natAbs_tdiv]
    exact Nat.div_le_self _ _
  · rw [mul_comm, ← Int.tmod_def, Int.natAbs_tmod]
    exact Nat.mod_le _ _

/-! ### `ENC.f` -/

/-- The significand that `ENC.f` converts is a decimal SIGNED numeral. -/
theorem encodeOperands_delivers (tx : Option Text) :
    Delivers (fun st => st.1.kind = .signed ∧ st.1.radix = 10) (encodeOperands v tx) := by
  intro st h
  simp only [encodeOperands, except_bind_eq_ok, held_eq_ok, failIf_eq_ok, Numeral.std_eq_ok, not_or,
    not_not] at h
  obtain ⟨n, -, t, -, -, ⟨hk, h10⟩, m, ⟨-, rfl⟩, h⟩ := h
  injection h with h
  subst h
  exact ⟨hk, h10⟩

theorem encodeRadix_failsIn_of_decimal (fmt : Format) (hk : n.kind = .signed) (h10 : n.radix = 10) :
    FailsIn [.invalidNumeral, .capacityExceeded] (encodeRadix caps fmt n) := by
  obtain ⟨h2, h35⟩ := fmt.radix_range
  have hfrom : FailsIn [.invalidNumeral, .capacityExceeded] (fromDecimal caps true fmt.radix (some n)) := by
    rw [fromDecimal_of_magnitude (.inr hk) h10 h2 h35]
    exact .bind ((standardizeBy_failsIn _ _).mono rfl) fun _ => (capWhole_failsIn _).mono rfl
  cases fmt with
  | b32 | b64 | h32 => exact hfrom
  | d32dpd | d32bid => exact .ok _

section Encode

variable {fmt : Format} {tx : Option Text} {pack : Bool → Numeral → Text → Except Failure Ieee}
  (hpack : ∀ sign n t, FailsIn [.invalidExponent, .exponentOutOfBounds] (pack sign n t))
include hpack

theorem encodeValue_failsIn_listed :
    FailsIn [.invalidInput, .invalidOperand, .invalidNumeral, .capacityExceeded, .invalidExponent,
      .exponentOutOfBounds] (encodeValue caps fmt pack v tx) :=
  .bind_of_ok ((encodeOperands_failsIn tx).mono rfl) fun st hst =>
    have ⟨hk, h10⟩ := encodeOperands_delivers tx st hst
    .bind ((encodeRadix_failsIn_of_decimal fmt hk h10).mono rfl) fun _ =>
      .ite (.ok _) ((hpack _ _ _).mono rfl)

/-- A decimal format takes the significand as it is. -/
theorem encodeValue_failsIn_of_decimal (hf : fmt = .d32dpd ∨ fmt = .d32bid) :
    FailsIn [.invalidInput, .invalidOperand, .invalidNumeral, .invalidExponent, .exponentOutOfBounds]
      (encodeValue caps fmt pack v tx) :=
  .bind ((encodeOperands_failsIn tx).mono rfl) fun st =>
    have hcopy : encodeRadix caps fmt st.1 = .ok st.1 := by rcases hf with rfl | rfl <;> rfl
    .bind (.of_eq_ok hcopy) fun _ => .ite (.ok _) ((hpack _ _ _).mono rfl)

end Encode

/-! ### `DEC.B32`, `DEC.B64` and `DEC.H32` -/

/-- A binary significand has the whole digit 1 and digits that are bits. -/
theorem reconstructBinary_eq (fmt : Format) (e m : Bits) :
    ∃ s q, reconstructBinary fmt e m = ⟨[1], bitDigits s, q⟩ := by
  unfold reconstructBinary
  split <;> exact ⟨_, _, rfl⟩

/-- The conversion of a reconstructed significand never fails: its digits are below the radix, and its
few whole digits fit every capacity. -/
theorem decodeBinary_failsIn_listed {fmt : Format} (hf : fmt.radix = 2) (hc : caps.wf = true)
    (w : Option Ieee) : FailsIn [.invalidInput, .invalidEncoding] (decodeBinary caps fmt w) := by
  refine .bind (decodeOperand_failsIn fmt w) fun x => ?_
  split
  · exact .ok _
  · obtain ⟨s, q, hrec⟩ := reconstructBinary_eq fmt x.exponent x.significand
    have hbelow : ∀ d ∈ [1] ++ bitDigits s, d.val < fmt.radix := by
      rw [hf]
      exact List.forall_mem_cons.2 ⟨by decide, bitDigits_below s⟩
    rw [hrec]
    exact .of_eq_ok (decodedNumber_eq fmt x.sign hbelow hc rfl)

theorem decodeHex_failsIn_listed (hc : caps.wf = true) (w : Option Ieee) :
    FailsIn [.invalidInput, .invalidEncoding] (decodeHex caps w) := by
  refine .bind (decodeOperand_failsIn .h32 w) fun x => ?_
  split
  · exact .ok _
  · exact .of_eq_ok (decodedNumber_eq .h32 x.sign (reconstructHex_below _ _) hc rfl)

end Results

end Sys2Proof.Machine
end

section
/-! PROOFS. How every command ends (60_exceptions.md rules R292, R293): its destinations are filled, or a
failure that is listed for it took its effect. -/

namespace Sys2Proof.Machine

/-- Every destination of `d` holds a value in `t`; after `DEC.f` of a special value only `PTAG` does
(45_ieee_decode.md rule R239). -/
def Dest.Filled (d : Dest) (t : State) : Prop :=
  match d with
  | .num rd => (t.readN rd).isSome
  | .numPair rd => (t.readN rd).isSome ∧ (t.readN (rd + 1)).isSome
  | .ieee rd => (t.readF rd).isSome
  | .cond => t.cc.isSome
  | .decoded rd => t.ptag.isSome ∧
    (t.ptag = some .numeric → (t.readN rd).isSome ∧ t.pbase.isSome ∧ t.pexp.isSome) ∧
    (t.ptag ≠ some .numeric → t.readN rd = none ∧ t.pbase = none ∧ t.pexp = none)
  | .inPlace => True

/-- The outcome `o` of a command with destination `d` in the state `s`: a next state with the
destinations filled, or one in which a failure of `L` took its effect. -/
def EndsIn (d : Dest) (L : List Failure) (s : State) (o : Out) : Prop :=
  ∃ t, o = .next t ∧
    ((∃ warn, t.status = completedStatus 0 warn ∧ d.Filled t) ∨ ∃ c ∈ L, t = raiseFail d c s)

/-! ### The ends of a command -/

theorem completedStatus_zero (warn : Bool) :
    completedStatus 0 warn = 0x80#32 ∨ completedStatus 0 warn = 0xC0#32 := by
  revert warn; decide

theorem completedStatus_eq_or (c : BitVec 6) :
    completedStatus c false = 0x80#32 ||| c.zeroExtend 32 := by
  revert c; decide

/-- The first register of the pair of `DIVS` is not the second (43_fixed_point.md rule R169). -/
theorem register_ne_next (rd : Fin 8) : rd ≠ rd + 1 := by
  revert rd; decide

theorem readN_setN_setN_next (s : State) (rd : Fin 8) (v w : Option Numeral) :
    ((s.setN rd v).setN (rd + 1) w).readN rd = v := by
  rw [State.readN_setN_ne _ _ _ _ (register_ne_next rd), State.readN_setN_same]

/-- The state after a failure, with `STATUS` and `ESTICKY` written out (rule R293 (a)). -/
theorem raiseFail_eq (d : Dest) (c : Failure) (s : State) : raiseFail d c s = { clearDest d s with
    status := 0x80#32 ||| c.code.zeroExtend 32,
    esticky := s.esticky ||| BitVec.twoPow 32 c.code.toNat } := by
  rw [← completedStatus_eq_or, ← clearDest_esticky s d]
  rfl

theorem readN_raiseFail_num (rd : Fin 8) (c : Failure) (s : State) :
    (raiseFail (.num rd) c s).readN rd = none := s.readN_setN_same rd none

theorem readN_raiseFail_numPair (rd : Fin 8) (c : Failure) (s : State) :
    (raiseFail (.numPair rd) c s).readN rd = none ∧
      (raiseFail (.numPair rd) c s).readN (rd + 1) = none :=
  ⟨readN_setN_setN_next s rd none none, (s.setN rd none).readN_setN_same (rd + 1) none⟩

theorem readF_raiseFail_ieee (rd : Fin 4) (c : Failure) (s : State) :
    (raiseFail (.ieee rd) c s).readF rd = none := s.readF_setF_same rd none

section Ends

variable {L : List Failure} {s : State} {rd : Fin 8} {fd : Fin 4} {is : List (Fin 8)}

theorem finishWith_endsIn {α : Type} {d : Dest} {warn : α → Bool} {put : α → State → State}
    {r : Except Failure α} (hput : ∀ a, r = .ok a → d.Filled (succeed (warn a) (put a s)))
    (hr : FailsIn L r) : EndsIn d L s (finishWith d warn put r s) := by
  cases r with
  | ok a => exact ⟨_, rfl, .inl ⟨warn a, rfl, hput a rfl⟩⟩
  | error c => exact ⟨_, rfl, .inr ⟨c, hr c rfl, rfl⟩⟩

theorem isSome_readN_setN (s : State) (rd : Fin 8) (x : Numeral) :
    ((s.setN rd (some x)).readN rd).isSome = true := by
  rw [State.readN_setN_same, Option.isSome_some]

theorem finishN_endsIn {r} (hr : FailsIn L r) : EndsIn (.num rd) L s (finishN rd r s) :=
  finishWith_endsIn (fun x _ => isSome_readN_setN s rd x) hr

theorem finishNWarn_endsIn {r} (hr : FailsIn L r) : EndsIn (.num rd) L s (finishNWarn rd r s) :=
  finishWith_endsIn (fun x _ => isSome_readN_setN s rd x.1) hr

theorem finishNPair_endsIn {r} (hr : FailsIn L r) : EndsIn (.numPair rd) L s (finishNPair rd r s) :=
  finishWith_endsIn (fun x _ => ⟨congrArg Option.isSome (readN_setN_setN_next s rd _ (some x.2)),
    isSome_readN_setN (s.setN rd (some x.1)) (rd + 1) x.2⟩) hr

theorem finishF_endsIn {r} (hr : FailsIn L r) : EndsIn (.ieee fd) L s (finishF fd r s) :=
  finishWith_endsIn (fun x _ => congrArg Option.isSome (s.readF_setF_same fd (some x))) hr

theorem finishCC_endsIn {r} (hr : FailsIn L r) : EndsIn .cond L s (finishCC r s) :=
  finishWith_endsIn (fun _ _ => rfl) hr

theorem finishInPlace_endsIn {r} (hr : FailsIn L r) : EndsIn .inPlace L s (finishInPlace is r s) :=
  finishWith_endsIn (fun _ _ => trivial) hr

theorem filled_putDecoded {x : Decoded} (hx : x.Legal) (rd : Fin 8) (s : State) :
    (Dest.decoded rd).Filled (putDecoded rd x s) := by
  cases x with
  | special tag =>
    exact ⟨rfl, fun h => absurd (Option.some.inj h) hx,
      fun _ => ⟨s.readN_setN_same rd none, rfl, rfl⟩⟩
  | number n base ex =>
    exact ⟨rfl, fun _ => ⟨isSome_readN_setN s rd n, rfl, rfl⟩, fun h => absurd rfl h⟩

theorem finishDecoded_endsIn {r} (hlegal : Delivers Decoded.Legal r) (hr : FailsIn L r) :
    EndsIn (.decoded rd) L s (finishDecoded rd r s) :=
  finishWith_endsIn (fun x hx => filled_putDecoded (hlegal x hx) rd s) hr

theorem shiftCommand_endsIn {k : ShiftKind} {first last : Fin 8} {p : BitVec 12} (hle : first ≤ last) :
    EndsIn .inPlace [.invalidInput, .differentBase, .invalidOperand, .invalidDigit] s
      (shiftCommand k first last p s) := by
  rw [shiftCommand, if_pos hle]
  exact finishInPlace_endsIn (shiftRegisters_failsIn _ _ _)

end Ends

/-! ### Every command -/

/-- Every well-formed command fills its destinations or fails with a code listed for it. -/
theorem exec_endsIn {i : Instr} {s : State} (hwf : wellFormed i = true) (hs : s.capacityInv) :
    EndsIn (destination i) (failureCodes i) s (exec i s) := by
  obtain ⟨hc, hn, -⟩ := hs
  cases i with
  | parseUns | parseSgn | parseSmr | parseOc | parseTc => exact finishN_endsIn (parseText_failsIn _)
  | stdz => exact finishN_endsIn (.bind (.held rfl) fun n => (std_failsIn n).mono rfl)
  | padw => exact finishN_endsIn (padWholeTo_failsIn _)
  | padf => exact finishN_endsIn (padFractionTo_failsIn _)
  | eqlen => exact finishInPlace_endsIn equalizeLength_failsIn
  | signm => exact finishCC_endsIn (.bind (.held rfl) fun _ => .ok _)
  | cvtkUns | cvtkSgn | cvtkSmr | cvtkOc | cvtkTc => exact finishNWarn_endsIn convertKind_failsIn
  | compl => exact finishN_endsIn complementNumeral_failsIn
  | absv => exact finishN_endsIn absoluteValue_failsIn_listed
  | todec => exact finishN_endsIn (toDecimal_failsIn _ _)
  | fromdec => exact finishN_endsIn (fromDecimal_failsIn _ _)
  | cvtb => exact finishN_endsIn convertBases_failsIn
  | cmpm => exact finishCC_endsIn compareMagnitude_failsIn
  | addn => exact finishN_endsIn addNumerals_failsIn
  | shl | shrl | shra => exact shiftCommand_endsIn (of_decide_eq_true hwf)
  | addlp => exact finishN_endsIn (addToLowestPoint_failsIn _)
  | mulu => exact finishN_endsIn multiplyUnsigned_failsIn
  | divs log rd rs1 => exact finishNPair_endsIn (divideSigned_failsIn_listed hc (hn rs1))
  | encB32 | encB64 => exact finishF_endsIn (encodeValue_failsIn_listed (packBinary_failsIn _))
  | encH32 => exact finishF_endsIn (encodeValue_failsIn_listed packHex_failsIn)
  | encD32dpd => exact finishF_endsIn (encodeValue_failsIn_of_decimal packDpd_failsIn (.inl rfl))
  | encD32bid => exact finishF_endsIn (encodeValue_failsIn_of_decimal packBid_failsIn (.inr rfl))
  | decB32 =>
    exact finishDecoded_endsIn (decodeBinary_legal (.inl rfl))
      ((decodeBinary_failsIn_listed rfl hc _).mono rfl)
  | decB64 =>
    exact finishDecoded_endsIn (decodeBinary_legal (.inr rfl))
      ((decodeBinary_failsIn_listed rfl hc _).mono rfl)
  | decH32 => exact finishDecoded_endsIn decodeHex_legal ((decodeHex_failsIn_listed hc _).mono rfl)
  | decD32dpd =>
    exact finishDecoded_endsIn (decodeDecimal_legal reconstructDpd_exponent_range)
      (decodeDecimal_failsIn _ _ _)
  | decD32bid =>
    exact finishDecoded_endsIn (decodeDecimal_legal reconstructBid_exponent_range)
      (decodeDecimal_failsIn _ _ _)
  | fparseB32 | fparseB64 | fparseD32dpd | fparseD32bid | fparseH32 =>
    exact finishF_endsIn (parseBits_failsIn _ _)
  | fadd | fsub | fmul | fdiv =>
    exact finishF_endsIn (.bind (floatOperands_failsIn _ _) fun _ => .ok _)

/-- Settles O10: what the end of the command says, read off for each form of its destination. -/
theorem everyCommandDeliversOrFailsAsListed : Obligations.EveryCommandDeliversOrFailsAsListed := by
  intro i s hwf hs
  obtain ⟨t, ht, hend⟩ := exec_endsIn hwf hs
  refine ⟨t, ht, ?_⟩
  generalize destination i = d at hend
  rcases hend with ⟨warn, hstatus, hfilled⟩ | ⟨c, hc, rfl⟩
  · refine .inl ⟨hstatus ▸ completedStatus_zero warn, ?_, ?_, ?_, ?_, ?_⟩
    · rintro rd rfl; exact hfilled
    · rintro rd rfl; exact hfilled
    · rintro rd rfl; exact hfilled
    · rintro rfl; exact hfilled
    · rintro rd rfl; exact hfilled
  · refine .inr ⟨c, hc, raiseFail_eq d c s, ?_, ?_, ?_, ?_, ?_, ?_⟩
    · rintro rd rfl; exact readN_raiseFail_num rd c s
    · rintro rd rfl; exact readN_raiseFail_numPair rd c s
    · rintro rd rfl; exact readF_raiseFail_ieee rd c s
    · rintro rfl; rfl
    · rintro rd rfl; exact ⟨s.readN_setN_same rd none, rfl, rfl, rfl⟩
    · rintro rfl; rfl

end Sys2Proof.Machine
end
